-- ==== Sys2Proof/Word.lean ====
section
/-! DEFINITION. The words the manual treats as bits: a byte on the wire and a 64-bit token reference. Every other quantity of the manual is a number it reckons with (00_scope.md 0.7.1: "Every quantity the engine reckons is an integer") and is a Nat or an Int. -/

namespace Sys2Proof

/-- One byte of a frame (R170). -/
abbrev Byte := BitVec 8

/-- A token reference, 64 bits (1.1). -/
abbrev Token := BitVec 64

end Sys2Proof
end

