-- ==== Sys2Proof/Syntax.lean ====
section
/-! DEFINITION. The commands of the block: one constructor for each row of spec/opcode_table.json, with the operands the row's event carries (log 10). -/

namespace Sys2Proof

/-- The two ports of the engine (0.2). -/
inductive Port where
  | line
  | office
  deriving DecidableEq, Repr

/-- One of the two requests the Management Unit may hold (R174), named by the order of taking. -/
inductive Held where
  | earlier
  | later
  deriving DecidableEq, Repr

/-- Where a tap whose answer deadline runs stands (R5): at a position of the Tap Queue, counted from its head, or with the Reckoner. -/
inductive TapPlace where
  | queued (position : Nat)
  | reckoner
  deriving DecidableEq, Repr

/-- The rows of the table of operations and events. The requests of the back office carry no operands here: their parameters stand in the request frame that OFFICE_FRAME_RECEIVED put into a request slot (log 5). -/
inductive Instr where
  /-- RSTN_LOW (R178). -/
  | rstnLow
  /-- PIN_RESET (R178): the levels of NA3 to NA0 as RSTN rises (R171). -/
  | pinReset (straps : BitVec 4)
  /-- LINE_FRAME_RECEIVED (R1): the bytes received, first byte first, the CRC's two bytes included. -/
  | lineFrameReceived (frame : List Byte)
  /-- OFFICE_FRAME_RECEIVED (R171). -/
  | officeFrameReceived (frame : List Byte)
  /-- IDENTIFY (R175). -/
  | identify
  /-- START (R175). -/
  | start
  /-- HALT (R175). -/
  | halt
  /-- RESTART (R176). -/
  | restart
  /-- RESTART_LATE_RECORD (R18). -/
  | restartLateRecord
  /-- DRAIN_STEP_SET_ASIDE (R83). -/
  | drainStepSetAside
  /-- DRAIN_STEP (R83). -/
  | drainStep
  /-- RESTART_COMPLETE (R176). -/
  | restartComplete
  /-- SET_RUN_SETTINGS (R177). -/
  | setRunSettings
  /-- TIME_MARK (R151). -/
  | timeMark
  /-- COUNTERS (R167). -/
  | counters
  /-- TABLE_WRITE (R134). -/
  | tableWrite
  /-- TABLE_READ (R135). -/
  | tableRead
  /-- COPY_ACTIVE (R136). -/
  | copyActive
  /-- COPY_COMPLETE (R136). -/
  | copyComplete
  /-- DISCARD (R137). -/
  | discard
  /-- ACTIVATE (R138). -/
  | activate
  /-- VALIDATION_COMPLETE (R139). -/
  | validationComplete
  /-- CANCEL (R140). -/
  | cancel
  /-- ACTIVATION_FIRING (R157). -/
  | activationFiring
  /-- SWAP (R141). -/
  | swap
  /-- DENY_ADD (R146). -/
  | denyAdd
  /-- DENY_REMOVE (R146). -/
  | denyRemove
  /-- DENY_CLEAR (R147). -/
  | denyClear
  /-- DENY_CHECK (R147). -/
  | denyCheck
  /-- JOURNEY_QUERY (R81). -/
  | journeyQuery
  /-- JOURNEY_CLOSE (R82). -/
  | journeyClose
  /-- ACCOUNT_QUERY (R100). -/
  | accountQuery
  /-- JOURNEY_OPERATION_SET_ASIDE (R163): which of the two held requests takes its entries. -/
  | journeyOperationSetAside (which : Held)
  /-- JOURNEY_QUERY_GRANT (R81). -/
  | journeyQueryGrant
  /-- JOURNEY_CLOSE_GRANT (R82). -/
  | journeyCloseGrant
  /-- ACCOUNT_QUERY_GRANT (R100). -/
  | accountQueryGrant
  /-- REPLY_PLACEMENT (R174): which of the two held requests has its reply placed. -/
  | replyPlacement (which : Held)
  /-- RECKONER_TAKE_TAP (R8). -/
  | reckonerTakeTap
  /-- RECKONER_GRANT (R60). -/
  | reckonerGrant
  /-- SWEEP_REQUEST (R120). -/
  | sweepRequest
  /-- SWEEP_GRANT (R121). -/
  | sweepGrant
  /-- ANSWER_DEADLINE_EXPIRY (R6): the tap whose deadline is taken. -/
  | answerDeadlineExpiry (tap : TapPlace)
  /-- RAW_TICK (R148). -/
  | rawTick
  /-- SLEW_COMPLETE (R152). -/
  | slewComplete
  /-- HOLDOVER_EXPIRY (R153). -/
  | holdoverExpiry
  /-- EVENT_FRAME_PLACEMENT (R165). -/
  | eventFramePlacement
  /-- LINE_TRANSMIT_COMPLETE (R15). -/
  | lineTransmitComplete
  /-- OFFICE_TRANSMIT_COMPLETE (R164). -/
  | officeTransmitComplete
  /-- OFFICE_READY_INDICATION (R164): a ready idle (true) or a not-ready idle (false). -/
  | officeReadyIndication (ready : Bool)
  /-- LINK_UP (R172). -/
  | linkUp (port : Port)
  /-- LINK_DOWN (R172): the port, and whether a frame was being received when the link was lost. -/
  | linkDown (port : Port) (midFrame : Bool)
  deriving DecidableEq, Repr

end Sys2Proof
end

