-- ==== Sys2Proof/Config.lean ====
section
/-! DEFINITION. What the manual fixes once for the part (sizes and limits), and the free values it leaves open (opaque: nothing can evaluate them). -/

namespace Sys2Proof.Config

/-- Greatest value of a 32-bit quantity: line seconds, counters, journey references (R68, R148, R166). -/
def max32 : Nat := 4294967295

/-- Greatest amount of money, 65,535 cents (0.7.2). -/
def maxCents : Nat := 65535

/-- Places of the Verdict Queue (R2). -/
def verdictPlaces : Nat := 128

/-- Entries of the Tap Queue (R4). -/
def tapQueueSize : Nat := 64

/-- Entries of the Forward Queue (R169). -/
def forwardQueueSize : Nat := 256

/-- Entries of the Office Queue (R162). -/
def officeQueueSize : Nat := 2048

/-- Ways of the Journey Table (R64). -/
def journeySlots : Nat := 16384

/-- Ways of the Day Account Table (R86). -/
def accountSlots : Nat := 32768

/-- Greatest length of the Deny List (R145). -/
def denyListSize : Nat := 8192

/-- Last moment of line time in ms: 4,294,967,295 s 999 ms (R148). -/
def lastLineMs : Nat := 4294967295999

/-- FREE VALUE (log 15). The spec says the holdover count "stops at its greatest value" (R153) and gives no figure; it must reach the greatest holdover setting, 86,400 s, so it is that many ms and this much more. -/
opaque holdoverHeadroom : Nat

/-- The greatest value of the holdover count (log 15). -/
def holdoverMax : Nat := 86400000 + holdoverHeadroom

/-- FREE VALUE (log 12). "A yes/no field is 00H for no and any other value for yes" (R173): which other value the engine sends is open. -/
opaque yesIndex : Fin 255

/-- The byte of a yes in frames the engine makes: any value but 00H (R173, log 12). -/
def yesByte : Byte := BitVec.ofNat 8 (yesIndex.val + 1)

/-- FREE VALUE (log 11). A byte of an event's four data bytes that R173 gives no content, by the use number and the byte's place. -/
opaque eventFiller : Nat → Nat → Byte

/-- The fields of R173 that have unassigned bits. -/
inductive SpareField where
  | verdictPresence
  | verdictFlags
  | recordPresence
  | recordFlags
  | journeyMarks
  | accountPresence
  deriving DecidableEq, Repr

/-- FREE VALUE (log 13). The bits of a field of R173 above those the manual assigns. -/
opaque spareBits : SpareField → Nat

/-- FREE VALUE (log 14). The refusal-reason byte of a reply that is no refusal: R173 codes only the reasons. -/
opaque noReasonByte : Byte

end Sys2Proof.Config
end

