-- ==== Sys2Proof/Machine/State.lean ====
section
/-! DEFINITION. The state of the engine, block by block as 0.3 divides it, and its values after pin reset. Plain data only: accessors and operations are in Ops.lean. -/

namespace Sys2Proof.Machine

/-! ### Taps (Chapter 1) -/

/-- A period pass as a tap carries it (1.1): stations 0 to 255 as received, last valid service day. -/
structure Pass where
  fromStation : Nat
  toStation : Nat
  lastDay : Nat
  deriving DecidableEq, Repr

/-- A tap as the engine keeps it (R1): the fields exactly as received, the frame's source node and its sequence number. -/
structure Tap where
  station : Nat
  gate : Nat
  direction : Nat
  deferred : Bool
  gateTime : Nat
  token : Token
  fareClass : Nat
  tapNumber : Nat
  pass : Option Pass
  source : Byte
  sequence : Byte
  deriving DecidableEq, Repr

/-- An entry of the Tap Queue (R4): the tap, its arrival time, its answer deadline as ms still to count (R5), and the answered-late mark (R6). -/
structure TapEntry where
  tap : Tap
  arrivalSec : Nat
  arrivalMs : Nat
  deadline : Nat
  answeredLate : Bool
  deriving DecidableEq, Repr

/-- The tap transaction of a Busy Reckoner (R7) once screening steps 1 to 3 have passed: the taken tap with its deadline and mark, the tap time and the mark "time clamped" (R11, R102). Its set-aside entries are counted in the Office Queue, its hold on the store in the arbiter. -/
structure TapTransaction where
  entry : TapEntry
  tapTime : Nat
  clamped : Bool
  deriving DecidableEq, Repr

/-- Reasons of verdicts and records (R173). -/
inductive Reason where
  | none
  | malformed
  | stationUnknown
  | classBarred
  | denyList
  | noTables
  | halted
  | stale
  | queueFull
  | late
  | restart
  deriving DecidableEq, Repr

/-- The six verdict kinds (1.6). -/
inductive VerdictKind where
  | go
  | goPending
  | refused
  | fallback
  | outOfService
  | recorded
  deriving DecidableEq, Repr

/-- What a handling answers the gate (R14), before it is addressed: kind, reason, charge, journey reference and flags. -/
structure Answer where
  kind : VerdictKind
  reason : Reason
  charge : Option Nat
  reference : Option Nat
  capReached : Bool
  continued : Bool
  timeClamped : Bool
  deriving DecidableEq, Repr

/-- A verdict frame (R14): addressed to the tap's source node under the tap frame's sequence number. -/
structure Verdict where
  destination : Byte
  sequence : Byte
  gate : Nat
  tapNumber : Nat
  answer : Answer
  deriving DecidableEq, Repr

/-- The Verdict Queue (R2): frames, oldest first, and the count of reserved places. -/
structure VerdictQueue where
  frames : List Verdict
  reserved : Nat
  deriving DecidableEq, Repr

/-! ### Ports (Chapter 11) -/

/-- Link state of a port (R172). -/
inductive LinkState where
  | down
  | up
  deriving DecidableEq, Repr

/-- Where the frame in transmission on the Line port stands: at the head of the Verdict Queue or of the Forward Queue, or in no queue since a RESTART emptied the Forward Queue (R15, R169, log 20). -/
inductive LineSource where
  | verdict
  | forward
  | dropped
  deriving DecidableEq, Repr

/-- A frame in transmission on the Line port (R15) and its bytes on the wire (R170). -/
structure LineSending where
  source : LineSource
  wire : List Byte
  deriving DecidableEq, Repr

/-- The Line Port (0.3). -/
structure LinePort where
  link : LinkState
  sending : Option LineSending
  deriving DecidableEq, Repr

/-- The Office Port (0.3): its link, the office's last ready indication (R164) and the wire bytes of the head frame while it is being sent. -/
structure OfficePort where
  link : LinkState
  ready : Bool
  sending : Option (List Byte)
  deriving DecidableEq, Repr

/-! ### Journeys and accounts (Chapters 4 and 5) -/

/-- Generation slots (R129); a journey's tag is one of them (R65). -/
inductive SlotId where
  | a
  | b
  deriving DecidableEq, Repr

/-- The continuation part of an open journey (R65). -/
structure Continuation where
  originStation : Nat
  originTime : Nat
  charged : Nat
  nilSoFar : Bool
  deriving DecidableEq, Repr

/-- An open journey record (R65). -/
structure Journey where
  token : Token
  reference : Nat
  fareClass : Nat
  entryStation : Nat
  entryTime : Nat
  pass : Option Pass
  tag : SlotId
  continuation : Option Continuation
  deferred : Bool
  admissionTime : Nat
  deadline : Nat
  entryClamped : Bool
  deriving DecidableEq, Repr

/-- A held way of the Journey Table: its slot number (R64) and its journey. -/
structure JourneyWay where
  slot : Nat
  journey : Journey
  deriving DecidableEq, Repr

/-- The last exit of an account (R85). -/
structure LastExit where
  station : Nat
  exitTime : Nat
  originStation : Nat
  originTime : Nat
  chargedSoFar : Nat
  nilSoFar : Bool
  shownCharge : Nat
  reference : Nat
  deriving DecidableEq, Repr

/-- The last incomplete of an account (R85). -/
structure LastIncomplete where
  entryStation : Nat
  entryTime : Nat
  fareClass : Nat
  charge : Nat
  reference : Nat
  deriving DecidableEq, Repr

/-- The last unmatched of an account (R85). -/
structure LastUnmatched where
  station : Nat
  exitTime : Nat
  fareClass : Nat
  reference : Nat
  deriving DecidableEq, Repr

/-- A Day Account record (R85). -/
structure Account where
  token : Token
  day : Nat
  spent : Nat
  legs : Nat
  lastExit : Option LastExit
  lastIncomplete : Option LastIncomplete
  lastUnmatched : Option LastUnmatched
  deriving DecidableEq, Repr

/-- A held way of the Day Account Table: its slot number (R86) and its record. -/
structure AccountWay where
  slot : Nat
  account : Account
  deriving DecidableEq, Repr

/-- The requesters of the Journey Store (R60). -/
inductive Requester where
  | reckoner
  | sweep
  | management
  deriving DecidableEq, Repr

/-- The arbiter of the Journey Store (R61): the holder, the waiting requests and the two wait counts. -/
structure Arbiter where
  holder : Option Requester
  reckonerWaiting : Bool
  managementWaiting : Bool
  sweepWaiting : Bool
  managementWait : Nat
  sweepWait : Nat
  deriving DecidableEq, Repr

/-- The kinds of visit of the Housekeeping Sweep (R121). -/
inductive Visit where
  | cursor
  | spill
  | account
  deriving DecidableEq, Repr

/-- What the rules read at a grant of the store, kept for the granted work, whose command comes later (log 8): line seconds (R65, R122), the current service day (R156), whether the token of the Reckoner's tap stood on the Deny List (R12, R79), and the kind of visit the Sweep would make (R121). -/
structure GrantReading where
  sec : Nat
  serviceDay : Nat
  denied : Bool
  visit : Visit
  deriving DecidableEq, Repr

/-- The Journey Store (0.3). `journeys` is the Journey Table and the admission list in one: the held ways, in order of admission, oldest first (R64, R67, log 27). `accounts` lists the held ways of the Day Account Table in ascending slot order (R86). `grant` is the model's own: what was read at the latest grant. -/
structure JourneyStore where
  journeys : List JourneyWay
  accounts : List AccountWay
  accountFullDay : Option Nat
  nextReference : Nat
  arbiter : Arbiter
  grant : GrantReading
  deriving DecidableEq, Repr

/-- Whose turn the next Sweep grant is during a purge pass (R119). -/
inductive Turn where
  | account
  | journey
  deriving DecidableEq, Repr

/-- The Housekeeping Sweep (R119). Its request stands in the arbiter (log 28). `resetAtRelease` is set by a RESTART taken while the Sweep holds the store (R128). -/
structure Sweep where
  journeyCursor : Nat
  accountCursor : Nat
  spillMode : Bool
  purgePending : Bool
  turn : Turn
  resetAtRelease : Bool
  deriving DecidableEq, Repr

/-! ### Records (Chapter 10) -/

/-- The ten record kinds (R160). -/
inductive RecordKind where
  | entry
  | refused
  | completed
  | cancelled
  | incomplete
  | spill
  | unmatched
  | correction
  | repair
  | unpriced
  deriving DecidableEq, Repr

/-- The fourteen record flags, in the order of R161. -/
structure RecordFlags where
  overstay : Bool := false
  continued : Bool := false
  continuationNotApplied : Bool := false
  capReached : Bool := false
  capUntracked : Bool := false
  forced : Bool := false
  answeredLate : Bool := false
  timeClamped : Bool := false
  deferred : Bool := false
  nilJourney : Bool := false
  passIgnored : Bool := false
  denyListed : Bool := false
  clockFreeRunning : Bool := false
  confirmed : Bool := false
  deriving DecidableEq, Repr

/-- A share of a charge (R57). -/
structure Share where
  operator : Nat
  amount : Nat
  deriving DecidableEq, Repr

/-- A station and a time, in line seconds. -/
structure StationTime where
  station : Nat
  time : Nat
  deriving DecidableEq, Repr

/-- The priced fields of a record (R159): chargeable distance, charge and shares list. -/
structure Priced where
  distance : Nat
  charge : Nat
  shares : List Share
  deriving DecidableEq, Repr

/-- A record's "tap as received" (R159). -/
structure TapReceived where
  station : Nat
  gate : Nat
  direction : Nat
  gateTime : Nat
  tapNumber : Nat
  deriving DecidableEq, Repr

/-- A record (R159). An absent field is none. -/
structure Record where
  kind : RecordKind
  madeSec : Nat
  madeMs : Nat
  reference : Option Nat
  token : Token
  fareClass : Nat
  label : Option Nat
  reason : Reason
  entry : Option StationTime
  exit : Option StationTime
  priced : Option Priced
  originalCharge : Option Nat
  related : Option Nat
  origin : Option StationTime
  openJourney : Option Journey
  tap : Option TapReceived
  flags : RecordFlags
  deriving DecidableEq, Repr

/-- The nine event kinds, in the order of R165. -/
inductive EventKind where
  | generationActive
  | generationFreed
  | clockStepped
  | clockLocked
  | clockFreeRunning
  | pressureOn
  | pressureOff
  | dayRollover
  | accountFull
  deriving DecidableEq, Repr

/-- The data of an event (R165). -/
inductive EventData where
  | nothing
  | generation (slot : SlotId) (label : Nat)
  | error (e : Int)
  | occupancy (n : Nat)
  | day (d : Nat)
  deriving DecidableEq, Repr

/-- A pending event (R165): kind, occurrence count, and the data and line time of the latest occurrence. -/
structure PendingEvent where
  kind : EventKind
  count : Nat
  data : EventData
  sec : Nat
  ms : Nat
  deriving DecidableEq, Repr

/-! ### Fare tables (Chapters 2, 3 and 8) -/

/-- Station table entry (R20). -/
structure StationEntry where
  present : Bool
  branch : Nat
  chainage : Nat
  deriving DecidableEq, Repr

/-- Branch table entry (R21). -/
structure BranchEntry where
  present : Bool
  junction : Option Nat
  owner : Nat
  deriving DecidableEq, Repr

/-- Fare scale entry (R38). -/
structure ScaleEntry where
  bound : Nat
  fare : Nat
  deriving DecidableEq, Repr

/-- Class table entry (R130). -/
structure ClassEntry where
  permitted : Bool
  factor : Nat
  cap : Nat
  minimumApplies : Bool
  deriving DecidableEq, Repr

/-- Exception list entry (R131). -/
structure ExceptionEntry where
  used : Bool
  day : Nat
  dayType : Nat
  deriving DecidableEq, Repr

/-- Change point of a band list (R132). -/
structure BandEntry where
  used : Bool
  minute : Nat
  factor : Nat
  deriving DecidableEq, Repr

/-- Policy record (R133). -/
structure Policy where
  label : Nat
  maxJourney : Nat
  grace : Nat
  sameStationCharge : Nat
  continuationWindow : Nat
  duplicateWindow : Nat
  fareStep : Nat
  minimumFare : Nat
  deriving DecidableEq, Repr

/-- The eight tables of a slot (R129). -/
structure Tables where
  stations : List StationEntry
  branches : List BranchEntry
  scale : List ScaleEntry
  classes : List ClassEntry
  week : List Nat
  exceptions : List ExceptionEntry
  bands : List BandEntry
  policy : Option Policy
  deriving DecidableEq, Repr

/-- Emptied tables (R20, R21, R38, R130 to R133). -/
def Tables.emptied : Tables where
  stations := List.replicate 64 ⟨false, 0, 0⟩
  branches := List.replicate 4 ⟨false, none, 0⟩
  scale := List.replicate 32 ⟨0, 0⟩
  classes := List.replicate 8 ⟨false, 0, 0, false⟩
  week := List.replicate 7 0
  exceptions := List.replicate 32 ⟨false, 0, 0⟩
  bands := List.replicate 32 ⟨false, 0, 0⟩
  policy := none

/-- States of a generation slot (R129). -/
inductive SlotState where
  | free
  | staging
  | copying
  | validating
  | pending
  | active
  | retiring
  deriving DecidableEq, Repr

/-- A generation slot (R129). A slot that holds no tables (Free, or Copying before its copy completes) keeps them emptied; its label is its Policy record's (log 28). -/
structure Slot where
  state : SlotState
  tables : Tables
  refCount : Nat
  effective : Option Nat
  deriving DecidableEq, Repr

/-- A Free slot (R129). -/
def Slot.freed : Slot where
  state := .free
  tables := Tables.emptied
  refCount := 0
  effective := none

/-- The Table Store (0.3): the two slots, the slot whose swap is due (R141), and the Deny List (R145). -/
structure TableStore where
  slotA : Slot
  slotB : Slot
  swapDue : Option SlotId
  denyList : List Token
  deriving DecidableEq, Repr

/-! ### Line Clock (Chapter 9) -/

/-- Clock states (R150). -/
inductive ClockState where
  | unset
  | locked
  | slewing
  | freeRunning
  deriving DecidableEq, Repr

/-- A running rate measurement (R148, R154): the office time of its reference mark, the office elapsed count of the latest slewed mark (0 at the reference mark) and the local elapsed count, all in ms. -/
structure RateMeasurement where
  reference : Nat
  officeElapsed : Nat
  localElapsed : Nat
  deriving DecidableEq, Repr

/-- The Line Clock (R148). `slewDue` says that a second boundary has asked the next raw tick to work the slew, or that the slew's hold is carried (R148, R152, log 21). -/
structure LineClock where
  sec : Nat
  ms : Nat
  state : ClockState
  slew : Int
  slewDue : Bool
  trim : Int
  accumulator : Int
  rate : Option RateMeasurement
  holdover : Nat
  serviceDay : Nat
  deriving DecidableEq, Repr

/-! ### Management Unit (Chapters 10 and 11) -/

/-- Service state (R16). -/
inductive ServiceState where
  | halted
  | running
  deriving DecidableEq, Repr

/-- The ten run settings, in the order of R177. -/
structure RunSettings where
  highMark : Nat
  lowMark : Nat
  answerLimit : Nat
  skewLimit : Nat
  deferralAge : Nat
  deferredGrace : Nat
  holdover : Nat
  stepThreshold : Nat
  measurementSpan : Nat
  rolloverMinute : Nat
  deriving DecidableEq, Repr

/-- The counters, in the order of R166. -/
structure Counters where
  tapsAccepted : Nat := 0
  tapsNotAccepted : Nat := 0
  fallbacksFull : Nat := 0
  fallbacksLate : Nat := 0
  entries : Nat := 0
  refused : Nat := 0
  completed : Nat := 0
  cancelled : Nat := 0
  incomplete : Nat := 0
  spills : Nat := 0
  unmatched : Nat := 0
  corrections : Nat := 0
  repairs : Nat := 0
  unpriced : Nat := 0
  droppedLineToOffice : Nat := 0
  droppedOfficeToLine : Nat := 0
  crcErrorsLine : Nat := 0
  crcErrorsOffice : Nat := 0
  requestsDiscarded : Nat := 0
  deriving DecidableEq, Repr

/-- A request with its parameters as its body carried them (R173). -/
inductive Request where
  /-- A frame answered Malformed (R174). -/
  | malformed
  | identify
  | start
  | halt
  | restart
  | setRunSettings (values : RunSettings)
  | timeMark (sec ms : Nat)
  | counters (clear : Bool)
  | tableWrite (slot : SlotId) (table first count : Nat) (entries : List Byte)
  | tableRead (slot : SlotId) (table first count : Nat)
  | copyActive (slot : SlotId)
  | discard (slot : SlotId)
  | activate (slot : SlotId) (effective : Option Nat)
  | cancel (slot : SlotId)
  | denyAdd (token : Token)
  | denyRemove (token : Token)
  | denyClear
  | denyCheck (token : Token)
  | journeyQuery (token : Token)
  | journeyClose (token : Token) (exitStation exitTime : Option Nat)
  | accountQuery (token : Token) (day : Option Nat)
  deriving DecidableEq, Repr

/-- Reply statuses (R173). -/
inductive ReplyStatus where
  | done
  | busy
  | refused
  | malformed
  | aborted
  deriving DecidableEq, Repr

/-- Refusal reasons of replies, in the order of R173; none for a reply that is no refusal. -/
inductive ReplyReason where
  | none
  | notFound
  | stationUnknown
  | timeBeforeEntry
  | otherSlotLoading
  | operationInFlight
  | pending
  | active
  | generationBusy
  | outOfRange
  | slotFree
  | noActive
  | validation
  | clockUnset
  | notPending
  | alreadyPresent
  | listFull
  | restartInProgress
  deriving DecidableEq, Repr

/-- What IDENTIFY reports of a slot (R175): label and effective time are 0 when absent. -/
structure SlotReport where
  state : SlotState
  label : Nat
  refCount : Nat
  effective : Nat
  deriving DecidableEq, Repr

/-- What IDENTIFY reports (R175). -/
structure Identity where
  nodeAddress : Byte
  service : ServiceState
  drain : Bool
  clock : ClockState
  sec : Nat
  ms : Nat
  serviceDay : Nat
  occupancy : Nat
  spillMode : Bool
  slotA : SlotReport
  slotB : SlotReport
  deriving DecidableEq, Repr

/-- The result of a reply (R173). -/
inductive ReplyResult where
  | nothing
  | identity (i : Identity)
  | restart (spilled fallbacks : Nat)
  | settings (values : RunSettings)
  | timeMark (stepped : Bool) (e : Int) (state : ClockState) (trim : Int)
  | counters (values : Counters)
  | written (table first count : Nat)
  | entries (table first count : Nat) (bytes : List Byte)
  | activated (swapped : Bool)
  | length (n : Nat)
  | denyCheck (present : Bool) (length : Nat)
  | journey (found : Option (JourneyWay × Nat))
  | closed (kind : RecordKind) (reference charge : Nat)
  | accounts (found : List AccountWay)
  | validation (check table index : Nat)
  | outOfRange (index : Nat)
  deriving DecidableEq, Repr

/-- A reply before it is addressed (R173). -/
structure Reply where
  status : ReplyStatus
  reason : ReplyReason
  result : ReplyResult
  deriving DecidableEq, Repr

/-- How far a held request has come (R174): taken and not yet carried out; a journey operation waiting for its Office Queue entries; one that has set them aside; one whose request for the store is at the arbiter or granted; an operation that takes time (COPY ACTIVE, ACTIVATE, RESTART); or a reply that waits for room. -/
inductive Phase where
  | taken
  | waitingEntries
  | ready
  | presented
  | underway
  | replyDue (reply : Reply)
  deriving DecidableEq, Repr

/-- A request in a request slot (R174): the frame's sequence, the request number and code, the request and its phase. -/
structure HeldRequest where
  sequence : Byte
  number : Nat
  code : Nat
  request : Request
  phase : Phase
  deriving DecidableEq, Repr

/-- The drain of a RESTART (R83) and the counts its reply carries (R176). `presented` says that a drain step has set aside its entry and requested the store. -/
structure Drain where
  inProgress : Bool
  presented : Bool
  spilled : Nat
  fallbacks : Nat
  deriving DecidableEq, Repr

/-- The Management Unit (0.3). `requests` are the two request slots: the held requests, at most two, in the order taken (log 6). `restartLate` are the answered-late taps waiting for their "restart" records (R18). -/
structure Management where
  service : ServiceState
  requests : List HeldRequest
  settings : RunSettings
  counters : Counters
  events : List PendingEvent
  drain : Drain
  restartLate : List Tap
  deriving DecidableEq, Repr

/-- A frame in the Office Queue. `event`'s last part numbers the use of the free value that fills its unused data bytes (log 11). -/
inductive OfficeFrame where
  | record (sequence : Nat) (record : Record)
  | event (sequence : Nat) (event : PendingEvent) (filler : Nat)
  | reply (sequence : Byte) (number code : Nat) (reply : Reply)
  | forwarded (frame : List Byte)
  deriving DecidableEq, Repr

/-- The Office Queue (R162) and the office sequence count (R171). -/
structure OfficeQueue where
  frames : List OfficeFrame
  setAside : Nat
  sequence : Nat
  deriving DecidableEq, Repr

/-! ### Outcomes, the whole state, reset -/

/-- The engine has no fault: no rule of the manual stops it. Nothing raises one. -/
inductive Fault : Type
  deriving DecidableEq, Repr

/-- Refusals. -/
inductive Refusal where
  /-- Raised by an arm of `exec` whose command has no meaning yet; safe. No arm raises it. -/
  | notModelled (mnemonic : String)
  deriving DecidableEq, Repr

/-- The state of the engine. `freeIndex` is the model's own (log 11): the counter free values are applied to. `pending` is the queue of commands, first in first out. -/
structure State where
  rstnLow : Bool
  nodeAddress : Byte
  linePort : LinePort
  officePort : OfficePort
  tapQueue : List TapEntry
  verdictQueue : VerdictQueue
  forwardQueue : List (List Byte)
  officeQueue : OfficeQueue
  reckoner : Option TapTransaction
  store : JourneyStore
  sweep : Sweep
  tables : TableStore
  clock : LineClock
  mgmt : Management
  freeIndex : Nat
  pending : List Instr
  deriving DecidableEq, Repr

/-- Run settings after pin reset (R177). -/
def RunSettings.reset : RunSettings where
  highMark := 15360
  lowMark := 14336
  answerLimit := 500
  skewLimit := 120
  deferralAge := 48
  deferredGrace := 10
  holdover := 3600
  stepThreshold := 2000
  measurementSpan := 3600
  rolloverMinute := 180

/-- The arbiter after pin reset (R61). -/
def Arbiter.reset : Arbiter where
  holder := none
  reckonerWaiting := false
  managementWaiting := false
  sweepWaiting := false
  managementWait := 0
  sweepWait := 0

/-- The Sweep after pin reset (R119). -/
def Sweep.reset : Sweep where
  journeyCursor := 0
  accountCursor := 0
  spillMode := false
  purgePending := false
  turn := .journey
  resetAtRelease := false

/-- No grant has been read yet (DESIGN CHOICE, log 8); the first grant overwrites it. -/
def GrantReading.reset : GrantReading where
  sec := 0
  serviceDay := 0
  denied := false
  visit := .cursor

/-- The Journey Store after pin reset (R84, R101). -/
def JourneyStore.reset : JourneyStore where
  journeys := []
  accounts := []
  accountFullDay := none
  nextReference := 1
  arbiter := Arbiter.reset
  grant := GrantReading.reset

/-- The Table Store after pin reset (R129, R145). -/
def TableStore.reset : TableStore where
  slotA := Slot.freed
  slotB := Slot.freed
  swapDue := none
  denyList := []

/-- The Line Clock after pin reset (R148). -/
def LineClock.reset : LineClock where
  sec := 0
  ms := 0
  state := .unset
  slew := 0
  slewDue := false
  trim := 0
  accumulator := 0
  rate := none
  holdover := 0
  serviceDay := 0

/-- The Management Unit after pin reset (R16, R165, R166, R174, R177). -/
def Management.reset : Management where
  service := .halted
  requests := []
  settings := RunSettings.reset
  counters := {}
  events := []
  drain := ⟨false, false, 0, 0⟩
  restartLate := []

/-- The engine right after pin reset (R178 and each block's reset rule). The node straps are read as 0 (DESIGN CHOICE, log 9); PIN_RESET samples any other. -/
def State.reset : State where
  rstnLow := false
  nodeAddress := 0xC0#8
  linePort := ⟨.down, none⟩
  officePort := ⟨.down, false, none⟩
  tapQueue := []
  verdictQueue := ⟨[], 0⟩
  forwardQueue := []
  officeQueue := ⟨[], 0, 0⟩
  reckoner := none
  store := JourneyStore.reset
  sweep := Sweep.reset
  tables := TableStore.reset
  clock := LineClock.reset
  mgmt := Management.reset
  freeIndex := 0
  pending := []

end Sys2Proof.Machine
end

