-- ==== Sys2Proof/Machine/Calendar.lean ====
section
/-! DEFINITION. The service day, the day type and the time factor (9.4, 9.6), and the lookups into a generation's tables. -/

namespace Sys2Proof.Machine

/-- Service day of a time in line seconds under a rollover minute (R155). -/
def serviceDay (rollover sec : Nat) : Nat :=
  if rollover * 60 ≤ sec then (sec - rollover * 60) / 86400 else 0

/-- Minute of service day (R155). -/
def serviceMinute (rollover sec : Nat) : Nat :=
  if rollover * 60 ≤ sec then (sec - rollover * 60) % 86400 / 60
  else (sec + 86400 - rollover * 60) / 60

/-- Day of the week of a service day, 0 Monday to 6 Sunday (R155). -/
def dayOfWeek (day : Nat) : Nat := day % 7

/-- Day type of a service day (R158): the used exception's, else the Week table's. -/
def dayType (t : Tables) (day : Nat) : Nat :=
  match t.exceptions.find? (fun e => e.used && e.day == day) with
  | some e => e.dayType
  | none => t.week.getD (dayOfWeek day) 0

/-- The band list of a day type, indexes k × 8 to k × 8 + 7 (R132). -/
def bandList (t : Tables) (k : Nat) : List BandEntry :=
  (t.bands.drop (k * 8)).take 8

/-- The factor of the last used change point at or below the minute (R158); validation guarantees one (log 29). -/
def bandFactor (bands : List BandEntry) (minute : Nat) : Nat :=
  ((bands.filter (fun e => e.used && e.minute ≤ minute)).getLast?.map BandEntry.factor).getD 0

/-- Time factor t of a time in line seconds (R41, R158). -/
def timeFactor (t : Tables) (rollover sec : Nat) : Nat :=
  bandFactor (bandList t (dayType t (serviceDay rollover sec))) (serviceMinute rollover sec)

/-- The Station table's entry for a code when the station is present (R20). -/
def presentStation (t : Tables) (code : Nat) : Option StationEntry :=
  (t.stations[code]?).filter StationEntry.present

/-- A station is present in a generation (R20). -/
def stationPresent (t : Tables) (code : Nat) : Bool :=
  (presentStation t code).isSome

/-- Branch entry of a branch number (R21). -/
def branchEntry (t : Tables) (branch : Nat) : BranchEntry :=
  t.branches.getD branch ⟨false, none, 0⟩

/-- Class entry of a fare class (R130). -/
def classEntry (t : Tables) (c : Nat) : ClassEntry :=
  t.classes.getD c ⟨false, 0, 0, false⟩

/-- What the Policy record reads as where it is absent; no slot that prices work lacks one (R139 check 6, log 29). -/
def Policy.blank : Policy := ⟨0, 0, 0, 0, 0, 0, 1, 0⟩

/-- The Policy record of a generation that prices work. -/
def Tables.policyOf (t : Tables) : Policy := t.policy.getD Policy.blank

/-- Maximum journey time in seconds (R45). -/
def Policy.maxSeconds (p : Policy) : Nat := p.maxJourney * 60

/-- Same-station grace in seconds (R45). -/
def Policy.graceSeconds (p : Policy) : Nat := p.grace * 60

/-- Continuation window in seconds (R74). -/
def Policy.windowSeconds (p : Policy) : Nat := p.continuationWindow * 60

end Sys2Proof.Machine
end

