-- ==== Sys2Proof/Machine/Path.lean ====
section
/-! DEFINITION. The Path Unit (Chapter 2): paths, passes, chargeable lengths and the on-path test. -/

namespace Sys2Proof.Machine

/-- One stretch of a path (2.2). -/
structure Interval where
  branch : Nat
  low : Nat
  high : Nat
  deriving DecidableEq, Repr

/-- Length of an interval (R27). -/
def Interval.length (i : Interval) : Nat := i.high - i.low

/-- Junction position J(x): the trunk chainage of the branch's junction station (R23). A present branch 1 to 3 has one (R22, log 29). -/
def junctionPosition (t : Tables) (branch : Nat) : Nat :=
  (((branchEntry t branch).junction.bind (fun j => t.stations[j]?)).map StationEntry.chainage).getD 0

/-- Trunk position p of a station (R23). -/
def trunkPosition (t : Tables) (s : StationEntry) : Nat :=
  if s.branch = 0 then s.chainage else junctionPosition t s.branch

/-- The interval of a station's own branch from the junction to it; none for a trunk station (R26). -/
def branchLeg (s : StationEntry) : List Interval :=
  if s.branch = 0 then [] else [⟨s.branch, 0, s.chainage⟩]

/-- The path between two present stations, in ascending branch order (R25, R26). -/
def buildPath (t : Tables) (a b : StationEntry) : List Interval :=
  if a.branch = b.branch then
    [⟨a.branch, min a.chainage b.chainage, max a.chainage b.chainage⟩]
  else
    let pa := trunkPosition t a
    let pb := trunkPosition t b
    let legs := if a.branch ≤ b.branch then branchLeg a ++ branchLeg b else branchLeg b ++ branchLeg a
    ⟨0, min pa pb, max pa pb⟩ :: legs

/-- What the result "station absent" names (R24). -/
inductive StationAbsent where
  | start
  | finish
  | both
  deriving DecidableEq, Repr

/-- The path between two station codes, or the result "station absent", naming the start, the end, or both (R24). -/
def pathBetween (t : Tables) (a b : Nat) : Except StationAbsent (List Interval) :=
  match presentStation t a, presentStation t b with
  | some sa, some sb => .ok (buildPath t sa sb)
  | none, some _ => .error .start
  | some _, none => .error .finish
  | none, none => .error .both

/-- Distance of a path (R27). -/
def pathDistance (path : List Interval) : Nat :=
  (path.map Interval.length).sum

/-- dist(A, B) (R27). -/
def dist (t : Tables) (a b : Nat) : Option Nat :=
  (pathBetween t a b).toOption.map pathDistance

/-- A pass is valid for a pricing of the given entry day (R29). -/
def passValid (t : Tables) (entryDay : Nat) (p : Pass) : Bool :=
  stationPresent t p.fromStation && stationPresent t p.toStation && entryDay ≤ p.lastDay

/-- Covered length of an interval by a pass path (R30). -/
def coveredLength (i : Interval) (passPath : List Interval) : Nat :=
  match passPath.find? (fun k => k.branch == i.branch) with
  | some k => min i.high k.high - max i.low k.low
  | none => 0

/-- A branch entry of a path reckoning (R32). -/
structure BranchReckoning where
  interval : Interval
  covered : Nat
  chargeable : Nat
  owner : Nat
  deriving DecidableEq, Repr

/-- Pass outcomes (R32). -/
inductive PassOutcome where
  | none
  | applied
  | ignored
  deriving DecidableEq, Repr

/-- A path reckoning (R32). -/
structure PathReckoning where
  branches : List BranchReckoning
  raw : Nat
  chargeable : Nat
  startOwner : Nat
  pass : PassOutcome
  deriving DecidableEq, Repr

/-- Owner operator of the branch a station stands on (R32). -/
def stationOwner (t : Tables) (code : Nat) : Nat :=
  (branchEntry t ((t.stations.getD code ⟨false, 0, 0⟩).branch)).owner

/-- The pass path that covers track: of a valid pass, its path; else nothing (R29, R30). -/
def passPath (t : Tables) (entryDay : Nat) : Option Pass → List Interval
  | some p =>
    if passValid t entryDay p then (pathBetween t p.fromStation p.toStation).toOption.getD [] else []
  | none => []

/-- What the Path Unit reports of the pass (R29, R32). -/
def passOutcome (t : Tables) (entryDay : Nat) : Option Pass → PassOutcome
  | some p => if passValid t entryDay p then .applied else .ignored
  | none => .none

/-- A branch entry of the reckoning: length, covered length, chargeable length d_x and owner (R30 to R32). -/
def branchReckoning (t : Tables) (cover : List Interval) (i : Interval) : BranchReckoning where
  interval := i
  covered := coveredLength i cover
  chargeable := i.length - coveredLength i cover
  owner := (branchEntry t i.branch).owner

/-- A reckoning of chargeable distance from a start to an end station, with a pass judged on the given entry day (R24 to R32), or "station absent". -/
def reckonPath (t : Tables) (start finish : Nat) (pass : Option Pass) (entryDay : Nat) :
    Except StationAbsent PathReckoning :=
  (pathBetween t start finish).map fun path =>
    let branches := path.map (branchReckoning t (passPath t entryDay pass))
    { branches := branches
      raw := pathDistance path
      chargeable := (branches.map BranchReckoning.chargeable).sum
      startOwner := stationOwner t start
      pass := passOutcome t entryDay pass }

/-- The on-path test: does X lie on the path from O to E (R33). -/
def onPath (t : Tables) (o x e : Nat) : Bool :=
  match dist t o x, dist t x e, dist t o e with
  | some ox, some xe, some oe => ox + xe == oe
  | _, _, _ => false

end Sys2Proof.Machine
end

