-- ==== Sys2Proof/Machine/Fare.lean ====
section
/-! DEFINITION. The Fare Unit (Chapter 3): the eight stages, the same-station charge and the incomplete charge. -/

namespace Sys2Proof.Machine

/-- A sentinel of the scale (R38). -/
def ScaleEntry.isSentinel (e : ScaleEntry) : Bool := e.bound == 65535

/-- Stage 1, the band: the scale fare B for a chargeable distance (R40). -/
def scaleFare (t : Tables) (d : Nat) : Nat :=
  if d = 0 then 0
  else ((t.scale.find? (fun e => e.isSentinel || d ≤ e.bound)).map ScaleEntry.fare).getD 0

/-- The top fare: the sentinel's (R40). -/
def topFare (t : Tables) : Nat :=
  ((t.scale.find? ScaleEntry.isSentinel).map ScaleEntry.fare).getD 0

/-- Stage 4's rounding of a product in millionths of a cent to the fare step, halves up (R43). -/
def roundToStep (step product : Nat) : Nat :=
  step * ((product + step * 500000) / (step * 1000000))

/-- Stages 4 and 5: the factored, rounded fare raised to the minimum and held at 65,535 (R43, R44). -/
def factoredFare (t : Tables) (band time : Nat) (c : ClassEntry) (d : Nat) : Nat :=
  let f1 := roundToStep t.policyOf.fareStep (band * time * c.factor)
  let f2 := if 0 < d ∧ 0 < c.factor ∧ c.minimumApplies then max f1 t.policyOf.minimumFare else f1
  min f2 Config.maxCents

/-- Stage 7's outcome (R52 to R54). -/
structure Capped where
  charge : Nat
  spentAfter : Option Nat
  capReached : Bool
  capUntracked : Bool
  deriving DecidableEq, Repr

/-- Stage 7, capping, against a tracked account's spent amount or an untracked one (R52, R53, R54). -/
def capCharge (cap : Nat) (fare : Nat) : Option Nat → Capped
  | none => ⟨fare, none, false, true⟩
  | some spent =>
      if cap = 0 then ⟨fare, some (min (spent + fare) Config.maxCents), false, false⟩
      else
        let c := min fare (cap - spent)
        ⟨c, some (spent + c), cap ≤ spent + c, false⟩

/-! ### Stage 8, apportionment (R55 to R57) -/

/-- Weight of an operator: the chargeable lengths on its branches (R55). -/
def operatorWeight (branches : List BranchReckoning) (k : Nat) : Nat :=
  ((branches.filter (fun b => b.owner == k)).map BranchReckoning.chargeable).sum

/-- An operator's part in the dealing: number, weight, floor share and remainder (R56). -/
structure Portion where
  operator : Nat
  floor : Nat
  remainder : Nat
  deriving DecidableEq, Repr

/-- The operators of weight above 0, ascending, with floor share and remainder (R56, step 1). -/
def portions (branches : List BranchReckoning) (charge d : Nat) : List Portion :=
  ([0, 1, 2, 3].filter (fun k => 0 < operatorWeight branches k)).map fun k =>
    let w := operatorWeight branches k
    ⟨k, charge * w / d, charge * w % d⟩

/-- How many operators rank before one: greater remainder, or an equal one and a lower number (R56, step 3). -/
def rank (ps : List Portion) (p : Portion) : Nat :=
  (ps.filter (fun q => p.remainder < q.remainder
    || (q.remainder == p.remainder && q.operator < p.operator))).length

/-- The shares list of a charge (R55 to R57). -/
def dealShares (branches : List BranchReckoning) (d startOwner charge : Nat) : List Share :=
  if charge = 0 ∨ d = 0 then [⟨startOwner, charge⟩]
  else
    let ps := portions branches charge d
    let undealt := charge - (ps.map Portion.floor).sum
    ps.map fun p => ⟨p.operator, if rank ps p < undealt then p.floor + 1 else p.floor⟩

/-! ### Pricings (R37) -/

/-- A pricing result (R37, R58). -/
structure Pricing where
  charge : Nat
  distance : Nat
  shares : List Share
  spentAfter : Option Nat
  origin : Option StationTime
  chargedSoFar : Option Nat
  passIgnored : Bool
  continued : Bool
  continuationNotApplied : Bool
  capReached : Bool
  capUntracked : Bool
  deriving DecidableEq, Repr

/-- The tables and the rollover minute a pricing reads (R36, R155). -/
structure FareContext where
  tables : Tables
  rollover : Nat
  deriving DecidableEq, Repr

/-- Stages 1 to 5: the fare F2 of a chargeable distance at a time for a class (R40 to R44). -/
def fareFor (g : FareContext) (fareClass time d : Nat) : Nat :=
  factoredFare g.tables (scaleFare g.tables d) (timeFactor g.tables g.rollover time)
    (classEntry g.tables fareClass) d

/-- The continuation part that is applied to an exit (R49): present, with the break station on the path from origin to exit. -/
def appliedContinuation (t : Tables) (entryStation exitStation : Nat) :
    Option Continuation → Option Continuation
  | some c => if onPath t c.originStation entryStation exitStation then some c else none
  | none => none

/-- A full pricing, stages 1 to 8 (R37, R49 to R51); none where the Path Unit returns "station absent". `account` is the spent amount of a tracked account. -/
def fullPricing (g : FareContext) (fareClass entryStation entryTime exitStation : Nat)
    (pass : Option Pass) (continuation : Option Continuation) (account : Option Nat) :
    Option Pricing :=
  let applied := appliedContinuation g.tables entryStation exitStation continuation
  let start := (applied.map Continuation.originStation).getD entryStation
  let time := (applied.map Continuation.originTime).getD entryTime
  (reckonPath g.tables start exitStation pass (serviceDay g.rollover time)).toOption.map fun path =>
    let already := (applied.map Continuation.charged).getD 0
    let due := fareFor g fareClass time path.chargeable - already
    let capped := capCharge (classEntry g.tables fareClass).cap due account
    { charge := capped.charge
      distance := path.chargeable
      shares := dealShares path.branches path.chargeable path.startOwner capped.charge
      spentAfter := capped.spentAfter
      origin := some ⟨start, time⟩
      chargedSoFar := some (min (already + capped.charge) Config.maxCents)
      passIgnored := path.pass == .ignored
      continued := applied.isSome
      continuationNotApplied := continuation.isSome && applied.isNone
      capReached := capped.capReached
      capUntracked := capped.capUntracked }

/-- Journey time: exit less entry, 0 when the exit is earlier (R45). -/
def journeyTime (entryTime exitTime : Nat) : Nat := exitTime - entryTime

/-- A same-station exit is cancelled: its journey time is at most the grace (R46). -/
def withinGrace (t : Tables) (entryTime exitTime : Nat) : Bool :=
  journeyTime entryTime exitTime ≤ t.policyOf.graceSeconds

/-- The result of a cancelled same-station pricing (R46). -/
def cancelledPricing (t : Tables) (entryStation : Nat) : Pricing where
  charge := 0
  distance := 0
  shares := [⟨stationOwner t entryStation, 0⟩]
  spentAfter := none
  origin := none
  chargedSoFar := none
  passIgnored := false
  continued := false
  continuationNotApplied := false
  capReached := false
  capUntracked := false

/-- A charged same-station pricing: the flat charge, capped (R46). -/
def sameStationPricing (t : Tables) (fareClass entryStation entryTime : Nat) (account : Option Nat) :
    Pricing :=
  let capped := capCharge (classEntry t fareClass).cap t.policyOf.sameStationCharge account
  { charge := capped.charge
    distance := 0
    shares := [⟨stationOwner t entryStation, capped.charge⟩]
    spentAfter := capped.spentAfter
    origin := some ⟨entryStation, entryTime⟩
    chargedSoFar := some capped.charge
    passIgnored := false
    continued := false
    continuationNotApplied := false
    capReached := capped.capReached
    capUntracked := capped.capUntracked }

/-- The incomplete charge (R47): from the top fare, at the origin's time when there is a continuation part. -/
def incompleteCharge (g : FareContext) (fareClass entryTime : Nat)
    (continuation : Option Continuation) : Nat :=
  let time := (continuation.map Continuation.originTime).getD entryTime
  min (roundToStep g.tables.policyOf.fareStep
    (topFare g.tables * timeFactor g.tables g.rollover time * (classEntry g.tables fareClass).factor))
    Config.maxCents

/-- Start owner of an incomplete pricing (R47). -/
def incompleteOwner (t : Tables) (entryStation : Nat) (continuation : Option Continuation) : Nat :=
  match continuation with
  | some c => if stationPresent t c.originStation then stationOwner t c.originStation
      else stationOwner t entryStation
  | none => stationOwner t entryStation

/-- An incomplete pricing (R47); with a path for an overstay (R48). -/
def incompletePricing (g : FareContext) (fareClass entryStation entryTime : Nat)
    (continuation : Option Continuation) (path : Option PathReckoning) : Pricing :=
  let charge := incompleteCharge g fareClass entryTime continuation
  let d := (path.map PathReckoning.chargeable).getD 0
  let branches := (path.map PathReckoning.branches).getD []
  { charge := charge
    distance := d
    shares := dealShares branches d (incompleteOwner g.tables entryStation continuation) charge
    spentAfter := none
    origin := none
    chargedSoFar := none
    passIgnored := (path.map PathReckoning.pass) == some .ignored
    continued := false
    continuationNotApplied := false
    capReached := false
    capUntracked := false }

end Sys2Proof.Machine
end

