-- ==== Sys2Proof/Machine/Frames.lean ====
section
/-! DEFINITION. Frames on the wire: byte order, CRC, the receive checks and the bodies the engine sends (R170, R173). -/

namespace Sys2Proof.Machine

/-! ### Bytes -/

/-- A multi-byte field, most significant byte first (R170). -/
def beNat (bytes : List Byte) : Nat :=
  bytes.foldl (fun n b => n * 256 + b.toNat) 0

/-- The `n` low bytes of a value, most significant first (R170). -/
def beBytes : Nat → Nat → List Byte
  | 0, _ => []
  | n + 1, v => BitVec.ofNat 8 (v / 256 ^ n) :: beBytes n v

/-- The bytes of a field at an offset. -/
def slice (offset size : Nat) (bytes : List Byte) : List Byte :=
  (bytes.drop offset).take size

/-- The value of a field at an offset. -/
def field (offset size : Nat) (bytes : List Byte) : Nat :=
  beNat (slice offset size bytes)

/-- A yes/no field as received: 00H is no, any other value yes (R173). -/
def yesNo (offset : Nat) (bytes : List Byte) : Bool :=
  field offset 1 bytes != 0

/-- A yes/no field as sent (R173, log 12). -/
def yesNoByte (b : Bool) : Byte :=
  if b then Config.yesByte else 0#8

/-- A field that R173 codes 00H for no and 01H for yes. -/
def oneByte (b : Bool) : Byte :=
  if b then 1#8 else 0#8

/-- A signed value held within 32 bits (R151, R173). -/
def clampInt32 (e : Int) : Int :=
  max (-2147483648) (min 2147483647 e)

/-- A signed 32-bit field in two's complement. -/
def int32Bytes (e : Int) : List Byte :=
  beBytes 4 ((clampInt32 e) % 4294967296).toNat

/-- A signed 16-bit field in two's complement. -/
def int16Bytes (e : Int) : List Byte :=
  beBytes 2 (e % 65536).toNat

/-- Bits, the least significant first, as a number. -/
def bitsToNat : List Bool → Nat
  | [] => 0
  | b :: rest => (if b then 1 else 0) + 2 * bitsToNat rest

/-- A bit field whose low `used` bits are given and whose other bits R173 leaves unassigned (log 13). -/
def withSpare (which : Config.SpareField) (used width value : Nat) : Nat :=
  value + 2 ^ used * (Config.spareBits which % 2 ^ (width - used))

/-! ### CRC and frames (R170) -/

/-- One bit of the CRC: polynomial x^16 + x^12 + x^5 + 1. -/
def crcShift (c : BitVec 16) : BitVec 16 :=
  if c.msb then (c <<< 1) ^^^ 0x1021#16 else c <<< 1

/-- One byte of the CRC, most significant bit first. -/
def crcByte (c : BitVec 16) (b : Byte) : BitVec 16 :=
  crcShift (crcShift (crcShift (crcShift (crcShift (crcShift (crcShift (crcShift
    (c ^^^ (b.setWidth 16 <<< 8)))))))))

/-- The CRC over header and body: starts from FFFFH, not inverted. -/
def crc (bytes : List Byte) : BitVec 16 :=
  bytes.foldl crcByte 0xFFFF#16

/-- The kinds of R170 as they stand in the header. -/
def kindTap : Byte := 0x01#8
/-- Verdict, 02H. -/
def kindVerdict : Byte := 0x02#8
/-- Record, 11H. -/
def kindRecord : Byte := 0x11#8
/-- Event, 12H. -/
def kindEvent : Byte := 0x12#8
/-- Request, 21H. -/
def kindRequest : Byte := 0x21#8
/-- Reply, 22H. -/
def kindReply : Byte := 0x22#8

/-- The back office's node address (0.2). -/
def officeNode : Byte := 0x00#8

/-- A whole frame: header, body and CRC (R170). -/
def buildFrame (destination source kind sequence : Byte) (body : List Byte) : List Byte :=
  let covered := [destination, source, kind, sequence] ++ beBytes 2 body.length ++ body
  covered ++ beBytes 2 (crc covered).toNat

/-- A received frame that passed the checks. -/
structure ReceivedFrame where
  destination : Byte
  source : Byte
  kind : Byte
  sequence : Byte
  body : List Byte
  deriving DecidableEq, Repr

/-- The receive checks of R170: the declared length is at most 1,024, the frame is exactly as long as its header declares, and the CRC matches. -/
def checkFrame (bytes : List Byte) : Option ReceivedFrame :=
  let length := field 4 2 bytes
  if 6 ≤ bytes.length ∧ length ≤ 1024 ∧ bytes.length = 6 + length + 2
      ∧ beNat (bytes.drop (6 + length)) = (crc (bytes.take (6 + length))).toNat then
    some {
      destination := bytes.getD 0 0
      source := bytes.getD 1 0
      kind := bytes.getD 2 0
      sequence := bytes.getD 3 0
      body := slice 6 length bytes }
  else none

/-! ### Codes (R173) -/

/-- Reasons of verdicts and records. -/
def Reason.code : Reason → Nat
  | .none => 0
  | .malformed => 1
  | .stationUnknown => 2
  | .classBarred => 3
  | .denyList => 4
  | .noTables => 5
  | .halted => 6
  | .stale => 7
  | .queueFull => 8
  | .late => 9
  | .restart => 10

/-- Verdict kinds. -/
def VerdictKind.code : VerdictKind → Nat
  | .go => 1
  | .goPending => 2
  | .refused => 3
  | .fallback => 4
  | .outOfService => 5
  | .recorded => 6

/-- Record kinds. -/
def RecordKind.code : RecordKind → Nat
  | .entry => 1
  | .refused => 2
  | .completed => 3
  | .cancelled => 4
  | .incomplete => 5
  | .spill => 6
  | .unmatched => 7
  | .correction => 8
  | .repair => 9
  | .unpriced => 10

/-- Event kinds, in the order of the table in R165. -/
def EventKind.code : EventKind → Nat
  | .generationActive => 1
  | .generationFreed => 2
  | .clockStepped => 3
  | .clockLocked => 4
  | .clockFreeRunning => 5
  | .pressureOn => 6
  | .pressureOff => 7
  | .dayRollover => 8
  | .accountFull => 9

/-- A slot field is 0 for A and 1 for B. -/
def SlotId.code : SlotId → Nat
  | .a => 0
  | .b => 1

/-- Slot states as IDENTIFY reports them. -/
def SlotState.code : SlotState → Nat
  | .free => 0
  | .staging => 1
  | .copying => 2
  | .validating => 3
  | .pending => 4
  | .active => 5
  | .retiring => 6

/-- Clock states as IDENTIFY reports them. -/
def ClockState.code : ClockState → Nat
  | .unset => 0
  | .locked => 1
  | .slewing => 2
  | .freeRunning => 3

/-- Reply statuses. -/
def ReplyStatus.code : ReplyStatus → Nat
  | .done => 1
  | .busy => 2
  | .refused => 3
  | .malformed => 4
  | .aborted => 5

/-- The refusal-reason byte of a reply (log 14 for a reply that is no refusal). -/
def ReplyReason.byte : ReplyReason → Byte
  | .none => Config.noReasonByte
  | .notFound => 1
  | .stationUnknown => 2
  | .timeBeforeEntry => 3
  | .otherSlotLoading => 4
  | .operationInFlight => 5
  | .pending => 6
  | .active => 7
  | .generationBusy => 8
  | .outOfRange => 9
  | .slotFree => 10
  | .noActive => 11
  | .validation => 12
  | .clockUnset => 13
  | .notPending => 14
  | .alreadyPresent => 15
  | .listFull => 16
  | .restartInProgress => 17

/-! ### Bodies the engine sends (R173) -/

/-- Verdict body, 13 bytes. -/
def verdictBody (v : Verdict) : List Byte :=
  beBytes 1 v.gate ++ beBytes 2 v.tapNumber
    ++ beBytes 1 v.answer.kind.code ++ beBytes 1 v.answer.reason.code
    ++ beBytes 1 (withSpare .verdictPresence 2 8
        (bitsToNat [v.answer.charge.isSome, v.answer.reference.isSome]))
    ++ beBytes 1 (withSpare .verdictFlags 3 8
        (bitsToNat [v.answer.capReached, v.answer.continued, v.answer.timeClamped]))
    ++ beBytes 2 (v.answer.charge.getD 0) ++ beBytes 4 (v.answer.reference.getD 0)

/-- A pass in four bytes. -/
def passBytes (p : Pass) : List Byte :=
  beBytes 1 p.fromStation ++ beBytes 1 p.toStation ++ beBytes 2 p.lastDay

/-- A continuation part in eight bytes. -/
def continuationBytes (c : Continuation) : List Byte :=
  beBytes 1 c.originStation ++ beBytes 4 c.originTime ++ beBytes 2 c.charged ++ [yesNoByte c.nilSoFar]

/-- Record group 8, the open journey, 28 to 40 bytes. -/
def journeyBytes (j : Journey) : List Byte :=
  beBytes 8 j.token.toNat ++ beBytes 4 j.reference ++ beBytes 1 j.fareClass
    ++ beBytes 1 j.entryStation ++ beBytes 4 j.entryTime ++ beBytes 1 j.tag.code
    ++ beBytes 4 j.admissionTime ++ beBytes 4 j.deadline
    ++ beBytes 1 (withSpare .journeyMarks 4 8
        (bitsToNat [j.deferred, j.entryClamped, j.pass.isSome, j.continuation.isSome]))
    ++ (j.pass.map passBytes).getD [] ++ (j.continuation.map continuationBytes).getD []

/-- A station and a time in five bytes. -/
def stationTimeBytes (s : StationTime) : List Byte :=
  beBytes 1 s.station ++ beBytes 4 s.time

/-- Record group 4, the priced fields: 7 bytes and 3 for each pair. -/
def pricedBytes (p : Priced) : List Byte :=
  beBytes 4 p.distance ++ beBytes 2 p.charge ++ beBytes 1 p.shares.length
    ++ p.shares.flatMap (fun s => beBytes 1 s.operator ++ beBytes 2 s.amount)

/-- Record group 9, the tap as received: 9 bytes. -/
def tapReceivedBytes (t : TapReceived) : List Byte :=
  beBytes 1 t.station ++ beBytes 1 t.gate ++ beBytes 1 t.direction
    ++ beBytes 4 t.gateTime ++ beBytes 2 t.tapNumber

/-- The flags in the order of R161, "overstay" first. -/
def RecordFlags.bits (f : RecordFlags) : List Bool :=
  [f.overstay, f.continued, f.continuationNotApplied, f.capReached, f.capUntracked, f.forced,
   f.answeredLate, f.timeClamped, f.deferred, f.nilJourney, f.passIgnored, f.denyListed,
   f.clockFreeRunning, f.confirmed]

/-- Record body: 21 bytes and the groups present, in bit order. -/
def recordBody (r : Record) : List Byte :=
  beBytes 1 r.kind.code ++ beBytes 1 r.reason.code
    ++ beBytes 2 (withSpare .recordPresence 10 16 (bitsToNat
        [r.reference.isSome, r.label.isSome, r.entry.isSome, r.exit.isSome, r.priced.isSome,
         r.originalCharge.isSome, r.related.isSome, r.origin.isSome, r.openJourney.isSome,
         r.tap.isSome]))
    ++ beBytes 2 (withSpare .recordFlags 14 16 (bitsToNat r.flags.bits))
    ++ beBytes 4 r.madeSec ++ beBytes 2 r.madeMs
    ++ beBytes 8 r.token.toNat ++ beBytes 1 r.fareClass
    ++ (r.reference.map (beBytes 4)).getD []
    ++ (r.label.map (beBytes 2)).getD []
    ++ (r.entry.map stationTimeBytes).getD []
    ++ (r.exit.map stationTimeBytes).getD []
    ++ (r.priced.map pricedBytes).getD []
    ++ (r.originalCharge.map (beBytes 2)).getD []
    ++ (r.related.map (beBytes 4)).getD []
    ++ (r.origin.map stationTimeBytes).getD []
    ++ (r.openJourney.map journeyBytes).getD []
    ++ (r.tap.map tapReceivedBytes).getD []

/-- The four data bytes of an event; bytes without content are free (log 11). -/
def eventDataBytes (filler : Nat) : EventData → List Byte
  | .nothing => [Config.eventFiller filler 0, Config.eventFiller filler 1,
      Config.eventFiller filler 2, Config.eventFiller filler 3]
  | .generation slot label => beBytes 1 slot.code ++ beBytes 2 label ++ [Config.eventFiller filler 3]
  | .error e => int32Bytes e
  | .occupancy n => beBytes 2 n ++ [Config.eventFiller filler 2, Config.eventFiller filler 3]
  | .day d => beBytes 2 d ++ [Config.eventFiller filler 2, Config.eventFiller filler 3]

/-- Event body, 13 bytes. -/
def eventBody (e : PendingEvent) (filler : Nat) : List Byte :=
  beBytes 1 e.kind.code ++ beBytes 2 e.count ++ beBytes 4 e.sec ++ beBytes 2 e.ms
    ++ eventDataBytes filler e.data

/-- The ten settings, 4 bytes each, in the order of 11.4. -/
def settingsBytes (v : RunSettings) : List Byte :=
  [v.highMark, v.lowMark, v.answerLimit, v.skewLimit, v.deferralAge, v.deferredGrace, v.holdover,
   v.stepThreshold, v.measurementSpan, v.rolloverMinute].flatMap (beBytes 4)

/-- The counters in the order of R166. -/
def Counters.list (c : Counters) : List Nat :=
  [c.tapsAccepted, c.tapsNotAccepted, c.fallbacksFull, c.fallbacksLate, c.entries, c.refused,
   c.completed, c.cancelled, c.incomplete, c.spills, c.unmatched, c.corrections, c.repairs,
   c.unpriced, c.droppedLineToOffice, c.droppedOfficeToLine, c.crcErrorsLine, c.crcErrorsOffice,
   c.requestsDiscarded]

/-- What IDENTIFY reports of a slot. -/
def slotReportBytes (r : SlotReport) : List Byte :=
  beBytes 1 r.state.code ++ beBytes 2 r.label ++ beBytes 2 r.refCount ++ beBytes 4 r.effective

/-- IDENTIFY's result: part code 6420H, revision 1, and the values read (R175). -/
def identityBytes (i : Identity) : List Byte :=
  beBytes 2 0x6420 ++ beBytes 1 1 ++ [i.nodeAddress]
    ++ [oneByte (i.service == .running), oneByte i.drain] ++ beBytes 1 i.clock.code
    ++ beBytes 4 i.sec ++ beBytes 2 i.ms ++ beBytes 2 i.serviceDay ++ beBytes 2 i.occupancy
    ++ [oneByte i.spillMode] ++ slotReportBytes i.slotA ++ slotReportBytes i.slotB

/-- The last exit of an account, 19 bytes. -/
def lastExitBytes (e : LastExit) : List Byte :=
  beBytes 1 e.station ++ beBytes 4 e.exitTime ++ beBytes 1 e.originStation ++ beBytes 4 e.originTime
    ++ beBytes 2 e.chargedSoFar ++ [yesNoByte e.nilSoFar] ++ beBytes 2 e.shownCharge
    ++ beBytes 4 e.reference

/-- The last incomplete of an account, 12 bytes. -/
def lastIncompleteBytes (e : LastIncomplete) : List Byte :=
  beBytes 1 e.entryStation ++ beBytes 4 e.entryTime ++ beBytes 1 e.fareClass
    ++ beBytes 2 e.charge ++ beBytes 4 e.reference

/-- The last unmatched of an account, 10 bytes. -/
def lastUnmatchedBytes (e : LastUnmatched) : List Byte :=
  beBytes 1 e.station ++ beBytes 4 e.exitTime ++ beBytes 1 e.fareClass ++ beBytes 4 e.reference

/-- One account of an ACCOUNT QUERY reply. -/
def accountBytes (w : AccountWay) : List Byte :=
  beBytes 2 w.slot ++ beBytes 2 w.account.day ++ beBytes 2 w.account.spent ++ beBytes 1 w.account.legs
    ++ beBytes 1 (withSpare .accountPresence 3 8 (bitsToNat [w.account.lastExit.isSome,
        w.account.lastIncomplete.isSome, w.account.lastUnmatched.isSome]))
    ++ (w.account.lastExit.map lastExitBytes).getD []
    ++ (w.account.lastIncomplete.map lastIncompleteBytes).getD []
    ++ (w.account.lastUnmatched.map lastUnmatchedBytes).getD []

/-- The result of a reply. -/
def resultBytes : ReplyResult → List Byte
  | .nothing => []
  | .identity i => identityBytes i
  | .restart spilled fallbacks => beBytes 4 spilled ++ beBytes 2 fallbacks
  | .settings v => settingsBytes v
  | .timeMark stepped e state trim =>
      [oneByte stepped] ++ int32Bytes e ++ beBytes 1 state.code ++ int16Bytes trim
  | .counters c => c.list.flatMap (beBytes 4)
  | .written table first count => beBytes 1 table ++ beBytes 1 first ++ beBytes 1 count
  | .entries table first count bytes =>
      beBytes 1 table ++ beBytes 1 first ++ beBytes 1 count ++ bytes
  | .activated swapped => [if swapped then 2#8 else 1#8]
  | .length n => beBytes 2 n
  | .denyCheck present n => [oneByte present] ++ beBytes 2 n
  | .journey none => [0#8]
  | .journey (some (w, label)) =>
      [1#8] ++ beBytes 2 w.slot ++ beBytes 2 label ++ journeyBytes w.journey
  | .closed kind reference charge => beBytes 1 kind.code ++ beBytes 4 reference ++ beBytes 2 charge
  | .accounts found => beBytes 1 found.length ++ found.flatMap accountBytes
  | .validation check table index => beBytes 1 check ++ beBytes 1 table ++ beBytes 1 index
  | .outOfRange index => beBytes 1 index

/-- Reply body: request number, code, status, refusal reason, result. -/
def replyBody (number code : Nat) (r : Reply) : List Byte :=
  beBytes 2 number ++ beBytes 1 code ++ beBytes 1 r.status.code ++ [r.reason.byte]
    ++ resultBytes r.result

/-- A verdict on the wire: from the engine to the tap's source node (R14, R171). -/
def verdictWire (node : Byte) (v : Verdict) : List Byte :=
  buildFrame v.destination node kindVerdict v.sequence (verdictBody v)

/-- A frame of the Office Queue on the wire (R171); a forwarded frame is unchanged (R168). -/
def officeWire (node : Byte) : OfficeFrame → List Byte
  | .record n r => buildFrame officeNode node kindRecord (BitVec.ofNat 8 n) (recordBody r)
  | .event n e filler => buildFrame officeNode node kindEvent (BitVec.ofNat 8 n) (eventBody e filler)
  | .reply n number code r => buildFrame officeNode node kindReply n (replyBody number code r)
  | .forwarded bytes => bytes

end Sys2Proof.Machine
end

