-- ==== Sys2Proof/Machine/Operands.lean ====
section
/-! DEFINITION. What the engine reads from the bodies it receives (R1, R173, R174): the tap body, the request bodies and the entries of TABLE WRITE. -/

namespace Sys2Proof.Machine

/-! ### Taps (R1, R173) -/

/-- The tap of a frame of kind Tap: 19 bytes without a pass, 23 with one; no other length is a tap. -/
def parseTap (f : ReceivedFrame) : Option Tap :=
  if f.body.length = 19 ∨ f.body.length = 23 then
    some {
      station := field 0 1 f.body
      gate := field 1 1 f.body
      direction := field 2 1 f.body
      deferred := yesNo 3 f.body
      gateTime := field 4 4 f.body
      token := BitVec.ofNat 64 (field 8 8 f.body)
      fareClass := field 16 1 f.body
      tapNumber := field 17 2 f.body
      pass := if f.body.length = 23 then
          some ⟨field 19 1 f.body, field 20 1 f.body, field 21 2 f.body⟩
        else none
      source := f.source
      sequence := f.sequence }
  else none

/-- Direction 01H is entry (R173). -/
def Tap.isEntry (t : Tap) : Bool := t.direction == 1

/-- Direction 02H is exit (R173). -/
def Tap.isExit (t : Tap) : Bool := t.direction == 2

/-! ### Requests (R173, R174) -/

/-- A slot field: 0 for A, 1 for B, nothing else (R174). -/
def parseSlot (offset : Nat) (body : List Byte) : Option SlotId :=
  match field offset 1 body with
  | 0 => some .a
  | 1 => some .b
  | _ => none

/-- A token field. -/
def parseToken (offset : Nat) (body : List Byte) : Token :=
  BitVec.ofNat 64 (field offset 8 body)

/-- An optional field behind a present byte. -/
def parseOptional (presentAt offset size : Nat) (body : List Byte) : Option Nat :=
  if yesNo presentAt body then some (field offset size body) else none

/-- Bytes per entry of a table (R173); none for a table id that is not 1 to 8. -/
def entrySize : Nat → Option Nat
  | 1 => some 4
  | 2 => some 3
  | 3 => some 4
  | 4 => some 6
  | 5 => some 1
  | 6 => some 4
  | 7 => some 5
  | 8 => some 12
  | _ => none

/-- Entries of a table (R129); none for a table id that is not 1 to 8. -/
def tableEntries : Nat → Option Nat
  | 1 => some 64
  | 2 => some 4
  | 3 => some 32
  | 4 => some 8
  | 5 => some 7
  | 6 => some 32
  | 7 => some 32
  | 8 => some 1
  | _ => none

/-- TABLE WRITE's length is 4 plus count times the entry size (R174). A table id that is not 1 to 8 has no entry size: the request is answered Malformed by R134 (log 38). -/
def tableWriteLength (params : List Byte) : Bool :=
  match entrySize (field 1 1 params) with
  | some size => params.length == 4 + field 3 1 params * size
  | none => 4 ≤ params.length

/-- The ten values of SET RUN SETTINGS in the order of 11.4. -/
def parseSettings (params : List Byte) : RunSettings where
  highMark := field 0 4 params
  lowMark := field 4 4 params
  answerLimit := field 8 4 params
  skewLimit := field 12 4 params
  deferralAge := field 16 4 params
  deferredGrace := field 20 4 params
  holdover := field 24 4 params
  stepThreshold := field 28 4 params
  measurementSpan := field 32 4 params
  rolloverMinute := field 36 4 params

/-- A value when the parameters have the length their request requires. -/
def sized (n : Nat) (params : List Byte) (r : Request) : Option Request :=
  if params.length = n then some r else none

/-- A request that names a slot. -/
def sizedSlot (n : Nat) (params : List Byte) (r : SlotId → Request) : Option Request :=
  if params.length = n then (parseSlot 0 params).map r else none

/-- The request of a code and its parameters, or none where R174 answers Malformed: an unknown code, a wrong length, or a slot field that is neither 0 nor 1. -/
def parseParams (code : Nat) (p : List Byte) : Option Request :=
  match code with
  | 0x01 => sized 0 p .identify
  | 0x02 => sized 0 p .start
  | 0x03 => sized 0 p .halt
  | 0x04 => sized 0 p .restart
  | 0x05 => sized 40 p (.setRunSettings (parseSettings p))
  | 0x06 => sized 6 p (.timeMark (field 0 4 p) (field 4 2 p))
  | 0x07 => sized 1 p (.counters (yesNo 0 p))
  | 0x10 =>
      if 4 ≤ p.length && tableWriteLength p then
        (parseSlot 0 p).map (fun s =>
          .tableWrite s (field 1 1 p) (field 2 1 p) (field 3 1 p) (p.drop 4))
      else none
  | 0x11 => sizedSlot 4 p (fun s => .tableRead s (field 1 1 p) (field 2 1 p) (field 3 1 p))
  | 0x12 => sizedSlot 1 p .copyActive
  | 0x13 => sizedSlot 1 p .discard
  | 0x14 => sizedSlot 6 p (fun s => .activate s (parseOptional 1 2 4 p))
  | 0x15 => sizedSlot 1 p .cancel
  | 0x20 => sized 8 p (.denyAdd (parseToken 0 p))
  | 0x21 => sized 8 p (.denyRemove (parseToken 0 p))
  | 0x22 => sized 0 p .denyClear
  | 0x23 => sized 8 p (.denyCheck (parseToken 0 p))
  | 0x30 => sized 8 p (.journeyQuery (parseToken 0 p))
  | 0x31 => sized 15 p (.journeyClose (parseToken 0 p) (parseOptional 8 9 1 p) (parseOptional 10 11 4 p))
  | 0x32 => sized 11 p (.accountQuery (parseToken 0 p) (parseOptional 8 9 2 p))
  | _ => none

/-- The request number a reply to this frame carries (R174). -/
def requestNumber (f : ReceivedFrame) : Nat :=
  if f.kind = kindRequest ∧ 3 ≤ f.body.length then field 0 2 f.body else 0

/-- The request code a reply to this frame carries (R174). -/
def requestCode (f : ReceivedFrame) : Nat :=
  if f.kind = kindRequest ∧ 3 ≤ f.body.length then field 2 1 f.body else 0

/-- The request of a frame routed to the Management Unit; `malformed` where R174 answers Malformed as soon as it is taken. -/
def parseRequest (f : ReceivedFrame) : Request :=
  if f.kind = kindRequest ∧ 3 ≤ f.body.length then
    (parseParams (field 2 1 f.body) (f.body.drop 3)).getD .malformed
  else .malformed

/-! ### Table entries (R173): the fields in the order of their rules (log 33) -/

/-- Station entry: present, branch, chainage (R20). -/
def parseStation (b : List Byte) : StationEntry :=
  ⟨yesNo 0 b, field 1 1 b, field 2 2 b⟩

/-- Branch entry: present, junction (FFH absent), owner (R21). -/
def parseBranch (b : List Byte) : BranchEntry :=
  ⟨yesNo 0 b, if field 1 1 b = 255 then none else some (field 1 1 b), field 2 1 b⟩

/-- Fare scale entry: bound, fare (R38). -/
def parseScale (b : List Byte) : ScaleEntry := ⟨field 0 2 b, field 2 2 b⟩

/-- Class entry: entry permitted, factor, cap, minimum applies (R130). -/
def parseClass (b : List Byte) : ClassEntry :=
  ⟨yesNo 0 b, field 1 2 b, field 3 2 b, yesNo 5 b⟩

/-- Exception entry: used, service day, day type (R131). -/
def parseException (b : List Byte) : ExceptionEntry := ⟨yesNo 0 b, field 1 2 b, field 3 1 b⟩

/-- Change point: used, minute, factor (R132). -/
def parseBand (b : List Byte) : BandEntry := ⟨yesNo 0 b, field 1 2 b, field 3 2 b⟩

/-- Policy record (R133): label 2, maximum journey time 2, same-station grace 1, same-station charge 2, continuation window 1, duplicate window 1, fare step 1, minimum fare 2. -/
def parsePolicy (b : List Byte) : Policy where
  label := field 0 2 b
  maxJourney := field 2 2 b
  grace := field 4 1 b
  sameStationCharge := field 5 2 b
  continuationWindow := field 7 1 b
  duplicateWindow := field 8 1 b
  fareStep := field 9 1 b
  minimumFare := field 10 2 b

/-- The ranges of R20. -/
def StationEntry.inRange (e : StationEntry) : Bool := e.branch ≤ 3 && e.chainage ≤ 65534

/-- The ranges of R21: branch 0 has no junction station. -/
def BranchEntry.inRange (index : Nat) (e : BranchEntry) : Bool :=
  e.owner ≤ 3 && (match e.junction with
    | none => true
    | some j => index != 0 && j ≤ 63)

/-- The ranges of R130. -/
def ClassEntry.inRange (e : ClassEntry) : Bool := e.factor ≤ 1000

/-- The ranges of R132. -/
def BandEntry.inRange (e : BandEntry) : Bool := e.minute ≤ 1439 && e.factor ≤ 2000

/-- The ranges of R133. -/
def Policy.inRange (p : Policy) : Bool :=
  1 ≤ p.label && p.label ≤ 65535 && 10 ≤ p.maxJourney && p.maxJourney ≤ 720 && p.grace ≤ 60
    && p.continuationWindow ≤ 120 && 1 ≤ p.duplicateWindow && p.duplicateWindow ≤ 60
    && [1, 2, 5, 10, 20, 50, 100].contains p.fareStep

/-- The range check of one written entry (R20, R21, R38, R130 to R133). Scale, Week and Exception entries carry nothing out of range. -/
def entryInRange (table index : Nat) (b : List Byte) : Bool :=
  match table with
  | 1 => (parseStation b).inRange
  | 2 => (parseBranch b).inRange index
  | 4 => (parseClass b).inRange
  | 7 => (parseBand b).inRange
  | 8 => (parsePolicy b).inRange
  | _ => true

/-- One entry stored (R134). -/
def writeEntry (table index : Nat) (b : List Byte) (t : Tables) : Tables :=
  match table with
  | 1 => { t with stations := t.stations.set index (parseStation b) }
  | 2 => { t with branches := t.branches.set index (parseBranch b) }
  | 3 => { t with scale := t.scale.set index (parseScale b) }
  | 4 => { t with classes := t.classes.set index (parseClass b) }
  | 5 => { t with week := t.week.set index (field 0 1 b) }
  | 6 => { t with exceptions := t.exceptions.set index (parseException b) }
  | 7 => { t with bands := t.bands.set index (parseBand b) }
  | 8 => { t with policy := some (parsePolicy b) }
  | _ => t

/-- Station entry as sent. -/
def stationBytes (e : StationEntry) : List Byte :=
  yesNoByte e.present :: (beBytes 1 e.branch ++ beBytes 2 e.chainage)

/-- Branch entry as sent. -/
def branchBytes (e : BranchEntry) : List Byte :=
  yesNoByte e.present :: (beBytes 1 (e.junction.getD 255) ++ beBytes 1 e.owner)

/-- Fare scale entry as sent. -/
def scaleBytes (e : ScaleEntry) : List Byte := beBytes 2 e.bound ++ beBytes 2 e.fare

/-- Class entry as sent. -/
def classBytes (e : ClassEntry) : List Byte :=
  yesNoByte e.permitted :: (beBytes 2 e.factor ++ beBytes 2 e.cap ++ [yesNoByte e.minimumApplies])

/-- Exception entry as sent. -/
def exceptionBytes (e : ExceptionEntry) : List Byte :=
  yesNoByte e.used :: (beBytes 2 e.day ++ beBytes 1 e.dayType)

/-- Change point as sent. -/
def bandBytes (e : BandEntry) : List Byte :=
  yesNoByte e.used :: (beBytes 2 e.minute ++ beBytes 2 e.factor)

/-- Policy record as sent. -/
def policyBytes (p : Policy) : List Byte :=
  beBytes 2 p.label ++ beBytes 2 p.maxJourney ++ beBytes 1 p.grace ++ beBytes 2 p.sameStationCharge
    ++ beBytes 1 p.continuationWindow ++ beBytes 1 p.duplicateWindow ++ beBytes 1 p.fareStep
    ++ beBytes 2 p.minimumFare

/-- Entries of a table from an index on, as the slot holds them (R135). -/
def readEntries (table first count : Nat) (t : Tables) : List Byte :=
  let window {α : Type} (l : List α) := (l.drop first).take count
  match table with
  | 1 => (window t.stations).flatMap stationBytes
  | 2 => (window t.branches).flatMap branchBytes
  | 3 => (window t.scale).flatMap scaleBytes
  | 4 => (window t.classes).flatMap classBytes
  | 5 => (window t.week).flatMap (beBytes 1)
  | 6 => (window t.exceptions).flatMap exceptionBytes
  | 7 => (window t.bands).flatMap bandBytes
  | 8 => (t.policy.map policyBytes).getD []
  | _ => []

/-- The entry bytes of a TABLE WRITE, cut at the entry size. -/
def chunks (size : Nat) : Nat → List Byte → List (List Byte)
  | 0, _ => []
  | n + 1, bytes => bytes.take size :: chunks size n (bytes.drop size)

/-- The index of the first entry out of range (R134), counted in the table (log 18). -/
def firstOutOfRange (table : Nat) : Nat → List (List Byte) → Option Nat
  | _, [] => none
  | index, e :: rest =>
      if entryInRange table index e then firstOutOfRange table (index + 1) rest else some index

/-- All entries stored, from an index on (R134). -/
def writeEntries (table : Nat) : Nat → List (List Byte) → Tables → Tables
  | _, [], t => t
  | index, e :: rest, t => writeEntries table (index + 1) rest (writeEntry table index e t)

end Sys2Proof.Machine
end

