-- ==== Sys2Proof/Machine/Flags.lean ====
section
/-! DEFINITION. The flags and marks of records and verdicts (R14, R58, R94, R104, R161). -/

namespace Sys2Proof.Machine

/-- An answer with nothing but a kind and a reason. -/
def Answer.plain (kind : VerdictKind) (reason : Reason) : Answer :=
  ⟨kind, reason, none, none, false, false, false⟩

/-- Go or Go-Pending with a journey reference (R14). -/
def Answer.withReference (kind : VerdictKind) (reference : Nat) : Answer :=
  { Answer.plain kind .none with reference := some reference }

/-- What the gate of a tap is told: a deferred tap's answer is Recorded with the same reference and flags and no charge (R13, R104); "time clamped" is carried by Go, Go-Pending and Recorded only (R14). -/
def toGate (tap : Tap) (clamped : Bool) (a : Answer) : Answer :=
  if tap.deferred then
    { a with kind := .recorded, reason := .none, charge := none, timeClamped := clamped }
  else
    { a with timeClamped := clamped && (a.kind == .go || a.kind == .goPending) }

/-- The verdict frame of a tap (R14). -/
def verdictFor (tap : Tap) (a : Answer) : Verdict :=
  ⟨tap.source, tap.sequence, tap.gate, tap.tapNumber, a⟩

/-- The tap as received, as a record carries it (R159). -/
def Tap.received (t : Tap) : TapReceived :=
  ⟨t.station, t.gate, t.direction, t.gateTime, t.tapNumber⟩

/-- The flags a pricing reports (R58). -/
def Pricing.flags (p : Pricing) : RecordFlags where
  passIgnored := p.passIgnored
  continued := p.continued
  continuationNotApplied := p.continuationNotApplied
  capReached := p.capReached
  capUntracked := p.capUntracked

/-- The priced fields of a record (R57, R159). -/
def Pricing.priced (p : Pricing) : Priced := ⟨p.distance, p.charge, p.shares⟩

/-- The marks a Spill or Incomplete record takes from the journey record (R123, R161). -/
def Journey.marks (j : Journey) : RecordFlags where
  deferred := j.deferred
  timeClamped := j.entryClamped

/-- Nil-so-far as a last exit stores it (R94): the charge is 0 and, where a continuation was applied, its part carries nil-so-far yes. -/
def nilSoFar (charge : Nat) (applied : Option Continuation) : Bool :=
  charge == 0 && (match applied with
    | some c => c.nilSoFar
    | none => true)

/-- What a tap transaction adds to every record it places: the tap as received, "answered late" (R6), "deferred" (R13), "time clamped" (R11, R102) and "deny-listed" for an exit (R79). -/
def decorate (tap : Tap) (late clamped denied : Bool) (r : Record) : Record :=
  { r with
    tap := some tap.received
    flags := { r.flags with
      answeredLate := r.flags.answeredLate || late
      deferred := r.flags.deferred || tap.deferred
      timeClamped := r.flags.timeClamped || clamped
      denyListed := r.flags.denyListed || denied } }

end Sys2Proof.Machine
end

