-- ==== Sys2Proof/Machine/Validation.lean ====
section
/-! DEFINITION. The six cross-table checks of validation, in order, stopping at the first that fails (R22, R39, R139). -/

namespace Sys2Proof.Machine

/-- A failed check: check number, table id and index of the first offending entry. -/
structure CheckFailure where
  check : Nat
  table : Nat
  index : Nat
  deriving DecidableEq, Repr

/-- The first index, counted from `start`, whose entry fails a test. -/
def firstIndex {α : Type} (bad : Nat → α → Bool) : Nat → List α → Option Nat
  | _, [] => none
  | i, x :: rest => if bad i x then some i else firstIndex bad (i + 1) rest

/-- Check 1 (R22): the trunk is present and every present station stands on a present branch. An absent trunk is reported before a station on an absent branch (DESIGN CHOICE, log 19). -/
def check1 (t : Tables) : Option CheckFailure :=
  if !(branchEntry t 0).present then some ⟨1, 2, 0⟩
  else (firstIndex (fun _ s => s.present && !(branchEntry t s.branch).present) 0 t.stations).map
    (⟨1, 1, ·⟩)

/-- A junction station is present and on the trunk (R22). -/
def junctionSound (t : Tables) : Option Nat → Bool
  | none => false
  | some j => match presentStation t j with
    | some s => s.branch == 0
    | none => false

/-- Check 2 (R22): every present branch 1 to 3 has a junction that is a present trunk station. -/
def check2 (t : Tables) : Option CheckFailure :=
  (firstIndex (fun i b => i != 0 && b.present && !junctionSound t b.junction) 0 t.branches).map
    (⟨2, 2, ·⟩)

/-- Two present entries stand at the same point of one branch (R22). -/
def samePoint (a b : StationEntry) : Bool :=
  a.present && b.present && a.branch == b.branch && a.chainage == b.chainage

/-- Check 3 (R22): no two present stations share a point; reported with the lowest code that shares one (log 19). -/
def check3 (t : Tables) : Option CheckFailure :=
  (firstIndex (fun i s => (firstIndex (fun k r => k != i && samePoint s r) 0 t.stations).isSome)
    0 t.stations).map (⟨3, 1, ·⟩)

/-- Check 4's scan from an index on, with the entry before it (R39). -/
def scaleScan (i : Nat) (before : Option ScaleEntry) : List ScaleEntry → Option Nat
  | [] => none
  | e :: rest =>
      let unordered := match before with
        | some p => e.bound ≤ p.bound || e.fare < p.fare
        | none => false
      if unordered || (i == 31 && !e.isSentinel) then some i
      else if e.isSentinel then none
      else scaleScan (i + 1) (some e) rest

/-- Check 4 (R39). -/
def check4 (t : Tables) : Option CheckFailure :=
  (scaleScan 0 none t.scale).map (⟨4, 3, ·⟩)

/-- Check 5's scan of the Exception list (R139): whether an unused entry stood before, and the last used day. -/
def exceptionScan (i : Nat) (gap : Bool) (last : Option Nat) : List ExceptionEntry → Option Nat
  | [] => none
  | e :: rest =>
      if !e.used then exceptionScan (i + 1) true last rest
      else if gap || 3 < e.dayType || (match last with
          | some d => decide (e.day ≤ d)
          | none => false) then some i
      else exceptionScan (i + 1) gap (some e.day) rest

/-- Check 5's scan of one band list after its first entry (R139). -/
def bandScan (i : Nat) (gap : Bool) (last : Nat) : List BandEntry → Option Nat
  | [] => none
  | e :: rest =>
      if !e.used then bandScan (i + 1) true last rest
      else if gap || e.minute ≤ last then some i
      else bandScan (i + 1) gap e.minute rest

/-- Check 5 for the band list of one day type (R139). -/
def bandCheck (t : Tables) (k : Nat) : Option Nat :=
  match bandList t k with
  | [] => none
  | e :: rest => if !e.used || e.minute != 0 then some (k * 8) else bandScan (k * 8 + 1) false 0 rest

/-- Check 5 (R139): class, week, exception and band tables, in that order. -/
def check5 (t : Tables) : Option CheckFailure :=
  if !t.classes.any ClassEntry.permitted then some ⟨5, 4, 0⟩
  else match firstIndex (fun _ d => 3 < d) 0 t.week with
    | some i => some ⟨5, 5, i⟩
    | none => match exceptionScan 0 false none t.exceptions with
      | some i => some ⟨5, 6, i⟩
      | none => ([0, 1, 2, 3].findSome? (bandCheck t)).map (⟨5, 7, ·⟩)

/-- Check 6 (R139): a Policy record is present and its label is not the Active slot's. -/
def check6 (activeLabel : Option Nat) (t : Tables) : Option CheckFailure :=
  match t.policy with
  | none => some ⟨6, 8, 0⟩
  | some p => if activeLabel = some p.label then some ⟨6, 8, 0⟩ else none

/-- Validation (R139): the first failed check, or none when all pass. -/
def validate (activeLabel : Option Nat) (t : Tables) : Option CheckFailure :=
  check1 t <|> check2 t <|> check3 t <|> check4 t <|> check5 t <|> check6 activeLabel t

end Sys2Proof.Machine
end

