-- ==== Sys2Proof/Machine/Ops.lean ====
section
/-! DEFINITION. The shared operations on the state: queues and ports, counters and events, the arbiter, the two tables of the Journey Store, the generation slots and the request slots. -/

namespace Sys2Proof.Machine

/-- While RSTN is low no step but the pins' own changes anything (R178, log 2). -/
def awake (s t : State) : Host.Outcome State Fault Refusal :=
  .next (if s.rstnLow then s else t)

/-! ### Lists -/

/-- The first element that satisfies a test, changed. -/
def modifyFirst {α : Type} (test : α → Bool) (f : α → α) : List α → List α
  | [] => []
  | x :: rest => if test x then f x :: rest else x :: modifyFirst test f rest

/-! ### Line Port and Verdict Queue (R2, R15, R172) -/

/-- The Line Port's transmitter, when it is free and its link is Up, starts the next frame: a verdict before a forwarded frame (R15, R172). -/
def transmitLine (s : State) : State :=
  match s.linePort.link, s.linePort.sending with
  | .up, none =>
    match s.verdictQueue.frames, s.forwardQueue with
    | v :: _, _ =>
      { s with linePort := { s.linePort with sending := some ⟨.verdict, verdictWire s.nodeAddress v⟩ } }
    | [], f :: _ => { s with linePort := { s.linePort with sending := some ⟨.forward, f⟩ } }
    | [], [] => s
  | _, _ => s

/-- Free places of the Verdict Queue (R2). -/
def verdictFree (s : State) : Nat :=
  Config.verdictPlaces - s.verdictQueue.frames.length - s.verdictQueue.reserved

/-- A verdict made at arrival takes a free place (R2). -/
def placeVerdict (v : Verdict) (s : State) : State :=
  transmitLine { s with
    verdictQueue := { s.verdictQueue with frames := s.verdictQueue.frames ++ [v] } }

/-- A verdict for a tap with a reserved place replaces the place (R2). -/
def fillReserved (v : Verdict) (s : State) : State :=
  placeVerdict v { s with
    verdictQueue := { s.verdictQueue with reserved := s.verdictQueue.reserved - 1 } }

/-- One more reserved place (R3). -/
def reservePlace (s : State) : State :=
  { s with verdictQueue := { s.verdictQueue with reserved := s.verdictQueue.reserved + 1 } }

/-- The Line link becomes Up on valid idle symbols or a frame (R172). -/
def raiseLineLink (s : State) : State :=
  transmitLine { s with linePort := { s.linePort with link := .up } }

/-! ### Office Port and Office Queue (R162, R164, R172) -/

/-- The Office Port, when its transmitter is free, its link Up and the indication ready, starts the head frame (R164, R172). -/
def transmitOffice (s : State) : State :=
  match s.officePort.link, s.officePort.ready, s.officePort.sending, s.officeQueue.frames with
  | .up, true, none, f :: _ =>
    { s with officePort := { s.officePort with sending := some (officeWire s.nodeAddress f) } }
  | _, _, _, _ => s

/-- Free entries of the Office Queue: 2,048 less the frames it holds, less the set-aside entries (R162). -/
def officeFree (s : State) : Nat :=
  Config.officeQueueSize - s.officeQueue.frames.length - s.officeQueue.setAside

/-- A frame joins the tail of the Office Queue. -/
def placeFrame (f : OfficeFrame) (s : State) : State :=
  transmitOffice { s with officeQueue := { s.officeQueue with frames := s.officeQueue.frames ++ [f] } }

/-- Entries set aside (R162). -/
def setAside (n : Nat) (s : State) : State :=
  { s with officeQueue := { s.officeQueue with setAside := s.officeQueue.setAside + n } }

/-- Set-aside entries returned, or turned over to the frame placed next (R162). -/
def returnAside (n : Nat) (s : State) : State :=
  { s with officeQueue := { s.officeQueue with setAside := s.officeQueue.setAside - n } }

/-- The office sequence count advances, from 255 to 0 (R171). -/
def advanceSequence (s : State) : State :=
  { s with officeQueue := { s.officeQueue with sequence := (s.officeQueue.sequence + 1) % 256 } }

/-- The Office link becomes Up on valid idle symbols or a frame (R172). -/
def raiseOfficeLink (s : State) : State :=
  transmitOffice { s with officePort := { s.officePort with link := .up } }

/-! ### Counters and events (R165, R166) -/

/-- A counter rises by one and stops at 4,294,967,295 (R166). -/
def bump (n : Nat) : Nat := min (n + 1) Config.max32

/-- A change of the counters. -/
def count (f : Counters → Counters) (s : State) : State :=
  { s with mgmt := { s.mgmt with counters := f s.mgmt.counters } }

/-- The count a record kind raises (R160). -/
def Counters.record : RecordKind → Counters → Counters
  | .entry, c => { c with entries := bump c.entries }
  | .refused, c => { c with refused := bump c.refused }
  | .completed, c => { c with completed := bump c.completed }
  | .cancelled, c => { c with cancelled := bump c.cancelled }
  | .incomplete, c => { c with incomplete := bump c.incomplete }
  | .spill, c => { c with spills := bump c.spills }
  | .unmatched, c => { c with unmatched := bump c.unmatched }
  | .correction, c => { c with corrections := bump c.corrections }
  | .repair, c => { c with repairs := bump c.repairs }
  | .unpriced, c => { c with unpriced := bump c.unpriced }

/-- The list of pending events with one occurrence more (R165). -/
def raiseIn (kind : EventKind) (data : EventData) (sec ms : Nat) : List PendingEvent → List PendingEvent
  | [] => [⟨kind, 1, data, sec, ms⟩]
  | e :: rest =>
      if e.kind = kind then ⟨kind, min (e.count + 1) 65535, data, sec, ms⟩ :: rest
      else e :: raiseIn kind data sec ms rest

/-- An event is raised (R165). -/
def raise (kind : EventKind) (data : EventData) (s : State) : State :=
  { s with mgmt := { s.mgmt with events := raiseIn kind data s.clock.sec s.clock.ms s.mgmt.events } }

/-! ### Records (R159) -/

/-- A record with nothing but what every record has: kind, the moment it is made, token and class, and the flag "clock free-running" (R159, R161). -/
def newRecord (s : State) (kind : RecordKind) (token : Token) (fareClass : Nat) : Record where
  kind := kind
  madeSec := s.clock.sec
  madeMs := s.clock.ms
  reference := none
  token := token
  fareClass := fareClass
  label := none
  reason := .none
  entry := none
  exit := none
  priced := none
  originalCharge := none
  related := none
  origin := none
  openJourney := none
  tap := none
  flags := { clockFreeRunning := s.clock.state == .freeRunning }

/-- A record's flags joined with more. -/
def RecordFlags.or (a b : RecordFlags) : RecordFlags where
  overstay := a.overstay || b.overstay
  continued := a.continued || b.continued
  continuationNotApplied := a.continuationNotApplied || b.continuationNotApplied
  capReached := a.capReached || b.capReached
  capUntracked := a.capUntracked || b.capUntracked
  forced := a.forced || b.forced
  answeredLate := a.answeredLate || b.answeredLate
  timeClamped := a.timeClamped || b.timeClamped
  deferred := a.deferred || b.deferred
  nilJourney := a.nilJourney || b.nilJourney
  passIgnored := a.passIgnored || b.passIgnored
  denyListed := a.denyListed || b.denyListed
  clockFreeRunning := a.clockFreeRunning || b.clockFreeRunning
  confirmed := a.confirmed || b.confirmed

/-- A record takes further flags. -/
def Record.flag (f : RecordFlags) (r : Record) : Record := { r with flags := r.flags.or f }

/-- A record takes the next free entry, its sequence number and its kind's count (R160, R171). -/
def placeRecord (r : Record) (s : State) : State :=
  count (Counters.record r.kind)
    (placeFrame (.record s.officeQueue.sequence r) (advanceSequence s))

/-- A record takes one of the entries set aside for it (R162). -/
def placeRecordAside (r : Record) (s : State) : State :=
  placeRecord r (returnAside 1 s)

/-! ### The arbiter (R61, R62, R63) -/

/-- A requester has a waiting request. -/
def Arbiter.waiting (a : Arbiter) : Requester → Bool
  | .reckoner => a.reckonerWaiting
  | .sweep => a.sweepWaiting
  | .management => a.managementWaiting

/-- A requester's waiting request is set or cleared and its wait count is 0. -/
def Arbiter.mark (waiting : Bool) (a : Arbiter) : Requester → Arbiter
  | .reckoner => { a with reckonerWaiting := waiting }
  | .sweep => { a with sweepWaiting := waiting, sweepWait := 0 }
  | .management => { a with managementWaiting := waiting, managementWait := 0 }

/-- The wait counts of the waiting requesters rise by one and stop at their maximum (R61). -/
def Arbiter.passOver (a : Arbiter) : Arbiter :=
  { a with
    managementWait := if a.managementWaiting then min (a.managementWait + 1) 4 else a.managementWait
    sweepWait := if a.sweepWaiting then min (a.sweepWait + 1) 16 else a.sweepWait }

/-- The store is granted to a requester (R61). -/
def Arbiter.grant (a : Arbiter) (r : Requester) : Arbiter :=
  { ((a.mark false r).passOver) with holder := some r }

/-- A request reaches the arbiter (R61). -/
def Arbiter.request (a : Arbiter) (r : Requester) : Arbiter :=
  match a.holder with
  | none => a.grant r
  | some _ => a.mark true r

/-- The waiting requester that is granted next (R62). -/
def Arbiter.choose (spillMode : Bool) (a : Arbiter) : Option Requester :=
  if a.managementWaiting && 4 ≤ a.managementWait then some .management
  else if a.sweepWaiting && (if spillMode then 4 else 16) ≤ a.sweepWait then some .sweep
  else if a.reckonerWaiting then some .reckoner
  else if a.managementWaiting then some .management
  else if a.sweepWaiting then some .sweep
  else none

/-- The store falls free and a waiting requester, if any, is granted at once (R61, R62). -/
def Arbiter.release (spillMode : Bool) (a : Arbiter) : Arbiter :=
  let free := { a with holder := none }
  match free.choose spillMode with
  | some r => free.grant r
  | none => free

/-- A requester withdraws its waiting request (R63). -/
def Arbiter.withdraw (a : Arbiter) (r : Requester) : Arbiter :=
  if a.waiting r then a.mark false r else a

/-- A change of the arbiter. -/
def onArbiter (f : Arbiter → Arbiter) (s : State) : State :=
  { s with store := { s.store with arbiter := f s.store.arbiter } }

/-- Who holds the store. -/
def holder (s : State) : Option Requester := s.store.arbiter.holder

/-! ### The grant (R12, R121, R156) -/

/-- The other turn (R121). -/
def Turn.other : Turn → Turn
  | .account => .journey
  | .journey => .account

/-- The kind of visit the Sweep decides on at its grant (R121). -/
def Sweep.visit (w : Sweep) : Visit :=
  if w.purgePending ∧ w.turn = .account then .account
  else if w.spillMode then .spill
  else .cursor

/-- What is read at the grant of the store to its holder (log 8). -/
def grantReading (s : State) : GrantReading where
  sec := s.clock.sec
  serviceDay := s.clock.serviceDay
  denied := (s.reckoner.map (fun t => s.tables.denyList.contains t.entry.tap.token)).getD false
  visit := s.sweep.visit

/-- The Sweep at a grant: during a purge pass its own grant passes the turn to the other kind (R121). -/
def passTurn (s : State) : Sweep :=
  if holder s = some .sweep ∧ s.sweep.purgePending then { s.sweep with turn := s.sweep.turn.other }
  else s.sweep

/-- The holder's grant is read (log 8). -/
def readGrant (s : State) : State :=
  { s with store := { s.store with grant := grantReading s }, sweep := passTurn s }

/-- A change of the arbiter; a grant that it makes is read at once (R61, R62). -/
def arbitrate (f : Arbiter → Arbiter) (s : State) : State :=
  if holder s = none ∧ holder (onArbiter f s) ≠ none then readGrant (onArbiter f s)
  else onArbiter f s

/-- A requester asks for the store. -/
def requestStore (r : Requester) (s : State) : State :=
  arbitrate (fun a => a.request r) s

/-! ### Generation slots (R129, R141, R142) -/

/-- The other slot. -/
def SlotId.other : SlotId → SlotId
  | .a => .b
  | .b => .a

/-- A slot by name. -/
def TableStore.slot (t : TableStore) : SlotId → Slot
  | .a => t.slotA
  | .b => t.slotB

/-- A slot replaced. -/
def TableStore.put (t : TableStore) (x : SlotId) (v : Slot) : TableStore :=
  match x with
  | .a => { t with slotA := v }
  | .b => { t with slotB := v }

/-- A slot's label: its Policy record's (R129). -/
def Slot.label (v : Slot) : Option Nat := v.tables.policy.map Policy.label

/-- A slot of the state. -/
def slotOf (s : State) (x : SlotId) : Slot := s.tables.slot x

/-- A slot of the state replaced. -/
def putSlot (x : SlotId) (v : Slot) (s : State) : State :=
  { s with tables := s.tables.put x v }

/-- The slot in a given state, slot A first; at most one is Active, and at most one is loading (R134). -/
def slotIn (p : SlotState → Bool) (s : State) : Option SlotId :=
  if p s.tables.slotA.state then some .a
  else if p s.tables.slotB.state then some .b
  else none

/-- The Active slot (R129). -/
def activeSlot (s : State) : Option SlotId := slotIn (· == .active) s

/-- The label of the Active slot. -/
def activeLabel (s : State) : Option Nat :=
  (activeSlot s).bind (fun x => (slotOf s x).label)

/-- The watched effective time: that of the Pending slot (R148, R157). -/
def watchedTime (s : State) : Option Nat :=
  (slotIn (· == .pending) s).bind (fun x => (slotOf s x).effective)

/-- What a pricing under a slot reads (R36). -/
def fareContext (s : State) (x : SlotId) : FareContext :=
  ⟨(slotOf s x).tables, s.mgmt.settings.rolloverMinute⟩

/-- A slot becomes Free, its tables and label discarded, with Generation Freed (R141, R142). -/
def freeWithEvent (x : SlotId) (s : State) : State :=
  raise .generationFreed (.generation x (((slotOf s x).label).getD 0)) (putSlot x Slot.freed s)

/-- The message of an admission under a tag (R69, R142). -/
def noteAdmission (x : SlotId) (s : State) : State :=
  putSlot x { slotOf s x with refCount := (slotOf s x).refCount + 1 } s

/-- The message of a closing under a tag (R69, R142). -/
def noteClosing (x : SlotId) (s : State) : State :=
  let v := slotOf s x
  if v.state = .retiring ∧ v.refCount - 1 = 0 then freeWithEvent x s
  else putSlot x { v with refCount := v.refCount - 1 } s

/-! ### Request slots (R174) -/

/-- A change of the held requests. -/
def onRequests (f : List HeldRequest → List HeldRequest) (s : State) : State :=
  { s with mgmt := { s.mgmt with requests := f s.mgmt.requests } }

/-- The oldest request taken and not yet carried out (log 5). -/
def nextTaken (s : State) : Option HeldRequest :=
  s.mgmt.requests.find? (fun r => r.phase == .taken)

/-- The oldest request taken goes on to a phase. -/
def advanceTaken (p : Phase) (s : State) : State :=
  onRequests (modifyFirst (fun r => r.phase == .taken) (fun r => { r with phase := p })) s

/-- The oldest request taken has its reply made; it waits for room (R174). -/
def answerTaken (reply : Reply) (s : State) : State :=
  advanceTaken (.replyDue reply) s

/-- Done with a result. -/
def Reply.done (result : ReplyResult) : Reply := ⟨.done, .none, result⟩

/-- Refused for a reason that carries no result (R173). -/
def Reply.refused (reason : ReplyReason) : Reply := ⟨.refused, reason, .nothing⟩

/-- Malformed (R174). -/
def Reply.malformed : Reply := ⟨.malformed, .none, .nothing⟩

/-- Aborted (R83, R137, R144). -/
def Reply.aborted : Reply := ⟨.aborted, .none, .nothing⟩

/-- Busy (R174). -/
def Reply.busy : Reply := ⟨.busy, .none, .nothing⟩

/-- COPY ACTIVE. -/
def Request.isCopy : Request → Bool
  | .copyActive _ => true
  | _ => false

/-- ACTIVATE. -/
def Request.isActivate : Request → Bool
  | .activate _ _ => true
  | _ => false

/-- RESTART. -/
def Request.isRestart : Request → Bool
  | .restart => true
  | _ => false

/-- The operation of a kind that holds its request slot ends with a reply (R174). -/
def answerUnderway (kind : Request → Bool) (reply : Reply) (s : State) : State :=
  onRequests (modifyFirst (fun r => r.phase == .underway && kind r.request)
    (fun r => { r with phase := .replyDue reply })) s

/-- The position of a held request in the order taken. -/
def heldIndex : Held → Nat
  | .earlier => 0
  | .later => 1

/-- A reply takes its entry in the Office Queue (R171, R174). -/
def placeReply (r : HeldRequest) (reply : Reply) (s : State) : State :=
  placeFrame (.reply r.sequence r.number r.code reply) s

/-- Entries a journey operation sets aside (R162). -/
def entriesNeeded : Request → Nat
  | .journeyClose _ _ _ => 2
  | _ => 1

/-- A journey operation that has not yet come to the store, ready or not. -/
def HeldRequest.isWaitingOperation (r : HeldRequest) : Bool :=
  r.phase == .waitingEntries || r.phase == .ready

/-! ### The swap (R141) -/

/-- The slot that was Active once another has become so (R141): Retiring while journeys are tagged with it, else Free with its event. -/
def retireSlot (x : SlotId) (s : State) : State :=
  if (slotOf s x).state = .active then
    if 0 < (slotOf s x).refCount then putSlot x { slotOf s x with state := .retiring } s
    else freeWithEvent x s
  else s

/-- The swap is made (R141). Generation Active is raised before Generation Freed. -/
def makeSwap (x : SlotId) (s : State) : State :=
  let s1 := putSlot x { slotOf s x with state := .active, effective := none } s
  let s2 := raise .generationActive (.generation x (((slotOf s x).label).getD 0)) s1
  let s3 := retireSlot x.other s2
  let s4 := answerUnderway Request.isActivate (.done (.activated true)) s3
  { s4 with tables := { s4.tables with swapDue := none } }

/-- A due swap is made unless the Reckoner holds the Journey Store (R141). -/
def settleSwap (s : State) : State :=
  match s.tables.swapDue with
  | some x => if holder s = some .reckoner then s else makeSwap x s
  | none => s

/-! ### The release of the store (R60, R61, R141) -/

/-- The store falls free: no one holds it. -/
def Arbiter.vacate (a : Arbiter) : Arbiter := { a with holder := none }

/-- The holder releases the store. A due swap that waited for the Reckoner's release, or whose step has not been taken yet, is made before the arbiter's next grant, which reads the new Active slot (R141); spill mode is read at the grant (R62). -/
def releaseStore (s : State) : State :=
  let s1 := settleSwap (onArbiter Arbiter.vacate s)
  arbitrate (Arbiter.release s1.sweep.spillMode) s1

/-- The Management Unit has a request at the arbiter or holds the store (R60). -/
def managementOutstanding (s : State) : Bool :=
  s.mgmt.drain.presented || s.mgmt.requests.any (fun r => r.phase == .presented)

/-- The Management Unit, with no request outstanding, presents its earliest-taken journey operation once that one has set aside its entries (R60, R83, log 23). -/
def presentNext (s : State) : State :=
  if managementOutstanding s then s
  else match s.mgmt.requests.find? HeldRequest.isWaitingOperation with
    | some r =>
      if r.phase = .ready then
        requestStore .management (onRequests
          (modifyFirst (fun r => r.phase == .ready) (fun r => { r with phase := .presented })) s)
      else s
    | none => s

/-- The operation whose request for the store is at the arbiter or granted. -/
def presentedOperation (s : State) : Option HeldRequest :=
  s.mgmt.requests.find? (fun r => r.phase == .presented)

/-- The presented operation has ended: its slot is freed, the store is released, and the next operation is presented (R60, R83). -/
def endOperation (s : State) : State :=
  presentNext (releaseStore
    (onRequests (fun l => l.eraseP (fun r => r.phase == .presented)) s))

/-! ### Spill mode (R124) -/

/-- The Sweep compares the occupancy with the marks (R124). -/
def compareMarks (s : State) : State :=
  let occupancy := s.store.journeys.length
  if s.sweep.spillMode then
    if occupancy ≤ s.mgmt.settings.lowMark then
      raise .pressureOff (.occupancy occupancy) { s with sweep := { s.sweep with spillMode := false } }
    else s
  else if s.mgmt.settings.highMark ≤ occupancy then
    raise .pressureOn (.occupancy occupancy) { s with sweep := { s.sweep with spillMode := true } }
  else s

/-! ### The Journey Table and the admission list (R64, R67, R70) -/

/-- Set index of a token in the Journey Table: its six groups by exclusive OR (R64). -/
def journeySet (t : Token) : Nat :=
  (t.extractLsb' 0 12 ^^^ t.extractLsb' 12 12 ^^^ t.extractLsb' 24 12 ^^^ t.extractLsb' 36 12
    ^^^ t.extractLsb' 48 12 ^^^ (t.extractLsb' 60 4).setWidth 12).toNat

/-- The open journey of a token (R64). -/
def findJourney (s : State) (t : Token) : Option JourneyWay :=
  s.store.journeys.find? (fun w => w.slot / 4 == journeySet t && w.journey.token == t)

/-- The journey a slot holds (R122). -/
def journeyAt (s : State) (slot : Nat) : Option JourneyWay :=
  s.store.journeys.find? (fun w => w.slot == slot)

/-- The lowest-numbered way of a set that is not among those held (R64, R89). -/
def freeWay (set : Nat) (held : List Nat) : Option Nat :=
  [set * 4, set * 4 + 1, set * 4 + 2, set * 4 + 3].find? (fun n => !held.contains n)

/-- The journey removed from its way and from the admission list (R70). -/
def removeJourney (slot : Nat) (s : State) : State :=
  { s with store := { s.store with journeys := s.store.journeys.filter (fun w => w.slot != slot) } }

/-- The act of closing a journey (R70): the way is freed, the occupancy reported, the tag's count message sent (log 25). -/
def closeJourney (w : JourneyWay) (s : State) : State :=
  noteClosing w.journey.tag (compareMarks (removeJourney w.slot s))

/-- A reference is taken from the counter, which advances by one, from 4,294,967,295 to 1 (R68). -/
def takeReference (s : State) : State :=
  { s with store := { s.store with
      nextReference := if s.store.nextReference = Config.max32 then 1 else s.store.nextReference + 1 } }

/-! ### The Day Account Table (R86 to R91) -/

/-- Set index of a token in the Day Account Table: its five groups by exclusive OR (R86). -/
def accountSet (t : Token) : Nat :=
  (t.extractLsb' 0 13 ^^^ t.extractLsb' 13 13 ^^^ t.extractLsb' 26 13 ^^^ t.extractLsb' 39 13
    ^^^ (t.extractLsb' 52 12).setWidth 13).toNat

/-- The account of a token and a service day (R86). -/
def findAccount (s : State) (t : Token) (day : Nat) : Option AccountWay :=
  s.store.accounts.find?
    (fun w => w.slot / 4 == accountSet t && w.account.token == t && w.account.day == day)

/-- A record is old when its service day is less than the current service day, as read at the grant, less 3; below day 4 none is (R90, R127, R156). -/
def isOld (s : State) (a : Account) : Bool := a.day + 3 < s.store.grant.serviceDay

/-- The way of the lowest service day, the lowest-numbered among equals (R90); the list is in slot order. -/
def lowestDay : List AccountWay → Option AccountWay
  | [] => none
  | w :: rest =>
      match lowestDay rest with
      | some v => if v.account.day < w.account.day then some v else some w
      | none => some w

/-- The slot a new record of a token takes: the lowest free way of its set, else the old record that gives way (R89, R90). -/
def slotForNew (s : State) (t : Token) : Option Nat :=
  let inSet := s.store.accounts.filter (fun w => w.slot / 4 == accountSet t)
  match freeWay (accountSet t) (inSet.map AccountWay.slot) with
  | some n => some n
  | none => (lowestDay (inSet.filter (fun w => isOld s w.account))).map AccountWay.slot

/-- A record put into its way, in slot order, in place of what the way held. -/
def putWay (w : AccountWay) : List AccountWay → List AccountWay
  | [] => [w]
  | x :: rest =>
      if w.slot < x.slot then w :: x :: rest
      else if w.slot = x.slot then w :: rest
      else x :: putWay w rest

/-- A record at creation (R85). -/
def Account.fresh (t : Token) (day : Nat) : Account := ⟨t, day, 0, 0, none, none, none⟩

/-- An account turned out untracked: Account Full is raised at most once per service day, the one read at the grant (R91, R156). The event carries that day, not the untracked account's: R165 says only "service day" (DESIGN CHOICE, log 42). -/
def noteUntracked (s : State) : State :=
  if s.store.accountFullDay = some s.store.grant.serviceDay then s
  else raise .accountFull (.day s.store.grant.serviceDay)
    { s with store := { s.store with accountFullDay := some s.store.grant.serviceDay } }

/-- A record created in a way (R89). -/
def createAccount (slot : Nat) (t : Token) (day : Nat) (s : State) : State :=
  { s with store := { s.store with accounts := putWay ⟨slot, Account.fresh t day⟩ s.store.accounts } }

/-- Work that writes an account obtains it (R88): the slot of the record found or created, or none for an untracked account. -/
def obtainAccount (t : Token) (day : Nat) (s : State) : State × Option Nat :=
  match findAccount s t day with
  | some w => (s, some w.slot)
  | none =>
    match slotForNew s t with
    | some n => (createAccount n t day s, some n)
    | none => (noteUntracked s, none)

/-- The record a slot holds. -/
def accountAt (s : State) (slot : Nat) : Option Account :=
  (s.store.accounts.find? (fun w => w.slot == slot)).map AccountWay.account

/-- The spent amount of an obtained account; none for an untracked one. -/
def spentOf (s : State) (slot : Option Nat) : Option Nat :=
  (slot.bind (accountAt s)).map Account.spent

/-- The record of an obtained account changed; nothing for an untracked one (R91). -/
def writeAccount (slot : Option Nat) (f : Account → Account) (s : State) : State :=
  match slot with
  | some n => { s with store := { s.store with
      accounts := s.store.accounts.map (fun w => if w.slot = n then { w with account := f w.account } else w) } }
  | none => s

/-- A record freed (R127). -/
def removeAccount (slot : Nat) (s : State) : State :=
  { s with store := { s.store with accounts := s.store.accounts.filter (fun w => w.slot != slot) } }

/-- Legs priced rises by one and stops at 255 (R92). -/
def Account.addLeg (a : Account) : Account := { a with legs := min (a.legs + 1) 255 }

/-- Service day of a time, with the rollover minute in force (R87). -/
def dayOf (s : State) (sec : Nat) : Nat := serviceDay s.mgmt.settings.rolloverMinute sec

/-! ### The Sweep's purge pass and the current service day (R126, R156) -/

/-- A rollover begins or restarts the purge pass (R126). -/
def beginPurge (s : State) : State :=
  { s with sweep := { s.sweep with purgePending := true, accountCursor := 0, turn := .account } }

/-- The current service day is reckoned from line time and compared with the one held (R156). -/
def reckonDay (s : State) : State :=
  let day := dayOf s s.clock.sec
  let moved := { s with clock := { s.clock with serviceDay := day } }
  if s.clock.serviceDay < day then raise .dayRollover (.day day) (beginPurge moved)
  else moved

/-! ### The firing of an activation (R140, R157) -/

/-- Line time has reached the watched effective time: the Pending slot's swap falls due, once (R157). -/
def fireActivation (s : State) : State :=
  match slotIn (· == .pending) s, watchedTime s, s.tables.swapDue with
  | some x, some t, none =>
    if t ≤ s.clock.sec then { s with tables := { s.tables with swapDue := some x } } else s
  | _, _, _ => s

end Sys2Proof.Machine
end

