-- ==== Sys2Proof/Machine/DenyList.lean ====
section
/-! DEFINITION. The Deny List requests (8.8). -/

namespace Sys2Proof.Machine

/-- The Deny List replaced. -/
def setDenyList (l : List Token) (s : State) : State :=
  { s with tables := { s.tables with denyList := l } }

/-- A token at its place in ascending order (R146). -/
def insertToken (t : Token) : List Token → List Token
  | [] => [t]
  | x :: rest => if t.toNat < x.toNat then t :: x :: rest else x :: insertToken t rest

/-- DENY ADD carried out (R146). -/
def denyAdd (t : Token) (s : State) : State :=
  if s.tables.denyList.contains t then answerTaken (Reply.refused .alreadyPresent) s
  else if Config.denyListSize ≤ s.tables.denyList.length then answerTaken (Reply.refused .listFull) s
  else answerTaken (Reply.done (.length (s.tables.denyList.length + 1)))
    (setDenyList (insertToken t s.tables.denyList) s)

/-- DENY_ADD. -/
def execDenyAdd (s : State) : Host.Outcome State Fault Refusal :=
  awake s (match (nextTaken s).map HeldRequest.request with
    | some (.denyAdd t) => denyAdd t s
    | _ => s)

/-- DENY REMOVE carried out (R146). -/
def denyRemove (t : Token) (s : State) : State :=
  if s.tables.denyList.contains t then
    answerTaken (Reply.done (.length (s.tables.denyList.erase t).length))
      (setDenyList (s.tables.denyList.erase t) s)
  else answerTaken (Reply.refused .notFound) s

/-- DENY_REMOVE. -/
def execDenyRemove (s : State) : Host.Outcome State Fault Refusal :=
  awake s (match (nextTaken s).map HeldRequest.request with
    | some (.denyRemove t) => denyRemove t s
    | _ => s)

/-- DENY_CLEAR (R147). -/
def execDenyClear (s : State) : Host.Outcome State Fault Refusal :=
  awake s (match (nextTaken s).map HeldRequest.request with
    | some .denyClear =>
      answerTaken (Reply.done (.length s.tables.denyList.length)) (setDenyList [] s)
    | _ => s)

/-- DENY_CHECK (R147). -/
def execDenyCheck (s : State) : Host.Outcome State Fault Refusal :=
  awake s (match (nextTaken s).map HeldRequest.request with
    | some (.denyCheck t) =>
      answerTaken (Reply.done
        (.denyCheck (s.tables.denyList.contains t) s.tables.denyList.length)) s
    | _ => s)

end Sys2Proof.Machine
end

