-- ==== Sys2Proof/Machine/Generations.lean ====
section
/-! DEFINITION. The life cycle of a generation slot (Chapter 8, R157). -/

namespace Sys2Proof.Machine

/-! ### TABLE_WRITE, TABLE_READ (R134, R135) -/

/-- A slot being loaded: Staging, Copying, Validating or Pending (R134). -/
def SlotState.loading : SlotState → Bool
  | .staging | .copying | .validating | .pending => true
  | .free | .active | .retiring => false

/-- The entry size of a table when the table id, first index and count are well formed (R134). -/
def tableWindow (table first n : Nat) : Option Nat :=
  match tableEntries table, entrySize table with
  | some entries, some size => if n = 0 ∨ entries < first + n then none else some size
  | _, _ => none

/-- Why a TABLE WRITE to a slot is refused (R134). -/
def writeRefusal (s : State) (x : SlotId) : Option ReplyReason :=
  match (slotOf s x).state with
  | .free => if (slotOf s x.other).state.loading then some .otherSlotLoading else none
  | .staging => none
  | .copying | .validating => some .operationInFlight
  | .pending => some .pending
  | .active => some .active
  | .retiring => some .generationBusy

/-- The tables a write is made on: a Free slot's are emptied first (R134). -/
def writeBase (v : Slot) : Tables :=
  if v.state = .free then Tables.emptied else v.tables

/-- The write itself: every entry is range-checked before any is stored (R134). -/
def writeTables (x : SlotId) (table first n : Nat) (entries : List (List Byte)) (s : State) : State :=
  match firstOutOfRange table first entries with
  | some i => answerTaken ⟨.refused, .outOfRange, .outOfRange i⟩ s
  | none =>
    answerTaken (Reply.done (.written table first n))
      (putSlot x { slotOf s x with
        state := .staging
        tables := writeEntries table first entries (writeBase (slotOf s x)) } s)

/-- TABLE WRITE carried out (R134). -/
def tableWrite (x : SlotId) (table first n : Nat) (bytes : List Byte) (s : State) : State :=
  match tableWindow table first n with
  | none => answerTaken Reply.malformed s
  | some size =>
    match writeRefusal s x with
    | some reason => answerTaken (Reply.refused reason) s
    | none => writeTables x table first n (chunks size n bytes) s

/-- TABLE_WRITE. -/
def execTableWrite (s : State) : Host.Outcome State Fault Refusal :=
  awake s (match (nextTaken s).map HeldRequest.request with
    | some (.tableWrite x table first n bytes) => tableWrite x table first n bytes s
    | _ => s)

/-- The entries a TABLE READ returns; the absent Policy record carries count 0 (R135, R173). -/
def readResult (table first n : Nat) (t : Tables) : ReplyResult :=
  if table = 8 ∧ t.policy.isNone then .entries table first 0 []
  else .entries table first n (readEntries table first n t)

/-- TABLE READ's reply by the slot's state (R135). -/
def readReply (table first n : Nat) (v : Slot) : Reply :=
  match v.state with
  | .free => Reply.refused .slotFree
  | .copying => Reply.refused .operationInFlight
  | .staging | .validating | .pending | .active | .retiring =>
      Reply.done (readResult table first n v.tables)

/-- TABLE READ carried out (R135). -/
def tableRead (x : SlotId) (table first n : Nat) (s : State) : State :=
  match tableWindow table first n with
  | none => answerTaken Reply.malformed s
  | some _ => answerTaken (readReply table first n (slotOf s x)) s

/-- TABLE_READ. -/
def execTableRead (s : State) : Host.Outcome State Fault Refusal :=
  awake s (match (nextTaken s).map HeldRequest.request with
    | some (.tableRead x table first n) => tableRead x table first n s
    | _ => s)

/-! ### COPY_ACTIVE, COPY_COMPLETE, DISCARD (R136, R137) -/

/-- Why a COPY ACTIVE to a target is refused: a Validating target by R138 whether or not a slot is Active; else the cases of R136 in the order of its list, so that without an Active slot a Pending target is refused "no active" (DESIGN CHOICE, log 43). -/
def copyRefusal (s : State) (x : SlotId) : Option ReplyReason :=
  match (slotOf s x).state, activeSlot s with
  | .validating, _ => some .operationInFlight
  | _, none => some .noActive
  | .active, _ => some .active
  | .copying, _ => some .operationInFlight
  | .pending, _ => some .pending
  | .retiring, _ => some .generationBusy
  | .free, _ | .staging, _ => none

/-- COPY ACTIVE carried out: the target becomes Copying, its tables and label discarded (R136). -/
def copyActive (x : SlotId) (s : State) : State :=
  match copyRefusal s x with
  | some reason => answerTaken (Reply.refused reason) s
  | none =>
    advanceTaken .underway (putSlot x { slotOf s x with
      state := .copying, tables := Tables.emptied, effective := none } s)

/-- COPY_ACTIVE. -/
def execCopyActive (s : State) : Host.Outcome State Fault Refusal :=
  awake s (match (nextTaken s).map HeldRequest.request with
    | some (.copyActive x) => copyActive x s
    | _ => s)

/-- The copy completes (R136). -/
def copyComplete (s : State) : State :=
  match slotIn (· == .copying) s, activeSlot s with
  | some x, some active =>
    answerUnderway Request.isCopy (Reply.done .nothing)
      (putSlot x { slotOf s x with state := .staging, tables := (slotOf s active).tables } s)
  | _, _ => s

/-- COPY_COMPLETE. -/
def execCopyComplete (s : State) : Host.Outcome State Fault Refusal :=
  awake s (copyComplete s)

/-- A swap that was due for a slot is dropped (R141). -/
def dropSwap (x : SlotId) (s : State) : State :=
  if s.tables.swapDue = some x then { s with tables := { s.tables with swapDue := none } } else s

/-- DISCARD carried out, once a due swap that nothing holds back is made (R137, R141, log 7). -/
def discard (x : SlotId) (s : State) : State :=
  match (slotOf s x).state with
  | .staging => answerTaken (Reply.done .nothing) (putSlot x Slot.freed s)
  | .pending => answerTaken (Reply.done .nothing) (dropSwap x (putSlot x Slot.freed s))
  | .copying =>
      answerTaken (Reply.done .nothing)
        (answerUnderway Request.isCopy Reply.aborted (putSlot x Slot.freed s))
  | .validating => answerTaken (Reply.refused .operationInFlight) s
  | .free => answerTaken (Reply.refused .slotFree) s
  | .active => answerTaken (Reply.refused .active) s
  | .retiring => answerTaken (Reply.refused .generationBusy) s

/-- DISCARD. -/
def execDiscard (s : State) : Host.Outcome State Fault Refusal :=
  awake s (match (nextTaken s).map HeldRequest.request with
    | some (.discard x) => discard x (settleSwap s)
    | _ => s)

/-! ### ACTIVATE, VALIDATION_COMPLETE, CANCEL (R138 to R140) -/

/-- Why an ACTIVATE is refused (R138). The slot's reason comes before "clock unset": R138 gives no order (DESIGN CHOICE, log 43). -/
def activateRefusal (s : State) (x : SlotId) (effective : Option Nat) : Option ReplyReason :=
  match (slotOf s x).state with
  | .free => some .slotFree
  | .copying | .validating => some .operationInFlight
  | .pending => some .pending
  | .active => some .active
  | .retiring => some .generationBusy
  | .staging => if effective.isSome ∧ s.clock.state = .unset then some .clockUnset else none

/-- ACTIVATE carried out: the slot becomes Validating (R138). -/
def activate (x : SlotId) (effective : Option Nat) (s : State) : State :=
  match activateRefusal s x effective with
  | some reason => answerTaken (Reply.refused reason) s
  | none =>
    advanceTaken .underway (putSlot x { slotOf s x with
      state := .validating, effective := effective } s)

/-- ACTIVATE. -/
def execActivate (s : State) : Host.Outcome State Fault Refusal :=
  awake s (match (nextTaken s).map HeldRequest.request with
    | some (.activate x effective) => activate x effective s
    | _ => s)

/-- The effective time a passed validation waits for: one later than line time (R139). -/
def laterEffective (s : State) (v : Slot) : Option Nat :=
  v.effective.filter (fun t => s.clock.sec < t)

/-- A failed validation: Staging again, the effective time discarded (R139). -/
def validationFailed (x : SlotId) (f : CheckFailure) (s : State) : State :=
  answerUnderway Request.isActivate ⟨.refused, .validation, .validation f.check f.table f.index⟩
    (putSlot x { slotOf s x with state := .staging, effective := none } s)

/-- A passed validation: Pending with a later effective time, else its swap falls due (R139, R141). -/
def validationPassed (x : SlotId) (s : State) : State :=
  match laterEffective s (slotOf s x) with
  | some _ =>
    answerUnderway Request.isActivate (Reply.done (.activated false))
      (putSlot x { slotOf s x with state := .pending } s)
  | none => { s with tables := { s.tables with swapDue := some x } }

/-- The validation completes (R139). -/
def validationComplete (s : State) : State :=
  match slotIn (· == .validating) s with
  | some x =>
    if s.tables.swapDue = some x then s
    else match validate (activeLabel s) (slotOf s x).tables with
      | some f => validationFailed x f s
      | none => validationPassed x s
  | none => s

/-- VALIDATION_COMPLETE. -/
def execValidationComplete (s : State) : Host.Outcome State Fault Refusal :=
  awake s (validationComplete s)

/-- CANCEL carried out, once a due swap that nothing holds back is made (R140, R141, log 7). -/
def cancel (x : SlotId) (s : State) : State :=
  match (slotOf s x).state with
  | .pending =>
      answerTaken (Reply.done .nothing)
        (dropSwap x (putSlot x { slotOf s x with state := .staging, effective := none } s))
  | .validating => answerTaken (Reply.refused .operationInFlight) s
  | .free | .staging | .copying | .active | .retiring => answerTaken (Reply.refused .notPending) s

/-- CANCEL. -/
def execCancel (s : State) : Host.Outcome State Fault Refusal :=
  awake s (match (nextTaken s).map HeldRequest.request with
    | some (.cancel x) => cancel x (settleSwap s)
    | _ => s)

/-! ### ACTIVATION_FIRING, SWAP (R141, R157) -/

/-- ACTIVATION_FIRING: the comparison that RAW_TICK and TIME_MARK make at their own moments (log 7). -/
def execActivationFiring (s : State) : Host.Outcome State Fault Refusal :=
  awake s (fireActivation s)

/-- SWAP. -/
def execSwap (s : State) : Host.Outcome State Fault Refusal :=
  awake s (settleSwap s)

end Sys2Proof.Machine
end

