-- ==== Sys2Proof/Machine/Journeys.lean ====
section
/-! DEFINITION. Journey handling in a Journey Store transaction (Chapters 4, 5 and 6): closings, entries, exits, Corrections and Repairs. Each handling answers the changed store, the records in the order produced, and what the gate is told. -/

namespace Sys2Proof.Machine

/-- What a handling of a tap leaves: the state, its records, oldest first, and its answer (R7). -/
structure Handled where
  st : State
  records : List Record
  answer : Answer
  deriving DecidableEq, Repr

/-- What a closing leaves: the state and the closing record (R70). -/
structure Closed where
  st : State
  record : Record
  deriving DecidableEq, Repr

/-! ### Closings (R70, R73, R82, R123, R125) -/

/-- The continuation origin a record carries (R159). -/
def Journey.origin (j : Journey) : Option StationTime :=
  j.continuation.map (fun c => ⟨c.originStation, c.originTime⟩)

/-- The service day that names a journey's account (R87). -/
def journeyDay (s : State) (j : Journey) : Nat :=
  dayOf s ((j.continuation.map Continuation.originTime).getD j.entryTime)

/-- What every closing record carries of its journey (R159): reference, the tag's label, entry, continuation origin. -/
def closingRecord (s : State) (kind : RecordKind) (j : Journey) : Record :=
  { newRecord s kind j.token j.fareClass with
    reference := some j.reference
    label := (slotOf s j.tag).label
    entry := some ⟨j.entryStation, j.entryTime⟩
    origin := j.origin }

/-- The last incomplete is set (R95). -/
def writeLastIncomplete (slot : Option Nat) (l : LastIncomplete) (s : State) : State :=
  writeAccount slot (fun a => { a with lastIncomplete := some l }) s

/-- The flag "cap untracked" of an account that could not be held (R91). -/
def untrackedFlag (slot : Option Nat) : RecordFlags := { capUntracked := slot.isNone }

/-- An open journey closes as Incomplete, priced under its tag without a path, its account's last incomplete set (R47, R73, R82, R95, R123). -/
def closeIncomplete (extra : RecordFlags) (w : JourneyWay) (s : State) : Closed :=
  let j := w.journey
  let (s1, slot) := obtainAccount j.token (journeyDay s j) s
  let p := incompletePricing (fareContext s1 j.tag) j.fareClass j.entryStation j.entryTime
    j.continuation none
  let s2 := writeLastIncomplete slot
    ⟨j.entryStation, j.entryTime, j.fareClass, p.charge, j.reference⟩ s1
  { st := closeJourney w s2
    record := ({ closingRecord s2 .incomplete j with priced := some p.priced }).flag
      ((untrackedFlag slot).or (j.marks.or extra)) }

/-- An open journey closes as Cancelled against a later-timed entry: charge 0, no account (R73, R98). -/
def closeCancelled (w : JourneyWay) (s : State) : Closed :=
  let j := w.journey
  { st := closeJourney w s
    record := { closingRecord s .cancelled j with
      priced := some (cancelledPricing (slotOf s j.tag).tables j.entryStation).priced } }

/-- A Spill record (R75, R125): the whole open journey record (log 17). -/
def spillRecord (s : State) (j : Journey) : Record :=
  ({ closingRecord s .spill j with openJourney := some j }).flag j.marks

/-- An open journey closes as a Spill, its occupancy reported (R83, R125). -/
def closeSpill (w : JourneyWay) (s : State) : Closed :=
  { st := closeJourney w s, record := spillRecord s w.journey }

/-! ### Entries (R71 to R75) -/

/-- The tap of an entry under handling: the tap, its tap time, whether that was clamped, and the slot Active at the grant (R66). -/
structure EntryWork where
  tap : Tap
  tapTime : Nat
  clamped : Bool
  slot : SlotId
  deriving DecidableEq, Repr

/-- Outcomes of the comparison of R71. -/
inductive EntryOutcome where
  | duplicate
  | cancelled
  | incomplete
  deriving DecidableEq, Repr

/-- The comparison of an entry tap with the token's open journey (R71). Under a same-station grace of 0 min a size of 1 s up to the duplicate window meets both the Duplicate row and the row beyond the grace; the table gives no order, and Duplicate is taken (DESIGN CHOICE, log 47). -/
def compareEntry (p : Policy) (j : Journey) (station tapTime : Nat) : EntryOutcome :=
  let size := (tapTime - j.entryTime) + (j.entryTime - tapTime)
  if j.entryStation = station then
    if size ≤ p.duplicateWindow then .duplicate
    else if size ≤ p.graceSeconds then .cancelled
    else .incomplete
  else .incomplete

/-- The continuation part an entry receives (R74): from a last exit at the entry station within the continuation window, in the account of the tap's own service day. -/
def continuationFor (s : State) (e : EntryWork) : Option Continuation :=
  let p := (slotOf s e.slot).tables.policyOf
  match (findAccount s e.tap.token (dayOf s e.tapTime)).bind (fun w => w.account.lastExit) with
  | some l =>
    if p.continuationWindow ≠ 0 ∧ l.station = e.tap.station ∧ l.exitTime ≤ e.tapTime
        ∧ e.tapTime - l.exitTime ≤ p.windowSeconds then
      some ⟨l.originStation, l.originTime, l.chargedSoFar, l.nilSoFar⟩
    else none
  | none => none

/-- The deadline of an admission (R66). -/
def deadlineFor (s : State) (e : EntryWork) : Nat :=
  let due := e.tapTime + (slotOf s e.slot).tables.policyOf.maxSeconds
  min Config.max32
    (if e.tap.deferred then max due (s.store.grant.sec + s.mgmt.settings.deferredGrace * 60)
    else due)

/-- The open journey record written at admission (R65, R66, R75). -/
def admittedJourney (s : State) (e : EntryWork) : Journey where
  token := e.tap.token
  reference := s.store.nextReference
  fareClass := e.tap.fareClass
  entryStation := e.tap.station
  entryTime := e.tapTime
  pass := e.tap.pass
  tag := e.slot
  continuation := continuationFor s e
  deferred := e.tap.deferred
  admissionTime := s.store.grant.sec
  deadline := deadlineFor s e
  entryClamped := e.clamped

/-- Room in a set (R75): its lowest free way, or the way whose journey stands earliest in the admission list, spilled. A set-full admission reports the occupancy once, when it is whole again (R124, log 25). -/
def makeRoom (set : Nat) (s : State) : State × List Record × Nat :=
  let inSet := s.store.journeys.filter (fun w => w.slot / 4 == set)
  match freeWay set (inSet.map JourneyWay.slot), inSet with
  | some n, _ => (s, [], n)
  | none, w :: _ =>
      (noteClosing w.journey.tag (removeJourney w.slot s), [spillRecord s w.journey], w.slot)
  | none, [] => (s, [], set * 4)

/-- The journey joins the tail of the admission list; the occupancy is reported and the tag's count message sent (R69, R75). -/
def appendJourney (w : JourneyWay) (s : State) : State :=
  noteAdmission w.journey.tag (compareMarks
    { s with store := { s.store with journeys := s.store.journeys ++ [w] } })

/-- Step 4: admission (R75), after the records of what the transaction closed before. -/
def admitEntry (e : EntryWork) (before : List Record) (s : State) : Handled :=
  let j := admittedJourney s e
  let (s1, spilled, n) := makeRoom (journeySet e.tap.token) s
  { st := appendJourney ⟨n, j⟩ (takeReference s1)
    records := before ++ spilled ++
      [({ newRecord s .entry j.token j.fareClass with
          reference := some j.reference
          label := (slotOf s e.slot).label
          entry := some ⟨j.entryStation, j.entryTime⟩ }).flag
        { continued := j.continuation.isSome }]
    answer := { Answer.withReference .go j.reference with continued := j.continuation.isSome } }

/-- The new entry, the earlier-timed of the two, is closed in this transaction without being admitted (R73). -/
def closeNewEntry (cancelled : Bool) (e : EntryWork) (s : State) : Handled :=
  let reference := s.store.nextReference
  let s0 := takeReference s
  let base := fun (st : State) (kind : RecordKind) =>
    { newRecord st kind e.tap.token e.tap.fareClass with
      reference := some reference
      label := (slotOf st e.slot).label
      entry := some ⟨e.tap.station, e.tapTime⟩ }
  if cancelled then
    { st := s0
      records := [{ base s0 .cancelled with
        priced := some (cancelledPricing (slotOf s0 e.slot).tables e.tap.station).priced }]
      answer := Answer.withReference .go reference }
  else
    let (s1, slot) := obtainAccount e.tap.token (dayOf s e.tapTime) s0
    let p := incompletePricing (fareContext s1 e.slot) e.tap.fareClass e.tap.station e.tapTime none none
    let s2 := writeLastIncomplete slot
      ⟨e.tap.station, e.tapTime, e.tap.fareClass, p.charge, reference⟩ s1
    { st := s2
      records := [({ base s2 .incomplete with priced := some p.priced }).flag (untrackedFlag slot)]
      answer := Answer.withReference .go reference }

/-- Steps 1 to 4 of entry handling (R71 to R75), for a live entry and for a deferred one (R109, R110). -/
def handleEntry (e : EntryWork) (s : State) : Handled :=
  match findJourney s e.tap.token with
  | none => admitEntry e [] s
  | some w =>
    let j := w.journey
    match compareEntry (slotOf s e.slot).tables.policyOf j e.tap.station e.tapTime with
    | .duplicate =>
      { st := s
        records := []
        answer := { Answer.withReference .go j.reference with continued := j.continuation.isSome } }
    | .cancelled =>
      if j.entryTime ≤ e.tapTime then
        let c := closeCancelled w s
        admitEntry e [c.record] c.st
      else closeNewEntry true e s
    | .incomplete =>
      if j.entryTime ≤ e.tapTime then
        let c := closeIncomplete {} w s
        admitEntry e [c.record] c.st
      else closeNewEntry false e s

/-- An entry refused or not admitted: one record and an answer, no journey state touched (R12, R13). -/
def entryTurnedAway (kind : RecordKind) (reason : Reason) (answer : Answer) (e : EntryWork) (s : State) :
    Handled where
  st := s
  records := [{ newRecord s kind e.tap.token e.tap.fareClass with
    label := (slotOf s e.slot).label
    reason := reason
    entry := some ⟨e.tap.station, e.tapTime⟩ }]
  answer := answer

/-- Screening step 4, against the Deny List as it stood at the grant, and live entry handling (R12, R71). -/
def liveEntry (e : EntryWork) (s : State) : Handled :=
  let t := (slotOf s e.slot).tables
  let refuse := fun reason => entryTurnedAway .refused reason (Answer.plain .refused reason) e s
  if !stationPresent t e.tap.station then refuse .stationUnknown
  else if !(classEntry t e.tap.fareClass).permitted then refuse .classBarred
  else if s.store.grant.denied then refuse .denyList
  else handleEntry e s

/-! ### Last exits (R92 to R97) -/

/-- The last exit an account takes (R92, R93, R97): origin and charged-so-far figure are the pricing's where it hands them back, else the entry's own and the charge. -/
def lastExitOf (entry exit : StationTime) (p : Pricing) (nil : Bool) (reference : Nat) : LastExit where
  station := exit.station
  exitTime := exit.time
  originStation := (p.origin.getD entry).station
  originTime := (p.origin.getD entry).time
  chargedSoFar := p.chargedSoFar.getD p.charge
  nilSoFar := nil
  shownCharge := p.charge
  reference := reference

/-- An account takes a priced exit: spent, legs priced and last exit (R92, R93, R97). -/
def writeExit (slot : Option Nat) (p : Pricing) (l : LastExit) (s : State) : State :=
  writeAccount slot (fun a =>
    ({ a with spent := p.spentAfter.getD a.spent, lastExit := some l }).addLeg) s

/-- The flags of a record whose close set a last exit (R58, R91, R94). -/
def exitFlags (slot : Option Nat) (p : Pricing) (nil : Bool) : RecordFlags :=
  (p.flags.or (untrackedFlag slot)).or { nilJourney := slot.isSome && nil }

/-! ### Matched exits (R76 to R78, R82) -/

/-- The continuation a full pricing applied (R49, R94). -/
def appliedOf (j : Journey) (p : Pricing) : Option Continuation :=
  if p.continued then j.continuation else none

/-- A journey closes as Completed with an obtained account, a pricing and an exit (R78, R82, R92, R93). -/
def closeCompleted (extra : RecordFlags) (w : JourneyWay) (exit : StationTime) (slot : Option Nat)
    (p : Pricing) (s : State) : Closed :=
  let j := w.journey
  let nil := nilSoFar p.charge (appliedOf j p)
  let s1 := writeExit slot p (lastExitOf ⟨j.entryStation, j.entryTime⟩ exit p nil j.reference) s
  { st := closeJourney w s1
    record := ({ closingRecord s1 .completed j with
        exit := some exit
        priced := some p.priced }).flag ((exitFlags slot p nil).or extra) }

/-- The Go of an exit (R14, R78): charge, reference, "cap reached" and "continued". -/
def exitAnswer (p : Pricing) (reference : Nat) : Answer :=
  { Answer.withReference .go reference with
    charge := some p.charge
    capReached := p.capReached
    continued := p.continued }

/-- A matched exit at a station absent from the tag: the journey closes Unpriced (R77). -/
def exitStationUnknown (w : JourneyWay) (exit : StationTime) (s : State) : Handled where
  st := closeJourney w s
  records := [{ closingRecord s .unpriced w.journey with
    reason := .stationUnknown
    exit := some exit }]
  answer := Answer.withReference .goPending w.journey.reference

/-- The pass applied to an exit of an open journey (R28). -/
def exitPass (j : Journey) (tap : Tap) : Option Pass := j.pass.or tap.pass

/-- An exit beyond the maximum journey time: Completed flagged "overstay" (R48, R78, R93). The path, and so the pass, is judged on the journey's own entry day, also where it has a continuation part (R29; DESIGN CHOICE, log 45). -/
def exitOverstay (w : JourneyWay) (tap : Tap) (exit : StationTime) (s : State) : Handled :=
  let j := w.journey
  let (s1, slot) := obtainAccount j.token (journeyDay s j) s
  let g := fareContext s1 j.tag
  let path := (reckonPath g.tables j.entryStation exit.station (exitPass j tap)
    (serviceDay g.rollover j.entryTime)).toOption
  let p := incompletePricing g j.fareClass j.entryStation j.entryTime j.continuation path
  let c := closeCompleted { overstay := true } w exit slot p s1
  ⟨c.st, [c.record], exitAnswer p j.reference⟩

/-- A same-station exit within the grace: Cancelled, no account (R46, R78, R98). -/
def exitCancelled (w : JourneyWay) (exit : StationTime) (s : State) : Handled :=
  let j := w.journey
  let p := cancelledPricing (slotOf s j.tag).tables j.entryStation
  { st := closeJourney w s
    records := [{ closingRecord s .cancelled j with
      exit := some exit
      priced := some p.priced }]
    answer := exitAnswer p j.reference }

/-- A same-station exit beyond the grace: Completed at the same-station charge (R46, R78). -/
def exitSameStation (w : JourneyWay) (exit : StationTime) (s : State) : Handled :=
  let j := w.journey
  let (s1, slot) := obtainAccount j.token (journeyDay s j) s
  let p := sameStationPricing (slotOf s1 j.tag).tables j.fareClass j.entryStation j.entryTime
    (spentOf s1 slot)
  let c := closeCompleted {} w exit slot p s1
  ⟨c.st, [c.record], exitAnswer p j.reference⟩

/-- A journey priced in full to an exit station and time, with its account obtained; none where the Path Unit finds a station absent (R37). -/
def priceJourney (w : JourneyWay) (pass : Option Pass) (exit : StationTime) (s : State) :
    Option (State × Option Nat × Pricing) :=
  let j := w.journey
  let (s1, slot) := obtainAccount j.token (journeyDay s j) s
  (fullPricing (fareContext s1 j.tag) j.fareClass j.entryStation j.entryTime exit.station pass
    j.continuation (spentOf s1 slot)).map (fun p => (s1, slot, p))

/-- An exit priced in full: Completed (R78). -/
def exitFull (w : JourneyWay) (tap : Tap) (exit : StationTime) (s : State) : Handled :=
  match priceJourney w (exitPass w.journey tap) exit s with
  | some (s1, slot, p) =>
    let c := closeCompleted {} w exit slot p s1
    ⟨c.st, [c.record], exitAnswer p w.journey.reference⟩
  | none => exitStationUnknown w exit s

/-- A matched exit (R77, R78). -/
def matchedExit (w : JourneyWay) (tap : Tap) (tapTime : Nat) (s : State) : Handled :=
  let j := w.journey
  let t := (slotOf s j.tag).tables
  let exit : StationTime := ⟨tap.station, tapTime⟩
  if !stationPresent t tap.station then exitStationUnknown w exit s
  else if t.policyOf.maxSeconds < journeyTime j.entryTime tapTime then exitOverstay w tap exit s
  else if tap.station = j.entryStation ∧ j.continuation.isNone then
    if withinGrace t j.entryTime tapTime then exitCancelled w exit s
    else exitSameStation w exit s
  else exitFull w tap exit s

/-! ### Exits without an open journey (R80, R99, R112 to R115) -/

/-- The accounts a late settlement reads: that of a service day and that of the day before, when there is one (R99, R112). -/
def dayAndBefore (s : State) (t : Token) (day : Nat) : List AccountWay :=
  (findAccount s t day).toList ++ (if day = 0 then [] else (findAccount s t (day - 1)).toList)

/-- The last exit an exit repeats (R99). -/
def duplicateExit (s : State) (x : SlotId) (t : Token) (station tapTime : Nat) : Option LastExit :=
  (dayAndBefore s t (dayOf s tapTime)).findSome? fun w =>
    match w.account.lastExit with
    | some l =>
      if l.station = station ∧ (tapTime - l.exitTime) + (l.exitTime - tapTime)
          ≤ (slotOf s x).tables.policyOf.duplicateWindow then some l else none
    | none => none

/-- The account whose last incomplete an exit corrects, and that incomplete (R112). -/
def correctable (s : State) (x : SlotId) (t : Token) (station tapTime : Nat) :
    Option (Nat × LastIncomplete) :=
  let tables := (slotOf s x).tables
  (dayAndBefore s t (dayOf s tapTime)).findSome? fun w =>
    match w.account.lastIncomplete with
    | some l =>
      if l.entryTime ≤ tapTime ∧ stationPresent tables l.entryStation ∧ stationPresent tables station
        then some (w.slot, l) else none
    | none => none

/-- A confirmed Correction keeps the incomplete charge and deals it over the path (R114). -/
def confirmedPricing (g : FareContext) (l : LastIncomplete) (station : Nat) (pass : Option Pass) :
    Option Pricing :=
  (reckonPath g.tables l.entryStation station pass
      (serviceDay g.rollover l.entryTime)).toOption.map fun path =>
    { charge := l.charge
      distance := path.chargeable
      shares := dealShares path.branches path.chargeable path.startOwner l.charge
      spentAfter := none
      origin := none
      chargedSoFar := none
      passIgnored := path.pass == .ignored
      continued := false
      continuationNotApplied := false
      capReached := false
      capUntracked := false }

/-- A Correction is confirmed when its journey time exceeds the maximum (R114). -/
def correctionConfirmed (t : Tables) (l : LastIncomplete) (tapTime : Nat) : Bool :=
  t.policyOf.maxSeconds < journeyTime l.entryTime tapTime

/-- The pricing of a Correction (R113, R114). -/
def correctionPricing (g : FareContext) (l : LastIncomplete) (tap : Tap) (tapTime : Nat)
    (account : Option Nat) : Option Pricing :=
  if correctionConfirmed g.tables l tapTime then confirmedPricing g l tap.station tap.pass
  else if tap.station = l.entryStation then
    if withinGrace g.tables l.entryTime tapTime then some (cancelledPricing g.tables l.entryStation)
    else some (sameStationPricing g.tables l.fareClass l.entryStation l.entryTime account)
  else fullPricing g l.fareClass l.entryStation l.entryTime tap.station tap.pass none account

/-- A Correction carried out (R97, R115). -/
def correctExit (x : SlotId) (slot : Nat) (l : LastIncomplete) (tap : Tap) (tapTime : Nat)
    (p : Pricing) (s : State) : Handled :=
  let entry : StationTime := ⟨l.entryStation, l.entryTime⟩
  let exit : StationTime := ⟨tap.station, tapTime⟩
  let nil := nilSoFar p.charge none
  let s1 := writeExit (some slot) p (lastExitOf entry exit p nil l.reference) s
  { st := writeAccount (some slot) (fun a => { a with lastIncomplete := none }) s1
    records := [({ newRecord s .correction tap.token l.fareClass with
        reference := some l.reference
        related := some l.reference
        label := (slotOf s x).label
        entry := some entry
        exit := some exit
        priced := some p.priced
        originalCharge := some l.charge }).flag
      ((exitFlags (some slot) p nil).or
        { confirmed := correctionConfirmed (slotOf s x).tables l tapTime })]
    answer := exitAnswer p l.reference }

/-- An Unmatched exit (R80, R96). Its record carries the label of the slot Active at the grant, which the duplicate search read (R99, R143, R159, log 16). -/
def exitUnmatched (x : SlotId) (tap : Tap) (tapTime : Nat) (s : State) : Handled :=
  let reference := s.store.nextReference
  let (s1, slot) := obtainAccount tap.token (dayOf s tapTime) (takeReference s)
  { st := writeAccount slot (fun a => { a with
      lastUnmatched := some ⟨tap.station, tapTime, tap.fareClass, reference⟩ }) s1
    records := [({ newRecord s1 .unmatched tap.token tap.fareClass with
        reference := some reference
        label := (slotOf s1 x).label
        exit := some ⟨tap.station, tapTime⟩ }).flag (untrackedFlag slot)]
    answer := Answer.withReference .goPending reference }

/-- A Correction, or the Unmatched exit when there is none to make (R80, R112). -/
def correctOrUnmatched (x : SlotId) (tap : Tap) (tapTime : Nat) (s : State) : Handled :=
  match correctable s x tap.token tap.station tapTime with
  | some (slot, l) =>
    match correctionPricing (fareContext s x) l tap tapTime (spentOf s (some slot)) with
    | some p => correctExit x slot l tap tapTime p s
    | none => exitUnmatched x tap tapTime s
  | none => exitUnmatched x tap tapTime s

/-- An exit that finds no matching open journey (R80). -/
def exitWithoutJourney (x : SlotId) (tap : Tap) (tapTime : Nat) (s : State) : Handled :=
  match duplicateExit s x tap.token tap.station tapTime with
  | some l =>
    ⟨s, [], { Answer.withReference .go l.reference with charge := some l.shownCharge }⟩
  | none => correctOrUnmatched x tap tapTime s

/-- Exit handling, live or deferred (R76, R80, R111). -/
def handleExit (x : SlotId) (tap : Tap) (tapTime : Nat) (s : State) : Handled :=
  match findJourney s tap.token with
  | some w =>
    if w.journey.entryTime ≤ tapTime then matchedExit w tap tapTime s
    else exitWithoutJourney x tap tapTime s
  | none => exitWithoutJourney x tap tapTime s

/-! ### Deferred entries (R105 to R110) -/

/-- The last unmatched exit a deferred entry repairs, and its account's slot (R106). -/
def repairable (s : State) (e : EntryWork) : Option (Nat × LastUnmatched) :=
  let t := (slotOf s e.slot).tables
  let day := dayOf s e.tapTime
  ((findAccount s e.tap.token day).toList ++ (findAccount s e.tap.token (day + 1)).toList).findSome?
    fun w =>
      match w.account.lastUnmatched with
      | some u =>
        if e.tapTime ≤ u.exitTime ∧ u.exitTime - e.tapTime ≤ t.policyOf.maxSeconds
            ∧ stationPresent t u.station then some (w.slot, u) else none
      | none => none

/-- The repaired last unmatched is cleared in the account where it stood, while that account still stands (R97, log 39). -/
def clearUnmatched (slot : Nat) (u : LastUnmatched) (s : State) : State :=
  writeAccount (some slot) (fun a =>
    if a.lastUnmatched = some u then { a with lastUnmatched := none } else a) s

/-- A Repair carried out (R97, R107, R108); none where the Path Unit finds a station absent. Its Recorded verdict carries "cap reached" from the pricing (R104; DESIGN CHOICE, log 46). -/
def repairEntry (e : EntryWork) (home : Nat) (u : LastUnmatched) (s : State) : Option Handled :=
  let entry : StationTime := ⟨e.tap.station, e.tapTime⟩
  let exit : StationTime := ⟨u.station, u.exitTime⟩
  let (s1, slot) := obtainAccount e.tap.token (dayOf s e.tapTime) s
  (fullPricing (fareContext s1 e.slot) e.tap.fareClass e.tap.station e.tapTime u.station e.tap.pass
    none (spentOf s1 slot)).map fun p =>
      let nil := nilSoFar p.charge none
      let s2 := writeExit slot p (lastExitOf entry exit p nil u.reference) s1
      { st := clearUnmatched home u s2
        records := [({ newRecord s2 .repair e.tap.token e.tap.fareClass with
            reference := some u.reference
            related := some u.reference
            label := (slotOf s2 e.slot).label
            entry := some entry
            exit := some exit
            priced := some p.priced }).flag (exitFlags slot p nil)]
        answer := exitAnswer p u.reference }

/-- Deferred entry handling, steps 1 to 4 (R105). -/
def deferredEntry (e : EntryWork) (s : State) : Handled :=
  if !stationPresent (slotOf s e.slot).tables e.tap.station then
    entryTurnedAway .unpriced .stationUnknown (Answer.plain .recorded .none) e s
  else
    match (repairable s e).bind (fun r => repairEntry e r.1 r.2 s) with
    | some h => h
    | none => handleEntry e s

end Sys2Proof.Machine
end

