-- ==== Sys2Proof/Machine/JourneyOps.lean ====
section
/-! DEFINITION. The office's journey operations (R81, R82, R100, R163). -/

namespace Sys2Proof.Machine

/-! ### JOURNEY_QUERY, JOURNEY_CLOSE, ACCOUNT_QUERY: the requests taken -/

/-- JOURNEY_QUERY (R81). -/
def execJourneyQuery (s : State) : Host.Outcome State Fault Refusal :=
  awake s (match (nextTaken s).map HeldRequest.request with
    | some (.journeyQuery _) => advanceTaken .waitingEntries s
    | _ => s)

/-- A JOURNEY CLOSE is well formed: exit station and exit time together, the station at most 63 (R82). -/
def closeFormValid (exitStation exitTime : Option Nat) : Bool :=
  match exitStation, exitTime with
  | none, none => true
  | some x, some _ => x ≤ 63
  | _, _ => false

/-- JOURNEY_CLOSE (R82). -/
def execJourneyClose (s : State) : Host.Outcome State Fault Refusal :=
  awake s (match (nextTaken s).map HeldRequest.request with
    | some (.journeyClose _ exitStation exitTime) =>
      if closeFormValid exitStation exitTime then advanceTaken .waitingEntries s
      else answerTaken Reply.malformed s
    | _ => s)

/-- ACCOUNT_QUERY (R100). -/
def execAccountQuery (s : State) : Host.Outcome State Fault Refusal :=
  awake s (match (nextTaken s).map HeldRequest.request with
    | some (.accountQuery _ _) => advanceTaken .waitingEntries s
    | _ => s)

/-! ### JOURNEY_OPERATION_SET_ASIDE (R163) -/

/-- A waiting journey operation sets aside its entries once they are free, and its request for the store is presented in its turn (R60, R163). -/
def setAsideOperation (i : Nat) (s : State) : State :=
  match s.mgmt.requests[i]? with
  | some r =>
    if r.phase = .waitingEntries ∧ entriesNeeded r.request ≤ officeFree s then
      presentNext (setAside (entriesNeeded r.request)
        (onRequests (fun l => l.set i { r with phase := .ready }) s))
    else s
  | none => s

/-- JOURNEY_OPERATION_SET_ASIDE. -/
def execJourneyOperationSetAside (which : Held) (s : State) : Host.Outcome State Fault Refusal :=
  awake s (setAsideOperation (heldIndex which) s)

/-! ### The grants -/

/-- The journey operation the Management Unit holds the store for. -/
def grantedOperation (s : State) : Option HeldRequest :=
  if holder s = some .management ∧ s.mgmt.drain.presented = false then presentedOperation s else none

/-- An operation's reply takes a set-aside entry; what is left of its entries is returned, its slot freed and the store released (R7, R81, R82, R100). -/
def replyAndEnd (r : HeldRequest) (reply : Reply) (unused : Nat) (s : State) : State :=
  endOperation (returnAside unused (placeReply r reply (returnAside 1 s)))

/-- The reply of a JOURNEY QUERY (R81). -/
def queryReply (t : Token) (s : State) : Reply :=
  Reply.done (.journey ((findJourney s t).map
    (fun w => (w, ((slotOf s w.journey.tag).label).getD 0))))

/-- JOURNEY_QUERY_GRANT. -/
def execJourneyQueryGrant (s : State) : Host.Outcome State Fault Refusal :=
  awake s (match grantedOperation s with
    | some r =>
      match r.request with
      | .journeyQuery t => replyAndEnd r (queryReply t s) 0 s
      | _ => s
    | none => s)

/-- A forced close: the closing record takes one set-aside entry and the reply, Done, the other (R82). -/
def forcedDone (r : HeldRequest) (w : JourneyWay) (c : Closed) : State :=
  replyAndEnd r (Reply.done (.closed c.record.kind w.journey.reference
    ((c.record.priced.map Priced.charge).getD 0))) 0 (placeRecordAside c.record c.st)

/-- A refused close: the reply takes one entry and the other is returned (R82). -/
def forcedRefused (r : HeldRequest) (reason : ReplyReason) (s : State) : State :=
  replyAndEnd r (Reply.refused reason) 1 s

/-- A forced close with exit station and time: Completed by full pricing under the tag (R82). A station absent from the tag is the reason before an exit time earlier than the entry: R82's table gives no order (DESIGN CHOICE, log 43). A journey with a continuation part is priced over the combined path at its entry station too, where R82 also speaks of a path of distance 0 and a charge of 0 (R34, R49; DESIGN CHOICE, log 49). -/
def forceCompleted (r : HeldRequest) (w : JourneyWay) (exit : StationTime) (s : State) : State :=
  let j := w.journey
  if !stationPresent (slotOf s j.tag).tables exit.station then forcedRefused r .stationUnknown s
  else if exit.time < j.entryTime then forcedRefused r .timeBeforeEntry s
  else match priceJourney w j.pass exit s with
    | some (s1, slot, p) => forcedDone r w (closeCompleted { forced := true } w exit slot p s1)
    | none => forcedRefused r .stationUnknown s

/-- JOURNEY CLOSE in its grant (R82). -/
def closeGranted (r : HeldRequest) (t : Token) (exitStation exitTime : Option Nat) (s : State) : State :=
  match findJourney s t with
  | none => forcedRefused r .notFound s
  | some w =>
    match exitStation, exitTime with
    | some x, some time => forceCompleted r w ⟨x, time⟩ s
    | _, _ => forcedDone r w (closeIncomplete { forced := true } w s)

/-- JOURNEY_CLOSE_GRANT. -/
def execJourneyCloseGrant (s : State) : Host.Outcome State Fault Refusal :=
  awake s (match grantedOperation s with
    | some r =>
      match r.request with
      | .journeyClose t exitStation exitTime => closeGranted r t exitStation exitTime s
      | _ => s
    | none => s)

/-- An account in its place by ascending service day (R100). -/
def insertByDay (w : AccountWay) : List AccountWay → List AccountWay
  | [] => [w]
  | x :: rest => if w.account.day ≤ x.account.day then w :: x :: rest else x :: insertByDay w rest

/-- Every record of a token in its set, in ascending service day (R100). -/
def accountsOf (s : State) (t : Token) : List AccountWay :=
  (s.store.accounts.filter (fun w => w.slot / 4 == accountSet t && w.account.token == t)).foldr
    insertByDay []

/-- The reply of an ACCOUNT QUERY (R100). -/
def accountReply (t : Token) (day : Option Nat) (s : State) : Reply :=
  Reply.done (.accounts (match day with
    | some d => (findAccount s t d).toList
    | none => accountsOf s t))

/-- ACCOUNT_QUERY_GRANT. -/
def execAccountQueryGrant (s : State) : Host.Outcome State Fault Refusal :=
  awake s (match grantedOperation s with
    | some r =>
      match r.request with
      | .accountQuery t day => replyAndEnd r (accountReply t day s) 0 s
      | _ => s
    | none => s)

end Sys2Proof.Machine
end

