-- ==== Sys2Proof/Machine/Ports.lean ====
section
/-! DEFINITION. Pins, links, transmitters and the Office port's reception (Chapter 11, R15, R164, R169). -/

namespace Sys2Proof.Machine

/-! ### RSTN_LOW, PIN_RESET (R178) -/

/-- RSTN falls: the frames being sent are cut short and nothing is received or sent while it is low (R178). -/
def dropRstn (s : State) : State :=
  { s with
    rstnLow := true
    linePort := { s.linePort with sending := none }
    officePort := { s.officePort with sending := none } }

/-- RSTN_LOW. -/
def execRstnLow (s : State) : Host.Outcome State Fault Refusal :=
  .next (dropRstn s)

/-- The node address of a strap value: C0H plus the straps (R171). -/
def strapAddress (straps : BitVec 4) : Byte := 0xC0#8 + straps.setWidth 8

/-- The state RSTN's rise leaves: every block at its pin-reset values, the straps sampled (R178). The commands still waiting stay in their queue. -/
def resetWith (straps : BitVec 4) (s : State) : State :=
  { State.reset with
    nodeAddress := strapAddress straps
    freeIndex := s.freeIndex
    pending := s.pending }

/-- PIN_RESET. -/
def execPinReset (straps : BitVec 4) (s : State) : Host.Outcome State Fault Refusal :=
  .next (resetWith straps s)

/-! ### OFFICE_FRAME_RECEIVED (R169 to R171, R174) -/

/-- A frame not for the engine joins the Forward Queue, or is dropped when it is full (R169). -/
def forwardToLine (bytes : List Byte) (s : State) : State :=
  if s.forwardQueue.length < Config.forwardQueueSize then
    transmitLine { s with forwardQueue := s.forwardQueue ++ [bytes] }
  else count (fun c => { c with droppedOfficeToLine := bump c.droppedOfficeToLine }) s

/-- The held request a frame becomes (R174). -/
def heldFrom (f : ReceivedFrame) : HeldRequest where
  sequence := f.sequence
  number := requestNumber f
  code := requestCode f
  request := parseRequest f
  phase := if parseRequest f = .malformed then .replyDue Reply.malformed else .taken

/-- A frame for the Management Unit is taken into a free request slot, answered Busy, or discarded (R174). -/
def takeRequest (f : ReceivedFrame) (s : State) : State :=
  if s.mgmt.requests.length < 2 then onRequests (fun l => l ++ [heldFrom f]) s
  else if 1 ≤ officeFree s then placeReply (heldFrom f) Reply.busy s
  else count (fun c => { c with requestsDiscarded := bump c.requestsDiscarded }) s

/-- A whole frame at the Office port (R170, R171, R172). A link that the frame raises starts a waiting frame before the frame is handled (DESIGN CHOICE, log 26). -/
def officeFrame (bytes : List Byte) (s : State) : State :=
  let s1 := raiseOfficeLink s
  match checkFrame bytes with
  | some f => if f.destination = s.nodeAddress then takeRequest f s1 else forwardToLine bytes s1
  | none => count (fun c => { c with crcErrorsOffice := bump c.crcErrorsOffice }) s1

/-- OFFICE_FRAME_RECEIVED. -/
def execOfficeFrameReceived (bytes : List Byte) (s : State) : Host.Outcome State Fault Refusal :=
  awake s (officeFrame bytes s)

/-! ### Transmission (R15, R164, R169) -/

/-- The frame sent leaves its queue (R2, R15, R169). -/
def leaveLineQueue (source : LineSource) (s : State) : State :=
  match source with
  | .verdict => { s with verdictQueue := { s.verdictQueue with frames := s.verdictQueue.frames.tail } }
  | .forward => { s with forwardQueue := s.forwardQueue.tail }
  | .dropped => s

/-- The Line Port has sent a frame and chooses the next (R15). -/
def lineSent (s : State) : State :=
  match s.linePort.sending with
  | some f =>
    let s1 := leaveLineQueue f.source s
    transmitLine { s1 with linePort := { s1.linePort with sending := none } }
  | none => s

/-- LINE_TRANSMIT_COMPLETE. -/
def execLineTransmitComplete (s : State) : Host.Outcome State Fault Refusal :=
  awake s (lineSent s)

/-- The Office Port has sent the head frame, frees its entry and starts the next while ready (R164). -/
def officeSent (s : State) : State :=
  match s.officePort.sending with
  | some _ =>
    transmitOffice { s with
      officeQueue := { s.officeQueue with frames := s.officeQueue.frames.tail }
      officePort := { s.officePort with sending := none } }
  | none => s

/-- OFFICE_TRANSMIT_COMPLETE. -/
def execOfficeTransmitComplete (s : State) : Host.Outcome State Fault Refusal :=
  awake s (officeSent s)

/-- A ready or not-ready idle from the office: a valid idle symbol, and the indication (R164, R172). -/
def setReady (ready : Bool) (s : State) : State :=
  raiseOfficeLink { s with officePort := { s.officePort with ready := ready } }

/-- OFFICE_READY_INDICATION. -/
def execOfficeReadyIndication (ready : Bool) (s : State) : Host.Outcome State Fault Refusal :=
  awake s (setReady ready s)

/-! ### LINK_UP, LINK_DOWN (R172) -/

/-- A port's link becomes Up (R172). -/
def raiseLink (port : Port) (s : State) : State :=
  match port with
  | .line => raiseLineLink s
  | .office => raiseOfficeLink s

/-- LINK_UP. -/
def execLinkUp (port : Port) (s : State) : Host.Outcome State Fault Refusal :=
  awake s (raiseLink port s)

/-- The Line link is lost: a frame being received is discarded and counted, sending stops (R170, R172). -/
def loseLineLink (midFrame : Bool) (s : State) : State :=
  if s.linePort.link = .up then
    count (fun c => { c with crcErrorsLine := if midFrame then bump c.crcErrorsLine else c.crcErrorsLine })
      { s with linePort := ⟨.down, none⟩ }
  else s

/-- The Office link is lost: as for the Line link, and the indication becomes not-ready (R172). -/
def loseOfficeLink (midFrame : Bool) (s : State) : State :=
  if s.officePort.link = .up then
    count (fun c =>
        { c with crcErrorsOffice := if midFrame then bump c.crcErrorsOffice else c.crcErrorsOffice })
      { s with officePort := ⟨.down, false, none⟩ }
  else s

/-- LINK_DOWN. -/
def execLinkDown (port : Port) (midFrame : Bool) (s : State) : Host.Outcome State Fault Refusal :=
  awake s (match port with
    | .line => loseLineLink midFrame s
    | .office => loseOfficeLink midFrame s)

end Sys2Proof.Machine
end

