-- ==== Sys2Proof/Machine/Clock.lean ====
section
/-! DEFINITION. The Line Clock (Chapter 9). -/

namespace Sys2Proof.Machine

/-- A change of the Line Clock. -/
def onClock (f : LineClock → LineClock) (s : State) : State := { s with clock := f s.clock }

/-- Line time in ms from the line epoch. -/
def LineClock.lineMs (c : LineClock) : Nat := c.sec * 1000 + c.ms

/-! ### RAW_TICK (R148, R149, R152, R153, R154) -/

/-- What a rule asks of a raw tick: to insert a millisecond, to hold the tick, or nothing (R148). -/
inductive TickWork where
  | ordinary
  | insert
  | hold
  deriving DecidableEq, Repr

/-- What the trim asks of this tick (R149). -/
def trimWork (c : LineClock) : TickWork :=
  if 1000000 ≤ c.accumulator + c.trim then .insert
  else if c.accumulator + c.trim ≤ -1000000 then .hold
  else .ordinary

/-- The accumulator after this tick (R149). -/
def trimAccumulator (c : LineClock) : Int :=
  match trimWork c with
  | .insert => c.accumulator + c.trim - 1000000
  | .hold => c.accumulator + c.trim + 1000000
  | .ordinary => c.accumulator + c.trim

/-- What the slew asks of this tick (R148, R152): its work is due since a second boundary; a hold is carried past a tick the trim holds. -/
def slewWork (c : LineClock) : TickWork :=
  if !c.slewDue then .ordinary
  else if 0 < c.slew then .insert
  else if c.slew < 0 ∧ trimWork c ≠ .hold then .hold
  else .ordinary

/-- Slew work that stays due: a hold carried over (R148). -/
def slewCarried (c : LineClock) : Bool :=
  c.slewDue && decide (c.slew < 0) && trimWork c == .hold

/-- The slew remainder after this tick (R152). It is lowered also by an insertion that the last moment cuts off (DESIGN CHOICE, log 22). -/
def slewAfter (c : LineClock) : Int :=
  match slewWork c with
  | .insert => c.slew - 1
  | .hold => c.slew + 1
  | .ordinary => c.slew

/-- Milliseconds a tick's work adds to an ordinary advance. -/
def TickWork.inserted : TickWork → Nat
  | .insert => 1
  | _ => 0

/-- Milliseconds a tick's work takes from an ordinary advance. -/
def TickWork.held : TickWork → Nat
  | .hold => 1
  | _ => 0

/-- How far line time moves at this tick, 0 to 3 ms (R148). -/
def tickAdvance (c : LineClock) : Nat :=
  1 + (trimWork c).inserted + (slewWork c).inserted - (trimWork c).held - (slewWork c).held

/-- Line time has reached its last moment (R148). -/
def atLastMoment (c : LineClock) : Bool := Config.lastLineMs ≤ c.lineMs

/-- Line time in ms after this tick; it does not pass 4,294,967,295 s 999 ms (R148), and a millisecond inserted beyond it is dropped (DESIGN CHOICE, log 22). -/
def lineMsAfter (c : LineClock) : Nat :=
  if atLastMoment c then c.lineMs else min (c.lineMs + tickAdvance c) Config.lastLineMs

/-- The local elapsed count after this tick (R154). An insertion that the last moment cuts off is counted (DESIGN CHOICE, log 22). -/
def localAfter (c : LineClock) (n : Nat) : Nat :=
  n + 1 + (if atLastMoment c then 0 else (trimWork c).inserted) - (trimWork c).held

/-- The Line Clock after a raw tick. At the last moment the slew is not worked (R148, log 22). A second boundary asks the next raw tick to work a slew remainder that is not 0 (R152). -/
def tickClock (c : LineClock) : LineClock :=
  let after := lineMsAfter c
  let boundary := after / 1000 != c.sec
  let slew := if atLastMoment c then c.slew else slewAfter c
  let kept := if atLastMoment c then c.slewDue else slewCarried c
  { c with
    sec := after / 1000
    ms := after % 1000
    slew := slew
    slewDue := if boundary then kept || slew != 0 else kept
    accumulator := trimAccumulator c
    rate := c.rate.map (fun r => { r with localElapsed := localAfter c r.localElapsed })
    holdover := min (c.holdover + 1) Config.holdoverMax }

/-- A running answer deadline counts down by the ms advances (R5). -/
def countDown (n : Nat) (e : TapEntry) : TapEntry :=
  if e.answeredLate then e else { e with deadline := e.deadline - n }

/-- Every running deadline counts down, in the Tap Queue and with the Reckoner (R5). -/
def countDownAll (n : Nat) (s : State) : State :=
  { s with
    tapQueue := s.tapQueue.map (countDown n)
    reckoner := s.reckoner.map (fun t => { t with entry := countDown n t.entry }) }

/-- A raw tick (R148): the clock, the deadlines, and at a second boundary the current service day (R156) and then the watched effective time (R157). -/
def tick (s : State) : State :=
  let c := tickClock s.clock
  let s1 := countDownAll (c.lineMs - s.clock.lineMs) { s with clock := c }
  if c.sec = s.clock.sec then s1 else fireActivation (reckonDay s1)

/-- RAW_TICK. -/
def execRawTick (s : State) : Host.Outcome State Fault Refusal :=
  awake s (tick s)

/-! ### SLEW_COMPLETE, HOLDOVER_EXPIRY (R150, R152, R153) -/

/-- The clock becomes Locked; Clock Locked is raised from any other state (R150). -/
def becomeLocked (s : State) : State :=
  if s.clock.state = .locked then s
  else raise .clockLocked .nothing (onClock (fun c => { c with state := .locked }) s)

/-- A Slewing clock whose remainder has reached 0 becomes Locked (R152). -/
def completeSlew (s : State) : State :=
  if s.clock.state = .slewing ∧ s.clock.slew = 0 then becomeLocked s else s

/-- SLEW_COMPLETE. -/
def execSlewComplete (s : State) : Host.Outcome State Fault Refusal :=
  awake s (completeSlew s)

/-- The holdover count has reached the holdover setting of a Locked or Slewing clock: it becomes Free-running (R153). -/
def checkHoldover (s : State) : State :=
  if (s.clock.state = .locked ∨ s.clock.state = .slewing)
      ∧ s.mgmt.settings.holdover * 1000 ≤ s.clock.holdover then
    raise .clockFreeRunning .nothing (onClock (fun c => { c with state := .freeRunning }) s)
  else s

/-- HOLDOVER_EXPIRY. -/
def execHoldoverExpiry (s : State) : Host.Outcome State Fault Refusal :=
  awake s (checkHoldover s)

/-! ### TIME_MARK (R150, R151, R154) -/

/-- The error e of a mark: office time less line time, in ms, exactly (R151). -/
def markError (s : State) (officeMs : Nat) : Int := (officeMs : Int) - (s.clock.lineMs : Int)

/-- A mark is stepped when the clock is Unset or e exceeds the step threshold (R151). -/
def markStepped (s : State) (officeMs : Nat) : Bool :=
  s.clock.state == .unset || s.mgmt.settings.stepThreshold < (markError s officeMs).natAbs

/-- A stepped mark; its last step compares the watched effective time (R151, R157). -/
def stepMark (sec ms : Nat) (s : State) : State :=
  let officeMs := sec * 1000 + ms
  let e := markError s officeMs
  let s1 := onClock (fun c => { c with
    sec := sec, ms := ms, slew := 0, slewDue := false, rate := some ⟨officeMs, 0, 0⟩, holdover := 0 }) s
  fireActivation (reckonDay (becomeLocked (raise .clockStepped (.error e) s1)))

/-- The trim after an update by a span's counts, held within 500 ppm (R154). -/
def trimUpdate (trim : Int) (office localElapsed : Nat) : Int :=
  let error := (((office : Int) - (localElapsed : Int)) * 1000000).tdiv (office : Int)
  max (-500) (min 500 (trim + error))

/-- The rate measurement at a slewed mark: the office elapsed count is reckoned, and the measurement goes on, is started anew or updates the trim (R154). -/
def measureRate (span : Nat) (officeMs : Nat) (c : LineClock) : LineClock :=
  match c.rate with
  | none => c
  | some r =>
    if officeMs < r.reference then { c with rate := some ⟨officeMs, 0, 0⟩ }
    else if officeMs - r.reference < span * 1000 then
      { c with rate := some { r with officeElapsed := officeMs - r.reference } }
    else { c with
      trim := trimUpdate c.trim (officeMs - r.reference) r.localElapsed
      rate := some ⟨officeMs, 0, 0⟩ }

/-- A slewed mark (R150, R151, R154). -/
def slewMark (sec ms : Nat) (s : State) : State :=
  let officeMs := sec * 1000 + ms
  let e := markError s officeMs
  let s1 := onClock (fun c =>
    measureRate s.mgmt.settings.measurementSpan officeMs { c with slew := e, holdover := 0 }) s
  if e = 0 then becomeLocked s1 else onClock (fun c => { c with state := .slewing }) s1

/-- A Time Mark taken (R151). -/
def takeMark (sec ms : Nat) (s : State) : State :=
  if markStepped s (sec * 1000 + ms) then stepMark sec ms s else slewMark sec ms s

/-- TIME MARK carried out and its reply made (R151). -/
def timeMark (sec ms : Nat) (s : State) : State :=
  if 999 < ms then answerTaken Reply.malformed s
  else
    let s1 := takeMark sec ms s
    answerTaken (Reply.done (.timeMark (markStepped s (sec * 1000 + ms))
      (markError s (sec * 1000 + ms)) s1.clock.state s1.clock.trim)) s1

/-- TIME_MARK. -/
def execTimeMark (s : State) : Host.Outcome State Fault Refusal :=
  awake s (match (nextTaken s).map HeldRequest.request with
    | some (.timeMark sec ms) => timeMark sec ms s
    | _ => s)

end Sys2Proof.Machine
end

