-- ==== Sys2Proof/Machine/Service.lean ====
section
/-! DEFINITION. Service and identity requests, run settings, counters, replies and event frames (R165, R167, R174, R175, R177). Each request's command acts on the oldest request taken and not yet carried out, when it is of that kind (log 5). -/

namespace Sys2Proof.Machine

/-! ### IDENTIFY, START, HALT (R175) -/

/-- What IDENTIFY reports of a slot. -/
def slotReport (v : Slot) : SlotReport :=
  ⟨v.state, v.label.getD 0, v.refCount, v.effective.getD 0⟩

/-- What IDENTIFY reports (R175). -/
def identity (s : State) : Identity where
  nodeAddress := s.nodeAddress
  service := s.mgmt.service
  drain := s.mgmt.drain.inProgress
  clock := s.clock.state
  sec := s.clock.sec
  ms := s.clock.ms
  serviceDay := s.clock.serviceDay
  occupancy := s.store.journeys.length
  spillMode := s.sweep.spillMode
  slotA := slotReport s.tables.slotA
  slotB := slotReport s.tables.slotB

/-- IDENTIFY. -/
def execIdentify (s : State) : Host.Outcome State Fault Refusal :=
  awake s (match (nextTaken s).map HeldRequest.request with
    | some .identify => answerTaken (Reply.done (.identity (identity s))) s
    | _ => s)

/-- The service state changes (R16). -/
def setService (v : ServiceState) (s : State) : State := { s with mgmt := { s.mgmt with service := v } }

/-- START's refusals, in the order tested (R175). -/
def startRefusal (s : State) : Option ReplyReason :=
  if s.mgmt.drain.inProgress then some .restartInProgress
  else if (activeSlot s).isNone then some .noActive
  else if s.clock.state = .unset then some .clockUnset
  else none

/-- START carried out (R175). -/
def startService (s : State) : State :=
  match startRefusal s with
  | some reason => answerTaken (Reply.refused reason) s
  | none => answerTaken (Reply.done .nothing) (setService .running s)

/-- START. -/
def execStart (s : State) : Host.Outcome State Fault Refusal :=
  awake s (match (nextTaken s).map HeldRequest.request with
    | some .start => startService s
    | _ => s)

/-- HALT. -/
def execHalt (s : State) : Host.Outcome State Fault Refusal :=
  awake s (match (nextTaken s).map HeldRequest.request with
    | some .halt => answerTaken (Reply.done .nothing) (setService .halted s)
    | _ => s)

/-! ### SET_RUN_SETTINGS (R177) -/

/-- A value clamped to its range. -/
def clampTo (low high v : Nat) : Nat := max low (min high v)

/-- The ten values taken: each clamped to its range, the high mark before the low mark (R177). -/
def clampSettings (v : RunSettings) : RunSettings :=
  let high := clampTo 1024 16384 v.highMark
  { highMark := high
    lowMark := min v.lowMark (high - 1)
    answerLimit := clampTo 100 2000 v.answerLimit
    skewLimit := clampTo 10 3600 v.skewLimit
    deferralAge := clampTo 1 48 v.deferralAge
    deferredGrace := clampTo 1 60 v.deferredGrace
    holdover := clampTo 60 86400 v.holdover
    stepThreshold := clampTo 100 60000 v.stepThreshold
    measurementSpan := clampTo 600 86400 v.measurementSpan
    rolloverMinute := min 1439 v.rolloverMinute }

/-- The settings taken apply at once: the marks, the holdover and the service day are compared, in that order (R177, log 30). -/
def applySettings (v : RunSettings) (s : State) : State :=
  reckonDay (checkHoldover (compareMarks { s with mgmt := { s.mgmt with settings := v } }))

/-- SET_RUN_SETTINGS. -/
def execSetRunSettings (s : State) : Host.Outcome State Fault Refusal :=
  awake s (match (nextTaken s).map HeldRequest.request with
    | some (.setRunSettings v) =>
      answerTaken (Reply.done (.settings (clampSettings v))) (applySettings (clampSettings v) s)
    | _ => s)

/-! ### COUNTERS (R167) -/

/-- The snapshot, and the clear when one is asked for (R167). -/
def readCounters (clear : Bool) (s : State) : State :=
  answerTaken (Reply.done (.counters s.mgmt.counters))
    (if clear then count (fun _ => {}) s else s)

/-- COUNTERS. -/
def execCounters (s : State) : Host.Outcome State Fault Refusal :=
  awake s (match (nextTaken s).map HeldRequest.request with
    | some (.counters clear) => readCounters clear s
    | _ => s)

/-! ### REPLY_PLACEMENT (R174) -/

/-- A request whose reply waits places it in a free entry, and its slot is freed (R174). -/
def placeWaitingReply (i : Nat) (s : State) : State :=
  match s.mgmt.requests[i]? with
  | some r =>
    match r.phase with
    | .replyDue reply =>
      if 1 ≤ officeFree s then placeReply r reply (onRequests (fun l => l.eraseIdx i) s) else s
    | _ => s
  | none => s

/-- REPLY_PLACEMENT. -/
def execReplyPlacement (which : Held) (s : State) : Host.Outcome State Fault Refusal :=
  awake s (placeWaitingReply (heldIndex which) s)

/-! ### EVENT_FRAME_PLACEMENT (R165) -/

/-- The head pending event takes a free entry and leaves the list (R165, R171). -/
def placeEvent (s : State) : State :=
  match s.mgmt.events with
  | e :: rest =>
    if 1 ≤ officeFree s then
      placeFrame (.event s.officeQueue.sequence e s.freeIndex)
        (advanceSequence { s with mgmt := { s.mgmt with events := rest }, freeIndex := s.freeIndex + 1 })
    else s
  | [] => s

/-- EVENT_FRAME_PLACEMENT. -/
def execEventFramePlacement (s : State) : Host.Outcome State Fault Refusal :=
  awake s (placeEvent s)

end Sys2Proof.Machine
end

