-- ==== Sys2Proof/Machine/SweepWork.lean ====
section
/-! DEFINITION. The Housekeeping Sweep (Chapter 7). -/

namespace Sys2Proof.Machine

/-- The Sweep has a request waiting at the arbiter or holds the store (R119). -/
def sweepRequested (s : State) : Bool :=
  s.store.arbiter.sweepWaiting || holder s == some .sweep

/-- The Sweep, its last request spent, requests the store when an Office Queue entry is free (R120). -/
def requestAgain (s : State) : State :=
  if 1 ≤ officeFree s then requestStore .sweep s else s

/-- The Sweep requests the store while an entry is free and it has no request (R120). -/
def askForStore (s : State) : State :=
  if sweepRequested s then s else requestAgain s

/-- SWEEP_REQUEST. -/
def execSweepRequest (s : State) : Host.Outcome State Fault Refusal :=
  awake s (askForStore s)

/-- A change of the Sweep. -/
def onSweep (f : Sweep → Sweep) (s : State) : State := { s with sweep := f s.sweep }

/-- The journey at the cursor, when its deadline is at or before line time as read at the grant (R122). -/
def overdueAtCursor (s : State) : Option JourneyWay :=
  (journeyAt s s.sweep.journeyCursor).filter (fun w => w.journey.deadline ≤ s.store.grant.sec)

/-- The journey cursor advances by one, from 16,383 to 0 (R122). -/
def advanceJourneyCursor (s : State) : State :=
  onSweep (fun w => { w with journeyCursor := (w.journeyCursor + 1) % Config.journeySlots }) s

/-- A journey is expired: closed as Incomplete with its record placed (R123). -/
def expireJourney (w : JourneyWay) (s : State) : State :=
  let c := closeIncomplete {} w s
  placeRecord c.record c.st

/-- A cursor visit (R122). -/
def cursorVisit (s : State) : State :=
  match overdueAtCursor s with
  | some w => advanceJourneyCursor (expireJourney w s)
  | none => advanceJourneyCursor s

/-- A spill visit: the head of the admission list (R125). -/
def spillVisit (s : State) : State :=
  match s.store.journeys with
  | w :: _ =>
    let c := closeSpill w s
    placeRecord c.record c.st
  | [] => s

/-- The record at the account cursor, when it is old (R127). -/
def oldAtCursor (s : State) : Option AccountWay :=
  (s.store.accounts.find? (fun w => w.slot == s.sweep.accountCursor)).filter
    (fun w => isOld s w.account)

/-- The account cursor advances by one; after slot 32,767 it becomes 0 and the pass ends (R127). -/
def advanceAccountCursor (s : State) : State :=
  onSweep (fun w =>
    if w.accountCursor + 1 = Config.accountSlots then
      { w with accountCursor := 0, purgePending := false }
    else { w with accountCursor := w.accountCursor + 1 }) s

/-- An account visit (R127). When a rollover came after its grant, the pass has begun anew and the cursor stays at its first slot (R126, log 8). -/
def accountVisit (s : State) : State :=
  let s1 := match oldAtCursor s with
    | some w => removeAccount w.slot s
    | none => s
  if s.clock.serviceDay ≤ s.store.grant.serviceDay then advanceAccountCursor s1 else s1

/-- The visit decided at the grant; journey work that finds no free entry does nothing (R120, R121). The entry is looked for in the step that places the record, so no entry is kept from the other placers before (R162, R163; DEDUCED, log 8). -/
def sweepVisit (s : State) : State :=
  match s.store.grant.visit with
  | .account => accountVisit s
  | .spill => if 1 ≤ officeFree s then spillVisit s else s
  | .cursor => if 1 ≤ officeFree s then cursorVisit s else s

/-- At its release a visit in progress when RESTART was taken leaves the reset values (R128, log 24). -/
def resetAtRelease (s : State) : State :=
  if s.sweep.resetAtRelease then { s with sweep := Sweep.reset } else s

/-- The Sweep's grant (R121). Its next request waits, when an entry is free, before the store falls free: 7.9 counts the Reckoner's grant at this very release against it (R120, log 44). -/
def sweepGrant (s : State) : State :=
  if holder s = some .sweep then releaseStore (requestAgain (resetAtRelease (sweepVisit s))) else s

/-- SWEEP_GRANT. -/
def execSweepGrant (s : State) : Host.Outcome State Fault Refusal :=
  awake s (sweepGrant s)

end Sys2Proof.Machine
end

