-- ==== Sys2Proof/Machine/Restart.lean ====
section
/-! DEFINITION. RESTART and its drain (R18, R83, R128, R144, R176). -/

namespace Sys2Proof.Machine

/-- A change of the drain. -/
def onDrain (f : Drain → Drain) (s : State) : State := { s with mgmt := { s.mgmt with drain := f s.mgmt.drain } }

/-! ### RESTART (R176) -/

/-- A RESTART is underway or waits for its reply: it holds a slot (R176, log 34). -/
def restartHeld (s : State) : Bool :=
  s.mgmt.requests.any (fun r => r.request.isRestart && r.phase != .taken)

/-- One tap of the flushed Tap Queue: unanswered, Fallback "queue full"; answered late, kept for its record (R18). -/
def flushTap (s : State) (e : TapEntry) : State :=
  if e.answeredLate then { s with mgmt := { s.mgmt with restartLate := s.mgmt.restartLate ++ [e.tap] } }
  else count (fun c => { c with fallbacksFull := bump c.fallbacksFull })
    (fillReserved (verdictFor e.tap (Answer.plain .fallback .queueFull)) s)

/-- The Tap Queue is flushed. R18 gives the order of the queue for the "restart" records; that the Fallback verdicts are placed in it too is a DESIGN CHOICE (log 48). -/
def flushTaps (s : State) : State :=
  { s.tapQueue.foldl flushTap s with tapQueue := [] }

/-- The Forward Queue is emptied; a forwarded frame already in transmission is finished but stands in no queue (R15, R169, log 20). -/
def emptyForward (s : State) : State :=
  { s with
    forwardQueue := []
    linePort := { s.linePort with sending := s.linePort.sending.map (fun f =>
      if f.source = .forward then { f with source := .dropped } else f) } }

/-- The Sweep withdraws its waiting request and takes its reset values, or takes them at the release of a visit in progress (R63, R128). -/
def restartSweep (s : State) : State :=
  if holder s = some .sweep then onSweep (fun w => { w with resetAtRelease := true }) s
  else { onArbiter (fun a => a.withdraw .sweep) s with sweep := Sweep.reset }

/-- The slots change: a copy is aborted, a validation is aborted unless its swap waits for the Reckoner (R144). -/
def restartSlots (s : State) : State :=
  match slotIn (· == .copying) s, slotIn (· == .validating) s with
  | some x, _ => answerUnderway Request.isCopy Reply.aborted (putSlot x Slot.freed s)
  | none, some x =>
    if s.tables.swapDue = some x then s
    else answerUnderway Request.isActivate Reply.aborted
      (putSlot x { slotOf s x with state := .staging, effective := none } s)
  | none, none => s

/-- A journey operation that is not yet granted is withdrawn and answered Aborted, in its own entry when it has set one aside (R83, R176). -/
def abortOperation (s : State) : State :=
  match s.mgmt.requests.find? (fun r => r.isWaitingOperation || r.phase == .presented) with
  | some r =>
    if r.phase = .waitingEntries then
      onRequests (modifyFirst (fun q => q.phase == .waitingEntries)
        (fun q => { q with phase := .replyDue Reply.aborted })) s
    else if r.phase = .presented ∧ holder s = some .management then s
    else
      let withdrawn := if r.phase = .presented then onArbiter (fun a => a.withdraw .management) s else s
      placeReply r Reply.aborted (returnAside (entriesNeeded r.request)
        (onRequests (fun l => l.eraseP (fun q => q.isWaitingOperation || q.phase == .presented))
          withdrawn))
  | none => s

/-- The drain begins; the taps answered Fallback are counted for the reply (R83, R176). -/
def beginDrain (fallbacks : Nat) (s : State) : State :=
  onDrain (fun _ => ⟨true, false, 0, fallbacks⟩) s

/-- RESTART carried out, in the order of R176. -/
def restartNow (s : State) : State :=
  let fallbacks := (s.tapQueue.filter (fun e => !e.answeredLate)).length
  let s1 := setService .halted (advanceTaken .underway s)
  let s2 := emptyForward (flushTaps s1)
  let s3 := { s2 with mgmt := { s2.mgmt with events := [] } }
  abortOperation (beginDrain fallbacks (restartSlots (restartSweep s3)))

/-- RESTART. -/
def execRestart (s : State) : Host.Outcome State Fault Refusal :=
  awake s (match (nextTaken s).map HeldRequest.request with
    | some .restart =>
      if restartHeld s then answerTaken (Reply.refused .restartInProgress) s else restartNow s
    | _ => s)

/-! ### RESTART_LATE_RECORD (R18) -/

/-- The Unpriced "restart" record of an answered-late tap (R18, log 32). -/
def restartRecord (tap : Tap) (s : State) : Record :=
  ({ newRecord s .unpriced tap.token tap.fareClass with
    reason := .restart
    tap := some tap.received }).flag { answeredLate := true, deferred := tap.deferred }

/-- The next answered-late record takes a free entry (R18). -/
def placeLateRecord (s : State) : State :=
  match s.mgmt.restartLate with
  | tap :: rest =>
    if 1 ≤ officeFree s then
      placeRecord (restartRecord tap s) { s with mgmt := { s.mgmt with restartLate := rest } }
    else s
  | [] => s

/-- RESTART_LATE_RECORD. -/
def execRestartLateRecord (s : State) : Host.Outcome State Fault Refusal :=
  awake s (placeLateRecord s)

/-! ### The drain (R83) -/

/-- The drain sets aside one entry and requests the store, when the Management Unit has no other request outstanding (R83). -/
def drainSetAside (s : State) : State :=
  if s.mgmt.drain.inProgress ∧ managementOutstanding s = false ∧ 1 ≤ officeFree s then
    requestStore .management (onDrain (fun d => { d with presented := true }) (setAside 1 s))
  else s

/-- DRAIN_STEP_SET_ASIDE. -/
def execDrainStepSetAside (s : State) : Host.Outcome State Fault Refusal :=
  awake s (drainSetAside s)

/-- A drain step spills the head of the admission list (R83). -/
def drainSpill (w : JourneyWay) (s : State) : State :=
  let c := closeSpill w s
  onDrain (fun d => { d with spilled := d.spilled + 1, presented := false })
    (placeRecordAside c.record c.st)

/-- The drain's last step empties the Day Account Table and returns its entry (R83, R91). -/
def drainEnd (s : State) : State :=
  onDrain (fun d => { d with inProgress := false, presented := false })
    (returnAside 1 { s with store := { s.store with accounts := [], accountFullDay := none } })

/-- A drain step in its grant (R83): the store is released and the next operation presented. -/
def drainWork (s : State) : State :=
  if holder s = some .management ∧ s.mgmt.drain.presented then
    presentNext (releaseStore (match s.store.journeys with
      | w :: _ => drainSpill w s
      | [] => drainEnd s))
  else s

/-- DRAIN_STEP. -/
def execDrainStep (s : State) : Host.Outcome State Fault Refusal :=
  awake s (drainWork s)

/-! ### RESTART_COMPLETE (R176) -/

/-- The RESTART that is underway. -/
def restartUnderway (s : State) : Option HeldRequest :=
  s.mgmt.requests.find? (fun r => r.phase == .underway && r.request.isRestart)

/-- RESTART completes: drain ended, restart records placed, an entry free (R176). -/
def completeRestart (s : State) : State :=
  match restartUnderway s with
  | some r =>
    if s.mgmt.drain.inProgress = false ∧ s.mgmt.restartLate = [] ∧ 1 ≤ officeFree s then
      placeReply r (Reply.done (.restart s.mgmt.drain.spilled s.mgmt.drain.fallbacks))
        (onRequests (fun l => l.eraseP (fun q => q.phase == .underway && q.request.isRestart))
          (onDrain (fun _ => ⟨false, false, 0, 0⟩) s))
    else s
  | none => s

/-- RESTART_COMPLETE. -/
def execRestartComplete (s : State) : Host.Outcome State Fault Refusal :=
  awake s (completeRestart s)

end Sys2Proof.Machine
end

