-- ==== Sys2Proof/Machine/TapPath.lean ====
section
/-! DEFINITION. The tap path (Chapter 1): frames at the Line port, the Reckoner, answer deadlines. -/

namespace Sys2Proof.Machine

/-! ### LINE_FRAME_RECEIVED -/

/-- The record of a tap answered Out of Service at arrival (R17). -/
def haltedRecord (tap : Tap) (s : State) : Record :=
  { newRecord s .unpriced tap.token tap.fareClass with
    reason := .halted
    tap := some tap.received
    flags := { (newRecord s .unpriced tap.token tap.fareClass).flags with deferred := tap.deferred } }

/-- A tap that arrives while the engine is Halted (R3, R17). -/
def tapHalted (tap : Tap) (s : State) : State :=
  let s1 := placeVerdict (verdictFor tap (Answer.plain .outOfService .none)) s
  if 1 ≤ officeFree s1 then placeRecord (haltedRecord tap s1) s1 else s1

/-- A tap that finds the Tap Queue full (R3). -/
def tapQueueFull (tap : Tap) (s : State) : State :=
  count (fun c => { c with fallbacksFull := bump c.fallbacksFull })
    (placeVerdict (verdictFor tap (Answer.plain .fallback .queueFull)) s)

/-- A tap joins the tail of the Tap Queue with a reserved place and an answer deadline (R3, R4, R5). -/
def tapQueued (tap : Tap) (s : State) : State :=
  let s1 := reservePlace s
  { s1 with tapQueue := s1.tapQueue ++
      [⟨tap, s1.clock.sec, s1.clock.ms, s1.mgmt.settings.answerLimit, false⟩] }

/-- An accepted tap is dealt with at once (R3). -/
def dealTap (tap : Tap) (s : State) : State :=
  if s.mgmt.service = .halted then tapHalted tap s
  else if Config.tapQueueSize ≤ s.tapQueue.length then tapQueueFull tap s
  else tapQueued tap s

/-- A tap that is not accepted leaves only its count (R1, R2). -/
def tapNotAccepted (s : State) : State :=
  count (fun c => { c with tapsNotAccepted := bump c.tapsNotAccepted }) s

/-- A recognised tap is accepted when the Verdict Queue has a free place (R2). -/
def acceptTap (tap : Tap) (s : State) : State :=
  if 1 ≤ verdictFree s then
    dealTap tap (count (fun c => { c with tapsAccepted := bump c.tapsAccepted }) s)
  else tapNotAccepted s

/-- A non-tap station frame is forwarded unchanged when 4 entries are free, else dropped (R168). -/
def forwardToOffice (bytes : List Byte) (s : State) : State :=
  if 4 ≤ officeFree s then placeFrame (.forwarded bytes) s
  else count (fun c => { c with droppedLineToOffice := bump c.droppedLineToOffice }) s

/-- A frame that passed the checks is sorted: a tap, a tap of no valid length, or a forwarded frame (R1). -/
def sortLineFrame (bytes : List Byte) (f : ReceivedFrame) (s : State) : State :=
  if f.kind = kindTap ∧ f.destination = s.nodeAddress then
    match parseTap f with
    | some tap => acceptTap tap s
    | none => tapNotAccepted s
  else forwardToOffice bytes s

/-- A whole frame at the Line port (R1, R170, R172). A link that the frame raises starts a waiting frame before the frame is handled (DESIGN CHOICE, log 26). -/
def lineFrame (bytes : List Byte) (s : State) : State :=
  let s1 := raiseLineLink s
  match checkFrame bytes with
  | some f => sortLineFrame bytes f s1
  | none => count (fun c => { c with crcErrorsLine := bump c.crcErrorsLine }) s1

/-- LINE_FRAME_RECEIVED. -/
def execLineFrameReceived (bytes : List Byte) (s : State) : Host.Outcome State Fault Refusal :=
  awake s (lineFrame bytes s)

/-! ### Screening (R9 to R11, R102, R103) -/

/-- What screening steps 1 to 3 make of a taken tap: ended with a record kind, its reason and an answer, or passed with a tap time and the mark "time clamped". -/
inductive Screened where
  | ended (kind : RecordKind) (reason : Reason) (answer : Answer)
  | passed (tapTime : Nat) (clamped : Bool)
  deriving DecidableEq, Repr

/-- Step 1's field checks pass (R9). -/
def fieldsValid (t : Tap) : Bool :=
  t.station ≤ 63 && t.fareClass ≤ 7 && (t.isEntry || t.isExit)
    && (match t.pass with
      | some p => p.fromStation ≤ 63 && p.toStation ≤ 63
      | none => true)

/-- How a malformed tap ends (R9). -/
def malformedEnd (t : Tap) : Screened :=
  if !t.deferred && t.isEntry then .ended .refused .malformed (Answer.plain .refused .malformed)
  else .ended .unpriced .malformed (Answer.plain .goPending .none)

/-- Step 3 for a live tap (R11). -/
def screenLive (settings : RunSettings) (e : TapEntry) : Screened :=
  let apart := (e.tap.gateTime - e.arrivalSec) + (e.arrivalSec - e.tap.gateTime)
  if apart ≤ settings.skewLimit then .passed e.tap.gateTime false
  else .passed e.arrivalSec true

/-- Step 3 for a deferred tap: the future clamp, then the stale check (R102, R103). -/
def screenDeferred (settings : RunSettings) (e : TapEntry) : Screened :=
  if e.arrivalSec + settings.skewLimit < e.tap.gateTime then .passed e.arrivalSec true
  else if e.tap.gateTime + settings.deferralAge * 3600 < e.arrivalSec then
    .ended .unpriced .stale (Answer.plain .recorded .none)
  else .passed e.tap.gateTime false

/-- Screening steps 1 to 3 (1.5). -/
def screen (hasActive : Bool) (settings : RunSettings) (e : TapEntry) : Screened :=
  if !fieldsValid e.tap then malformedEnd e.tap
  else if !hasActive then .ended .unpriced .noTables (Answer.plain .outOfService .none)
  else if e.tap.deferred then screenDeferred settings e
  else screenLive settings e

/-! ### The tap transaction (R6, R7, R8) -/

/-- Records placed in set-aside entries in the order produced (R7). -/
def placeAll (records : List Record) (s : State) : State :=
  records.foldl (fun st r => placeRecordAside r st) s

/-- The verdict of a transaction fills the reserved place, unless the tap was answered late (R6, R7). -/
def answerTap (entry : TapEntry) (clamped : Bool) (a : Answer) (s : State) : State :=
  if entry.answeredLate then s
  else fillReserved (verdictFor entry.tap (toGate entry.tap clamped a)) s

/-- What ends a tap transaction, but for the release of the store (R7): verdict, records, unused entries, Idle. -/
def endTransaction (entry : TapEntry) (clamped denied : Bool) (h : Handled) : State :=
  let s1 := answerTap entry clamped h.answer h.st
  let s2 := placeAll (h.records.map (decorate entry.tap entry.answeredLate clamped denied)) s1
  let s3 := returnAside (3 - h.records.length) s2
  { s3 with reckoner := none }

/-- The transaction of a tap that screening ended: one record (R9, R10, R103). -/
def screenedOut (kind : RecordKind) (reason : Reason) (answer : Answer) (e : TapEntry) (s : State) :
    State :=
  endTransaction e false false
    ⟨s, [{ newRecord s kind e.tap.token e.tap.fareClass with reason := reason }], answer⟩

/-- The head tap is taken, its entries set aside, and it is screened (R8). A due swap is made first where it is not the Reckoner's to wait for (R141, log 7). -/
def takeHead (e : TapEntry) (rest : List TapEntry) (s : State) : State :=
  let s1 := setAside 3 { settleSwap s with tapQueue := rest }
  match screen (activeSlot s1).isSome s1.mgmt.settings e with
  | .ended kind reason answer => screenedOut kind reason answer e s1
  | .passed tapTime clamped =>
    requestStore .reckoner { s1 with reckoner := some ⟨e, tapTime, clamped⟩ }

/-- The Reckoner takes the head tap when it is Idle and 3 entries are free (R8). -/
def takeTap (s : State) : State :=
  match s.reckoner, s.tapQueue with
  | none, e :: rest => if 3 ≤ officeFree s then takeHead e rest s else s
  | _, _ => s

/-- At most so many taps are taken one after the other, until one has passed screening and asked for the store, or none can be taken (R8). -/
def takeUpTo : Nat → State → State
  | 0, s => s
  | n + 1, s => takeUpTo n (takeTap s)

/-- The Reckoner, Idle again, takes what it can of the Tap Queue (R8). -/
def takeTaps (s : State) : State := takeUpTo s.tapQueue.length s

/-- RECKONER_TAKE_TAP. -/
def execReckonerTakeTap (s : State) : Host.Outcome State Fault Refusal :=
  awake s (takeTap s)

/-- The handling of a granted tap under the slot Active at the grant (R12, R105, R111). -/
def handleTap (x : SlotId) (t : TapTransaction) (s : State) : Handled :=
  let e : EntryWork := ⟨t.entry.tap, t.tapTime, t.clamped, x⟩
  if t.entry.tap.isEntry then
    if t.entry.tap.deferred then deferredEntry e s else liveEntry e s
  else handleExit x t.entry.tap t.tapTime s

/-- The flag "deny-listed": an exit whose token stood on the list at the grant (R79). -/
def exitDenied (t : TapTransaction) (s : State) : Bool :=
  !t.entry.tap.isEntry && s.store.grant.denied

/-- A granted tap transaction from handling to release (R7, R60). With no Active slot, which no run reaches, it ends as screening step 2 would end it (log 29). The Reckoner's next tap is taken before the store falls free, so that under a stream of taps its request waits whenever the store falls free (R62, 4.9; that it comes before any other placer of the Office Queue is a DESIGN CHOICE, log 44). -/
def runTap (t : TapTransaction) (s : State) : State :=
  releaseStore (takeTaps (match activeSlot s with
    | some x => endTransaction t.entry t.clamped (exitDenied t s) (handleTap x t s)
    | none => screenedOut .unpriced .noTables (Answer.plain .outOfService .none) t.entry s))

/-- The Reckoner works while it holds the store (R60). -/
def reckonerWork (s : State) : State :=
  match s.reckoner with
  | some t => if holder s = some .reckoner then runTap t s else s
  | none => s

/-- RECKONER_GRANT. -/
def execReckonerGrant (s : State) : Host.Outcome State Fault Refusal :=
  awake s (reckonerWork s)

/-! ### ANSWER_DEADLINE_EXPIRY (R6) -/

/-- A running deadline has counted down to 0 (R5). -/
def TapEntry.expired (e : TapEntry) : Bool := e.deadline == 0 && !e.answeredLate

/-- The Fallback "late" of a tap (R6). -/
def lateVerdict (e : TapEntry) (s : State) : State :=
  count (fun c => { c with fallbacksLate := bump c.fallbacksLate })
    (fillReserved (verdictFor e.tap (Answer.plain .fallback .late)) s)

/-- The deadline of a tap in the Tap Queue is taken (R6): the entry keeps its position. -/
def expireQueued (i : Nat) (s : State) : State :=
  match s.tapQueue[i]? with
  | some e =>
    if e.expired then
      lateVerdict e { s with tapQueue := s.tapQueue.set i { e with answeredLate := true } }
    else s
  | none => s

/-- The deadline of the Reckoner's tap is taken (R6). -/
def expireReckoner (s : State) : State :=
  match s.reckoner with
  | some t =>
    if t.entry.expired then
      lateVerdict t.entry
        { s with reckoner := some { t with entry := { t.entry with answeredLate := true } } }
    else s
  | none => s

/-- ANSWER_DEADLINE_EXPIRY. -/
def execAnswerDeadlineExpiry (tap : TapPlace) (s : State) : Host.Outcome State Fault Refusal :=
  awake s (match tap with
    | .queued i => expireQueued i s
    | .reckoner => expireReckoner s)

end Sys2Proof.Machine
end

