-- ==== Sys2Proof/Machine/Dispatch.lean ====
section
/-! DEFINITION. The meaning of every command: one arm per row of spec/opcode_table.json. -/

namespace Sys2Proof.Machine

def exec (i : Instr) (s : State) : Host.Outcome State Fault Refusal :=
  match i with
  | .rstnLow => Sys2Proof.Machine.execRstnLow s
  | .pinReset straps => Sys2Proof.Machine.execPinReset straps s
  | .lineFrameReceived frame => Sys2Proof.Machine.execLineFrameReceived frame s
  | .officeFrameReceived frame => Sys2Proof.Machine.execOfficeFrameReceived frame s
  | .identify => Sys2Proof.Machine.execIdentify s
  | .start => Sys2Proof.Machine.execStart s
  | .halt => Sys2Proof.Machine.execHalt s
  | .restart => Sys2Proof.Machine.execRestart s
  | .restartLateRecord => Sys2Proof.Machine.execRestartLateRecord s
  | .drainStepSetAside => Sys2Proof.Machine.execDrainStepSetAside s
  | .drainStep => Sys2Proof.Machine.execDrainStep s
  | .restartComplete => Sys2Proof.Machine.execRestartComplete s
  | .setRunSettings => Sys2Proof.Machine.execSetRunSettings s
  | .timeMark => Sys2Proof.Machine.execTimeMark s
  | .counters => Sys2Proof.Machine.execCounters s
  | .tableWrite => Sys2Proof.Machine.execTableWrite s
  | .tableRead => Sys2Proof.Machine.execTableRead s
  | .copyActive => Sys2Proof.Machine.execCopyActive s
  | .copyComplete => Sys2Proof.Machine.execCopyComplete s
  | .discard => Sys2Proof.Machine.execDiscard s
  | .activate => Sys2Proof.Machine.execActivate s
  | .validationComplete => Sys2Proof.Machine.execValidationComplete s
  | .cancel => Sys2Proof.Machine.execCancel s
  | .activationFiring => Sys2Proof.Machine.execActivationFiring s
  | .swap => Sys2Proof.Machine.execSwap s
  | .denyAdd => Sys2Proof.Machine.execDenyAdd s
  | .denyRemove => Sys2Proof.Machine.execDenyRemove s
  | .denyClear => Sys2Proof.Machine.execDenyClear s
  | .denyCheck => Sys2Proof.Machine.execDenyCheck s
  | .journeyQuery => Sys2Proof.Machine.execJourneyQuery s
  | .journeyClose => Sys2Proof.Machine.execJourneyClose s
  | .accountQuery => Sys2Proof.Machine.execAccountQuery s
  | .journeyOperationSetAside which => Sys2Proof.Machine.execJourneyOperationSetAside which s
  | .journeyQueryGrant => Sys2Proof.Machine.execJourneyQueryGrant s
  | .journeyCloseGrant => Sys2Proof.Machine.execJourneyCloseGrant s
  | .accountQueryGrant => Sys2Proof.Machine.execAccountQueryGrant s
  | .replyPlacement which => Sys2Proof.Machine.execReplyPlacement which s
  | .reckonerTakeTap => Sys2Proof.Machine.execReckonerTakeTap s
  | .reckonerGrant => Sys2Proof.Machine.execReckonerGrant s
  | .sweepRequest => Sys2Proof.Machine.execSweepRequest s
  | .sweepGrant => Sys2Proof.Machine.execSweepGrant s
  | .answerDeadlineExpiry tap => Sys2Proof.Machine.execAnswerDeadlineExpiry tap s
  | .rawTick => Sys2Proof.Machine.execRawTick s
  | .slewComplete => Sys2Proof.Machine.execSlewComplete s
  | .holdoverExpiry => Sys2Proof.Machine.execHoldoverExpiry s
  | .eventFramePlacement => Sys2Proof.Machine.execEventFramePlacement s
  | .lineTransmitComplete => Sys2Proof.Machine.execLineTransmitComplete s
  | .officeTransmitComplete => Sys2Proof.Machine.execOfficeTransmitComplete s
  | .officeReadyIndication ready => Sys2Proof.Machine.execOfficeReadyIndication ready s
  | .linkUp port => Sys2Proof.Machine.execLinkUp port s
  | .linkDown port midFrame => Sys2Proof.Machine.execLinkDown port midFrame s

end Sys2Proof.Machine
end

