-- ==== Sys2Proof/Safety.lean ====
section
/-! DEFINITION. What it is for a state to be sound: the bounds and laws the manual states of each block, as decidable properties. Every one is meant to hold at reset and to be kept by every step. -/

namespace Sys2Proof.Machine

/-! ### The tap path (R2, R4) -/

/-- One for a tap that has no verdict yet. -/
def TapEntry.owed (e : TapEntry) : Nat := if e.answeredLate then 0 else 1

/-- Accepted taps that have not been answered: in the Tap Queue and with the Reckoner (R2). -/
def unanswered (s : State) : Nat :=
  (s.tapQueue.map TapEntry.owed).sum + ((s.reckoner.map (fun t => t.entry.owed)).getD 0)

/-- The Verdict Queue's frames and reserved places never exceed its 128 places, there is one reserved place for each accepted tap not yet answered (R2), and the Tap Queue holds at most 64 taps (R4). -/
abbrev TapPathSound (s : State) : Prop :=
  s.verdictQueue.frames.length + s.verdictQueue.reserved ≤ 128
    ∧ s.verdictQueue.reserved = unanswered s
    ∧ s.tapQueue.length ≤ 64

/-! ### The Office Queue and the request slots (R60, R83, R162, R174) -/

/-- Office Queue entries a held request has set aside (R162). -/
def HeldRequest.aside (r : HeldRequest) : Nat :=
  if r.phase = .ready ∨ r.phase = .presented then entriesNeeded r.request else 0

/-- Requests of the Management Unit for the store that are outstanding: operations and a drain step (R60). -/
def outstanding (s : State) : Nat :=
  (s.mgmt.requests.filter (fun r => r.phase == .presented)).length
    + (if s.mgmt.drain.presented then 1 else 0)

/-- The set-aside entries as their two holders have them: three of the Reckoner's transaction, those of the journey operations and the drain step's (R162). -/
def asideHeld (s : State) : Nat :=
  (if s.reckoner.isSome then 3 else 0) + (s.mgmt.requests.map HeldRequest.aside).sum
    + (if s.mgmt.drain.presented then 1 else 0)

/-- The Office Queue's frames and set-aside entries never exceed 2,048, and every set-aside entry has its holder (R162); the request slots are two (R174); the Management Unit has at most one request for the store (R60); a drain belongs to a RESTART that holds its slot (R176). -/
abbrev OfficeSound (s : State) : Prop :=
  s.officeQueue.frames.length + s.officeQueue.setAside ≤ 2048
    ∧ s.officeQueue.setAside = asideHeld s
    ∧ s.mgmt.requests.length ≤ 2
    ∧ outstanding s ≤ 1
    ∧ (s.mgmt.drain.presented = true → s.mgmt.drain.inProgress = true)
    ∧ (s.mgmt.drain.inProgress = true →
        s.mgmt.requests.any (fun r => r.phase == .underway && r.request.isRestart) = true)

/-! ### The transmitters (R15, R164, R169, R172) -/

/-- What the Line transmitter sends is the frame at the head of its queue, under a link that is Up; when it is free under a link that is Up, no frame waits (R15, R169, R172). -/
def lineSound (s : State) : Bool :=
  match s.linePort.sending with
  | none => s.rstnLow || s.linePort.link == .down
      || (s.verdictQueue.frames.isEmpty && s.forwardQueue.isEmpty)
  | some f => s.linePort.link == .up
      && (match f.source with
        | .verdict => s.verdictQueue.frames.head?.map (verdictWire s.nodeAddress) == some f.wire
        | .forward => s.forwardQueue.head? == some f.wire
        | .dropped => true)

/-- What the Office transmitter sends is the frame at the head of the Office Queue, under a link that is Up; when it is free under a ready indication, no frame waits (R164, R172). -/
def officeSound (s : State) : Bool :=
  match s.officePort.sending with
  | none => s.rstnLow || s.officePort.link == .down || !s.officePort.ready
      || s.officeQueue.frames.isEmpty
  | some w => s.officePort.link == .up
      && s.officeQueue.frames.head?.map (officeWire s.nodeAddress) == some w

/-- Both transmitters are sound. -/
abbrev TransmittersSound (s : State) : Prop := lineSound s = true ∧ officeSound s = true

/-- The Forward Queue never holds more than 256 frames (R169). -/
abbrev ForwardSound (s : State) : Prop := s.forwardQueue.length ≤ 256

/-! ### The Journey Store (R61, R64, R65, R67, R68, R85, R86, R92) -/

/-- The wait counts keep their bounds, count only for a waiting request, and no request waits while the store is free (R61). -/
abbrev ArbiterSound (s : State) : Prop :=
  s.store.arbiter.managementWait ≤ 4 ∧ s.store.arbiter.sweepWait ≤ 16
    ∧ (s.store.arbiter.managementWaiting = false → s.store.arbiter.managementWait = 0)
    ∧ (s.store.arbiter.sweepWaiting = false → s.store.arbiter.sweepWait = 0)
    ∧ (s.store.arbiter.holder = none →
        s.store.arbiter.reckonerWaiting = false ∧ s.store.arbiter.managementWaiting = false
          ∧ s.store.arbiter.sweepWaiting = false)

/-- Each requester has at most one request: it waits or holds the store, never both; the Reckoner has one exactly while it holds a transaction, the Management Unit exactly while an operation or a drain step is outstanding (R60). -/
abbrev RequestersSound (s : State) : Prop :=
  (s.reckoner.isSome = true ↔ holder s = some .reckoner ∨ s.store.arbiter.reckonerWaiting = true)
    ∧ (1 ≤ outstanding s ↔ holder s = some .management ∨ s.store.arbiter.managementWaiting = true)
    ∧ ¬ (holder s = some .reckoner ∧ s.store.arbiter.reckonerWaiting = true)
    ∧ ¬ (holder s = some .management ∧ s.store.arbiter.managementWaiting = true)
    ∧ ¬ (holder s = some .sweep ∧ s.store.arbiter.sweepWaiting = true)

/-- No two open journeys share a way or a token, and each stands in the set its token folds to (R64, R65, R67). -/
abbrev JourneysSound (s : State) : Prop :=
  (s.store.journeys.map JourneyWay.slot).Nodup
    ∧ (s.store.journeys.map (fun w => w.journey.token)).Nodup
    ∧ ∀ w ∈ s.store.journeys, w.slot / 4 = journeySet w.journey.token

/-- The Day Account Table lists its ways in ascending order, each record in the set of its token, no two of one key, and legs priced at most 255 (R85, R86, R92). -/
abbrev AccountsSound (s : State) : Prop :=
  (s.store.accounts.map AccountWay.slot).Pairwise (· < ·)
    ∧ (s.store.accounts.map (fun w => (w.account.token, w.account.day))).Nodup
    ∧ (∀ w ∈ s.store.accounts, w.slot / 4 = accountSet w.account.token)
    ∧ (∀ w ∈ s.store.accounts, w.account.legs ≤ 255)

/-- The next journey reference is 1 to 4,294,967,295 (R68). -/
abbrev ReferenceSound (s : State) : Prop :=
  1 ≤ s.store.nextReference ∧ s.store.nextReference ≤ 4294967295

/-- The Sweep's cursors name slots of their tables (R119). -/
abbrev SweepSound (s : State) : Prop :=
  s.sweep.journeyCursor < 16384 ∧ s.sweep.accountCursor < 32768

/-! ### The Table Store (R129, R134, R142, R145) -/

/-- At most one slot is Active, and at most one is Staging, Copying, Validating or Pending (R134). -/
abbrev SlotsSound (s : State) : Prop :=
  ¬ (s.tables.slotA.state = .active ∧ s.tables.slotB.state = .active)
    ∧ ¬ (s.tables.slotA.state.loading = true ∧ s.tables.slotB.state.loading = true)

/-- Open journeys tagged with a slot (R142). -/
def tagged (s : State) (x : SlotId) : Nat :=
  (s.store.journeys.filter (fun w => w.journey.tag == x)).length

/-- A slot's reference count is the number of journeys tagged with it; it is 0 but in Active and Retiring, and not 0 in Retiring (R142). -/
abbrev slotCounted (s : State) (x : SlotId) : Prop :=
  (slotOf s x).refCount = tagged s x
    ∧ ((slotOf s x).state ≠ .active → (slotOf s x).state ≠ .retiring → (slotOf s x).refCount = 0)
    ∧ ((slotOf s x).state = .retiring → (slotOf s x).refCount ≠ 0)

/-- A swap is due only for a slot that is Validating or Pending (R141). -/
abbrev SwapSound (s : State) : Prop :=
  (s.tables.swapDue = some .a → s.tables.slotA.state = .validating ∨ s.tables.slotA.state = .pending)
    ∧ (s.tables.swapDue = some .b →
        s.tables.slotB.state = .validating ∨ s.tables.slotB.state = .pending)

/-- The reference counts are sound (R142), over sound tables of journeys and a sound swap. -/
abbrev CountsSound (s : State) : Prop :=
  JourneysSound s ∧ SwapSound s ∧ slotCounted s .a ∧ slotCounted s .b

/-- The Deny List is strictly ascending and holds at most 8,192 references (R145). -/
abbrev DenyListSound (s : State) : Prop :=
  (s.tables.denyList.map BitVec.toNat).Pairwise (· < ·) ∧ s.tables.denyList.length ≤ 8192

/-! ### The Line Clock (R148, R149, R153) -/

/-- A held TIME MARK carries seconds of 32 bits, as its frame does (R173). -/
def markInRange : Request → Bool
  | .timeMark sec _ => sec ≤ 4294967295
  | _ => true

/-- Line time, trim, accumulator and holdover count keep their ranges (R148, R149, R153). -/
abbrev ClockSound (s : State) : Prop :=
  s.clock.sec ≤ 4294967295 ∧ s.clock.ms ≤ 999
    ∧ -500 ≤ s.clock.trim ∧ s.clock.trim ≤ 500
    ∧ -999999 ≤ s.clock.accumulator ∧ s.clock.accumulator ≤ 999999
    ∧ s.clock.holdover ≤ Config.holdoverMax
    ∧ ∀ r ∈ s.mgmt.requests, markInRange r.request = true

/-! ### The Management Unit (R165, R166, R171, R177) -/

/-- Every counter is at most 4,294,967,295 (R166), and the office sequence count at most 255 (R171). -/
abbrev CountersSound (s : State) : Prop :=
  (∀ n ∈ s.mgmt.counters.list, n ≤ 4294967295) ∧ s.officeQueue.sequence ≤ 255

/-- The pending events hold at most one entry of a kind, with an occurrence count of 1 to 65,535 (R165). -/
abbrev EventsSound (s : State) : Prop :=
  (s.mgmt.events.map PendingEvent.kind).Nodup
    ∧ ∀ e ∈ s.mgmt.events, 1 ≤ e.count ∧ e.count ≤ 65535

/-- The run settings stand in their ranges (R177). -/
abbrev RunSettings.inRange (v : RunSettings) : Prop :=
  1024 ≤ v.highMark ∧ v.highMark ≤ 16384 ∧ v.lowMark ≤ v.highMark - 1
    ∧ 100 ≤ v.answerLimit ∧ v.answerLimit ≤ 2000
    ∧ 10 ≤ v.skewLimit ∧ v.skewLimit ≤ 3600
    ∧ 1 ≤ v.deferralAge ∧ v.deferralAge ≤ 48
    ∧ 1 ≤ v.deferredGrace ∧ v.deferredGrace ≤ 60
    ∧ 60 ≤ v.holdover ∧ v.holdover ≤ 86400
    ∧ 100 ≤ v.stepThreshold ∧ v.stepThreshold ≤ 60000
    ∧ 600 ≤ v.measurementSpan ∧ v.measurementSpan ≤ 86400
    ∧ v.rolloverMinute ≤ 1439

/-! ### What statements say -/

/-- RSTN is high and `r` is the oldest request taken and not yet carried out, between those taken before it and after it (R174, log 5). -/
abbrev NextRequest (s : State) (before : List HeldRequest) (r : HeldRequest)
    (after : List HeldRequest) : Prop :=
  s.rstnLow = false ∧ s.mgmt.requests = before ++ r :: after
    ∧ (∀ q ∈ before, q.phase ≠ .taken) ∧ r.phase = .taken

/-- The state with one held request come to a phase. -/
def State.withPhase (s : State) (before : List HeldRequest) (r : HeldRequest)
    (after : List HeldRequest) (p : Phase) : State :=
  { s with mgmt := { s.mgmt with requests := before ++ { r with phase := p } :: after } }

/-- The state with one held request answered; its reply waits for room (R174). -/
def State.answered (s : State) (before : List HeldRequest) (r : HeldRequest)
    (after : List HeldRequest) (reply : Reply) : State :=
  s.withPhase before r after (.replyDue reply)

/-- RSTN is high and the bytes are a frame that passes the checks and is a tap addressed to the engine, read as `tap` (R1). -/
abbrev TapArrives (s : State) (bytes : List Byte) (tap : Tap) : Prop :=
  s.rstnLow = false ∧ ∃ f, checkFrame bytes = some f ∧ f.kind = kindTap
    ∧ f.destination = s.nodeAddress ∧ parseTap f = some tap

/-- The verdict frame of a tap with nothing but its kind and reason (R14). -/
def plainVerdict (tap : Tap) (kind : VerdictKind) (reason : Reason) : Verdict :=
  ⟨tap.source, tap.sequence, tap.gate, tap.tapNumber,
    ⟨kind, reason, none, none, false, false, false⟩⟩

/-- RSTN is high and the Reckoner holds the Journey Store for a tap transaction, with a slot Active at the grant (R7, R12). -/
abbrev Granted (s : State) (x : SlotId) (t : TapTransaction) : Prop :=
  s.rstnLow = false ∧ s.reckoner = some t ∧ holder s = some .reckoner ∧ activeSlot s = some x

/-- A last unmatched exit that a deferred entry at a time repairs: no earlier than the entry, within the maximum journey time, at a present station (R106). -/
abbrev repairs (t : Tables) (p : Policy) (time : Nat) (l : LastUnmatched) : Prop :=
  time ≤ l.exitTime ∧ l.exitTime - time ≤ p.maxJourney * 60 ∧ stationPresent t l.station = true

/-- No account of a token and a service day holds a last unmatched exit that a deferred entry repairs (R106). -/
abbrev NothingToRepair (s : State) (x : SlotId) (token : Token) (day time : Nat) : Prop :=
  ∀ w ∈ findAccount s token day, ∀ l ∈ w.account.lastUnmatched,
    ¬ repairs (slotOf s x).tables (slotOf s x).tables.policyOf time l

/-- A granted entry that is not turned away: its station is present and, live, its class is permitted and its token was not on the Deny List at the grant or, deferred, no last unmatched of its service day or of the next stands to be repaired (R12, R105, R106). -/
abbrev EntryPasses (s : State) (x : SlotId) (t : TapTransaction) : Prop :=
  t.entry.tap.direction = 1 ∧ stationPresent (slotOf s x).tables t.entry.tap.station = true
    ∧ (t.entry.tap.deferred = false
        ∧ (classEntry (slotOf s x).tables t.entry.tap.fareClass).permitted = true
        ∧ s.store.grant.denied = false
      ∨ t.entry.tap.deferred = true
        ∧ NothingToRepair s x t.entry.tap.token
            (serviceDay s.mgmt.settings.rolloverMinute t.tapTime) t.tapTime
        ∧ NothingToRepair s x t.entry.tap.token
            (serviceDay s.mgmt.settings.rolloverMinute t.tapTime + 1) t.tapTime)

/-- A last exit that an entry at a station and time continues, under a policy (R74). -/
abbrev continues (p : Policy) (station time : Nat) (l : LastExit) : Prop :=
  p.continuationWindow ≠ 0 ∧ l.station = station ∧ l.exitTime ≤ time
    ∧ time - l.exitTime ≤ p.continuationWindow * 60

/-- The continuation part an entry at a time gets (R74). -/
abbrev EntryContinues (s : State) (p : Policy) (tap : Tap) (time : Nat) (c : Option Continuation) :
    Prop :=
  (∃ w l, findAccount s tap.token (serviceDay s.mgmt.settings.rolloverMinute time) = some w
      ∧ w.account.lastExit = some l ∧ continues p tap.station time l
      ∧ c = some ⟨l.originStation, l.originTime, l.chargedSoFar, l.nilSoFar⟩)
    ∨ c = none ∧ ∀ w l,
      findAccount s tap.token (serviceDay s.mgmt.settings.rolloverMinute time) = some w →
      w.account.lastExit = some l → ¬ continues p tap.station time l

/-- The open journey a granted entry becomes when it is admitted, given its continuation part (R65, R66). -/
def journeyOf (s : State) (x : SlotId) (t : TapTransaction) (p : Policy) (c : Option Continuation) :
    Journey where
  token := t.entry.tap.token
  reference := s.store.nextReference
  fareClass := t.entry.tap.fareClass
  entryStation := t.entry.tap.station
  entryTime := t.tapTime
  pass := t.entry.tap.pass
  tag := x
  continuation := c
  deferred := t.entry.tap.deferred
  admissionTime := s.store.grant.sec
  deadline := min 4294967295
    (if t.entry.tap.deferred then
      max (t.tapTime + p.maxJourney * 60)
        (s.store.grant.sec + s.mgmt.settings.deferredGrace * 60)
    else t.tapTime + p.maxJourney * 60)
  entryClamped := t.clamped

/-- The Verdict Queue after a transaction's answer: unchanged for a tap answered late, else one frame more in place of a reserved place; a deferred tap is told Recorded without a charge (R6, R7, R13, R104). -/
def answeredQueue (q : VerdictQueue) (t : TapTransaction) (kind : VerdictKind)
    (charge reference : Option Nat) (capReached continued : Bool) : VerdictQueue :=
  if t.entry.answeredLate then q
  else {
    frames := q.frames ++ [⟨t.entry.tap.source, t.entry.tap.sequence, t.entry.tap.gate,
      t.entry.tap.tapNumber,
      if t.entry.tap.deferred then ⟨.recorded, .none, none, reference, capReached, continued, t.clamped⟩
      else ⟨kind, .none, charge, reference, capReached, continued, t.clamped⟩⟩]
    reserved := q.reserved - 1 }

/-- The next journey reference (R68). -/
def nextReferenceAfter (n : Nat) : Nat := if n = 4294967295 then 1 else n + 1

/-- Spill mode after the table holds `occupancy` journeys (R124). -/
def spillModeAt (s : State) (occupancy : Nat) : Bool :=
  if s.sweep.spillMode then decide (s.mgmt.settings.lowMark < occupancy)
  else decide (s.mgmt.settings.highMark ≤ occupancy)

/-- The pending events once an occupancy has been reported: a report that enters or leaves spill mode raises Pressure On or Pressure Off with it (R124, R165). -/
def pressureAt (s : State) (occupancy : Nat) (events : List PendingEvent) : List PendingEvent :=
  if spillModeAt s occupancy = s.sweep.spillMode then events
  else raiseIn (if s.sweep.spillMode then .pressureOff else .pressureOn) (.occupancy occupancy)
    s.clock.sec s.clock.ms events

/-- The pending events once a closing has been told to its tag: the last one under a Retiring slot raises Generation Freed (R69, R142). -/
def freedAt (s : State) (x : SlotId) (events : List PendingEvent) : List PendingEvent :=
  if (slotOf s x).state = .retiring ∧ (slotOf s x).refCount ≤ 1 then
    raiseIn .generationFreed (.generation x ((slotOf s x).label.getD 0)) s.clock.sec s.clock.ms events
  else events

/-- The pending events once a journey under a tag has left the table, which then holds `occupancy`: the report's, then the count message's (R69, log 25). -/
def closingEvents (s : State) (x : SlotId) (occupancy : Nat) (events : List PendingEvent) :
    List PendingEvent :=
  freedAt s x (pressureAt s occupancy events)

/-- What the record of a closing carries of its journey: reference, token, class, the tag's label, the entry and the continuation origin (R123, R159, log 31). -/
abbrev CarriesJourney (s : State) (j : Journey) (c : Record) : Prop :=
  c.reference = some j.reference ∧ c.token = j.token ∧ c.fareClass = j.fareClass
    ∧ c.label = (slotOf s j.tag).label ∧ c.entry = some ⟨j.entryStation, j.entryTime⟩
    ∧ c.origin = j.continuation.map (fun v => ⟨v.originStation, v.originTime⟩)

/-- The marks of a Spill or Incomplete record: those of the journey record, and of the tap, if any, whose transaction made it (R161). -/
abbrev CarriesMarks (j : Journey) (deferred clamped : Bool) (c : Record) : Prop :=
  c.flags.deferred = (j.deferred || deferred) ∧ c.flags.timeClamped = (j.entryClamped || clamped)

/-- A Spill record: the whole open journey record and what every closing carries, and no exit and no pricing (R75, R125, R159, log 17). -/
abbrev SpillsJourney (s : State) (j : Journey) (c : Record) : Prop :=
  c.kind = .spill ∧ c.openJourney = some j ∧ CarriesJourney s j c ∧ c.exit = none ∧ c.priced = none

/-- The Day Account Table once the record of an obtained account is written: that record changed, every other as it stood; an untracked account changes none (R91, R92, R95). -/
def accountsWith (held : State × Option Nat) (f : Account → Account) : List AccountWay :=
  match held.2 with
  | none => held.1.store.accounts
  | some n => held.1.store.accounts.map
      (fun w => if w.slot = n then { w with account := f w.account } else w)

/-- A last incomplete set in an account (R95). -/
def Account.withIncomplete (l : LastIncomplete) (a : Account) : Account :=
  { a with lastIncomplete := some l }

/-- An account after a priced exit: the spent amount handed back, if any, one leg more, the last exit (R92, R93, R97). -/
def Account.withExit (spent : Option Nat) (l : LastExit) (a : Account) : Account :=
  { a with spent := spent.getD a.spent, legs := min (a.legs + 1) 255, lastExit := some l }

/-- The slot whose swap is due once line time's whole seconds have been compared with the watched effective time: the one that was due, else the Pending slot whose time has come (R157). -/
def swapDueAt (s : State) (sec : Nat) : Option SlotId :=
  s.tables.swapDue.or
    ((slotIn (· == .pending) s).filter (fun x => (slotOf s x).effective.any (· ≤ sec)))

/-- The state with the store's arbiter as a grant leaves it and the grant read: line seconds, service day, whether the Reckoner's token is on the Deny List and the Sweep's kind of visit; the Sweep's own grant passes its turn during a purge pass (R12, R121, R156, log 8). -/
def State.granted (s : State) (b : Arbiter) : State :=
  { s with
    store := { s.store with
      arbiter := b
      grant := {
        sec := s.clock.sec
        serviceDay := s.clock.serviceDay
        denied := match s.reckoner with
          | some t => decide (t.entry.tap.token ∈ s.tables.denyList)
          | none => false
        visit := if s.sweep.purgePending = true ∧ s.sweep.turn = .account then .account
          else if s.sweep.spillMode then .spill else .cursor } }
    sweep := if b.holder = some .sweep ∧ s.sweep.purgePending = true then { s.sweep with
        turn := match s.sweep.turn with
          | .account => .journey
          | .journey => .account }
      else s.sweep }

/-- The first place of a list whose element fails a test that may look at the place. -/
abbrev FirstBad {α : Type} (l : List α) (bad : Nat → α → Prop) (i : Nat) : Prop :=
  (∃ e, l[i]? = some e ∧ bad i e) ∧ ∀ j < i, ∀ e, l[j]? = some e → ¬ bad j e

/-- The byte of a slot field (R174). -/
def SlotId.byte : SlotId → Byte
  | .a => 0x00#8
  | .b => 0x01#8

/-- An optional field: a present byte and the value's bytes, whatever they are when it is absent (R173). -/
abbrev OptionalField (size : Nat) (v : Option Nat) (bytes : List Byte) : Prop :=
  ∃ (present : Byte) (n : Nat), n < 256 ^ size ∧ bytes = present :: beBytes size n
    ∧ v = if present = 0#8 then none else some n

/-- The code and the parameters of a request as R173 lays them out; the length of a TABLE WRITE by R174 (log 38). -/
def RequestLaidOut (code : Byte) (params : List Byte) : Request → Prop
  | .malformed => False
  | .identify => code = 0x01#8 ∧ params = []
  | .start => code = 0x02#8 ∧ params = []
  | .halt => code = 0x03#8 ∧ params = []
  | .restart => code = 0x04#8 ∧ params = []
  | .setRunSettings v => code = 0x05#8 ∧ ∃ l : List Nat, (∀ n ∈ l, n < 4294967296)
      ∧ l = [v.highMark, v.lowMark, v.answerLimit, v.skewLimit, v.deferralAge, v.deferredGrace,
        v.holdover, v.stepThreshold, v.measurementSpan, v.rolloverMinute]
      ∧ params = l.flatMap (beBytes 4)
  | .timeMark sec ms => code = 0x06#8 ∧ sec < 4294967296 ∧ ms < 65536
      ∧ params = beBytes 4 sec ++ beBytes 2 ms
  | .counters clear => code = 0x07#8 ∧ ∃ b : Byte, params = [b] ∧ clear = decide (b ≠ 0#8)
  | .tableWrite x table first n entries => code = 0x10#8 ∧ table < 256 ∧ first < 256 ∧ n < 256
      ∧ params = x.byte :: (beBytes 1 table ++ beBytes 1 first ++ beBytes 1 n ++ entries)
      ∧ ∀ size, entrySize table = some size → entries.length = n * size
  | .tableRead x table first n => code = 0x11#8 ∧ table < 256 ∧ first < 256 ∧ n < 256
      ∧ params = x.byte :: (beBytes 1 table ++ beBytes 1 first ++ beBytes 1 n)
  | .copyActive x => code = 0x12#8 ∧ params = [x.byte]
  | .discard x => code = 0x13#8 ∧ params = [x.byte]
  | .activate x effective => code = 0x14#8
      ∧ ∃ bytes, params = x.byte :: bytes ∧ OptionalField 4 effective bytes
  | .cancel x => code = 0x15#8 ∧ params = [x.byte]
  | .denyAdd token => code = 0x20#8 ∧ params = beBytes 8 token.toNat
  | .denyRemove token => code = 0x21#8 ∧ params = beBytes 8 token.toNat
  | .denyClear => code = 0x22#8 ∧ params = []
  | .denyCheck token => code = 0x23#8 ∧ params = beBytes 8 token.toNat
  | .journeyQuery token => code = 0x30#8 ∧ params = beBytes 8 token.toNat
  | .journeyClose token station time => code = 0x31#8
      ∧ ∃ s t, params = beBytes 8 token.toNat ++ s ++ t ∧ OptionalField 1 station s
        ∧ OptionalField 4 time t
  | .accountQuery token day => code = 0x32#8
      ∧ ∃ bytes, params = beBytes 8 token.toNat ++ bytes ∧ OptionalField 2 day bytes

/-- RSTN is high and the Management Unit holds the Journey Store for the operation `r` (R60). -/
abbrev GrantedOperation (s : State) (before : List HeldRequest) (r : HeldRequest)
    (after : List HeldRequest) : Prop :=
  s.rstnLow = false ∧ holder s = some .management ∧ s.mgmt.drain.presented = false
    ∧ s.mgmt.requests = before ++ r :: after ∧ (∀ q ∈ before, q.phase ≠ .presented)
    ∧ r.phase = .presented

/-- A property that every step keeps. -/
def Kept (p : State → Prop) : Prop :=
  ∀ s t : State, p s → step s = .next t → p t

end Sys2Proof.Machine
end

