-- ==== Sys2Proof/Certificates/Slice0/Obligations.lean ====
section
/-! DEFINITION. The statements for the provers. A state written `{ s with … }` changes nothing but the fields it names; a field that reads `t.…` on both sides may change and is said of elsewhere in the same statement or left open. -/

section

open Sys2Proof Sys2Proof.Machine

/-! ### Steps -/

/-- A step takes the command at the front of the queue and runs it on the state with the queue's rest; on an empty queue the block idles (the model's choice, log 3). -/
def Obligations.StepRunsFrontCommand : Prop :=
  (∀ (c : Instr) (s : State), step { s with pending := c :: s.pending } = exec c s)
    ∧ ∀ s : State, s.pending = [] → step s = .next s

/-- Every command completes in every state and leaves the queue of commands as it is: one whose condition does not hold leaves the state as it stands (the model's choice, log 1). A request's row acts on the oldest request taken and not yet carried out: while none waits to be carried out and no swap is due, none of the request rows changes anything (the model's reading, log 5). -/
def Obligations.EveryCommandCompletes : Prop :=
  (∀ (c : Instr) (s : State), ∃ t, exec c s = .next t ∧ t.pending = s.pending)
  ∧ (∀ s : State, nextTaken s = none →
    ∀ c ∈ ([.identify, .start, .halt, .restart, .setRunSettings, .timeMark, .counters, .tableWrite,
        .tableRead, .copyActive, .discard, .activate, .cancel, .denyAdd, .denyRemove, .denyClear,
        .denyCheck, .journeyQuery, .journeyClose, .accountQuery] : List Instr),
      s.tables.swapDue = none → exec c s = .next s)

/-! ### Pins (R171, R178) -/

/-- RSTN_LOW cuts the frames being sent short and changes nothing else; while RSTN is low no command but the two of the pins changes anything (log 2). -/
def Obligations.RstnLowStopsThePorts : Prop :=
  (∀ s : State, exec .rstnLow s = .next { s with
      rstnLow := true
      linePort := { s.linePort with sending := none }
      officePort := { s.officePort with sending := none } })
    ∧ ∀ (c : Instr) (s : State), s.rstnLow = true → c ≠ .rstnLow →
        (∀ straps, c ≠ .pinReset straps) → exec c s = .next s

/-- PIN_RESET gives every block the values its chapter gives for pin reset and samples the straps; the model's queue of commands and its counter of free values stand (log 9), and its own reading of a grant is blank (log 8). -/
def Obligations.PinResetGivesResetValues : Prop :=
  ∀ (straps : BitVec 4) (s : State), exec (.pinReset straps) s = .next {
    rstnLow := false
    nodeAddress := 0xC0#8 + straps.setWidth 8
    linePort := { link := .down, sending := none }
    officePort := { link := .down, ready := false, sending := none }
    tapQueue := []
    verdictQueue := { frames := [], reserved := 0 }
    forwardQueue := []
    officeQueue := { frames := [], setAside := 0, sequence := 0 }
    reckoner := none
    store := {
      journeys := []
      accounts := []
      accountFullDay := none
      nextReference := 1
      arbiter := {
        holder := none
        reckonerWaiting := false
        managementWaiting := false
        sweepWaiting := false
        managementWait := 0
        sweepWait := 0 }
      grant := { sec := 0, serviceDay := 0, denied := false, visit := .cursor } }
    sweep := {
      journeyCursor := 0
      accountCursor := 0
      spillMode := false
      purgePending := false
      turn := .journey
      resetAtRelease := false }
    tables := {
      slotA := { state := .free, tables := Tables.emptied, refCount := 0, effective := none }
      slotB := { state := .free, tables := Tables.emptied, refCount := 0, effective := none }
      swapDue := none
      denyList := [] }
    clock := {
      sec := 0
      ms := 0
      state := .unset
      slew := 0
      slewDue := false
      trim := 0
      accumulator := 0
      rate := none
      holdover := 0
      serviceDay := 0 }
    mgmt := {
      service := .halted
      requests := []
      settings := {
        highMark := 15360
        lowMark := 14336
        answerLimit := 500
        skewLimit := 120
        deferralAge := 48
        deferredGrace := 10
        holdover := 3600
        stepThreshold := 2000
        measurementSpan := 3600
        rolloverMinute := 180 }
      counters := ⟨0, 0, 0, 0, 0, 0, 0, 0, 0, 0, 0, 0, 0, 0, 0, 0, 0, 0, 0⟩
      events := []
      drain := { inProgress := false, presented := false, spilled := 0, fallbacks := 0 }
      restartLate := [] }
    freeIndex := s.freeIndex
    pending := s.pending }

/-- State.reset is what PIN_RESET leaves with the straps at 0 (log 9), and it meets every soundness property. -/
def Obligations.SoundAtReset : Prop :=
  exec (.pinReset 0) State.reset = .next State.reset
    ∧ TapPathSound State.reset ∧ OfficeSound State.reset ∧ RequestersSound State.reset
    ∧ TransmittersSound State.reset ∧ ForwardSound State.reset ∧ ArbiterSound State.reset
    ∧ CountsSound State.reset ∧ AccountsSound State.reset ∧ ReferenceSound State.reset
    ∧ SweepSound State.reset ∧ SlotsSound State.reset ∧ DenyListSound State.reset
    ∧ ClockSound State.reset ∧ CountersSound State.reset ∧ EventsSound State.reset
    ∧ State.reset.mgmt.settings.inRange

/-! ### Frames (R1, R168 to R174) -/

/-- A received string of bytes passes the checks of R170 exactly when it is the frame of its own fields: destination, source, kind, sequence, the body's length in two bytes, a body of at most 1,024 bytes, and in two bytes the CRC over all of these; the CRC starts from FFFFH and takes each bit, the most significant of a byte first, by the polynomial x^16 + x^12 + x^5 + 1 (R170). -/
def Obligations.AcceptedFramesAreBuiltFrames : Prop :=
  (∀ (bytes : List Byte) (f : ReceivedFrame), checkFrame bytes = some f ↔
    f.body.length ≤ 1024
      ∧ bytes = buildFrame f.destination f.source f.kind f.sequence f.body)
  ∧ (∀ (destination source kind sequence : Byte) (body covered : List Byte),
    covered = destination :: source :: kind :: sequence :: (beBytes 2 body.length ++ body) →
    buildFrame destination source kind sequence body = covered ++ beBytes 2 (crc covered).toNat)
  ∧ crc [] = 0xFFFF#16
  ∧ ∀ (bytes : List Byte) (b : Byte), crc (bytes ++ [b]) = (List.range 8).foldl
      (fun (c : BitVec 16) i => if c.msb = b.getMsbD i then c <<< 1 else (c <<< 1) ^^^ 0x1021#16) (crc bytes)

/-- A tap body laid out as R173 gives, without and with a pass, is read as its fields; what TABLE READ sends of an entry is what TABLE WRITE reads back as that entry, for every table; and a request's body is read as the request its code and parameters are laid out for, and as Malformed when they are laid out for none (R1, R134, R135, R173, R174; the layout of the table entries, a TABLE WRITE of an unknown table and the number and code of a body that has none are the model's reading, logs 33, 38 and 40). -/
def Obligations.BodiesAreReadAsLaidOut : Prop :=
  (∀ (destination source kind sequence deferred : Byte) (station gate direction gateTime fareClass
      tapNumber : Nat) (token : Token) (pass : Option Pass),
    station < 256 → gate < 256 → direction < 256 → gateTime < 4294967296 → fareClass < 256 →
    tapNumber < 65536 →
    (∀ p, pass = some p → p.fromStation < 256 ∧ p.toStation < 256 ∧ p.lastDay < 65536) →
    parseTap ⟨destination, source, kind, sequence,
        beBytes 1 station ++ beBytes 1 gate ++ beBytes 1 direction ++ [deferred]
          ++ beBytes 4 gateTime ++ beBytes 8 token.toNat ++ beBytes 1 fareClass
          ++ beBytes 2 tapNumber ++ (pass.map passBytes).getD []⟩
      = some {
        station := station
        gate := gate
        direction := direction
        deferred := deferred != 0#8
        gateTime := gateTime
        token := token
        fareClass := fareClass
        tapNumber := tapNumber
        pass := pass
        source := source
        sequence := sequence })
  ∧ ((∀ e : StationEntry, e.branch < 256 → e.chainage < 65536 → parseStation (stationBytes e) = e)
    ∧ (∀ e : BranchEntry, (∀ j, e.junction = some j → j < 255) → e.owner < 256 →
        parseBranch (branchBytes e) = e)
    ∧ (∀ e : ScaleEntry, e.bound < 65536 → e.fare < 65536 → parseScale (scaleBytes e) = e)
    ∧ (∀ e : ClassEntry, e.factor < 65536 → e.cap < 65536 → parseClass (classBytes e) = e)
    ∧ (∀ d : Nat, d < 256 → field 0 1 (beBytes 1 d) = d)
    ∧ (∀ e : ExceptionEntry, e.day < 65536 → e.dayType < 256 →
        parseException (exceptionBytes e) = e)
    ∧ (∀ e : BandEntry, e.minute < 65536 → e.factor < 65536 → parseBand (bandBytes e) = e)
    ∧ (∀ p : Policy, p.label < 65536 → p.maxJourney < 65536 → p.grace < 256 →
        p.sameStationCharge < 65536 → p.continuationWindow < 256 → p.duplicateWindow < 256 →
        p.fareStep < 256 → p.minimumFare < 65536 → parsePolicy (policyBytes p) = p))
  ∧ (∀ (f : ReceivedFrame) (number : Nat) (code : Byte) (params : List Byte), f.kind = 0x21#8 →
    number < 65536 → f.body = beBytes 2 number ++ code :: params →
    requestNumber f = number ∧ requestCode f = code.toNat
    ∧ (∀ q, RequestLaidOut code params q → parseRequest f = q)
    ∧ ((∀ q, ¬ RequestLaidOut code params q) → parseRequest f = .malformed))
  ∧ ∀ f : ReceivedFrame, f.kind ≠ 0x21#8 ∨ f.body.length < 3 →
    parseRequest f = .malformed ∧ requestNumber f = 0 ∧ requestCode f = 0

/-- A bad frame is discarded and counted at its port; a tap with no free verdict place, and a tap body of no tap length, are discarded and counted under "taps not accepted". Each shows the link Up and changes nothing else (R1, R2, R170, R172, log 26). -/
def Obligations.DiscardedFramesAreCounted : Prop :=
  (∀ (s : State) (bytes : List Byte), s.rstnLow = false → checkFrame bytes = none →
      exec (.lineFrameReceived bytes) s = .next { s with
          linePort := (raiseLineLink s).linePort
          mgmt := { s.mgmt with counters := { s.mgmt.counters with
            crcErrorsLine := bump s.mgmt.counters.crcErrorsLine } } }
        ∧ exec (.officeFrameReceived bytes) s = .next { s with
          officePort := (raiseOfficeLink s).officePort
          mgmt := { s.mgmt with counters := { s.mgmt.counters with
            crcErrorsOffice := bump s.mgmt.counters.crcErrorsOffice } } })
    ∧ (∀ (s : State) (bytes : List Byte) (tap : Tap), TapArrives s bytes tap → verdictFree s = 0 →
        exec (.lineFrameReceived bytes) s = .next { s with
          linePort := (raiseLineLink s).linePort
          mgmt := { s.mgmt with counters := { s.mgmt.counters with
            tapsNotAccepted := bump s.mgmt.counters.tapsNotAccepted } } })
    ∧ ∀ (s : State) (bytes : List Byte) (f : ReceivedFrame), s.rstnLow = false →
        checkFrame bytes = some f → f.kind = kindTap → f.destination = s.nodeAddress →
        f.body.length ≠ 19 → f.body.length ≠ 23 →
        exec (.lineFrameReceived bytes) s = .next { s with
          linePort := (raiseLineLink s).linePort
          mgmt := { s.mgmt with counters := { s.mgmt.counters with
            tapsNotAccepted := bump s.mgmt.counters.tapsNotAccepted } } }

/-- A tap that arrives while the engine is Running and the Tap Queue holds fewer than 64 taps joins its tail with the arrival time, the answer limit as its deadline and the mark clear; a verdict place is reserved for it (R2 to R5, log 26). -/
def Obligations.TapQueuedAtArrival : Prop :=
  ∀ (s : State) (bytes : List Byte) (tap : Tap), TapArrives s bytes tap → 1 ≤ verdictFree s →
    s.mgmt.service = .running → s.tapQueue.length < 64 →
    exec (.lineFrameReceived bytes) s = .next { s with
      linePort := (raiseLineLink s).linePort
      verdictQueue := { s.verdictQueue with reserved := s.verdictQueue.reserved + 1 }
      tapQueue := s.tapQueue ++ [{
        tap := tap
        arrivalSec := s.clock.sec
        arrivalMs := s.clock.ms
        deadline := s.mgmt.settings.answerLimit
        answeredLate := false }]
      mgmt := { s.mgmt with counters := { s.mgmt.counters with
        tapsAccepted := bump s.mgmt.counters.tapsAccepted } } }

/-- A tap is answered at arrival: Fallback "queue full" when the Tap Queue is full, Out of Service when the engine is Halted, then with an Unpriced record "halted" when the Office Queue has a free entry and without one otherwise (R3, R17, log 16). -/
def Obligations.TapAnsweredAtArrival : Prop :=
  ∀ (s : State) (bytes : List Byte) (tap : Tap), TapArrives s bytes tap → 1 ≤ verdictFree s →
    (s.mgmt.service = .running → 64 ≤ s.tapQueue.length →
      ∃ t, exec (.lineFrameReceived bytes) s = .next t ∧ t = { s with
        linePort := t.linePort
        verdictQueue := { s.verdictQueue with
          frames := s.verdictQueue.frames ++ [plainVerdict tap .fallback .queueFull] }
        mgmt := { s.mgmt with counters := { s.mgmt.counters with
          tapsAccepted := bump s.mgmt.counters.tapsAccepted
          fallbacksFull := bump s.mgmt.counters.fallbacksFull } } })
    ∧ (s.mgmt.service = .halted → officeFree s = 0 →
      ∃ t, exec (.lineFrameReceived bytes) s = .next t ∧ t = { s with
        linePort := t.linePort
        verdictQueue := { s.verdictQueue with
          frames := s.verdictQueue.frames ++ [plainVerdict tap .outOfService .none] }
        mgmt := { s.mgmt with counters := { s.mgmt.counters with
          tapsAccepted := bump s.mgmt.counters.tapsAccepted } } })
    ∧ (s.mgmt.service = .halted → 1 ≤ officeFree s →
      ∃ t, exec (.lineFrameReceived bytes) s = .next t ∧ t = { s with
        linePort := t.linePort
        officePort := t.officePort
        verdictQueue := { s.verdictQueue with
          frames := s.verdictQueue.frames ++ [plainVerdict tap .outOfService .none] }
        officeQueue := { s.officeQueue with
          frames := s.officeQueue.frames ++ [.record s.officeQueue.sequence {
            kind := .unpriced
            madeSec := s.clock.sec
            madeMs := s.clock.ms
            reference := none
            token := tap.token
            fareClass := tap.fareClass
            label := none
            reason := .halted
            entry := none
            exit := none
            priced := none
            originalCharge := none
            related := none
            origin := none
            openJourney := none
            tap := some ⟨tap.station, tap.gate, tap.direction, tap.gateTime, tap.tapNumber⟩
            flags := {
              deferred := tap.deferred
              clockFreeRunning := s.clock.state == .freeRunning } }]
          sequence := (s.officeQueue.sequence + 1) % 256 }
        mgmt := { s.mgmt with counters := { s.mgmt.counters with
          tapsAccepted := bump s.mgmt.counters.tapsAccepted
          unpriced := bump s.mgmt.counters.unpriced } } })

/-- A frame at the Line port that passes the checks and is not a tap is placed in the Office Queue unchanged when at least 4 entries are free, and dropped and counted otherwise, in either service state; the free entries are 2,048 less the frames held, less the set-aside entries (R168). -/
def Obligations.StationFrameForwarded : Prop :=
  ∀ (s : State) (bytes : List Byte) (f : ReceivedFrame), s.rstnLow = false →
    checkFrame bytes = some f → ¬ (f.kind = kindTap ∧ f.destination = s.nodeAddress) →
    (s.officeQueue.frames.length + s.officeQueue.setAside + 4 ≤ 2048 → ∃ t, exec (.lineFrameReceived bytes) s = .next t ∧ t = { s with
        linePort := t.linePort
        officePort := t.officePort
        officeQueue := { s.officeQueue with
          frames := s.officeQueue.frames ++ [.forwarded bytes] } })
    ∧ (2048 < s.officeQueue.frames.length + s.officeQueue.setAside + 4 →
      ∃ t, exec (.lineFrameReceived bytes) s = .next t ∧ t = { s with
        linePort := t.linePort
        mgmt := { s.mgmt with counters := { s.mgmt.counters with
          droppedLineToOffice := bump s.mgmt.counters.droppedLineToOffice } } })

/-- A frame at the Office port addressed to the engine is taken into a free request slot, where R174 answers it Malformed or it waits to be carried out; with both slots held it is answered Busy in a free entry, or discarded and counted. Any other frame is placed at the tail of the Forward Queue, or dropped and counted when the queue holds 256 frames (R169, R171, R174, logs 5, 26 and 40). -/
def Obligations.OfficeFrameRouted : Prop :=
  (∀ (s : State) (bytes : List Byte) (f : ReceivedFrame), s.rstnLow = false →
    checkFrame bytes = some f → f.destination = s.nodeAddress →
    (s.mgmt.requests.length < 2 → exec (.officeFrameReceived bytes) s = .next { s with
        officePort := (raiseOfficeLink s).officePort
        mgmt := { s.mgmt with requests := s.mgmt.requests ++ [{
          sequence := f.sequence
          number := requestNumber f
          code := requestCode f
          request := parseRequest f
          phase := if parseRequest f = .malformed then .replyDue ⟨.malformed, .none, .nothing⟩
            else .taken }] } })
    ∧ (2 ≤ s.mgmt.requests.length → 1 ≤ officeFree s →
      ∃ t, exec (.officeFrameReceived bytes) s = .next t ∧ t = { s with
        officePort := t.officePort
        officeQueue := { s.officeQueue with
          frames := s.officeQueue.frames
            ++ [.reply f.sequence (requestNumber f) (requestCode f) ⟨.busy, .none, .nothing⟩] } })
    ∧ (2 ≤ s.mgmt.requests.length → officeFree s = 0 →
      exec (.officeFrameReceived bytes) s = .next { s with
        officePort := (raiseOfficeLink s).officePort
        mgmt := { s.mgmt with counters := { s.mgmt.counters with
          requestsDiscarded := bump s.mgmt.counters.requestsDiscarded } } }))
  ∧ (∀ (s : State) (bytes : List Byte) (f : ReceivedFrame), s.rstnLow = false →
    checkFrame bytes = some f → f.destination ≠ s.nodeAddress →
    (s.forwardQueue.length < 256 →
      ∃ t, exec (.officeFrameReceived bytes) s = .next t ∧ t = { s with
        linePort := t.linePort
        officePort := (raiseOfficeLink s).officePort
        forwardQueue := s.forwardQueue ++ [bytes] })
    ∧ (256 ≤ s.forwardQueue.length → exec (.officeFrameReceived bytes) s = .next { s with
        officePort := (raiseOfficeLink s).officePort
        mgmt := { s.mgmt with counters := { s.mgmt.counters with
          droppedOfficeToLine := bump s.mgmt.counters.droppedOfficeToLine } } }))

/-! ### Transmission and links (R15, R164, R169, R172) -/

/-- When the Line transmitter is free under a link that is Up it starts the head verdict, or else the head of the Forward Queue; when the Office transmitter is free under a link that is Up and a ready indication it starts the head of the Office Queue; otherwise neither starts a frame. A frame sent leaves the queue it stood at the head of, and the transmitter chooses the next; a forwarded frame that was being sent when RESTART emptied the Forward Queue leaves none (log 20); the command finds nothing to do without a frame being sent (the model's choice, log 1). A verdict, a record and a forwarded frame go out as the bytes R173 gives, a field behind a presence bit that is clear being 0 or left out (R2, R14, R15, R164, R168, R169, R171 to R173; the unassigned bits are free, log 13). -/
def Obligations.FramesAreSent : Prop :=
  ((∀ (s : State) (v : Verdict) (rest : List Verdict), s.linePort = ⟨.up, none⟩ →
      s.verdictQueue.frames = v :: rest →
      transmitLine s = { s with
        linePort := ⟨.up, some ⟨.verdict, verdictWire s.nodeAddress v⟩⟩ })
    ∧ (∀ (s : State) (b : List Byte) (rest : List (List Byte)), s.linePort = ⟨.up, none⟩ →
      s.verdictQueue.frames = [] → s.forwardQueue = b :: rest →
      transmitLine s = { s with linePort := ⟨.up, some ⟨.forward, b⟩⟩ })
    ∧ (∀ s : State, s.linePort.link = .down ∨ s.linePort.sending.isSome
        ∨ s.verdictQueue.frames = [] ∧ s.forwardQueue = [] → transmitLine s = s)
    ∧ (∀ (s : State) (f : OfficeFrame) (rest : List OfficeFrame), s.officePort = ⟨.up, true, none⟩ →
      s.officeQueue.frames = f :: rest →
      transmitOffice s = { s with
        officePort := ⟨.up, true, some (officeWire s.nodeAddress f)⟩ })
    ∧ (∀ s : State, s.officePort.link = .down ∨ s.officePort.ready = false
        ∨ s.officePort.sending.isSome ∨ s.officeQueue.frames = [] → transmitOffice s = s))
  ∧ ((∀ (s : State) (w : List Byte) (v : Verdict) (rest : List Verdict), s.rstnLow = false →
      s.linePort.sending = some ⟨.verdict, w⟩ → s.verdictQueue.frames = v :: rest →
      exec .lineTransmitComplete s = .next (transmitLine { s with
        linePort := { s.linePort with sending := none }
        verdictQueue := { s.verdictQueue with frames := rest } }))
    ∧ (∀ (s : State) (w b : List Byte) (rest : List (List Byte)), s.rstnLow = false →
      s.linePort.sending = some ⟨.forward, w⟩ → s.forwardQueue = b :: rest →
      exec .lineTransmitComplete s = .next (transmitLine { s with
        linePort := { s.linePort with sending := none }
        forwardQueue := rest }))
    ∧ (∀ (s : State) (w : List Byte), s.rstnLow = false → s.linePort.sending = some ⟨.dropped, w⟩ →
      exec .lineTransmitComplete s = .next (transmitLine { s with
        linePort := { s.linePort with sending := none } }))
    ∧ (∀ (s : State) (w : List Byte) (f : OfficeFrame) (rest : List OfficeFrame),
      s.rstnLow = false → s.officePort.sending = some w → s.officeQueue.frames = f :: rest →
      exec .officeTransmitComplete s = .next (transmitOffice { s with
        officePort := { s.officePort with sending := none }
        officeQueue := { s.officeQueue with frames := rest } }))
    ∧ (∀ s : State, s.linePort.sending = none → exec .lineTransmitComplete s = .next s)
    ∧ (∀ s : State, s.officePort.sending = none → exec .officeTransmitComplete s = .next s))
  ∧ ((∀ (node : Byte) (v : Verdict), ∃ presence flags : Byte,
      verdictWire node v = buildFrame v.destination node 0x02#8 v.sequence
        (beBytes 1 v.gate ++ beBytes 2 v.tapNumber ++ beBytes 1 v.answer.kind.code
          ++ beBytes 1 v.answer.reason.code ++ [presence, flags]
          ++ beBytes 2 (v.answer.charge.getD 0) ++ beBytes 4 (v.answer.reference.getD 0))
      ∧ presence.getLsbD 0 = v.answer.charge.isSome
      ∧ presence.getLsbD 1 = v.answer.reference.isSome
      ∧ flags.getLsbD 0 = v.answer.capReached ∧ flags.getLsbD 1 = v.answer.continued
      ∧ flags.getLsbD 2 = v.answer.timeClamped)
    ∧ (∀ (node : Byte) (n : Nat) (r : Record), ∃ presence flags : BitVec 16,
      officeWire node (.record n r) = buildFrame 0x00#8 node 0x11#8 (BitVec.ofNat 8 n)
        (beBytes 1 r.kind.code ++ beBytes 1 r.reason.code ++ beBytes 2 presence.toNat
          ++ beBytes 2 flags.toNat ++ beBytes 4 r.madeSec ++ beBytes 2 r.madeMs
          ++ beBytes 8 r.token.toNat ++ beBytes 1 r.fareClass
          ++ (r.reference.map (beBytes 4)).getD [] ++ (r.label.map (beBytes 2)).getD []
          ++ (r.entry.map (fun e => beBytes 1 e.station ++ beBytes 4 e.time)).getD []
          ++ (r.exit.map (fun e => beBytes 1 e.station ++ beBytes 4 e.time)).getD []
          ++ (r.priced.map (fun p => beBytes 4 p.distance ++ beBytes 2 p.charge
            ++ beBytes 1 p.shares.length
            ++ p.shares.flatMap (fun v => beBytes 1 v.operator ++ beBytes 2 v.amount))).getD []
          ++ (r.originalCharge.map (beBytes 2)).getD [] ++ (r.related.map (beBytes 4)).getD []
          ++ (r.origin.map (fun e => beBytes 1 e.station ++ beBytes 4 e.time)).getD []
          ++ (r.openJourney.map journeyBytes).getD []
          ++ (r.tap.map (fun v => beBytes 1 v.station ++ beBytes 1 v.gate ++ beBytes 1 v.direction
            ++ beBytes 4 v.gateTime ++ beBytes 2 v.tapNumber)).getD [])
      ∧ (List.range 10).map presence.getLsbD = [r.reference.isSome, r.label.isSome, r.entry.isSome,
        r.exit.isSome, r.priced.isSome, r.originalCharge.isSome, r.related.isSome, r.origin.isSome,
        r.openJourney.isSome, r.tap.isSome]
      ∧ (List.range 14).map flags.getLsbD = [r.flags.overstay, r.flags.continued,
        r.flags.continuationNotApplied, r.flags.capReached, r.flags.capUntracked, r.flags.forced,
        r.flags.answeredLate, r.flags.timeClamped, r.flags.deferred, r.flags.nilJourney,
        r.flags.passIgnored, r.flags.denyListed, r.flags.clockFreeRunning, r.flags.confirmed])
    ∧ (∀ j : Journey, ∃ marks : Byte, journeyBytes j = beBytes 8 j.token.toNat
        ++ beBytes 4 j.reference ++ beBytes 1 j.fareClass ++ beBytes 1 j.entryStation
        ++ beBytes 4 j.entryTime ++ [j.tag.byte] ++ beBytes 4 j.admissionTime
        ++ beBytes 4 j.deadline ++ [marks]
        ++ (j.pass.map (fun p => beBytes 1 p.fromStation ++ beBytes 1 p.toStation
          ++ beBytes 2 p.lastDay)).getD []
        ++ (j.continuation.map (fun c => beBytes 1 c.originStation ++ beBytes 4 c.originTime
          ++ beBytes 2 c.charged ++ [yesNoByte c.nilSoFar])).getD []
      ∧ (List.range 4).map marks.getLsbD
        = [j.deferred, j.entryClamped, j.pass.isSome, j.continuation.isSome])
    ∧ (∀ (node : Byte) (b : List Byte), officeWire node (.forwarded b) = b)
    ∧ yesNoByte false = 0x00#8 ∧ yesNoByte true ≠ 0x00#8
    ∧ [VerdictKind.go, .goPending, .refused, .fallback, .outOfService, .recorded].map VerdictKind.code
      = [1, 2, 3, 4, 5, 6]
    ∧ [RecordKind.entry, .refused, .completed, .cancelled, .incomplete, .spill, .unmatched,
        .correction, .repair, .unpriced].map RecordKind.code = [1, 2, 3, 4, 5, 6, 7, 8, 9, 10]
    ∧ [Reason.none, .malformed, .stationUnknown, .classBarred, .denyList, .noTables, .halted, .stale,
        .queueFull, .late, .restart].map Reason.code = [0, 1, 2, 3, 4, 5, 6, 7, 8, 9, 10])

/-- A link becomes Up and its port may start a frame; it becomes Down with its transmission stopped, the frame kept at the head of its queue, the frame being received counted as bad, and on the Office port the indication not-ready; an office idle sets the indication (R164, R170, R172, log 26). A loss of a link that is Down already finds nothing to do (the model's choice, log 1). -/
def Obligations.LinkStatesChange : Prop :=
  (∀ s : State, s.rstnLow = false →
      exec (.linkUp .line) s
          = .next (transmitLine { s with linePort := { s.linePort with link := .up } })
        ∧ exec (.linkUp .office) s
          = .next (transmitOffice { s with officePort := { s.officePort with link := .up } }))
    ∧ (∀ (s : State) (ready : Bool), s.rstnLow = false →
      exec (.officeReadyIndication ready) s
        = .next (transmitOffice { s with
          officePort := { s.officePort with link := .up, ready := ready } }))
    ∧ (∀ (s : State) (midFrame : Bool), s.rstnLow = false → s.linePort.link = .up →
      exec (.linkDown .line midFrame) s = .next { s with
        linePort := ⟨.down, none⟩
        mgmt := { s.mgmt with counters := { s.mgmt.counters with
          crcErrorsLine := if midFrame then bump s.mgmt.counters.crcErrorsLine
            else s.mgmt.counters.crcErrorsLine } } })
    ∧ (∀ (s : State) (midFrame : Bool), s.rstnLow = false → s.officePort.link = .up →
      exec (.linkDown .office midFrame) s = .next { s with
        officePort := ⟨.down, false, none⟩
        mgmt := { s.mgmt with counters := { s.mgmt.counters with
          crcErrorsOffice := if midFrame then bump s.mgmt.counters.crcErrorsOffice
            else s.mgmt.counters.crcErrorsOffice } } })
    ∧ (∀ (s : State) (midFrame : Bool),
      (s.linePort.link = .down → exec (.linkDown .line midFrame) s = .next s)
        ∧ (s.officePort.link = .down → exec (.linkDown .office midFrame) s = .next s))

/-! ### Service and identity requests (R167, R174, R175, R177) -/

/-- IDENTIFY is answered Done with the values read at its taking, a label or an effective time that is absent as 0, and changes nothing else. COUNTERS replies with every counter as it stands at the taking; when it asks for a clear, every counter becomes 0 in the same act. START is refused during a drain, without an Active slot and under an Unset clock, tested in that order; otherwise the service state becomes Running. HALT makes it Halted in either state (R16, R167, R175, log 5). -/
def Obligations.ServiceRequestsAnswered : Prop :=
  ((∀ (s : State) (before after : List HeldRequest) (r : HeldRequest), NextRequest s before r after →
    r.request = .identify →
    exec .identify s = .next (s.answered before r after ⟨.done, .none, .identity {
      nodeAddress := s.nodeAddress
      service := s.mgmt.service
      drain := s.mgmt.drain.inProgress
      clock := s.clock.state
      sec := s.clock.sec
      ms := s.clock.ms
      serviceDay := s.clock.serviceDay
      occupancy := s.store.journeys.length
      spillMode := s.sweep.spillMode
      slotA := ⟨s.tables.slotA.state, (s.tables.slotA.label).getD 0, s.tables.slotA.refCount,
        (s.tables.slotA.effective).getD 0⟩
      slotB := ⟨s.tables.slotB.state, (s.tables.slotB.label).getD 0, s.tables.slotB.refCount,
        (s.tables.slotB.effective).getD 0⟩ }⟩))
  ∧ (∀ (s : State) (before after : List HeldRequest) (r : HeldRequest) (clear : Bool),
    NextRequest s before r after → r.request = .counters clear →
    exec .counters s = .next ({ s with mgmt := { s.mgmt with
        counters := if clear
          then ⟨0, 0, 0, 0, 0, 0, 0, 0, 0, 0, 0, 0, 0, 0, 0, 0, 0, 0, 0⟩
          else s.mgmt.counters } }.answered
      before r after ⟨.done, .none, .counters s.mgmt.counters⟩)))
  ∧ (∀ (s : State) (before after : List HeldRequest) (r : HeldRequest), NextRequest s before r after →
    (r.request = .start →
      (s.mgmt.drain.inProgress = true →
        exec .start s = .next (s.answered before r after ⟨.refused, .restartInProgress, .nothing⟩))
      ∧ (s.mgmt.drain.inProgress = false → activeSlot s = none →
        exec .start s = .next (s.answered before r after ⟨.refused, .noActive, .nothing⟩))
      ∧ (s.mgmt.drain.inProgress = false → activeSlot s ≠ none → s.clock.state = .unset →
        exec .start s = .next (s.answered before r after ⟨.refused, .clockUnset, .nothing⟩))
      ∧ (s.mgmt.drain.inProgress = false → activeSlot s ≠ none → s.clock.state ≠ .unset →
        exec .start s = .next ({ s with mgmt := { s.mgmt with service := .running } }.answered
          before r after ⟨.done, .none, .nothing⟩)))
    ∧ (r.request = .halt →
        exec .halt s = .next ({ s with mgmt := { s.mgmt with service := .halted } }.answered
          before r after ⟨.done, .none, .nothing⟩)))

/-- SET RUN SETTINGS takes each value clamped to its range, the low mark to one less than the high mark taken, and replies with them; spill mode, the holdover and the current service day are compared with the values taken at once, in this order, and a change of each raises its event: Pressure On or Pressure Off, Clock Free-running, Day Rollover (R124, R150, R153, R156, R165, R177; the order is the model's reading, log 30). -/
def Obligations.SettingsTaken : Prop :=
  ∀ (s : State) (before after : List HeldRequest) (r : HeldRequest) (v taken : RunSettings)
      (raised : EventKind → EventData → List PendingEvent → List PendingEvent),
    NextRequest s before r after → r.request = .setRunSettings v →
    (∀ kind data l, raised kind data l = raiseIn kind data s.clock.sec s.clock.ms l) →
    taken = {
      highMark := max 1024 (min 16384 v.highMark)
      lowMark := min v.lowMark (max 1024 (min 16384 v.highMark) - 1)
      answerLimit := max 100 (min 2000 v.answerLimit)
      skewLimit := max 10 (min 3600 v.skewLimit)
      deferralAge := max 1 (min 48 v.deferralAge)
      deferredGrace := max 1 (min 60 v.deferredGrace)
      holdover := max 60 (min 86400 v.holdover)
      stepThreshold := max 100 (min 60000 v.stepThreshold)
      measurementSpan := max 600 (min 86400 v.measurementSpan)
      rolloverMinute := min 1439 v.rolloverMinute } →
    ∃ t, exec .setRunSettings s = .next t
      ∧ t = { s with
          clock := { s.clock with state := t.clock.state, serviceDay := t.clock.serviceDay }
          sweep := t.sweep
          mgmt := { s.mgmt with
            settings := taken
            events := t.mgmt.events
            requests := before
              ++ { r with phase := .replyDue ⟨.done, .none, .settings taken⟩ } :: after } }
      ∧ t.sweep.spillMode = (if s.sweep.spillMode
          then decide (taken.lowMark < s.store.journeys.length)
          else decide (taken.highMark ≤ s.store.journeys.length))
      ∧ t.clock.state = (if (s.clock.state = .locked ∨ s.clock.state = .slewing)
            ∧ taken.holdover * 1000 ≤ s.clock.holdover then .freeRunning else s.clock.state)
      ∧ t.clock.serviceDay = serviceDay taken.rolloverMinute s.clock.sec
      ∧ (s.clock.serviceDay < t.clock.serviceDay →
          t.sweep.purgePending = true ∧ t.sweep.accountCursor = 0 ∧ t.sweep.turn = .account)
      ∧ (t.clock.serviceDay ≤ s.clock.serviceDay →
          t.sweep = { s.sweep with spillMode := t.sweep.spillMode })
      ∧ ∀ pressed freed,
          pressed = (if t.sweep.spillMode = s.sweep.spillMode then s.mgmt.events
            else raised (if s.sweep.spillMode then .pressureOff else .pressureOn)
              (.occupancy s.store.journeys.length) s.mgmt.events) →
          freed = (if t.clock.state = s.clock.state then pressed
            else raised .clockFreeRunning .nothing pressed) →
          t.mgmt.events = (if s.clock.serviceDay < t.clock.serviceDay
            then raised .dayRollover (.day t.clock.serviceDay) freed else freed)

/-! ### Time Marks (R150, R151, R154) -/

/-- A TIME MARK whose millisecond part is above 999 is answered Malformed. One taken while the clock is Unset, or whose error exceeds the step threshold, steps: line time becomes the office time, the slew is cleared, the measurement restarts, the clock is Locked, its events are raised, the service day is reckoned anew, and a Pending activation whose effective time line time now reaches is fired, so that its swap is due; no deadline moves (R150, R151, R156, R157, log 21). The swap itself is made by a row of its own (the model's choice, log 7). -/
def Obligations.TimeMarkStepped : Prop :=
  ∀ (s : State) (before after : List HeldRequest) (r : HeldRequest) (sec ms : Nat),
    NextRequest s before r after → r.request = .timeMark sec ms →
    (999 < ms → exec .timeMark s = .next (s.answered before r after ⟨.malformed, .none, .nothing⟩))
    ∧ ∀ (e : Int) (day : Nat) (stepped locked : List PendingEvent), ms ≤ 999 →
      e = ((sec * 1000 + ms : Nat) : Int) - ((s.clock.sec * 1000 + s.clock.ms : Nat) : Int) →
      s.clock.state = .unset ∨ s.mgmt.settings.stepThreshold < e.natAbs →
      day = serviceDay s.mgmt.settings.rolloverMinute sec →
      stepped = raiseIn .clockStepped (.error e) sec ms s.mgmt.events →
      locked = (if s.clock.state = .locked then stepped
        else raiseIn .clockLocked .nothing sec ms stepped) →
      exec .timeMark s = .next { s with
        clock := { s.clock with
          sec := sec
          ms := ms
          state := .locked
          slew := 0
          slewDue := false
          rate := some ⟨sec * 1000 + ms, 0, 0⟩
          holdover := 0
          serviceDay := day }
        sweep := if s.clock.serviceDay < day
          then { s.sweep with purgePending := true, accountCursor := 0, turn := .account }
          else s.sweep
        tables := { s.tables with swapDue := swapDueAt s sec }
        mgmt := { s.mgmt with
          requests := before
            ++ { r with phase := .replyDue ⟨.done, .none, .timeMark true e .locked s.clock.trim⟩ }
              :: after
          events := if s.clock.serviceDay < day
            then raiseIn .dayRollover (.day day) sec ms locked else locked } }

/-- A TIME MARK whose error is within the step threshold of a clock that is not Unset slews: line time stands, the remainder becomes the error, the holdover count 0, the clock Locked for an error of 0 and Slewing otherwise, and the rate measurement takes the office time elapsed: it goes on with that count, starts anew, or updates the trim (R148, R150, R151, R154, log 21). -/
def Obligations.TimeMarkSlewed : Prop :=
  ∀ (s : State) (before after : List HeldRequest) (r : HeldRequest) (sec ms office : Nat) (e : Int),
    NextRequest s before r after → r.request = .timeMark sec ms → ms ≤ 999 →
    office = sec * 1000 + ms →
    e = (office : Int) - ((s.clock.sec * 1000 + s.clock.ms : Nat) : Int) →
    s.clock.state ≠ .unset → e.natAbs ≤ s.mgmt.settings.stepThreshold →
    ∃ t, exec .timeMark s = .next t
      ∧ t = { s with
          clock := { s.clock with
            state := if e = 0 then .locked else .slewing
            slew := e
            holdover := 0
            trim := t.clock.trim
            rate := t.clock.rate }
          mgmt := { s.mgmt with
            requests := before ++ { r with phase := .replyDue ⟨.done, .none,
              .timeMark false e (if e = 0 then .locked else .slewing) t.clock.trim⟩ } :: after
            events := if e = 0 ∧ s.clock.state ≠ .locked
              then raiseIn .clockLocked .nothing s.clock.sec s.clock.ms s.mgmt.events
              else s.mgmt.events } }
      ∧ (s.clock.rate = none → t.clock.trim = s.clock.trim ∧ t.clock.rate = none)
      ∧ ∀ m, s.clock.rate = some m →
          (office < m.reference → t.clock.trim = s.clock.trim ∧ t.clock.rate = some ⟨office, 0, 0⟩)
          ∧ (m.reference ≤ office →
              office - m.reference < s.mgmt.settings.measurementSpan * 1000 →
              t.clock.trim = s.clock.trim
              ∧ t.clock.rate = some ⟨m.reference, office - m.reference, m.localElapsed⟩)
          ∧ (m.reference ≤ office →
              s.mgmt.settings.measurementSpan * 1000 ≤ office - m.reference →
              t.clock.rate = some ⟨office, 0, 0⟩
              ∧ t.clock.trim = max (-500) (min 500 (s.clock.trim
                + ((((office - m.reference : Nat) : Int) - (m.localElapsed : Int)) * 1000000).tdiv
                  ((office - m.reference : Nat) : Int))))

/-! ### Fare generations (R134 to R142, R157) -/

/-- A TABLE WRITE of a table window that is well formed stores its entries in a Staging slot, or in a Free slot emptied and made Staging while the other slot is not being loaded; one with an entry out of range stores nothing and names the first such index (log 18); one that is not well formed is Malformed, and a slot in any other state refuses it. The entries stored stand in their table from the first index on, each as its bytes give it; every other entry and table is as it was. An entry is in range when its fields stand in the ranges of its table: those of R20, R21, R130, R132 and R133, while a Fare scale, Week or Exception entry always is (R20, R21, R38, R130 to R134). -/
def Obligations.TableWriteStoresEntries : Prop :=
  (∀ (s : State) (before after : List HeldRequest) (r : HeldRequest) (x : SlotId)
      (table first n : Nat) (bytes : List Byte), NextRequest s before r after →
    r.request = .tableWrite x table first n bytes →
    (tableWindow table first n = none →
      exec .tableWrite s = .next (s.answered before r after ⟨.malformed, .none, .nothing⟩))
    ∧ ∀ size, tableWindow table first n = some size →
      (∀ base, ((slotOf s x).state = .staging ∧ base = (slotOf s x).tables)
          ∨ ((slotOf s x).state = .free ∧ (slotOf s x.other).state.loading = false
            ∧ base = Tables.emptied) →
        (firstOutOfRange table first (chunks size n bytes) = none →
          exec .tableWrite s = .next ((putSlot x {
              state := .staging
              tables := writeEntries table first (chunks size n bytes) base
              refCount := (slotOf s x).refCount
              effective := (slotOf s x).effective } s).answered
            before r after ⟨.done, .none, .written table first n⟩))
        ∧ ∀ i, firstOutOfRange table first (chunks size n bytes) = some i →
          exec .tableWrite s = .next (s.answered before r after
            ⟨.refused, .outOfRange, .outOfRange i⟩))
      ∧ ∀ reason, (((slotOf s x).state = .free ∧ (slotOf s x.other).state.loading = true
              ∧ reason = .otherSlotLoading)
            ∨ (((slotOf s x).state = .copying ∨ (slotOf s x).state = .validating)
              ∧ reason = .operationInFlight)
            ∨ ((slotOf s x).state = .pending ∧ reason = .pending)
            ∨ ((slotOf s x).state = .active ∧ reason = .active)
            ∨ ((slotOf s x).state = .retiring ∧ reason = .generationBusy)) →
          exec .tableWrite s = .next (s.answered before r after ⟨.refused, reason, .nothing⟩))
  ∧ (∀ (t : Tables) (first : Nat) (es : List (List Byte)),
    (first + es.length ≤ t.stations.length → writeEntries 1 first es t = { t with
      stations := t.stations.take first ++ es.map parseStation ++ t.stations.drop (first + es.length) })
    ∧ (first + es.length ≤ t.branches.length → writeEntries 2 first es t = { t with
      branches := t.branches.take first ++ es.map parseBranch ++ t.branches.drop (first + es.length) })
    ∧ (first + es.length ≤ t.scale.length → writeEntries 3 first es t = { t with
      scale := t.scale.take first ++ es.map parseScale ++ t.scale.drop (first + es.length) })
    ∧ (first + es.length ≤ t.classes.length → writeEntries 4 first es t = { t with
      classes := t.classes.take first ++ es.map parseClass ++ t.classes.drop (first + es.length) })
    ∧ (first + es.length ≤ t.week.length → writeEntries 5 first es t = { t with
      week := t.week.take first ++ es.map (field 0 1) ++ t.week.drop (first + es.length) })
    ∧ (first + es.length ≤ t.exceptions.length → writeEntries 6 first es t = { t with
      exceptions := t.exceptions.take first ++ es.map parseException
        ++ t.exceptions.drop (first + es.length) })
    ∧ (first + es.length ≤ t.bands.length → writeEntries 7 first es t = { t with
      bands := t.bands.take first ++ es.map parseBand ++ t.bands.drop (first + es.length) })
    ∧ ∀ e, writeEntries 8 0 [e] t = { t with policy := some (parsePolicy e) })
  ∧ (∀ (size : Nat) (es : List (List Byte)), (∀ e ∈ es, e.length = size) →
    chunks size es.length es.flatten = es)
  ∧ (∀ (table first : Nat) (es : List (List Byte)),
    (firstOutOfRange table first es = none ↔
      ∀ i e, es[i]? = some e → entryInRange table (first + i) e = true)
    ∧ ∀ k, firstOutOfRange table first es = some k ↔
      ∃ i, k = first + i ∧ FirstBad es (fun j e => entryInRange table (first + j) e = false) i)
  ∧ ∀ (i : Nat) (e : List Byte),
    (entryInRange 1 i e = true ↔ (parseStation e).branch ≤ 3 ∧ (parseStation e).chainage ≤ 65534)
    ∧ (entryInRange 2 i e = true ↔ (parseBranch e).owner ≤ 3
      ∧ ∀ j, (parseBranch e).junction = some j → i ≠ 0 ∧ j ≤ 63)
    ∧ entryInRange 3 i e = true
    ∧ (entryInRange 4 i e = true ↔ (parseClass e).factor ≤ 1000)
    ∧ entryInRange 5 i e = true ∧ entryInRange 6 i e = true
    ∧ (entryInRange 7 i e = true ↔ (parseBand e).minute ≤ 1439 ∧ (parseBand e).factor ≤ 2000)
    ∧ (entryInRange 8 i e = true ↔ 1 ≤ (parsePolicy e).label ∧ (parsePolicy e).label ≤ 65535
      ∧ 10 ≤ (parsePolicy e).maxJourney ∧ (parsePolicy e).maxJourney ≤ 720
      ∧ (parsePolicy e).grace ≤ 60 ∧ (parsePolicy e).continuationWindow ≤ 120
      ∧ 1 ≤ (parsePolicy e).duplicateWindow ∧ (parsePolicy e).duplicateWindow ≤ 60
      ∧ (parsePolicy e).fareStep ∈ [1, 2, 5, 10, 20, 50, 100])

/-- TABLE READ is Malformed for a window that is not well formed (an unknown table id, a count of 0, or entries beyond the table's end), refused for a Free or a Copying slot, and else answered with the entries as the slot holds them, the bytes of each in order from the first index on, the absent Policy record with count 0; it changes nothing (R135; the bytes of an entry are the model's reading, log 33). -/
def Obligations.TableReadReplies : Prop :=
  (∀ table first n : Nat, tableWindow table first n = none ↔
      tableEntries table = none ∨ n = 0 ∨ ∃ e, tableEntries table = some e ∧ e < first + n)
  ∧ (∀ t : Tables,
    (∀ a l b, t.stations = a ++ l ++ b → readEntries 1 a.length l.length t = l.flatMap stationBytes)
    ∧ (∀ a l b, t.branches = a ++ l ++ b → readEntries 2 a.length l.length t = l.flatMap branchBytes)
    ∧ (∀ a l b, t.scale = a ++ l ++ b → readEntries 3 a.length l.length t = l.flatMap scaleBytes)
    ∧ (∀ a l b, t.classes = a ++ l ++ b → readEntries 4 a.length l.length t = l.flatMap classBytes)
    ∧ (∀ a l b, t.week = a ++ l ++ b → readEntries 5 a.length l.length t = l.flatMap (beBytes 1))
    ∧ (∀ a l b, t.exceptions = a ++ l ++ b →
        readEntries 6 a.length l.length t = l.flatMap exceptionBytes)
    ∧ (∀ a l b, t.bands = a ++ l ++ b → readEntries 7 a.length l.length t = l.flatMap bandBytes)
    ∧ ∀ p, t.policy = some p → readEntries 8 0 1 t = policyBytes p)
  ∧ ∀ (s : State) (before after : List HeldRequest) (r : HeldRequest) (x : SlotId)
      (table first n : Nat), NextRequest s before r after →
    r.request = .tableRead x table first n →
    (tableWindow table first n = none →
      exec .tableRead s = .next (s.answered before r after ⟨.malformed, .none, .nothing⟩))
    ∧ (tableWindow table first n ≠ none →
      ((slotOf s x).state = .free →
        exec .tableRead s = .next (s.answered before r after ⟨.refused, .slotFree, .nothing⟩))
      ∧ ((slotOf s x).state = .copying → exec .tableRead s
          = .next (s.answered before r after ⟨.refused, .operationInFlight, .nothing⟩))
      ∧ ((slotOf s x).state ≠ .free → (slotOf s x).state ≠ .copying →
        exec .tableRead s = .next (s.answered before r after ⟨.done, .none,
          if table = 8 ∧ (slotOf s x).tables.policy = none then .entries table first 0 []
          else .entries table first n (readEntries table first n (slotOf s x).tables)⟩)))

/-- COPY ACTIVE makes a Free or Staging target Copying, its tables discarded, and holds its request slot; a target in another state, or no Active slot, refuses it, a Validating target as such even when no slot is Active. At the completion the target is Staging with the Active slot's tables and the reply is Done (R136, R138, logs 5 and 28; that a Pending target without an Active slot is refused "no active" is the model's choice, log 43). -/
def Obligations.CopyActiveAndComplete : Prop :=
  (∀ (s : State) (before after : List HeldRequest) (r : HeldRequest) (x : SlotId),
    NextRequest s before r after → r.request = .copyActive x →
    (activeSlot s ≠ none → (slotOf s x).state = .free ∨ (slotOf s x).state = .staging →
      exec .copyActive s = .next ((putSlot x {
          state := .copying
          tables := Tables.emptied
          refCount := (slotOf s x).refCount
          effective := none } s).withPhase before r after .underway))
    ∧ ∀ reason, ((slotOf s x).state = .validating ∧ reason = .operationInFlight
          ∨ (slotOf s x).state ≠ .validating ∧ activeSlot s = none ∧ reason = .noActive
          ∨ activeSlot s ≠ none ∧ (((slotOf s x).state = .active ∧ reason = .active)
            ∨ ((slotOf s x).state = .copying ∧ reason = .operationInFlight)
            ∨ ((slotOf s x).state = .pending ∧ reason = .pending)
            ∨ ((slotOf s x).state = .retiring ∧ reason = .generationBusy))) →
        exec .copyActive s = .next (s.answered before r after ⟨.refused, reason, .nothing⟩))
  ∧ ∀ (s : State) (before after : List HeldRequest) (r : HeldRequest)
        (x live : SlotId), s.rstnLow = false → slotIn (· == .copying) s = some x →
      activeSlot s = some live →
      s.mgmt.requests = before ++ r :: after →
      (∀ q ∈ before, ¬ (q.phase = .underway ∧ q.request.isCopy = true)) →
      r.phase = .underway → r.request = .copyActive x →
      exec .copyComplete s = .next ((putSlot x {
          state := .staging
          tables := (slotOf s live).tables
          refCount := (slotOf s x).refCount
          effective := (slotOf s x).effective } s).answered before r after ⟨.done, .none, .nothing⟩)

/-- DISCARD frees a Staging or Pending slot, and a Copying one with its COPY ACTIVE answered Aborted; CANCEL returns a Pending slot to Staging; both drop a swap that waited for the Reckoner's release and are refused by the other states. A due swap that nothing holds back is made first (R137, R140, R141, log 7). -/
def Obligations.DiscardAndCancel : Prop :=
  (∀ (s : State) (before after : List HeldRequest) (r : HeldRequest) (x y : SlotId),
      NextRequest s before r after → s.tables.swapDue = some y → holder s ≠ some .reckoner →
      (r.request = .discard x → exec .discard s = exec .discard (makeSwap y s))
        ∧ (r.request = .cancel x → exec .cancel s = exec .cancel (makeSwap y s)))
  ∧ ∀ (s : State) (before after : List HeldRequest) (r : HeldRequest) (x : SlotId),
    NextRequest s before r after → s.tables.swapDue = none ∨ holder s = some .reckoner →
    (r.request = .discard x →
      ((slotOf s x).state = .staging → exec .discard s = .next
        ((putSlot x Slot.freed s).answered before r after ⟨.done, .none, .nothing⟩))
      ∧ ((slotOf s x).state = .pending → exec .discard s = .next
        ({ s with tables := { s.tables.put x Slot.freed with
            swapDue := if s.tables.swapDue = some x then none else s.tables.swapDue } }.answered
          before r after ⟨.done, .none, .nothing⟩))
      ∧ (∀ (earlier later : List HeldRequest) (c : HeldRequest), (slotOf s x).state = .copying →
        before = earlier ++ c :: later → c.phase = .underway → c.request.isCopy = true →
        (∀ q ∈ earlier, ¬ (q.phase = .underway ∧ q.request.isCopy = true)) →
        exec .discard s = .next ({ s with tables := s.tables.put x Slot.freed }.answered
          (earlier ++ { c with phase := .replyDue ⟨.aborted, .none, .nothing⟩ } :: later) r after
          ⟨.done, .none, .nothing⟩))
      ∧ ∀ reason, (((slotOf s x).state = .validating ∧ reason = .operationInFlight)
          ∨ ((slotOf s x).state = .free ∧ reason = .slotFree)
          ∨ ((slotOf s x).state = .active ∧ reason = .active)
          ∨ ((slotOf s x).state = .retiring ∧ reason = .generationBusy)) →
        exec .discard s = .next (s.answered before r after ⟨.refused, reason, .nothing⟩))
    ∧ (r.request = .cancel x →
      ((slotOf s x).state = .pending → exec .cancel s = .next
        ({ s with tables := { s.tables.put x { slotOf s x with
              state := .staging, effective := none } with
            swapDue := if s.tables.swapDue = some x then none else s.tables.swapDue } }.answered
          before r after ⟨.done, .none, .nothing⟩))
      ∧ ((slotOf s x).state = .validating → exec .cancel s = .next
        (s.answered before r after ⟨.refused, .operationInFlight, .nothing⟩))
      ∧ ((slotOf s x).state ≠ .pending → (slotOf s x).state ≠ .validating →
        exec .cancel s = .next (s.answered before r after ⟨.refused, .notPending, .nothing⟩)))

/-- ACTIVATE makes a Staging slot Validating and holds its request slot; the other states refuse it, and so does an Unset clock when an effective time is given (the slot's reason comes first, log 43). A completed validation that fails returns the slot to Staging with the check that failed; one that passes leaves it Pending for a later effective time, or makes its swap due. The six checks run in their order and the first that fails is reported with its table and its first offending entry (R22, R39, R138, R139, R141, logs 5 and 7; that an absent trunk comes before a station, and that check 3 names the lowest code that shares a point, is the model's choice, log 19). -/
def Obligations.ActivateAndValidate : Prop :=
  (∀ (s : State) (before after : List HeldRequest) (r : HeldRequest) (x : SlotId)
      (effective : Option Nat), NextRequest s before r after → r.request = .activate x effective →
    ((slotOf s x).state = .staging → effective = none ∨ s.clock.state ≠ .unset →
      exec .activate s = .next ((putSlot x { slotOf s x with
          state := .validating, effective := effective } s).withPhase before r after .underway))
    ∧ ∀ reason, (((slotOf s x).state = .free ∧ reason = .slotFree)
          ∨ (((slotOf s x).state = .copying ∨ (slotOf s x).state = .validating)
            ∧ reason = .operationInFlight)
          ∨ ((slotOf s x).state = .pending ∧ reason = .pending)
          ∨ ((slotOf s x).state = .active ∧ reason = .active)
          ∨ ((slotOf s x).state = .retiring ∧ reason = .generationBusy)
          ∨ ((slotOf s x).state = .staging ∧ effective ≠ none ∧ s.clock.state = .unset
            ∧ reason = .clockUnset)) →
        exec .activate s = .next (s.answered before r after ⟨.refused, reason, .nothing⟩))
  ∧ (∀ (s : State) (before after : List HeldRequest) (r : HeldRequest) (x : SlotId),
      s.rstnLow = false → slotIn (· == .validating) s = some x → s.tables.swapDue ≠ some x →
      s.mgmt.requests = before ++ r :: after →
      (∀ q ∈ before, ¬ (q.phase = .underway ∧ q.request.isActivate = true)) →
      r.phase = .underway → r.request.isActivate = true →
      (∀ f, validate (activeLabel s) (slotOf s x).tables = some f →
        exec .validationComplete s = .next ((putSlot x { slotOf s x with
            state := .staging, effective := none } s).answered before r after
          ⟨.refused, .validation, .validation f.check f.table f.index⟩))
      ∧ (∀ e, validate (activeLabel s) (slotOf s x).tables = none →
        (slotOf s x).effective = some e → s.clock.sec < e →
        exec .validationComplete s = .next ((putSlot x { slotOf s x with state := .pending } s).answered
          before r after ⟨.done, .none, .activated false⟩))
      ∧ (validate (activeLabel s) (slotOf s x).tables = none →
        (∀ e, (slotOf s x).effective = some e → e ≤ s.clock.sec) →
        exec .validationComplete s = .next { s with tables := { s.tables with swapDue := some x } }))
  ∧ (∀ (label : Option Nat) (t : Tables), validate label t
      = [check1 t, check2 t, check3 t, check4 t, check5 t, check6 label t].findSome? id)
  ∧ ∀ (t : Tables) (f : CheckFailure),
    (check1 t = some f ↔ (branchEntry t 0).present = false ∧ f = ⟨1, 2, 0⟩
      ∨ (branchEntry t 0).present = true ∧ ∃ i, f = ⟨1, 1, i⟩ ∧ FirstBad t.stations
        (fun _ e => e.present = true ∧ (branchEntry t e.branch).present = false) i)
    ∧ (check2 t = some f ↔ ∃ i, f = ⟨2, 2, i⟩ ∧ FirstBad t.branches
        (fun k e => k ≠ 0 ∧ e.present = true ∧ ¬ ∃ j v, e.junction = some j
          ∧ t.stations[j]? = some v ∧ v.present = true ∧ v.branch = 0) i)
    ∧ (check3 t = some f ↔ ∃ i, f = ⟨3, 1, i⟩ ∧ FirstBad t.stations
        (fun k e => e.present = true ∧ ∃ j v, j ≠ k ∧ t.stations[j]? = some v ∧ v.present = true
          ∧ v.branch = e.branch ∧ v.chainage = e.chainage) i)
    ∧ (check4 t = some f ↔ ∃ i, f = ⟨4, 3, i⟩ ∧ FirstBad t.scale
        (fun k e => (∀ j < k, ∀ v, t.scale[j]? = some v → v.bound ≠ 65535)
          ∧ ((∃ v, k ≠ 0 ∧ t.scale[k - 1]? = some v ∧ (e.bound ≤ v.bound ∨ e.fare < v.fare))
            ∨ k = 31 ∧ e.bound ≠ 65535)) i)
    ∧ (check5 t = some f ↔ (∀ e ∈ t.classes, e.permitted = false) ∧ f = ⟨5, 4, 0⟩
      ∨ (∃ e ∈ t.classes, e.permitted = true)
        ∧ ((∃ i, f = ⟨5, 5, i⟩ ∧ FirstBad t.week (fun _ d => 3 < d) i)
          ∨ (∀ d ∈ t.week, d ≤ 3)
            ∧ ∃ bad : Nat → ExceptionEntry → Prop,
              (∀ k e, bad k e ↔ e.used = true ∧ (3 < e.dayType
                ∨ ∃ j < k, ∃ v, t.exceptions[j]? = some v ∧ (v.used = false ∨ e.day ≤ v.day)))
              ∧ ((∃ i, f = ⟨5, 6, i⟩ ∧ FirstBad t.exceptions bad i)
                ∨ (∀ k e, t.exceptions[k]? = some e → ¬ bad k e)
                  ∧ ∃ i, f = ⟨5, 7, i⟩ ∧ FirstBad t.bands
                    (fun k e => k < 32 ∧ (k % 8 = 0 ∧ (e.used = false ∨ e.minute ≠ 0)
                      ∨ k % 8 ≠ 0 ∧ e.used = true ∧ ∃ j < k, ∃ v, j / 8 = k / 8
                        ∧ t.bands[j]? = some v ∧ (v.used = false ∨ e.minute ≤ v.minute))) i)))
    ∧ ∀ label, check6 label t = some f ↔ f = ⟨6, 8, 0⟩
      ∧ (t.policy = none ∨ ∃ p, t.policy = some p ∧ label = some p.label)

/-- ACTIVATION_FIRING makes the Pending slot's swap due once line time has reached its effective time, and SWAP makes a due swap unless the Reckoner holds the Journey Store: the slot becomes Active, the slot that was Active Retiring while journeys are tagged with it or else Free, the events are raised, and the ACTIVATE that still holds its slot is answered Done (R140, R141, R157, log 7). -/
def Obligations.SwapChangesTheActiveSlot : Prop :=
  (∀ (s : State) (x : SlotId) (e : Nat), s.rstnLow = false → slotIn (· == .pending) s = some x →
      (slotOf s x).effective = some e → s.tables.swapDue = none →
      (e ≤ s.clock.sec →
        exec .activationFiring s = .next { s with tables := { s.tables with swapDue := some x } })
      ∧ (s.clock.sec < e → exec .activationFiring s = .next s))
  ∧ (∀ (s : State) (x : SlotId), s.tables.swapDue = some x → holder s = some .reckoner →
      exec .swap s = .next s)
  ∧ ∀ (s : State) (x : SlotId) (raised : List PendingEvent), s.rstnLow = false →
      s.tables.swapDue = some x → holder s ≠ some .reckoner →
      raised = raiseIn .generationActive (.generation x (((slotOf s x).label).getD 0)) s.clock.sec
        s.clock.ms s.mgmt.events →
      ∃ t, exec .swap s = .next t
        ∧ t = { s with
            tables := t.tables
            mgmt := { s.mgmt with
              requests := modifyFirst (fun r => r.phase == .underway && r.request.isActivate)
                (fun r => { r with phase := .replyDue ⟨.done, .none, .activated true⟩ }) s.mgmt.requests
              events := if (slotOf s x.other).state = .active ∧ (slotOf s x.other).refCount = 0
                then raiseIn .generationFreed
                  (.generation x.other (((slotOf s x.other).label).getD 0)) s.clock.sec s.clock.ms raised
                else raised } }
        ∧ t.tables.swapDue = none ∧ t.tables.denyList = s.tables.denyList
        ∧ slotOf t x = { slotOf s x with state := .active, effective := none }
        ∧ slotOf t x.other = (if (slotOf s x.other).state = .active
            then (if 0 < (slotOf s x.other).refCount
              then { slotOf s x.other with state := .retiring } else Slot.freed)
            else slotOf s x.other)

/-! ### The Deny List (R145 to R147) -/

/-- DENY ADD inserts a token that the list does not hold at its place in ascending order and replies with the new length, or is refused when the list holds it already or is full; DENY REMOVE removes a token the list holds, or is refused; nothing else changes (R146). -/
def Obligations.DenyAddAndRemove : Prop :=
  ∀ (s : State) (before after : List HeldRequest) (r : HeldRequest) (token : Token),
    NextRequest s before r after → DenyListSound s →
    (r.request = .denyAdd token →
      (token ∈ s.tables.denyList → exec .denyAdd s
        = .next (s.answered before r after ⟨.refused, .alreadyPresent, .nothing⟩))
      ∧ (token ∉ s.tables.denyList → s.tables.denyList.length = 8192 → exec .denyAdd s
        = .next (s.answered before r after ⟨.refused, .listFull, .nothing⟩))
      ∧ (token ∉ s.tables.denyList → s.tables.denyList.length < 8192 →
        ∃ low high : List Token, s.tables.denyList = low ++ high
          ∧ (∀ t ∈ low, t.toNat < token.toNat) ∧ (∀ t ∈ high, token.toNat < t.toNat)
          ∧ exec .denyAdd s = .next ({ s with tables := { s.tables with
              denyList := low ++ token :: high } }.answered before r after
            ⟨.done, .none, .length (s.tables.denyList.length + 1)⟩)))
    ∧ (r.request = .denyRemove token →
      (token ∉ s.tables.denyList → exec .denyRemove s
        = .next (s.answered before r after ⟨.refused, .notFound, .nothing⟩))
      ∧ (∀ low high : List Token, s.tables.denyList = low ++ token :: high →
        exec .denyRemove s = .next ({ s with tables := { s.tables with
            denyList := low ++ high } }.answered before r after
          ⟨.done, .none, .length (s.tables.denyList.length - 1)⟩)))

/-- DENY CLEAR empties the list and replies with the number of tokens removed, at most 8,192; DENY CHECK replies whether the list holds a token, and its length, and changes nothing (R147). -/
def Obligations.DenyClearAndCheck : Prop :=
  ∀ (s : State) (before after : List HeldRequest) (r : HeldRequest),
    NextRequest s before r after →
    (DenyListSound s → s.tables.denyList.length ≤ 8192)
    ∧ (r.request = .denyClear → exec .denyClear s
      = .next ({ s with tables := { s.tables with denyList := [] } }.answered before r after
        ⟨.done, .none, .length s.tables.denyList.length⟩))
    ∧ ∀ token, r.request = .denyCheck token →
      (token ∈ s.tables.denyList → exec .denyCheck s = .next (s.answered before r after
        ⟨.done, .none, .denyCheck true s.tables.denyList.length⟩))
      ∧ (token ∉ s.tables.denyList → exec .denyCheck s = .next (s.answered before r after
        ⟨.done, .none, .denyCheck false s.tables.denyList.length⟩))

/-! ### Journey operations (R60, R81, R82, R100, R163, R174) -/

/-- JOURNEY QUERY, JOURNEY CLOSE and ACCOUNT QUERY, taken, wait for their Office Queue entries; a JOURNEY CLOSE that gives only one of exit station and exit time, or a station above 63, is Malformed. JOURNEY_OPERATION_SET_ASIDE sets aside two entries for a JOURNEY CLOSE and one for a query once they are free. The request for the store reaches the arbiter when the Management Unit has none outstanding and no earlier operation waits. It waits its turn while one is outstanding, or while an earlier operation waits for its entries; an earlier one that has its entries goes to the arbiter before it (R60, R81, R82, R83, R100, R163, logs 5 and 23). -/
def Obligations.JourneyOperationsWaitForEntries : Prop :=
  (∀ (s : State) (before after : List HeldRequest) (r : HeldRequest) (token : Token),
    NextRequest s before r after →
    (r.request = .journeyQuery token →
      exec .journeyQuery s = .next (s.withPhase before r after .waitingEntries))
    ∧ (∀ day, r.request = .accountQuery token day →
      exec .accountQuery s = .next (s.withPhase before r after .waitingEntries))
    ∧ (r.request = .journeyClose token none none →
      exec .journeyClose s = .next (s.withPhase before r after .waitingEntries))
    ∧ (∀ station time, r.request = .journeyClose token (some station) (some time) →
      (station ≤ 63 → exec .journeyClose s = .next (s.withPhase before r after .waitingEntries))
      ∧ (63 < station → exec .journeyClose s
        = .next (s.answered before r after ⟨.malformed, .none, .nothing⟩)))
    ∧ (∀ v, r.request = .journeyClose token (some v) none
          ∨ r.request = .journeyClose token none (some v) →
      exec .journeyClose s = .next (s.answered before r after ⟨.malformed, .none, .nothing⟩)))
  ∧ (∀ (s u : State) (before after : List HeldRequest) (r : HeldRequest) (which : Held) (n : Nat),
    s.rstnLow = false → s.mgmt.requests = before ++ r :: after →
    before.length = heldIndex which → r.phase = .waitingEntries →
    n = (match r.request with
      | .journeyClose _ _ _ => 2
      | _ => 1) →
    u = { s with officeQueue := { s.officeQueue with setAside := s.officeQueue.setAside + n } } →
    (officeFree s < n → exec (.journeyOperationSetAside which) s = .next s)
    ∧ (n ≤ officeFree s → outstanding s = 0 →
      (∀ q ∈ before, q.phase ≠ .waitingEntries ∧ q.phase ≠ .ready) →
      exec (.journeyOperationSetAside which) s
        = .next ((requestStore .management u).withPhase before r after .presented))
    ∧ (n ≤ officeFree s → outstanding s = 0 → ∀ early late q, before = early ++ q :: late →
      (∀ v ∈ early, v.phase ≠ .waitingEntries ∧ v.phase ≠ .ready) →
      (q.phase = .waitingEntries →
        exec (.journeyOperationSetAside which) s = .next (u.withPhase before r after .ready))
      ∧ (q.phase = .ready →
        exec (.journeyOperationSetAside which) s = .next ((requestStore .management u).withPhase
          (early ++ { q with phase := .presented } :: late) r after .ready)))
    ∧ (n ≤ officeFree s → outstanding s ≠ 0 →
      exec (.journeyOperationSetAside which) s = .next (u.withPhase before r after .ready)))

/-- A granted JOURNEY QUERY or ACCOUNT QUERY places its reply, Done with what the tables hold at the grant, in its set-aside entry, frees its request slot, releases the store and presents the next operation; it changes no journey and no account (R81, R100, log 23). -/
def Obligations.QueriesAnswered : Prop :=
  ∀ (s : State) (before after : List HeldRequest) (r : HeldRequest) (token : Token),
    GrantedOperation s before r after →
    (r.request = .journeyQuery token → ∀ result,
      (findJourney s token = none ∧ result = .journey none
        ∨ ∃ w, findJourney s token = some w
          ∧ result = .journey (some (w, ((slotOf s w.journey.tag).label).getD 0))) →
      exec .journeyQueryGrant s = .next (presentNext (releaseStore
        (placeFrame (.reply r.sequence r.number r.code ⟨.done, .none, result⟩) { s with
          officeQueue := { s.officeQueue with setAside := s.officeQueue.setAside - 1 }
          mgmt := { s.mgmt with requests := before ++ after } }))))
    ∧ ∀ day, r.request = .accountQuery token day → AccountsSound s →
      ∃ found, exec .accountQueryGrant s = .next (presentNext (releaseStore
          (placeFrame (.reply r.sequence r.number r.code ⟨.done, .none, .accounts found⟩) { s with
            officeQueue := { s.officeQueue with setAside := s.officeQueue.setAside - 1 }
            mgmt := { s.mgmt with requests := before ++ after } })))
        ∧ (found.map (fun w => w.account.day)).Pairwise (· ≤ ·)
        ∧ ∀ w, w ∈ found ↔ w ∈ s.store.accounts ∧ w.account.token = token
          ∧ (day = none ∨ day = some w.account.day)

/-- The release of the store: the holder leaves, a due swap is made, and the arbiter grants the store to the waiting requester that its order gives under the spill mode it then reads, or stays free when none waits; what its grant reads is read in the same moment, and nothing else changes. The Management Unit then presents one operation: with none outstanding the earliest-taken one that waits, once it has set aside its entries (R12, R60, R61, R62, R83, R121, R141, R156, logs 7, 8 and 23). -/
def Obligations.StoreReleasedAndHandedOn : Prop :=
  ((∀ (s : State) (b : Arbiter), s.tables.swapDue = none →
      b = ({ s.store.arbiter with holder := none }).release s.sweep.spillMode →
      (b.holder = none → releaseStore s = { s with store := { s.store with arbiter := b } })
      ∧ (b.holder ≠ none → releaseStore s = s.granted b))
  ∧ (∀ (s : State) (x : SlotId), s.tables.swapDue = some x →
      releaseStore s = releaseStore (makeSwap x { s with
        store := { s.store with arbiter := { s.store.arbiter with holder := none } } }))
  ∧ ∀ (spill : Bool) (b : Arbiter),
      (b.choose spill = none → b.release spill = { b with holder := none })
      ∧ ∀ r, b.choose spill = some r → b.release spill = ({ b with holder := none }).grant r)
  ∧ ((∀ s : State, outstanding s ≠ 0 → presentNext s = s)
  ∧ (∀ s : State, (∀ q ∈ s.mgmt.requests, q.phase ≠ .waitingEntries ∧ q.phase ≠ .ready) →
      presentNext s = s)
  ∧ ∀ (s : State) (before after : List HeldRequest) (r : HeldRequest), outstanding s = 0 →
      s.mgmt.requests = before ++ r :: after →
      (∀ q ∈ before, q.phase ≠ .waitingEntries ∧ q.phase ≠ .ready) →
      (r.phase = .waitingEntries → presentNext s = s)
      ∧ (r.phase = .ready →
        presentNext s = (requestStore .management s).withPhase before r after .presented))

/-- The arbiter's order: the Management Unit at 4 waits, the Sweep at 16 or at 4 in spill mode, then the Reckoner, the Management Unit and the Sweep as they wait. A request that reaches a free store is granted at once, one that reaches a held store waits with a count of 0; a grant clears the requester's own request and count and raises the count of every other waiting requester up to its maximum. What a granted request reads at the grant is read in the same moment (R12, R61, R62, R121, R156, log 8). -/
def Obligations.ArbiterGrantsInOrder : Prop :=
  (∀ (spill : Bool) (b : Arbiter),
    b.choose spill =
      (if b.managementWaiting = true ∧ 4 ≤ b.managementWait then some .management
      else if b.sweepWaiting = true ∧ (16 ≤ b.sweepWait ∨ (spill = true ∧ 4 ≤ b.sweepWait))
        then some .sweep
      else if b.reckonerWaiting = true then some .reckoner
      else if b.managementWaiting = true then some .management
      else if b.sweepWaiting = true then some .sweep
      else none))
  ∧ (∀ (b : Arbiter) (r : Requester),
    (b.holder = none → b.request r = b.grant r)
    ∧ (b.holder ≠ none → (b.request r).holder = b.holder ∧ (b.request r).waiting r = true
      ∧ (∀ q, q ≠ r → (b.request r).waiting q = b.waiting q)
      ∧ (b.request r).managementWait = (if r = .management then 0 else b.managementWait)
      ∧ (b.request r).sweepWait = (if r = .sweep then 0 else b.sweepWait))
    ∧ (b.grant r).holder = some r ∧ (b.grant r).waiting r = false
    ∧ (∀ q, q ≠ r → (b.grant r).waiting q = b.waiting q)
    ∧ (b.grant r).managementWait = (if r = .management then 0
        else if b.managementWaiting then min (b.managementWait + 1) 4 else b.managementWait)
    ∧ (b.grant r).sweepWait = (if r = .sweep then 0
        else if b.sweepWaiting then min (b.sweepWait + 1) 16 else b.sweepWait))
  ∧ ∀ (s : State) (r : Requester),
    (holder s = none → requestStore r s = s.granted (s.store.arbiter.grant r))
    ∧ (holder s ≠ none → requestStore r s = { s with
        store := { s.store with arbiter := s.store.arbiter.request r } })

/-- A forced close in its grant: refused without an open journey, for a station absent from the tag and for an exit before the entry, with one entry returned and nothing else changed; else the journey leaves the table, its closing record and the reply take the two set-aside entries, Incomplete at the incomplete charge without an exit station, which its account keeps as its last incomplete, and Completed at the full pricing with one, which its account takes as spent, as a leg and as its last exit; both are flagged "forced", and every other account stands. The closing raises Pressure On or Off and Generation Freed where they are due (R82, R91, R92, R94, R95, R123, R124, R142, R159, R161, R165, logs 23, 25 and 31; that the absent station is the reason where both refusals hold is the model's choice, log 43, and so is the combined path of a continued journey closed at its entry station, log 49). -/
def Obligations.JourneyCloseForced : Prop :=
  ∀ (s : State) (before after : List HeldRequest) (r : HeldRequest) (token : Token)
      (station time : Option Nat), GrantedOperation s before r after →
    r.request = .journeyClose token station time →
    (∀ reason, (findJourney s token = none ∧ reason = .notFound
          ∨ ∃ w x at_, findJourney s token = some w ∧ station = some x ∧ time = some at_
            ∧ (stationPresent (slotOf s w.journey.tag).tables x = false ∧ reason = .stationUnknown
              ∨ stationPresent (slotOf s w.journey.tag).tables x = true
                ∧ at_ < w.journey.entryTime ∧ reason = .timeBeforeEntry)) →
      exec .journeyCloseGrant s = .next (presentNext (releaseStore
        (placeFrame (.reply r.sequence r.number r.code ⟨.refused, reason, .nothing⟩) { s with
          officeQueue := { s.officeQueue with setAside := s.officeQueue.setAside - 2 }
          mgmt := { s.mgmt with requests := before ++ after } }))))
    ∧ ∀ (w : JourneyWay) (held : State × Option Nat) (rest : List JourneyWay),
      findJourney s token = some w →
      held = obtainAccount w.journey.token (serviceDay s.mgmt.settings.rolloverMinute
        ((w.journey.continuation.map Continuation.originTime).getD w.journey.entryTime)) s →
      rest = s.store.journeys.filter (fun v => v.slot != w.slot) →
      (∀ charge, station = none → time = none →
        charge = incompleteCharge (fareContext s w.journey.tag) w.journey.fareClass
          w.journey.entryTime w.journey.continuation →
        ∃ u c, exec .journeyCloseGrant s = .next (presentNext (releaseStore u))
          ∧ u = { s with
              officePort := u.officePort
              officeQueue := {
                frames := s.officeQueue.frames ++ [.record s.officeQueue.sequence c,
                  .reply r.sequence r.number r.code
                    ⟨.done, .none, .closed .incomplete w.journey.reference charge⟩]
                setAside := s.officeQueue.setAside - 2
                sequence := (s.officeQueue.sequence + 1) % 256 }
              store := { s.store with
                journeys := rest
                accounts := accountsWith held (Account.withIncomplete {
                  entryStation := w.journey.entryStation
                  entryTime := w.journey.entryTime
                  fareClass := w.journey.fareClass
                  charge := charge
                  reference := w.journey.reference })
                accountFullDay := held.1.store.accountFullDay }
              sweep := { s.sweep with spillMode := spillModeAt s rest.length }
              tables := { s.tables with slotA := u.tables.slotA, slotB := u.tables.slotB }
              mgmt := { s.mgmt with
                requests := before ++ after
                counters := { s.mgmt.counters with incomplete := bump s.mgmt.counters.incomplete }
                events := closingEvents s w.journey.tag rest.length held.1.mgmt.events } }
          ∧ c.kind = .incomplete ∧ CarriesJourney s w.journey c ∧ CarriesMarks w.journey false false c
          ∧ c.exit = none
          ∧ c.priced = some ⟨0, charge, [⟨incompleteOwner (slotOf s w.journey.tag).tables
            w.journey.entryStation w.journey.continuation, charge⟩]⟩
          ∧ c.flags.forced = true
          ∧ c.flags.capUntracked = held.2.isNone)
      ∧ ∀ x at_, station = some x → time = some at_ →
        stationPresent (slotOf s w.journey.tag).tables x = true →
        stationPresent (slotOf s w.journey.tag).tables w.journey.entryStation = true →
        w.journey.entryTime ≤ at_ →
        ∃ u c p origin soFar, exec .journeyCloseGrant s = .next (presentNext (releaseStore u))
          ∧ fullPricing (fareContext s w.journey.tag) w.journey.fareClass w.journey.entryStation
              w.journey.entryTime x w.journey.pass w.journey.continuation
              (spentOf held.1 held.2) = some p
          ∧ p.origin = some origin ∧ p.chargedSoFar = some soFar
          ∧ u = { s with
              officePort := u.officePort
              officeQueue := {
                frames := s.officeQueue.frames ++ [.record s.officeQueue.sequence c,
                  .reply r.sequence r.number r.code
                    ⟨.done, .none, .closed .completed w.journey.reference p.charge⟩]
                setAside := s.officeQueue.setAside - 2
                sequence := (s.officeQueue.sequence + 1) % 256 }
              store := { s.store with
                journeys := rest
                accounts := accountsWith held (Account.withExit p.spentAfter {
                  station := x
                  exitTime := at_
                  originStation := origin.station
                  originTime := origin.time
                  chargedSoFar := soFar
                  nilSoFar := p.charge == 0 && (!p.continued
                    || (w.journey.continuation.map Continuation.nilSoFar).getD true)
                  shownCharge := p.charge
                  reference := w.journey.reference })
                accountFullDay := held.1.store.accountFullDay }
              sweep := { s.sweep with spillMode := spillModeAt s rest.length }
              tables := { s.tables with slotA := u.tables.slotA, slotB := u.tables.slotB }
              mgmt := { s.mgmt with
                requests := before ++ after
                counters := { s.mgmt.counters with completed := bump s.mgmt.counters.completed }
                events := closingEvents s w.journey.tag rest.length held.1.mgmt.events } }
          ∧ c.kind = .completed ∧ CarriesJourney s w.journey c ∧ c.exit = some ⟨x, at_⟩
          ∧ c.priced = some ⟨p.distance, p.charge, p.shares⟩ ∧ c.flags.forced = true
          ∧ c.flags.capUntracked = held.2.isNone

/-- A reply that waits takes a free Office Queue entry and frees its request slot; the head pending event takes one and leaves the list, under the office sequence count, which advances; without a free entry both wait. An event raised joins the tail with count 1 when its kind has no entry; else the entry of its kind keeps its place, its count rises by one and stops at 65,535, and its data and time are those of this occurrence. The index that picks the free bytes of an event advances with it (log 11). Events and replies go out as the bytes R173 gives (R165, R171, R173, R174, R175; the reason byte of a reply that is no refusal, the unused event data and the unassigned presence bits are free, logs 11, 13 and 14). -/
def Obligations.RepliesAndEventsPlaced : Prop :=
  (∀ (f : OfficeFrame) (s : State), placeFrame f s = transmitOffice { s with
      officeQueue := { s.officeQueue with frames := s.officeQueue.frames ++ [f] } })
  ∧ (∀ (s : State) (before after : List HeldRequest) (r : HeldRequest) (which : Held) (reply : Reply),
      s.rstnLow = false → s.mgmt.requests = before ++ r :: after →
      before.length = heldIndex which → r.phase = .replyDue reply →
      (1 ≤ officeFree s → exec (.replyPlacement which) s = .next
        (placeFrame (.reply r.sequence r.number r.code reply)
          { s with mgmt := { s.mgmt with requests := before ++ after } }))
      ∧ (officeFree s = 0 → exec (.replyPlacement which) s = .next s))
  ∧ (∀ (s : State) (e : PendingEvent) (rest : List PendingEvent), s.rstnLow = false →
      s.mgmt.events = e :: rest →
      (1 ≤ officeFree s → exec .eventFramePlacement s = .next
        (placeFrame (.event s.officeQueue.sequence e s.freeIndex) { s with
          officeQueue := { s.officeQueue with sequence := (s.officeQueue.sequence + 1) % 256 }
          mgmt := { s.mgmt with events := rest }
          freeIndex := s.freeIndex + 1 }))
      ∧ (officeFree s = 0 → exec .eventFramePlacement s = .next s))
  ∧ (∀ s : State, s.mgmt.events = [] → exec .eventFramePlacement s = .next s)
  ∧ (∀ (kind : EventKind) (data : EventData) (sec ms : Nat) (before after : List PendingEvent)
      (e : PendingEvent), (∀ v ∈ before, v.kind ≠ kind) →
    raiseIn kind data sec ms before = before ++ [⟨kind, 1, data, sec, ms⟩]
    ∧ (e.kind = kind → raiseIn kind data sec ms (before ++ e :: after)
      = before ++ ⟨kind, min (e.count + 1) 65535, data, sec, ms⟩ :: after))
  ∧ ((∀ (node : Byte) (n filler : Nat) (e : PendingEvent), ∃ data : List Byte,
      officeWire node (.event n e filler) = buildFrame 0x00#8 node 0x12#8 (BitVec.ofNat 8 n)
        (beBytes 1 e.kind.code ++ beBytes 2 e.count ++ beBytes 4 e.sec ++ beBytes 2 e.ms ++ data)
      ∧ data.length = 4
      ∧ (∀ x label, e.data = .generation x label → data.take 3 = x.byte :: beBytes 2 label)
      ∧ (∀ v : Int, e.data = .error v → ∃ b : BitVec 32,
        b.toInt = max (-2147483648) (min 2147483647 v) ∧ data = beBytes 4 b.toNat)
      ∧ (∀ k, e.data = .occupancy k ∨ e.data = .day k → data.take 2 = beBytes 2 k))
    ∧ [EventKind.generationActive, .generationFreed, .clockStepped, .clockLocked, .clockFreeRunning,
        .pressureOn, .pressureOff, .dayRollover, .accountFull].map EventKind.code
      = [1, 2, 3, 4, 5, 6, 7, 8, 9]
    ∧ (∀ (node sequence : Byte) (number code : Nat) (v : Reply), ∃ reason : Byte,
      officeWire node (.reply sequence number code v) = buildFrame 0x00#8 node 0x22#8 sequence
        (beBytes 2 number ++ beBytes 1 code ++ beBytes 1 v.status.code ++ [reason]
          ++ resultBytes v.result)
      ∧ (v.reason ≠ .none → some reason.toNat = ([ReplyReason.none, .notFound, .stationUnknown,
          .timeBeforeEntry, .otherSlotLoading, .operationInFlight, .pending, .active,
          .generationBusy, .outOfRange, .slotFree, .noActive, .validation, .clockUnset, .notPending,
          .alreadyPresent, .listFull, .restartInProgress].idxOf? v.reason)))
    ∧ [ReplyStatus.done, .busy, .refused, .malformed, .aborted].map ReplyStatus.code = [1, 2, 3, 4, 5]
    ∧ [ClockState.unset, .locked, .slewing, .freeRunning].map ClockState.code = [0, 1, 2, 3]
    ∧ [SlotState.free, .staging, .copying, .validating, .pending, .active, .retiring].map SlotState.code
      = [0, 1, 2, 3, 4, 5, 6])
  ∧ ((∀ (i : Identity) (slot : SlotReport → List Byte),
      (∀ v, slot v = beBytes 1 v.state.code ++ beBytes 2 v.label ++ beBytes 2 v.refCount
        ++ beBytes 4 v.effective) →
      resultBytes (.identity i) = [0x64#8, 0x20#8, 0x01#8, i.nodeAddress]
        ++ beBytes 1 (if i.service = .running then 1 else 0) ++ beBytes 1 (if i.drain then 1 else 0)
        ++ beBytes 1 i.clock.code ++ beBytes 4 i.sec ++ beBytes 2 i.ms ++ beBytes 2 i.serviceDay
        ++ beBytes 2 i.occupancy ++ beBytes 1 (if i.spillMode then 1 else 0)
        ++ slot i.slotA ++ slot i.slotB)
    ∧ resultBytes .nothing = []
    ∧ (∀ a b, resultBytes (.restart a b) = beBytes 4 a ++ beBytes 2 b)
    ∧ (∀ v : RunSettings, resultBytes (.settings v) = [v.highMark, v.lowMark, v.answerLimit,
        v.skewLimit, v.deferralAge, v.deferredGrace, v.holdover, v.stepThreshold, v.measurementSpan,
        v.rolloverMinute].flatMap (beBytes 4))
    ∧ (∀ (stepped : Bool) (e trim : Int) (state : ClockState), -32768 ≤ trim → trim ≤ 32767 →
      ∃ (b : BitVec 32) (c : BitVec 16), b.toInt = max (-2147483648) (min 2147483647 e)
        ∧ c.toInt = trim ∧ resultBytes (.timeMark stepped e state trim)
          = beBytes 1 (if stepped then 1 else 0) ++ beBytes 4 b.toNat ++ beBytes 1 state.code
            ++ beBytes 2 c.toNat)
    ∧ (∀ c : Counters, resultBytes (.counters c) = [c.tapsAccepted, c.tapsNotAccepted,
        c.fallbacksFull, c.fallbacksLate, c.entries, c.refused, c.completed, c.cancelled,
        c.incomplete, c.spills, c.unmatched, c.corrections, c.repairs, c.unpriced,
        c.droppedLineToOffice, c.droppedOfficeToLine, c.crcErrorsLine, c.crcErrorsOffice,
        c.requestsDiscarded].flatMap (beBytes 4))
    ∧ (∀ table first n, resultBytes (.written table first n)
        = beBytes 1 table ++ beBytes 1 first ++ beBytes 1 n)
    ∧ (∀ table first n bytes, resultBytes (.entries table first n bytes)
        = beBytes 1 table ++ beBytes 1 first ++ beBytes 1 n ++ bytes)
    ∧ resultBytes (.activated false) = [0x01#8] ∧ resultBytes (.activated true) = [0x02#8]
    ∧ (∀ n, resultBytes (.length n) = beBytes 2 n)
    ∧ (∀ present n, resultBytes (.denyCheck present n)
        = beBytes 1 (if present then 1 else 0) ++ beBytes 2 n)
    ∧ resultBytes (.journey none) = [0x00#8]
    ∧ (∀ (w : JourneyWay) (label : Nat), resultBytes (.journey (some (w, label)))
        = 0x01#8 :: (beBytes 2 w.slot ++ beBytes 2 label ++ journeyBytes w.journey))
    ∧ (∀ kind reference charge, resultBytes (.closed kind reference charge)
        = beBytes 1 kind.code ++ beBytes 4 reference ++ beBytes 2 charge)
    ∧ (∀ l, resultBytes (.accounts l) = beBytes 1 l.length ++ l.flatMap accountBytes)
    ∧ (∀ check table index, resultBytes (.validation check table index)
        = beBytes 1 check ++ beBytes 1 table ++ beBytes 1 index)
    ∧ (∀ index, resultBytes (.outOfRange index) = beBytes 1 index)
    ∧ ∀ w : AccountWay, ∃ presence : Byte, accountBytes w = beBytes 2 w.slot
        ++ beBytes 2 w.account.day ++ beBytes 2 w.account.spent ++ beBytes 1 w.account.legs
        ++ [presence]
        ++ (w.account.lastExit.map (fun e => beBytes 1 e.station ++ beBytes 4 e.exitTime
          ++ beBytes 1 e.originStation ++ beBytes 4 e.originTime ++ beBytes 2 e.chargedSoFar
          ++ [yesNoByte e.nilSoFar] ++ beBytes 2 e.shownCharge ++ beBytes 4 e.reference)).getD []
        ++ (w.account.lastIncomplete.map (fun e => beBytes 1 e.entryStation ++ beBytes 4 e.entryTime
          ++ beBytes 1 e.fareClass ++ beBytes 2 e.charge ++ beBytes 4 e.reference)).getD []
        ++ (w.account.lastUnmatched.map (fun e => beBytes 1 e.station ++ beBytes 4 e.exitTime
          ++ beBytes 1 e.fareClass ++ beBytes 4 e.reference)).getD []
      ∧ (List.range 3).map presence.getLsbD = [w.account.lastExit.isSome,
        w.account.lastIncomplete.isSome, w.account.lastUnmatched.isSome])

/-! ### RESTART (R18, R83, R128, R144, R176) -/

/-- RESTART is refused while another holds a slot. Otherwise, in one act: service Halted; every unanswered queued tap Fallback "queue full" in its reserved place, every answered-late one kept for its record; Tap Queue, Forward Queue and pending events empty; the Sweep's waiting request withdrawn and the Sweep reset, or reset at the release of its visit; the slots changed; the drain begun. Everything else stands (R18, R63, R128, R144, R176, log 34; that the Fallback verdicts are placed in the order of the Tap Queue is the model's choice, log 48; what becomes of the request in the other slot is said by RestartAbortsOperations). -/
def Obligations.RestartTaken : Prop :=
  ∀ (s : State) (before after : List HeldRequest) (r : HeldRequest), NextRequest s before r after →
    r.request = .restart →
    ((∃ q ∈ s.mgmt.requests, q.request = .restart ∧ q.phase ≠ .taken) →
      exec .restart s = .next (s.answered before r after ⟨.refused, .restartInProgress, .nothing⟩))
    ∧ ∀ owed late : List TapEntry, (∀ q ∈ s.mgmt.requests, q.request = .restart → q.phase = .taken) →
      SlotsSound s → owed = s.tapQueue.filter (fun e => !e.answeredLate) →
      late = s.tapQueue.filter (fun e => e.answeredLate) →
      ∃ t, exec .restart s = .next t
        ∧ t = { s with
            linePort := t.linePort
            officePort := t.officePort
            tapQueue := []
            verdictQueue := {
              frames := s.verdictQueue.frames
                ++ owed.map (fun e => plainVerdict e.tap .fallback .queueFull)
              reserved := s.verdictQueue.reserved - owed.length }
            forwardQueue := []
            officeQueue := { s.officeQueue with
              frames := t.officeQueue.frames
              setAside := t.officeQueue.setAside }
            store := { s.store with arbiter := t.store.arbiter }
            sweep := if holder s = some .sweep then { s.sweep with resetAtRelease := true }
              else ⟨0, 0, false, false, .journey, false⟩
            tables := { s.tables with slotA := t.tables.slotA, slotB := t.tables.slotB }
            mgmt := { s.mgmt with
              service := .halted
              requests := t.mgmt.requests
              counters := { s.mgmt.counters with
                fallbacksFull := if owed = [] then s.mgmt.counters.fallbacksFull
                  else min (s.mgmt.counters.fallbacksFull + owed.length) 4294967295 }
              events := []
              drain := ⟨true, false, 0, owed.length⟩
              restartLate := s.mgmt.restartLate ++ late.map TapEntry.tap } }
        ∧ holder t = holder s
        ∧ t.store.arbiter.reckonerWaiting = s.store.arbiter.reckonerWaiting
        ∧ (holder s ≠ some .sweep → t.store.arbiter.sweepWaiting = false
          ∧ (s.store.arbiter.sweepWaiting = true → t.store.arbiter.sweepWait = 0))
        ∧ (holder s = some .sweep →
          t.store.arbiter.sweepWaiting = s.store.arbiter.sweepWaiting
          ∧ t.store.arbiter.sweepWait = s.store.arbiter.sweepWait)
        ∧ (∀ x, (slotOf s x).state ≠ .copying → (slotOf s x).state ≠ .validating →
            slotOf t x = slotOf s x)
        ∧ (∀ x, (slotOf s x).state = .copying → slotOf t x = Slot.freed)
        ∧ (∀ x, (slotOf s x).state = .validating → s.tables.swapDue = some x →
            slotOf t x = slotOf s x)
        ∧ (∀ x, (slotOf s x).state = .validating → s.tables.swapDue ≠ some x →
            slotOf t x = { slotOf s x with state := .staging, effective := none })

/-- The operation in the other request slot when RESTART is taken: a journey operation that waits for its entries is answered Aborted when there is room; one that has set them aside and is not granted is withdrawn and its Aborted reply placed in its own entry; one that is granted stands. A COPY ACTIVE under way is answered Aborted, and so is an ACTIVATE whose validation is under way; an ACTIVATE whose swap waits for the Reckoner stands, and so does a request whose reply waits for room. A request that was received after the RESTART stands too, to be carried out after it (R63, R83, R144, R174, R176, log 5). -/
def Obligations.RestartAbortsOperations : Prop :=
  (∀ (s : State) (q r : HeldRequest), NextRequest s [] r [q] → r.request = .restart →
    q.phase = .taken ∨ q.request ≠ .restart ∧ (∃ reply, q.phase = .replyDue reply) →
    ∃ t, exec .restart s = .next t ∧ t.mgmt.requests = [{ r with phase := .underway }, q]
      ∧ t.officeQueue = s.officeQueue)
  ∧ ∀ (s : State) (q r : HeldRequest), NextRequest s [q] r [] → r.request = .restart →
    q.request ≠ .restart →
    ∃ t, exec .restart s = .next t
      ∧ (q.phase = .waitingEntries →
        t.mgmt.requests = [{ q with phase := .replyDue ⟨.aborted, .none, .nothing⟩ },
          { r with phase := .underway }]
        ∧ t.officeQueue = s.officeQueue)
      ∧ (q.phase = .ready ∨ q.phase = .presented ∧ holder s ≠ some .management →
        t.mgmt.requests = [{ r with phase := .underway }]
        ∧ t.officeQueue = { s.officeQueue with
            frames := s.officeQueue.frames
              ++ [.reply q.sequence q.number q.code ⟨.aborted, .none, .nothing⟩]
            setAside := s.officeQueue.setAside - entriesNeeded q.request }
        ∧ (q.phase = .presented → t.store.arbiter.managementWaiting = false))
      ∧ (q.phase = .presented → holder s = some .management →
        t.mgmt.requests = [q, { r with phase := .underway }] ∧ t.officeQueue = s.officeQueue)
      ∧ ((∃ reply, q.phase = .replyDue reply) →
        t.mgmt.requests = [q, { r with phase := .underway }] ∧ t.officeQueue = s.officeQueue)
      ∧ ∀ x, q.phase = .underway → SlotsSound s →
        (q.request = .copyActive x → (slotOf s x).state = .copying →
          t.mgmt.requests = [{ q with phase := .replyDue ⟨.aborted, .none, .nothing⟩ },
            { r with phase := .underway }]
          ∧ t.officeQueue = s.officeQueue)
        ∧ ∀ effective, q.request = .activate x effective → (slotOf s x).state = .validating →
          (s.tables.swapDue ≠ some x →
            t.mgmt.requests = [{ q with phase := .replyDue ⟨.aborted, .none, .nothing⟩ },
              { r with phase := .underway }]
            ∧ t.officeQueue = s.officeQueue)
          ∧ (s.tables.swapDue = some x →
            t.mgmt.requests = [q, { r with phase := .underway }] ∧ t.officeQueue = s.officeQueue)

/-- The course of a RESTART: the answered-late taps' "restart" records as entries fall free; a drain step's entry and its request for the store; in its grant the spill of the admission list's head, with Pressure On or Off and Generation Freed where they are due, or at the end the emptying of the Day Account Table; and the reply once the drain has ended, the records are placed and an entry is free (R18, R83, R124, R142, R159, R161, R165, R176; that the "restart" record has neither an entry nor an exit group and what else it carries, what the Spill record has, and that the next operation is presented after the arbitration of a step's release, is the model's reading, logs 16, 17, 23 and 32; a Spill's report comes before its count message, log 25, and its class is the journey's, log 31). -/
def Obligations.RestartRunsItsCourse : Prop :=
  (∀ (s : State) (tap : Tap) (rest : List Tap), s.rstnLow = false →
      s.mgmt.restartLate = tap :: rest → 1 ≤ officeFree s →
      ∃ t, exec .restartLateRecord s = .next t ∧ t = { s with
        officePort := t.officePort
        officeQueue := { s.officeQueue with
          frames := s.officeQueue.frames ++ [.record s.officeQueue.sequence {
            kind := .unpriced
            madeSec := s.clock.sec
            madeMs := s.clock.ms
            reference := none
            token := tap.token
            fareClass := tap.fareClass
            label := none
            reason := .restart
            entry := none
            exit := none
            priced := none
            originalCharge := none
            related := none
            origin := none
            openJourney := none
            tap := some ⟨tap.station, tap.gate, tap.direction, tap.gateTime, tap.tapNumber⟩
            flags := {
              answeredLate := true
              deferred := tap.deferred
              clockFreeRunning := s.clock.state == .freeRunning } }]
          sequence := (s.officeQueue.sequence + 1) % 256 }
        mgmt := { s.mgmt with
          restartLate := rest
          counters := { s.mgmt.counters with unpriced := bump s.mgmt.counters.unpriced } } })
  ∧ (∀ s : State, s.rstnLow = false → s.mgmt.drain.inProgress = true → outstanding s = 0 →
      1 ≤ officeFree s →
      exec .drainStepSetAside s = .next (requestStore .management { s with
        officeQueue := { s.officeQueue with setAside := s.officeQueue.setAside + 1 }
        mgmt := { s.mgmt with drain := { s.mgmt.drain with presented := true } } }))
  ∧ (∀ (s : State) (w : JourneyWay) (rest left : List JourneyWay), s.rstnLow = false →
      holder s = some .management → s.mgmt.drain.presented = true → s.store.journeys = w :: rest →
      left = s.store.journeys.filter (fun v => v.slot != w.slot) →
      ∃ u c, exec .drainStep s = .next (presentNext (releaseStore u))
        ∧ u = { s with
            officePort := u.officePort
            officeQueue := {
              frames := s.officeQueue.frames ++ [.record s.officeQueue.sequence c]
              setAside := s.officeQueue.setAside - 1
              sequence := (s.officeQueue.sequence + 1) % 256 }
            store := { s.store with journeys := left }
            sweep := { s.sweep with spillMode := spillModeAt s left.length }
            tables := { s.tables with slotA := u.tables.slotA, slotB := u.tables.slotB }
            mgmt := { s.mgmt with
              counters := { s.mgmt.counters with spills := bump s.mgmt.counters.spills }
              events := closingEvents s w.journey.tag left.length s.mgmt.events
              drain := { s.mgmt.drain with
                spilled := s.mgmt.drain.spilled + 1, presented := false } } }
        ∧ SpillsJourney s w.journey c ∧ CarriesMarks w.journey false false c)
  ∧ (∀ s : State, s.rstnLow = false → holder s = some .management →
      s.mgmt.drain.presented = true → s.store.journeys = [] →
      exec .drainStep s = .next (presentNext (releaseStore { s with
        officeQueue := { s.officeQueue with setAside := s.officeQueue.setAside - 1 }
        store := { s.store with accounts := [], accountFullDay := none }
        mgmt := { s.mgmt with
          drain := { s.mgmt.drain with inProgress := false, presented := false } } })))
  ∧ ∀ (s : State) (before after : List HeldRequest) (r : HeldRequest), s.rstnLow = false →
      s.mgmt.requests = before ++ r :: after → r.phase = .underway → r.request = .restart →
      (∀ q ∈ before, ¬ (q.phase = .underway ∧ q.request = .restart)) →
      s.mgmt.drain.inProgress = false → s.mgmt.restartLate = [] → 1 ≤ officeFree s →
      exec .restartComplete s = .next (placeFrame (.reply r.sequence r.number r.code
        ⟨.done, .none, .restart s.mgmt.drain.spilled s.mgmt.drain.fallbacks⟩) { s with
          mgmt := { s.mgmt with requests := before ++ after, drain := ⟨false, false, 0, 0⟩ } })

/-! ### The Reckoner (R6 to R13) -/

/-- The Reckoner, Idle with 3 free Office Queue entries, takes the head tap and sets 3 entries aside; a tap with valid fields under an Active slot gets its tap time, clamped to the arrival seconds beyond the skew limit, and its request reaches the arbiter. A swap that is due and not the Reckoner's to wait for is made first (log 7). Otherwise it takes nothing. At the end of a transaction, before the store falls free, it takes taps the same way one after the other until one has asked for the store or none can be taken (R8, R9, R11, R62, R102, R103; that no other placer of the Office Queue comes between is the model's choice, log 44). -/
def Obligations.TapTaken : Prop :=
  (∀ s : State, s.reckoner.isSome = true ∨ s.tapQueue = [] ∨ officeFree s < 3 →
      exec .reckonerTakeTap s = .next s ∧ takeTaps s = s)
  ∧ (∀ s u : State, s.rstnLow = false → exec .reckonerTakeTap s = .next u → takeTaps s = takeTaps u)
  ∧ ∀ (s u : State) (e : TapEntry) (rest : List TapEntry) (time : Nat) (clamped : Bool),
      s.rstnLow = false → s.reckoner = none → s.tapQueue = e :: rest → 3 ≤ officeFree s →
      u = settleSwap s → activeSlot u ≠ none →
      e.tap.station ≤ 63 → e.tap.fareClass ≤ 7 → e.tap.direction = 1 ∨ e.tap.direction = 2 →
      (∀ p, e.tap.pass = some p → p.fromStation ≤ 63 ∧ p.toStation ≤ 63) →
      (e.tap.deferred = false ∧ e.tap.gateTime ≤ e.arrivalSec + u.mgmt.settings.skewLimit
            ∧ e.arrivalSec ≤ e.tap.gateTime + u.mgmt.settings.skewLimit
            ∧ time = e.tap.gateTime ∧ clamped = false
        ∨ e.tap.deferred = false ∧ (e.arrivalSec + u.mgmt.settings.skewLimit < e.tap.gateTime
              ∨ e.tap.gateTime + u.mgmt.settings.skewLimit < e.arrivalSec)
            ∧ time = e.arrivalSec ∧ clamped = true
        ∨ e.tap.deferred = true ∧ e.arrivalSec + u.mgmt.settings.skewLimit < e.tap.gateTime
            ∧ time = e.arrivalSec ∧ clamped = true
        ∨ e.tap.deferred = true ∧ e.tap.gateTime ≤ e.arrivalSec + u.mgmt.settings.skewLimit
            ∧ e.arrivalSec ≤ e.tap.gateTime + u.mgmt.settings.deferralAge * 3600
            ∧ time = e.tap.gateTime ∧ clamped = false) →
      exec .reckonerTakeTap s = .next (requestStore .reckoner { u with
        tapQueue := rest
        officeQueue := { u.officeQueue with setAside := u.officeQueue.setAside + 3 }
        reckoner := some ⟨e, time, clamped⟩ })

/-- A taken tap that screening ends leaves one record and, unless it was answered late, one verdict in its reserved place: malformed fields, no Active slot, or a stale deferred tap. The Reckoner is Idle again and no entry stays set aside (R6, R7, R9, R10, R13, R103, logs 7 and 16). -/
def Obligations.TapEndedByScreening : Prop :=
  ∀ (s u : State) (e : TapEntry) (rest : List TapEntry) (kind : RecordKind) (reason : Reason)
      (told : VerdictKind) (why : Reason) (valid : Bool),
    s.rstnLow = false → s.reckoner = none → s.tapQueue = e :: rest → 3 ≤ officeFree s →
    u = settleSwap s →
    (valid = true ↔ e.tap.station ≤ 63 ∧ e.tap.fareClass ≤ 7
      ∧ (e.tap.direction = 1 ∨ e.tap.direction = 2)
      ∧ ∀ p, e.tap.pass = some p → p.fromStation ≤ 63 ∧ p.toStation ≤ 63) →
    (valid = false ∧ e.tap.deferred = false ∧ e.tap.direction = 1
          ∧ kind = .refused ∧ reason = .malformed ∧ told = .refused ∧ why = .malformed
      ∨ valid = false ∧ e.tap.deferred = false ∧ e.tap.direction ≠ 1
          ∧ kind = .unpriced ∧ reason = .malformed ∧ told = .goPending ∧ why = .none
      ∨ valid = false ∧ e.tap.deferred = true
          ∧ kind = .unpriced ∧ reason = .malformed ∧ told = .recorded ∧ why = .none
      ∨ valid = true ∧ activeSlot u = none ∧ e.tap.deferred = false
          ∧ kind = .unpriced ∧ reason = .noTables ∧ told = .outOfService ∧ why = .none
      ∨ valid = true ∧ activeSlot u = none ∧ e.tap.deferred = true
          ∧ kind = .unpriced ∧ reason = .noTables ∧ told = .recorded ∧ why = .none
      ∨ valid = true ∧ activeSlot u ≠ none ∧ e.tap.deferred = true
          ∧ e.tap.gateTime + u.mgmt.settings.deferralAge * 3600 < e.arrivalSec
          ∧ kind = .unpriced ∧ reason = .stale ∧ told = .recorded ∧ why = .none) →
    ∃ t, exec .reckonerTakeTap s = .next t ∧ t = { u with
      linePort := t.linePort
      officePort := t.officePort
      tapQueue := rest
      verdictQueue := if e.answeredLate then u.verdictQueue else {
        frames := u.verdictQueue.frames ++ [plainVerdict e.tap told why]
        reserved := u.verdictQueue.reserved - 1 }
      officeQueue := { u.officeQueue with
        frames := u.officeQueue.frames ++ [.record u.officeQueue.sequence {
          kind := kind
          madeSec := u.clock.sec
          madeMs := u.clock.ms
          reference := none
          token := e.tap.token
          fareClass := e.tap.fareClass
          label := none
          reason := reason
          entry := none
          exit := none
          priced := none
          originalCharge := none
          related := none
          origin := none
          openJourney := none
          tap := some ⟨e.tap.station, e.tap.gate, e.tap.direction, e.tap.gateTime, e.tap.tapNumber⟩
          flags := {
            answeredLate := e.answeredLate
            deferred := e.tap.deferred
            clockFreeRunning := u.clock.state == .freeRunning } }]
        sequence := (u.officeQueue.sequence + 1) % 256 }
      mgmt := { u.mgmt with counters := Counters.record kind u.mgmt.counters } }

/-- A live entry that fails the checks at its grant, station, class and the Deny List as it stood at the grant, in this order, is refused: one Refused record with the Active slot's label, the verdict unless it was answered late, the Reckoner Idle, its entries given back and the store released with nothing in it changed (R7, R12, log 8; the next tap is taken before the store falls free, log 44). -/
def Obligations.EntryRefusedAtGrant : Prop :=
  ∀ (s : State) (x : SlotId) (tr : TapTransaction) (tables : Tables) (reason : Reason),
    Granted s x tr → tr.entry.tap.direction = 1 → tr.entry.tap.deferred = false →
    tables = (slotOf s x).tables →
    (stationPresent tables tr.entry.tap.station = false ∧ reason = .stationUnknown
      ∨ stationPresent tables tr.entry.tap.station = true
          ∧ (classEntry tables tr.entry.tap.fareClass).permitted = false ∧ reason = .classBarred
      ∨ stationPresent tables tr.entry.tap.station = true
          ∧ (classEntry tables tr.entry.tap.fareClass).permitted = true
          ∧ s.store.grant.denied = true ∧ reason = .denyList) →
    ∃ u, exec .reckonerGrant s = .next (releaseStore (takeTaps u)) ∧ u = { s with
      linePort := u.linePort
      officePort := u.officePort
      verdictQueue := if tr.entry.answeredLate then s.verdictQueue else {
        frames := s.verdictQueue.frames ++ [plainVerdict tr.entry.tap .refused reason]
        reserved := s.verdictQueue.reserved - 1 }
      officeQueue := {
        frames := s.officeQueue.frames ++ [.record s.officeQueue.sequence {
          kind := .refused
          madeSec := s.clock.sec
          madeMs := s.clock.ms
          reference := none
          token := tr.entry.tap.token
          fareClass := tr.entry.tap.fareClass
          label := (slotOf s x).label
          reason := reason
          entry := some ⟨tr.entry.tap.station, tr.tapTime⟩
          exit := none
          priced := none
          originalCharge := none
          related := none
          origin := none
          openJourney := none
          tap := some ⟨tr.entry.tap.station, tr.entry.tap.gate, tr.entry.tap.direction,
            tr.entry.tap.gateTime, tr.entry.tap.tapNumber⟩
          flags := {
            answeredLate := tr.entry.answeredLate
            timeClamped := tr.clamped
            clockFreeRunning := s.clock.state == .freeRunning } }]
        setAside := s.officeQueue.setAside - 3
        sequence := (s.officeQueue.sequence + 1) % 256 }
      reckoner := none
      mgmt := { s.mgmt with counters := { s.mgmt.counters with
        refused := bump s.mgmt.counters.refused } } }

/-- An entry that is not turned away and whose token has no open journey is admitted: its journey takes the lowest free way of its set, or the way of the set's earliest admission, which is spilled first; it joins the tail of the admission list under the Active slot with the next reference, its continuation part and its deadline; one Entry record is placed and the gate told Go with the reference, Recorded when deferred. The occupancy reported raises Pressure On or Off, and the spill Generation Freed, where they are due (R13, R65 to R69, R74, R75, R124, R142, R159, R161, R165, logs 8, 17, 25 and 31; the next tap is taken before the store falls free, log 44). -/
def Obligations.EntryAdmitted : Prop :=
  ∀ (s : State) (x : SlotId) (tr : TapTransaction) (p : Policy) (c : Option Continuation) (j : Journey)
      (entered : Record),
    Granted s x tr → EntryPasses s x tr → (slotOf s x).tables.policy = some p →
    (∀ w ∈ s.store.journeys, w.journey.token ≠ tr.entry.tap.token) →
    EntryContinues s p tr.entry.tap tr.tapTime c → j = journeyOf s x tr p c →
    entered = {
      kind := .entry
      madeSec := s.clock.sec
      madeMs := s.clock.ms
      reference := some s.store.nextReference
      token := tr.entry.tap.token
      fareClass := tr.entry.tap.fareClass
      label := some p.label
      reason := .none
      entry := some ⟨tr.entry.tap.station, tr.tapTime⟩
      exit := none
      priced := none
      originalCharge := none
      related := none
      origin := none
      openJourney := none
      tap := some ⟨tr.entry.tap.station, tr.entry.tap.gate, tr.entry.tap.direction,
        tr.entry.tap.gateTime, tr.entry.tap.tapNumber⟩
      flags := {
        continued := c.isSome
        answeredLate := tr.entry.answeredLate
        timeClamped := tr.clamped
        deferred := tr.entry.tap.deferred
        clockFreeRunning := s.clock.state == .freeRunning } } →
    (∀ n, n / 4 = journeySet j.token → (∀ w ∈ s.store.journeys, w.slot ≠ n) →
      (∀ m < n, m / 4 = journeySet j.token → ∃ w ∈ s.store.journeys, w.slot = m) →
      ∃ u, exec .reckonerGrant s = .next (releaseStore (takeTaps u)) ∧ u = { s with
        linePort := u.linePort
        officePort := u.officePort
        verdictQueue := answeredQueue s.verdictQueue tr .go none (some s.store.nextReference) false
          c.isSome
        officeQueue := {
          frames := s.officeQueue.frames ++ [.record s.officeQueue.sequence entered]
          setAside := s.officeQueue.setAside - 3
          sequence := (s.officeQueue.sequence + 1) % 256 }
        reckoner := none
        store := { s.store with
          journeys := s.store.journeys ++ [⟨n, j⟩]
          nextReference := nextReferenceAfter s.store.nextReference }
        sweep := { s.sweep with spillMode := spillModeAt s (s.store.journeys.length + 1) }
        tables := s.tables.put x { slotOf s x with refCount := (slotOf s x).refCount + 1 }
        mgmt := { s.mgmt with
          counters := { s.mgmt.counters with entries := bump s.mgmt.counters.entries }
          events := pressureAt s (s.store.journeys.length + 1) s.mgmt.events } })
    ∧ ∀ before after w, JourneysSound s →
      (∀ m, m / 4 = journeySet j.token → ∃ v ∈ s.store.journeys, v.slot = m) →
      s.store.journeys = before ++ w :: after → w.slot / 4 = journeySet j.token →
      (∀ v ∈ before, v.slot / 4 ≠ journeySet j.token) →
      ∃ u spilled, exec .reckonerGrant s = .next (releaseStore (takeTaps u)) ∧ u = { s with
          linePort := u.linePort
          officePort := u.officePort
          verdictQueue := answeredQueue s.verdictQueue tr .go none (some s.store.nextReference) false
            c.isSome
          officeQueue := {
            frames := s.officeQueue.frames ++ [.record s.officeQueue.sequence spilled,
              .record ((s.officeQueue.sequence + 1) % 256) entered]
            setAside := s.officeQueue.setAside - 3
            sequence := (s.officeQueue.sequence + 2) % 256 }
          reckoner := none
          store := { s.store with
            journeys := before ++ after ++ [⟨w.slot, j⟩]
            nextReference := nextReferenceAfter s.store.nextReference }
          sweep := { s.sweep with spillMode := spillModeAt s s.store.journeys.length }
          tables := { s.tables with slotA := u.tables.slotA, slotB := u.tables.slotB }
          mgmt := { s.mgmt with
            counters := { s.mgmt.counters with
              entries := bump s.mgmt.counters.entries
              spills := bump s.mgmt.counters.spills }
            events := pressureAt s s.store.journeys.length
              (freedAt s w.journey.tag s.mgmt.events) } }
        ∧ SpillsJourney s w.journey spilled
        ∧ CarriesMarks w.journey tr.entry.tap.deferred tr.clamped spilled

/-- An entry that finds its token's open journey and does not repeat it closes the earlier-timed of the two: the open journey, when it entered no later, is closed, Cancelled within the same-station grace and Incomplete otherwise, and the new entry is admitted after it; when it entered later the new entry is closed in its stead, under a reference of its own, and the open journey stands. The admitted one takes the lowest way of its set that is free after the closing, and the continuation part that the accounts after the closing give it. An Incomplete closing is charged whole to its start owner and sets the last incomplete of the closed journey's account, every other account stands; a Cancelled one has a charge of 0 for the owner of its station's branch and touches no account. The closed journey's count rises, and "entries" only for an admission; each report of the occupancy raises Pressure On or Off, and the closing Generation Freed, where they are due (R47, R66, R70, R71, R73 to R75, R91, R95, R98, R110, R124, R142, R159 to R161, R165, logs 8, 25 and 31; that a size within the duplicate window is never beyond a grace of 0 min is the model's choice, log 47, and so is that the next tap is taken before the store falls free, log 44). -/
def Obligations.EntrySupersedes : Prop :=
  ∀ (s : State) (x : SlotId) (tr : TapTransaction) (p : Policy) (w : JourneyWay) (kind : RecordKind)
      (occupancy : Nat) (counted : Counters),
    Granted s x tr → EntryPasses s x tr → (slotOf s x).tables.policy = some p →
    JourneysSound s → w ∈ s.store.journeys → w.journey.token = tr.entry.tap.token →
    (w.journey.entryStation = tr.entry.tap.station ∧ kind = .cancelled
        ∧ p.duplicateWindow < (((tr.tapTime : Int) - (w.journey.entryTime : Int)).natAbs)
        ∧ (((tr.tapTime : Int) - (w.journey.entryTime : Int)).natAbs) ≤ p.grace * 60
      ∨ (w.journey.entryStation ≠ tr.entry.tap.station
          ∨ p.duplicateWindow < (((tr.tapTime : Int) - (w.journey.entryTime : Int)).natAbs)
            ∧ p.grace * 60 < (((tr.tapTime : Int) - (w.journey.entryTime : Int)).natAbs))
        ∧ kind = .incomplete) →
    occupancy = s.store.journeys.length →
    counted = { s.mgmt.counters with
      cancelled := if kind = .cancelled then bump s.mgmt.counters.cancelled
        else s.mgmt.counters.cancelled
      incomplete := if kind = .incomplete then bump s.mgmt.counters.incomplete
        else s.mgmt.counters.incomplete } →
    ∃ u closed, exec .reckonerGrant s = .next (releaseStore (takeTaps u))
      ∧ closed.kind = kind ∧ closed.token = tr.entry.tap.token ∧ closed.exit = none
      ∧ closed.tap = some ⟨tr.entry.tap.station, tr.entry.tap.gate, tr.entry.tap.direction,
          tr.entry.tap.gateTime, tr.entry.tap.tapNumber⟩
      ∧ u = { s with
          linePort := u.linePort
          officePort := u.officePort
          verdictQueue := u.verdictQueue
          officeQueue := u.officeQueue
          reckoner := none
          store := { s.store with
            journeys := u.store.journeys
            accounts := u.store.accounts
            accountFullDay := u.store.accountFullDay
            nextReference := nextReferenceAfter s.store.nextReference }
          sweep := { s.sweep with spillMode := u.sweep.spillMode }
          tables := { s.tables with slotA := u.tables.slotA, slotB := u.tables.slotB }
          mgmt := { s.mgmt with counters := u.mgmt.counters, events := u.mgmt.events } }
      ∧ u.officeQueue.setAside = s.officeQueue.setAside - 3
      ∧ (kind = .cancelled → (∃ owner, closed.priced = some ⟨0, 0, [⟨owner, 0⟩]⟩
            ∧ (w.journey.entryTime ≤ tr.tapTime → owner
              = stationOwner (slotOf s w.journey.tag).tables w.journey.entryStation)
            ∧ (tr.tapTime < w.journey.entryTime → owner
              = stationOwner (slotOf s x).tables tr.entry.tap.station))
          ∧ u.store.accounts = s.store.accounts
          ∧ u.store.accountFullDay = s.store.accountFullDay)
      ∧ (w.journey.entryTime ≤ tr.tapTime → ∀ (mid : State) (raised : List PendingEvent → List PendingEvent),
          mid = { s with sweep := { s.sweep with spillMode := spillModeAt s (occupancy - 1) } } →
          (∀ l, raised l = pressureAt mid occupancy (closingEvents s w.journey.tag (occupancy - 1) l)) →
          CarriesJourney s w.journey closed
          ∧ (kind = .incomplete → CarriesMarks w.journey tr.entry.tap.deferred tr.clamped closed)
          ∧ u.mgmt.counters = { counted with entries := bump s.mgmt.counters.entries }
          ∧ u.sweep.spillMode = spillModeAt mid occupancy
          ∧ (kind = .cancelled → u.mgmt.events = raised s.mgmt.events)
          ∧ (∀ (held : State × Option Nat) (charge : Nat), kind = .incomplete →
            held = obtainAccount w.journey.token (serviceDay s.mgmt.settings.rolloverMinute
              ((w.journey.continuation.map Continuation.originTime).getD w.journey.entryTime)) s →
            charge = incompleteCharge (fareContext s w.journey.tag) w.journey.fareClass
                w.journey.entryTime w.journey.continuation →
            closed.priced = some ⟨0, charge, [⟨incompleteOwner (slotOf s w.journey.tag).tables
              w.journey.entryStation w.journey.continuation, charge⟩]⟩
            ∧ u.mgmt.events = raised held.1.mgmt.events
            ∧ closed.flags.capUntracked = held.2.isNone
            ∧ u.store.accountFullDay = held.1.store.accountFullDay
            ∧ u.store.accounts = accountsWith held (Account.withIncomplete {
                entryStation := w.journey.entryStation
                entryTime := w.journey.entryTime
                fareClass := w.journey.fareClass
                charge := charge
                reference := w.journey.reference }))
          ∧ ∃ entered c n, entered.kind = .entry
            ∧ entered.reference = some s.store.nextReference
            ∧ entered.token = tr.entry.tap.token ∧ entered.fareClass = tr.entry.tap.fareClass
            ∧ entered.label = some p.label ∧ entered.priced = none
            ∧ entered.entry = some ⟨tr.entry.tap.station, tr.tapTime⟩ ∧ entered.exit = none
            ∧ entered.flags.continued = c.isSome
            ∧ EntryContinues { s with store := { s.store with accounts := u.store.accounts } } p
              tr.entry.tap tr.tapTime c
            ∧ (∀ v ∈ s.store.journeys, v.slot ≠ w.slot → v.slot ≠ n)
            ∧ (∀ m < n, m / 4 = journeySet tr.entry.tap.token →
              ∃ v ∈ s.store.journeys, v.slot ≠ w.slot ∧ v.slot = m)
            ∧ u.officeQueue.frames = s.officeQueue.frames ++ [.record s.officeQueue.sequence closed,
              .record ((s.officeQueue.sequence + 1) % 256) entered]
            ∧ n / 4 = journeySet tr.entry.tap.token
            ∧ u.store.journeys
              = s.store.journeys.filter (fun v => v.slot != w.slot) ++ [⟨n, journeyOf s x tr p c⟩]
            ∧ u.verdictQueue = answeredQueue s.verdictQueue tr .go none (some s.store.nextReference)
              false c.isSome)
      ∧ (tr.tapTime < w.journey.entryTime →
          closed.reference = some s.store.nextReference
          ∧ closed.fareClass = tr.entry.tap.fareClass ∧ closed.label = some p.label
          ∧ closed.entry = some ⟨tr.entry.tap.station, tr.tapTime⟩ ∧ closed.origin = none
          ∧ u.mgmt.counters = counted ∧ u.sweep.spillMode = s.sweep.spillMode
          ∧ (kind = .cancelled → u.mgmt.events = s.mgmt.events)
          ∧ (∀ (held : State × Option Nat) (charge : Nat), kind = .incomplete →
            held = obtainAccount tr.entry.tap.token
              (serviceDay s.mgmt.settings.rolloverMinute tr.tapTime) s →
            charge = incompleteCharge (fareContext s x) tr.entry.tap.fareClass tr.tapTime none →
            closed.priced = some ⟨0, charge, [⟨incompleteOwner (slotOf s x).tables
              tr.entry.tap.station none, charge⟩]⟩
            ∧ u.mgmt.events = held.1.mgmt.events
            ∧ closed.flags.capUntracked = held.2.isNone
            ∧ u.store.accountFullDay = held.1.store.accountFullDay
            ∧ u.store.accounts = accountsWith held (Account.withIncomplete {
                entryStation := tr.entry.tap.station
                entryTime := tr.tapTime
                fareClass := tr.entry.tap.fareClass
                charge := charge
                reference := s.store.nextReference }))
          ∧ u.officeQueue.frames = s.officeQueue.frames ++ [.record s.officeQueue.sequence closed]
          ∧ u.store.journeys = s.store.journeys
          ∧ u.verdictQueue = answeredQueue s.verdictQueue tr .go none (some s.store.nextReference)
            false false)

/-- A repeated tap leaves the Journey Store as it is and no record: an entry that repeats its token's open journey at the same station within the duplicate window is told Go with that journey's reference; an exit without a journey to match that repeats a last exit of its service day's account, or else of the day before's, is told Go with the charge and reference shown then (R71, R72, R80, R99; that such an entry is a repeat under a grace of 0 min too is the model's choice, log 47, and so is that the next tap is taken before the store falls free, log 44). -/
def Obligations.RepeatsLeaveTheStore : Prop :=
  ∀ (s : State) (x : SlotId) (tr : TapTransaction) (p : Policy), Granted s x tr →
    (slotOf s x).tables.policy = some p →
    (∀ w, EntryPasses s x tr → JourneysSound s → w ∈ s.store.journeys →
      w.journey.token = tr.entry.tap.token → w.journey.entryStation = tr.entry.tap.station →
      (((tr.tapTime : Int) - (w.journey.entryTime : Int)).natAbs) ≤ p.duplicateWindow →
      ∃ u, exec .reckonerGrant s = .next (releaseStore (takeTaps u)) ∧ u = { s with
        linePort := u.linePort
        verdictQueue := answeredQueue s.verdictQueue tr .go none (some w.journey.reference) false
          w.journey.continuation.isSome
        officeQueue := { s.officeQueue with setAside := s.officeQueue.setAside - 3 }
        reckoner := none })
    ∧ ∀ (l : LastExit) (day : Nat) (repeated : LastExit → Prop), tr.entry.tap.direction = 2 →
      (∀ w ∈ s.store.journeys, w.journey.token = tr.entry.tap.token →
        tr.tapTime < w.journey.entryTime) →
      day = serviceDay s.mgmt.settings.rolloverMinute tr.tapTime →
      (∀ v, repeated v ↔ v.station = tr.entry.tap.station
        ∧ (((tr.tapTime : Int) - (v.exitTime : Int)).natAbs) ≤ p.duplicateWindow) →
      ((∃ w, findAccount s tr.entry.tap.token day = some w ∧ w.account.lastExit = some l ∧ repeated l)
        ∨ (∀ w v, findAccount s tr.entry.tap.token day = some w → w.account.lastExit = some v →
            ¬ repeated v)
          ∧ day ≠ 0 ∧ ∃ w, findAccount s tr.entry.tap.token (day - 1) = some w
            ∧ w.account.lastExit = some l ∧ repeated l) →
      ∃ u, exec .reckonerGrant s = .next (releaseStore (takeTaps u)) ∧ u = { s with
        linePort := u.linePort
        verdictQueue := answeredQueue s.verdictQueue tr .go (some l.shownCharge) (some l.reference)
          false false
        officeQueue := { s.officeQueue with setAside := s.officeQueue.setAside - 3 }
        reckoner := none }

/-- An exit that matches its token's open journey closes it with one record under the journey's reference and the tag's label: Unpriced at a station absent from the tag; Completed, "overstay", at the incomplete charge beyond the maximum journey time; at the entry station without a continuation part Cancelled within the grace and Completed at the capped same-station charge beyond it; and Completed at the full pricing otherwise, with the chargeable distance, the shares and the flags of its pricing. A Completed exit writes its account's spent amount (an overstay leaves it), one leg more, and the last exit with its origin, charged so far and nil-so-far; every other account stands, and the other closings touch none. The gate is told Go with the charge, Go-Pending for the Unpriced one, Recorded when deferred. The record is flagged "deny-listed" as the Deny List stood at the grant; the closing raises Pressure On or Off and Generation Freed where they are due (R46 to R48, R58, R70, R76 to R79, R82, R91 to R94, R98, R111, R124, R142, R165, logs 8, 25 and 31; that an overstay's pass is judged on the own entry day is the model's choice, log 45, and so is that the next tap is taken before the store falls free, log 44). -/
def Obligations.MatchedExitCloses : Prop :=
  ∀ (s : State) (x : SlotId) (tr : TapTransaction) (w : JourneyWay) (g : FareContext) (p : Policy)
      (held : State × Option Nat) (kind : RecordKind) (reason : Reason) (told : VerdictKind)
      (charge : Option Nat) (distance : Nat) (shares : List Share)
      (capReached continued notApplied ignored overstay : Bool) (spent : Option Nat)
      (origin own : StationTime) (soFar : Nat) (nil : Bool),
    Granted s x tr → tr.entry.tap.direction = 2 → JourneysSound s → w ∈ s.store.journeys →
    w.journey.token = tr.entry.tap.token → w.journey.entryTime ≤ tr.tapTime →
    g = fareContext s w.journey.tag → g.tables.policy = some p →
    held = obtainAccount w.journey.token (serviceDay g.rollover
      ((w.journey.continuation.map Continuation.originTime).getD w.journey.entryTime)) s →
    own = ⟨w.journey.entryStation, w.journey.entryTime⟩ →
    (stationPresent g.tables tr.entry.tap.station = false
        ∧ kind = .unpriced ∧ reason = .stationUnknown ∧ told = .goPending ∧ charge = none
        ∧ capReached = false ∧ continued = false ∧ notApplied = false ∧ ignored = false
        ∧ overstay = false
      ∨ stationPresent g.tables tr.entry.tap.station = true ∧ reason = .none ∧ told = .go
        ∧ (p.maxJourney * 60 < tr.tapTime - w.journey.entryTime ∧ kind = .completed
            ∧ charge = some soFar ∧ soFar = incompleteCharge g w.journey.fareClass
              w.journey.entryTime w.journey.continuation
            ∧ capReached = false ∧ continued = false ∧ notApplied = false ∧ overstay = true
            ∧ spent = none ∧ origin = own ∧ nil = decide (soFar = 0)
            ∧ (match reckonPath g.tables w.journey.entryStation tr.entry.tap.station
                (w.journey.pass.or tr.entry.tap.pass)
                (serviceDay g.rollover w.journey.entryTime) with
              | .ok path => distance = path.chargeable
                ∧ shares = dealShares path.branches path.chargeable (incompleteOwner g.tables
                  w.journey.entryStation w.journey.continuation) soFar
                ∧ ignored = decide (path.pass = .ignored)
              | .error _ => distance = 0 ∧ ignored = false
                ∧ shares = [⟨incompleteOwner g.tables w.journey.entryStation
                  w.journey.continuation, soFar⟩])
          ∨ tr.tapTime - w.journey.entryTime ≤ p.maxJourney * 60 ∧ overstay = false
            ∧ (tr.entry.tap.station = w.journey.entryStation ∧ w.journey.continuation = none
                ∧ continued = false ∧ notApplied = false ∧ ignored = false ∧ distance = 0
                ∧ (tr.tapTime - w.journey.entryTime ≤ p.grace * 60 ∧ kind = .cancelled
                    ∧ charge = some 0 ∧ capReached = false
                    ∧ shares = [⟨stationOwner g.tables w.journey.entryStation, 0⟩]
                  ∨ p.grace * 60 < tr.tapTime - w.journey.entryTime ∧ kind = .completed
                    ∧ ∃ paid, paid = capCharge (classEntry g.tables w.journey.fareClass).cap
                        p.sameStationCharge (spentOf held.1 held.2)
                      ∧ charge = some paid.charge ∧ capReached = paid.capReached
                      ∧ shares = [⟨stationOwner g.tables w.journey.entryStation, paid.charge⟩]
                      ∧ spent = paid.spentAfter ∧ origin = own ∧ soFar = paid.charge
                      ∧ nil = decide (paid.charge = 0))
              ∨ (tr.entry.tap.station ≠ w.journey.entryStation ∨ w.journey.continuation ≠ none)
                ∧ kind = .completed
                ∧ ∃ paid, fullPricing g w.journey.fareClass w.journey.entryStation
                      w.journey.entryTime tr.entry.tap.station
                      (w.journey.pass.or tr.entry.tap.pass) w.journey.continuation
                      (spentOf held.1 held.2) = some paid
                  ∧ charge = some paid.charge ∧ capReached = paid.capReached
                  ∧ distance = paid.distance ∧ shares = paid.shares
                  ∧ continued = paid.continued ∧ notApplied = paid.continuationNotApplied
                  ∧ ignored = paid.passIgnored ∧ spent = paid.spentAfter
                  ∧ paid.origin = some origin ∧ paid.chargedSoFar = some soFar
                  ∧ nil = (paid.charge == 0 && (!paid.continued
                    || (w.journey.continuation.map Continuation.nilSoFar).getD true))))) →
    ∃ u c, exec .reckonerGrant s = .next (releaseStore (takeTaps u))
      ∧ u = { s with
          linePort := u.linePort
          officePort := u.officePort
          verdictQueue := answeredQueue s.verdictQueue tr told charge (some w.journey.reference)
            capReached continued
          officeQueue := {
            frames := s.officeQueue.frames ++ [.record s.officeQueue.sequence c]
            setAside := s.officeQueue.setAside - 3
            sequence := (s.officeQueue.sequence + 1) % 256 }
          reckoner := none
          store := { s.store with
            journeys := s.store.journeys.filter (fun v => v.slot != w.slot)
            accounts := u.store.accounts
            accountFullDay := u.store.accountFullDay }
          sweep := { s.sweep with spillMode := spillModeAt s (s.store.journeys.length - 1) }
          tables := { s.tables with slotA := u.tables.slotA, slotB := u.tables.slotB }
          mgmt := { s.mgmt with
            counters := Counters.record kind s.mgmt.counters
            events := u.mgmt.events } }
      ∧ c.kind = kind ∧ c.reason = reason ∧ c.token = tr.entry.tap.token
      ∧ c.fareClass = w.journey.fareClass ∧ c.reference = some w.journey.reference
      ∧ c.label = some p.label ∧ c.entry = some ⟨w.journey.entryStation, w.journey.entryTime⟩
      ∧ c.exit = some ⟨tr.entry.tap.station, tr.tapTime⟩
      ∧ c.priced = charge.map (fun v => ⟨distance, v, shares⟩)
      ∧ c.flags.continued = continued ∧ c.flags.continuationNotApplied = notApplied
      ∧ c.flags.passIgnored = ignored
      ∧ c.origin = w.journey.continuation.map (fun v => ⟨v.originStation, v.originTime⟩)
      ∧ c.flags.overstay = overstay ∧ c.flags.capReached = capReached
      ∧ c.flags.denyListed = s.store.grant.denied
      ∧ (kind = .unpriced ∨ kind = .cancelled →
          u.store.accounts = s.store.accounts ∧ u.store.accountFullDay = s.store.accountFullDay
          ∧ u.mgmt.events = closingEvents s w.journey.tag (s.store.journeys.length - 1) s.mgmt.events)
      ∧ (kind = .completed →
          u.store.accountFullDay = held.1.store.accountFullDay
          ∧ u.mgmt.events
            = closingEvents s w.journey.tag (s.store.journeys.length - 1) held.1.mgmt.events
          ∧ c.flags.capUntracked = held.2.isNone ∧ c.flags.nilJourney = (held.2.isSome && nil)
          ∧ u.store.accounts = accountsWith held (Account.withExit spent {
              station := tr.entry.tap.station
              exitTime := tr.tapTime
              originStation := origin.station
              originTime := origin.time
              chargedSoFar := soFar
              nilSoFar := nil
              shownCharge := charge.getD 0
              reference := w.journey.reference }))

/-- An exit with no journey to match and no exit it repeats, in its service day's account or the day before's: where a last incomplete of the first of these accounts that has one entered no later than the exit, with its station and the exit's present, stands to be corrected, a Correction under that incomplete's reference, which clears it: confirmed at its own charge beyond the maximum journey time; else repriced, at the entry station by the same-station rule and elsewhere in full. Else Unmatched, under a new reference, kept as the account's last unmatched, with Go-Pending, its record with the Active slot's label. Every other account and every open journey stand (R80, R91, R92, R94, R96, R97, R99, R112 to R115, R143, R159, log 16; the next tap is taken before the store falls free, log 44). -/
def Obligations.ExitWithoutJourney : Prop :=
  ∀ (s : State) (x : SlotId) (tr : TapTransaction) (p : Policy) (g : FareContext) (day : Nat)
      (corrects : LastIncomplete → Prop),
    Granted s x tr → tr.entry.tap.direction = 2 → g = fareContext s x → g.tables.policy = some p →
    (∀ w ∈ s.store.journeys, w.journey.token = tr.entry.tap.token →
      tr.tapTime < w.journey.entryTime) →
    day = serviceDay s.mgmt.settings.rolloverMinute tr.tapTime →
    (∀ d w l, d = day ∨ d + 1 = day → findAccount s tr.entry.tap.token d = some w →
      w.account.lastExit = some l → ¬ (l.station = tr.entry.tap.station
        ∧ (((tr.tapTime : Int) - (l.exitTime : Int)).natAbs) ≤ p.duplicateWindow)) →
    (∀ l, corrects l ↔ l.entryTime ≤ tr.tapTime ∧ stationPresent g.tables l.entryStation = true
      ∧ stationPresent g.tables tr.entry.tap.station = true) →
    ((∀ d w l, d = day ∨ d + 1 = day → findAccount s tr.entry.tap.token d = some w →
        w.account.lastIncomplete = some l → ¬ corrects l) →
      ∀ held : State × Option Nat, held = obtainAccount tr.entry.tap.token day s →
      ∃ u c, exec .reckonerGrant s = .next (releaseStore (takeTaps u))
        ∧ u = { s with
            linePort := u.linePort
            officePort := u.officePort
            verdictQueue := answeredQueue s.verdictQueue tr .goPending none
              (some s.store.nextReference) false false
            officeQueue := {
              frames := s.officeQueue.frames ++ [.record s.officeQueue.sequence c]
              setAside := s.officeQueue.setAside - 3
              sequence := (s.officeQueue.sequence + 1) % 256 }
            reckoner := none
            store := { s.store with
              accounts := accountsWith held (fun a => { a with lastUnmatched := some {
                station := tr.entry.tap.station
                exitTime := tr.tapTime
                fareClass := tr.entry.tap.fareClass
                reference := s.store.nextReference } })
              accountFullDay := held.1.store.accountFullDay
              nextReference := nextReferenceAfter s.store.nextReference }
            mgmt := { s.mgmt with
              counters := { s.mgmt.counters with unmatched := bump s.mgmt.counters.unmatched }
              events := held.1.mgmt.events } }
        ∧ c.kind = .unmatched ∧ c.reference = some s.store.nextReference ∧ c.priced = none
        ∧ c.label = some p.label
        ∧ c.exit = some ⟨tr.entry.tap.station, tr.tapTime⟩ ∧ c.entry = none
        ∧ c.flags.capUntracked = held.2.isNone)
    ∧ ∀ (d : Nat) (w : AccountWay) (l : LastIncomplete) (priced : Priced) (spent : Option Nat)
        (soFar elapsed : Nat) (capReached confirmed : Bool),
      d = day ∨ d + 1 = day ∧ (∀ v k, findAccount s tr.entry.tap.token day = some v →
        v.account.lastIncomplete = some k → ¬ corrects k) →
      findAccount s tr.entry.tap.token d = some w → w.account.lastIncomplete = some l → corrects l →
      elapsed = tr.tapTime - l.entryTime →
      (p.maxJourney * 60 < elapsed ∧ confirmed = true ∧ capReached = false ∧ spent = none
          ∧ soFar = l.charge ∧ (∃ path, reckonPath g.tables l.entryStation tr.entry.tap.station
              tr.entry.tap.pass (serviceDay g.rollover l.entryTime) = .ok path
            ∧ priced = ⟨path.chargeable, l.charge,
              dealShares path.branches path.chargeable path.startOwner l.charge⟩)
        ∨ elapsed ≤ p.maxJourney * 60 ∧ confirmed = false
          ∧ (tr.entry.tap.station = l.entryStation
              ∧ (elapsed ≤ p.grace * 60 ∧ capReached = false ∧ spent = none ∧ soFar = 0
                  ∧ priced = ⟨0, 0, [⟨stationOwner g.tables l.entryStation, 0⟩]⟩
                ∨ p.grace * 60 < elapsed ∧ ∃ paid, paid = capCharge (classEntry g.tables l.fareClass).cap
                    p.sameStationCharge (spentOf s (some w.slot))
                  ∧ capReached = paid.capReached ∧ spent = paid.spentAfter ∧ soFar = paid.charge
                  ∧ priced = ⟨0, paid.charge, [⟨stationOwner g.tables l.entryStation, paid.charge⟩]⟩)
            ∨ tr.entry.tap.station ≠ l.entryStation ∧ ∃ paid, fullPricing g l.fareClass
                  l.entryStation l.entryTime tr.entry.tap.station tr.entry.tap.pass none
                  (spentOf s (some w.slot)) = some paid
                ∧ capReached = paid.capReached ∧ spent = paid.spentAfter
                ∧ paid.chargedSoFar = some soFar
                ∧ priced = ⟨paid.distance, paid.charge, paid.shares⟩)) →
      ∃ u c, exec .reckonerGrant s = .next (releaseStore (takeTaps u))
        ∧ u = { s with
            linePort := u.linePort
            officePort := u.officePort
            verdictQueue := answeredQueue s.verdictQueue tr .go (some priced.charge)
              (some l.reference) capReached false
            officeQueue := {
              frames := s.officeQueue.frames ++ [.record s.officeQueue.sequence c]
              setAside := s.officeQueue.setAside - 3
              sequence := (s.officeQueue.sequence + 1) % 256 }
            reckoner := none
            store := { s.store with
              accounts := accountsWith (s, some w.slot) (fun a =>
                { a.withExit spent {
                    station := tr.entry.tap.station
                    exitTime := tr.tapTime
                    originStation := l.entryStation
                    originTime := l.entryTime
                    chargedSoFar := soFar
                    nilSoFar := priced.charge == 0
                    shownCharge := priced.charge
                    reference := l.reference } with
                  lastIncomplete := none }) }
            mgmt := { s.mgmt with
              counters := { s.mgmt.counters with corrections := bump s.mgmt.counters.corrections } } }
        ∧ c.kind = .correction ∧ c.reference = some l.reference ∧ c.related = some l.reference
        ∧ c.fareClass = l.fareClass ∧ c.label = some p.label
        ∧ c.originalCharge = some l.charge ∧ c.priced = some priced
        ∧ c.entry = some ⟨l.entryStation, l.entryTime⟩
        ∧ c.exit = some ⟨tr.entry.tap.station, tr.tapTime⟩
        ∧ c.flags.confirmed = confirmed ∧ c.flags.nilJourney = (priced.charge == 0)

/-- A deferred entry at a present station whose token's account, of its service day or else of the next, holds a last unmatched exit no earlier than it and within the maximum journey time at a present station, repairs that exit: one Repair record under the exit's reference at the full pricing of the two, the gate told Recorded, no journey opened, the entry's account given the spent amount, a leg and a last exit, and the last unmatched cleared where it stood; every other account stands (R88, R91, R92, R94, R97, R105 to R108, log 39; that the verdict carries "cap reached" is the model's choice, log 46, and so is that the next tap is taken before the store falls free, log 44). -/
def Obligations.DeferredEntryRepairs : Prop :=
  ∀ (s : State) (x : SlotId) (tr : TapTransaction) (p : Policy) (day d : Nat) (home : AccountWay)
      (l : LastUnmatched) (paid : Pricing) (origin : StationTime) (soFar : Nat)
      (held : State × Option Nat),
    Granted s x tr → tr.entry.tap.direction = 1 → tr.entry.tap.deferred = true →
    (slotOf s x).tables.policy = some p →
    stationPresent (slotOf s x).tables tr.entry.tap.station = true →
    day = serviceDay s.mgmt.settings.rolloverMinute tr.tapTime →
    d = day ∨ d = day + 1 ∧ (∀ w k, findAccount s tr.entry.tap.token day = some w →
      w.account.lastUnmatched = some k → ¬ repairs (slotOf s x).tables p tr.tapTime k) →
    findAccount s tr.entry.tap.token d = some home → home.account.lastUnmatched = some l →
    repairs (slotOf s x).tables p tr.tapTime l →
    held = obtainAccount tr.entry.tap.token day s →
    fullPricing (fareContext s x) tr.entry.tap.fareClass tr.entry.tap.station tr.tapTime l.station
      tr.entry.tap.pass none (spentOf held.1 held.2) = some paid →
    paid.origin = some origin → paid.chargedSoFar = some soFar →
    ∃ u c, exec .reckonerGrant s = .next (releaseStore (takeTaps u))
      ∧ u = { s with
          linePort := u.linePort
          officePort := u.officePort
          verdictQueue := answeredQueue s.verdictQueue tr .go (some paid.charge) (some l.reference)
            paid.capReached paid.continued
          officeQueue := {
            frames := s.officeQueue.frames ++ [.record s.officeQueue.sequence c]
            setAside := s.officeQueue.setAside - 3
            sequence := (s.officeQueue.sequence + 1) % 256 }
          reckoner := none
          store := { s.store with
            accounts := (accountsWith held (Account.withExit paid.spentAfter {
              station := l.station
              exitTime := l.exitTime
              originStation := origin.station
              originTime := origin.time
              chargedSoFar := soFar
              nilSoFar := paid.charge == 0
              shownCharge := paid.charge
              reference := l.reference })).map (fun w =>
                if w.slot = home.slot ∧ w.account.lastUnmatched = some l
                then { w with account := { w.account with lastUnmatched := none } } else w)
            accountFullDay := held.1.store.accountFullDay }
          mgmt := { s.mgmt with
            counters := { s.mgmt.counters with repairs := bump s.mgmt.counters.repairs }
            events := held.1.mgmt.events } }
      ∧ c.kind = .repair ∧ c.reference = some l.reference ∧ c.related = some l.reference
      ∧ c.label = some p.label ∧ c.priced = some ⟨paid.distance, paid.charge, paid.shares⟩
      ∧ c.entry = some ⟨tr.entry.tap.station, tr.tapTime⟩ ∧ c.exit = some ⟨l.station, l.exitTime⟩
      ∧ c.flags.capUntracked = held.2.isNone
      ∧ c.flags.nilJourney = (held.2.isSome && paid.charge == 0)

/-- A granted tap transaction ends with at most three records, each with the tap as received and its marks, in three set-aside entries of which the unused return; the tap is answered exactly once, in its reserved place, unless it was answered late; a deferred tap is told Recorded without a charge, a live entry Go or Refused, and an exit is never refused; the Reckoner is Idle and the store released (R6, R7, R13, R14, R60, R79, R104; the next tap is taken before the store falls free, log 44). -/
def Obligations.TapTransactionEnds : Prop :=
  ∀ (s : State) (x : SlotId) (tr : TapTransaction), Granted s x tr → s.officeQueue.sequence ≤ 255 →
    ∃ (u : State) (records : List Record),
      exec .reckonerGrant s = .next (releaseStore (takeTaps u))
      ∧ records.length ≤ 3
      ∧ (∀ r ∈ records, r.tap = some ⟨tr.entry.tap.station, tr.entry.tap.gate,
            tr.entry.tap.direction, tr.entry.tap.gateTime, tr.entry.tap.tapNumber⟩
          ∧ (tr.entry.answeredLate = true → r.flags.answeredLate = true)
          ∧ (tr.entry.tap.deferred = true → r.flags.deferred = true)
          ∧ (tr.clamped = true → r.flags.timeClamped = true)
          ∧ r.madeSec = s.clock.sec ∧ r.madeMs = s.clock.ms
          ∧ r.flags.clockFreeRunning = (s.clock.state == .freeRunning))
      ∧ u.officeQueue.frames = s.officeQueue.frames
          ++ records.mapIdx (fun i r => .record ((s.officeQueue.sequence + i) % 256) r)
      ∧ u.officeQueue.setAside = s.officeQueue.setAside - 3
      ∧ u.officeQueue.sequence = (s.officeQueue.sequence + records.length) % 256
      ∧ (tr.entry.answeredLate = true → u.verdictQueue = s.verdictQueue)
      ∧ (tr.entry.answeredLate = false → ∃ v, u.verdictQueue = {
            frames := s.verdictQueue.frames ++ [v]
            reserved := s.verdictQueue.reserved - 1 }
          ∧ v.destination = tr.entry.tap.source ∧ v.sequence = tr.entry.tap.sequence
          ∧ v.gate = tr.entry.tap.gate ∧ v.tapNumber = tr.entry.tap.tapNumber
          ∧ (tr.entry.tap.deferred = true → v.answer.kind = .recorded ∧ v.answer.charge = none)
          ∧ (tr.entry.tap.deferred = false → tr.entry.tap.direction = 1 →
              v.answer.kind = .go ∨ v.answer.kind = .refused)
          ∧ (tr.entry.tap.deferred = false → tr.entry.tap.direction ≠ 1 →
              v.answer.kind = .go ∨ v.answer.kind = .goPending))
      ∧ u.reckoner = none ∧ u.tapQueue = s.tapQueue ∧ u.forwardQueue = s.forwardQueue
      ∧ u.clock = s.clock ∧ u.store.arbiter = s.store.arbiter
      ∧ u.store.grant = s.store.grant
      ∧ u.tables.denyList = s.tables.denyList ∧ u.tables.swapDue = s.tables.swapDue
      ∧ u.mgmt.requests = s.mgmt.requests ∧ u.mgmt.settings = s.mgmt.settings
      ∧ u.mgmt.service = s.mgmt.service
      ∧ u.sweep = { s.sweep with spillMode := u.sweep.spillMode }

/-- The deadline of an unanswered tap that has counted down to 0 answers the gate Fallback "late" in the tap's reserved place and sets its mark, the tap keeping its place in the Tap Queue or with the Reckoner; a tap whose deadline is not at 0, or that was answered late, is left alone (R5, R6). -/
def Obligations.DeadlineAnswersLate : Prop :=
  ∀ (s late : State) (e : TapEntry), s.rstnLow = false →
    late = { s with
      verdictQueue := {
        frames := s.verdictQueue.frames ++ [plainVerdict e.tap .fallback .late]
        reserved := s.verdictQueue.reserved - 1 }
      mgmt := { s.mgmt with counters := { s.mgmt.counters with
        fallbacksLate := bump s.mgmt.counters.fallbacksLate } } } →
    (∀ before after, s.tapQueue = before ++ e :: after →
      (e.deadline = 0 → e.answeredLate = false →
        ∃ t, exec (.answerDeadlineExpiry (.queued before.length)) s = .next t ∧ t = { late with
          linePort := t.linePort
          tapQueue := before ++ { e with answeredLate := true } :: after })
      ∧ (e.deadline ≠ 0 ∨ e.answeredLate = true →
        exec (.answerDeadlineExpiry (.queued before.length)) s = .next s))
    ∧ ∀ time clamped, s.reckoner = some ⟨e, time, clamped⟩ →
      (e.deadline = 0 → e.answeredLate = false →
        ∃ t, exec (.answerDeadlineExpiry .reckoner) s = .next t ∧ t = { late with
          linePort := t.linePort
          reckoner := some ⟨{ e with answeredLate := true }, time, clamped⟩ })
      ∧ (e.deadline ≠ 0 ∨ e.answeredLate = true →
        exec (.answerDeadlineExpiry .reckoner) s = .next s)

/-! ### The Housekeeping Sweep (R119 to R128) -/

/-- The Sweep requests the store when it has no request and an Office Queue entry is free, and not otherwise. In its grant it makes the one visit it decided on at the grant, resets if a RESTART was taken meanwhile, has its next request wait when an entry is free, and releases the store: an account visit, which frees an old record at the account cursor; or, given a free entry and nothing without one, a spill of the admission list's head, or a cursor visit that expires the journey at the cursor which was overdue at the grant, charged whole to its start owner, its account's last incomplete set and every other account left, its record with what it carries of the journey, "deferred" and "time clamped" among it. A closing raises Pressure On or Off and Generation Freed where they are due (R47, R62, R90, R91, R95, R120 to R128, R142, R159, R161, R165, logs 8, 17, 24, 25 and 31). A SWEEP_REQUEST or SWEEP_GRANT whose condition does not hold changes nothing (the model's choice, log 1). That the next request waits before the release's arbitration is read from 7.9 (log 44). -/
def Obligations.SweepVisits : Prop :=
  (∀ s : State, s.rstnLow = false → s.store.arbiter.sweepWaiting = false → holder s ≠ some .sweep →
      1 ≤ officeFree s → exec .sweepRequest s = .next (requestStore .sweep s))
  ∧ (∀ s : State, s.store.arbiter.sweepWaiting = true ∨ holder s = some .sweep ∨ officeFree s = 0 →
      exec .sweepRequest s = .next s)
  ∧ (∀ s : State, holder s ≠ some .sweep → exec .sweepGrant s = .next s)
  ∧ ∀ (s : State) (done : State → State), s.rstnLow = false → holder s = some .sweep →
      (∀ u v, v = (if s.sweep.resetAtRelease
          then { u with sweep := ⟨0, 0, false, false, .journey, false⟩ } else u) →
        done u = releaseStore (if 1 ≤ officeFree v then requestStore .sweep v else v)) →
      (AccountsSound s → s.store.grant.visit = .account →
        exec .sweepGrant s = .next (done { s with
          store := { s.store with accounts := s.store.accounts.filter (fun w =>
            !(w.slot == s.sweep.accountCursor
              && decide (w.account.day + 3 < s.store.grant.serviceDay))) }
          sweep := if s.store.grant.serviceDay < s.clock.serviceDay then s.sweep
            else if s.sweep.accountCursor = 32767
            then { s.sweep with accountCursor := 0, purgePending := false }
            else { s.sweep with accountCursor := s.sweep.accountCursor + 1 } }))
      ∧ (s.store.grant.visit ≠ .account → officeFree s = 0 →
        exec .sweepGrant s = .next (done s))
      ∧ (s.store.grant.visit = .spill → 1 ≤ officeFree s →
        (s.store.journeys = [] → exec .sweepGrant s = .next (done s))
        ∧ ∀ w rest, s.store.journeys = w :: rest → JourneysSound s →
          ∃ u c, exec .sweepGrant s = .next (done u)
            ∧ u = { s with
                officePort := u.officePort
                officeQueue := { s.officeQueue with
                  frames := s.officeQueue.frames ++ [.record s.officeQueue.sequence c]
                  sequence := (s.officeQueue.sequence + 1) % 256 }
                store := { s.store with journeys := rest }
                sweep := { s.sweep with spillMode := spillModeAt s rest.length }
                tables := { s.tables with slotA := u.tables.slotA, slotB := u.tables.slotB }
                mgmt := { s.mgmt with
                  counters := { s.mgmt.counters with spills := bump s.mgmt.counters.spills }
                  events := closingEvents s w.journey.tag rest.length s.mgmt.events } }
            ∧ SpillsJourney s w.journey c ∧ CarriesMarks w.journey false false c)
      ∧ (s.store.grant.visit = .cursor → 1 ≤ officeFree s →
        ((∀ w ∈ s.store.journeys, w.slot = s.sweep.journeyCursor →
            s.store.grant.sec < w.journey.deadline) →
          exec .sweepGrant s = .next (done { s with sweep := { s.sweep with
            journeyCursor := (s.sweep.journeyCursor + 1) % 16384 } }))
        ∧ ∀ (w : JourneyWay) (held : State × Option Nat) (charge : Nat), JourneysSound s →
          w ∈ s.store.journeys → w.slot = s.sweep.journeyCursor →
          w.journey.deadline ≤ s.store.grant.sec →
          held = obtainAccount w.journey.token (serviceDay s.mgmt.settings.rolloverMinute
            ((w.journey.continuation.map Continuation.originTime).getD w.journey.entryTime)) s →
          charge = incompleteCharge (fareContext s w.journey.tag) w.journey.fareClass
            w.journey.entryTime w.journey.continuation →
          ∃ u c, exec .sweepGrant s = .next (done u)
            ∧ u = { s with
                officePort := u.officePort
                officeQueue := { s.officeQueue with
                  frames := s.officeQueue.frames ++ [.record s.officeQueue.sequence c]
                  sequence := (s.officeQueue.sequence + 1) % 256 }
                store := { s.store with
                  journeys := s.store.journeys.filter (fun v => v.slot != w.slot)
                  accounts := accountsWith held (Account.withIncomplete {
                    entryStation := w.journey.entryStation
                    entryTime := w.journey.entryTime
                    fareClass := w.journey.fareClass
                    charge := charge
                    reference := w.journey.reference })
                  accountFullDay := held.1.store.accountFullDay }
                sweep := { s.sweep with
                  spillMode := spillModeAt s (s.store.journeys.length - 1)
                  journeyCursor := (s.sweep.journeyCursor + 1) % 16384 }
                tables := { s.tables with slotA := u.tables.slotA, slotB := u.tables.slotB }
                mgmt := { s.mgmt with
                  counters := { s.mgmt.counters with
                    incomplete := bump s.mgmt.counters.incomplete }
                  events := closingEvents s w.journey.tag (s.store.journeys.length - 1)
                    held.1.mgmt.events } }
            ∧ c.kind = .incomplete ∧ CarriesJourney s w.journey c
            ∧ CarriesMarks w.journey false false c ∧ c.exit = none
            ∧ c.flags.capUntracked = held.2.isNone
            ∧ c.priced = some ⟨0, charge, [⟨incompleteOwner (slotOf s w.journey.tag).tables
              w.journey.entryStation w.journey.continuation, charge⟩]⟩)

/-! ### The Line Clock (R5, R148 to R156) -/

/-- A raw tick moves line time one millisecond, one more for each insertion and one less for each hold that the trim or a due slew asks of it, never past the last moment; the trim accumulator, the slew remainder, the holdover count and the local elapsed count move as their rules say, every running answer deadline counts down by the milliseconds line time moved, and at a second boundary the slew falls due, the service day is reckoned and a Pending activation whose effective time has come is fired, so that its swap is due (R5, R148, R149, R152 to R154, R156, R157, logs 15, 21 and 22). The end of the slew, the holdover's expiry and the swap are rows of their own, so the clock state stands and no swap is made here (the model's choice, log 7). -/
def Obligations.RawTickAdvancesLineTime : Prop :=
  ∀ (s : State) (sum trim slew work slewLeft : Int) (now after : Nat) (last hold : Bool),
    s.rstnLow = false → s.clock.ms ≤ 999 →
    sum = s.clock.accumulator + s.clock.trim → now = s.clock.sec * 1000 + s.clock.ms →
    last = decide (4294967295999 ≤ now) →
    trim = (if 1000000 ≤ sum then 1 else if sum ≤ -1000000 then -1 else 0) →
    hold = (s.clock.slewDue && decide (s.clock.slew < 0) && decide (trim = -1)) →
    work = (if s.clock.slewDue = false ∨ hold = true then 0 else Int.sign s.clock.slew) →
    slew = (if last then 0 else work) → slewLeft = s.clock.slew - slew →
    (after : Int) = (if last then (now : Int) else min ((now : Int) + 1 + trim + slew) 4294967295999) →
    ∃ t, exec .rawTick s = .next t
      ∧ t = { s with
          clock := { s.clock with
            sec := after / 1000
            ms := after % 1000
            slew := slewLeft
            slewDue := (if after / 1000 ≠ s.clock.sec then decide (slewLeft ≠ 0) else false)
              || (if last then s.clock.slewDue else hold)
            accumulator := sum - trim * 1000000
            rate := t.clock.rate
            holdover := min (s.clock.holdover + 1) Config.holdoverMax
            serviceDay := t.clock.serviceDay }
          tapQueue := s.tapQueue.map (fun e =>
            if e.answeredLate then e else { e with deadline := e.deadline - (after - now) })
          reckoner := s.reckoner.map (fun r => { r with entry :=
            if r.entry.answeredLate then r.entry
            else { r.entry with deadline := r.entry.deadline - (after - now) } })
          sweep := t.sweep
          tables := { s.tables with
            swapDue := if after / 1000 ≠ s.clock.sec then swapDueAt s (after / 1000)
              else s.tables.swapDue }
          mgmt := { s.mgmt with events := t.mgmt.events } }
      ∧ (∀ m, s.clock.rate = some m → ∃ n, t.clock.rate = some ⟨m.reference, m.officeElapsed, n⟩
          ∧ (n : Int) = (m.localElapsed : Int) + 1 + (if last then min trim 0 else trim))
      ∧ (s.clock.rate = none → t.clock.rate = none)
      ∧ (after / 1000 = s.clock.sec → t.clock.serviceDay = s.clock.serviceDay ∧ t.sweep = s.sweep
          ∧ t.mgmt.events = s.mgmt.events)
      ∧ (after / 1000 ≠ s.clock.sec →
          t.clock.serviceDay = serviceDay s.mgmt.settings.rolloverMinute (after / 1000)
          ∧ (s.clock.serviceDay < t.clock.serviceDay →
              t.sweep = { s.sweep with purgePending := true, accountCursor := 0, turn := .account }
              ∧ t.mgmt.events = raiseIn .dayRollover (.day t.clock.serviceDay) (after / 1000)
                (after % 1000) s.mgmt.events)
          ∧ (t.clock.serviceDay ≤ s.clock.serviceDay →
              t.sweep = s.sweep ∧ t.mgmt.events = s.mgmt.events))

/-- Line time never runs back in ordinary service: no command but a Time Mark and the pin reset moves it back, and none but those and a raw tick moves it at all (R148, R151). -/
def Obligations.LineTimeNeverRunsBack : Prop :=
  ∀ (c : Instr) (s t : State), exec c s = .next t → c ≠ .timeMark → (∀ straps, c ≠ .pinReset straps) →
    s.clock.lineMs ≤ t.clock.lineMs
    ∧ (c ≠ .rawTick → t.clock.sec = s.clock.sec ∧ t.clock.ms = s.clock.ms)

/-- SLEW_COMPLETE makes a Slewing clock whose remainder is 0 Locked, and HOLDOVER_EXPIRY a Locked or Slewing clock whose holdover count has reached the setting Free-running, each with its event; otherwise neither changes anything (R150, R152, R153, log 7). -/
def Obligations.ClockStateChanges : Prop :=
  (∀ s : State, s.rstnLow = false → s.clock.state = .slewing → s.clock.slew = 0 →
      exec .slewComplete s = .next { s with
        clock := { s.clock with state := .locked }
        mgmt := { s.mgmt with
          events := raiseIn .clockLocked .nothing s.clock.sec s.clock.ms s.mgmt.events } })
  ∧ (∀ s : State, s.clock.state ≠ .slewing ∨ s.clock.slew ≠ 0 → exec .slewComplete s = .next s)
  ∧ (∀ s : State, s.rstnLow = false → s.clock.state = .locked ∨ s.clock.state = .slewing →
      s.mgmt.settings.holdover * 1000 ≤ s.clock.holdover →
      exec .holdoverExpiry s = .next { s with
        clock := { s.clock with state := .freeRunning }
        mgmt := { s.mgmt with
          events := raiseIn .clockFreeRunning .nothing s.clock.sec s.clock.ms s.mgmt.events } })
  ∧ ∀ s : State, s.clock.state = .unset ∨ s.clock.state = .freeRunning
      ∨ s.clock.holdover < s.mgmt.settings.holdover * 1000 → exec .holdoverExpiry s = .next s

/-- The service day and the minute of service day of a time under a rollover minute, their ranges, and the day of the week of a service day; the time factor and the account keys reckon them this way, with the rollover minute in force (R155). -/
def Obligations.ServiceDayReckoned : Prop :=
  ∀ r s : Nat, r ≤ 1439 → s ≤ 4294967295 →
    (r * 60 ≤ s → serviceDay r s = (s - r * 60) / 86400
      ∧ serviceMinute r s = ((s - r * 60) % 86400) / 60)
    ∧ (s < r * 60 → serviceDay r s = 0 ∧ serviceMinute r s = (s + 86400 - r * 60) / 60)
    ∧ serviceDay r s ≤ 49710 ∧ serviceMinute r s ≤ 1439
    ∧ (∀ day, dayOfWeek day = day % 7)
    ∧ (∀ t : Tables, timeFactor t r s
        = bandFactor (bandList t (dayType t (serviceDay r s))) (serviceMinute r s))
    ∧ ∀ (t : State) (j : Journey), t.mgmt.settings.rolloverMinute = r →
      dayOf t s = serviceDay r s
      ∧ journeyDay t j = serviceDay r ((j.continuation.map Continuation.originTime).getD j.entryTime)

/-! ### Fares and accounts (R43, R44, R52 to R57, R86 to R91) -/

/-- The path between two stations, its distance, the length a pass covers, a path reckoning, the on-path test, and the absent stations it names (R23 to R27, R29 to R33); the band of stage 1; the day type of a service day, a used exception before the Week table, its list of eight change points and the factor of the last used one at or below the minute; the start owner of an incomplete pricing; stage 4 rounds the product to the nearest multiple of the fare step, an exact half upward; stage 5 raises a chargeable fare of a class of the minimum to it and holds every fare at 65,535; stage 6 takes off what an applied continuation has paid; stage 7 charges no more than the cap leaves and reports "cap reached" exactly when a tracked account of a capped class stands at or above the cap after it; the full pricing and the incomplete charge put these together (R37, R40, R41, R43, R44, R47, R49 to R54, R57, R58, R132, R158; what the Path Unit reads of a generation that no validation has passed is the model's choice, log 29). -/
def Obligations.FareRoundedAndCapped : Prop :=
  (∀ (t : Tables) (a b : Nat) (leg : StationEntry → List Interval) (at_ : StationEntry → Nat),
    (∀ v, leg v = if v.branch = 0 then [] else [⟨v.branch, 0, v.chainage⟩]) →
    (∀ v, (v.branch = 0 → at_ v = v.chainage) ∧ (v.branch ≠ 0 → ∀ j e,
      (branchEntry t v.branch).junction = some j → t.stations[j]? = some e → at_ v = e.chainage)) →
    (∀ v ∈ presentStation t a, ∀ w ∈ presentStation t b,
      (v.branch = w.branch → pathBetween t a b
        = .ok [⟨v.branch, min v.chainage w.chainage, max v.chainage w.chainage⟩])
      ∧ (v.branch ≠ w.branch →
        (∀ u ∈ [v, w], u.branch ≠ 0 → ∃ j e, (branchEntry t u.branch).junction = some j
          ∧ t.stations[j]? = some e) →
        pathBetween t a b = .ok (⟨0, min (at_ v) (at_ w), max (at_ v) (at_ w)⟩
          :: (if v.branch < w.branch then leg v ++ leg w else leg w ++ leg v))))
    ∧ (presentStation t a = none → (presentStation t b).isSome → pathBetween t a b = .error .start)
    ∧ ((presentStation t a).isSome → presentStation t b = none → pathBetween t a b = .error .finish)
    ∧ (presentStation t a = none → presentStation t b = none → pathBetween t a b = .error .both)
    ∧ (∀ d, dist t a b = some d ↔ ∃ path, pathBetween t a b = .ok path
      ∧ d = (path.map (fun i => i.high - i.low)).sum)
    ∧ (∀ x, onPath t a x b = true ↔ ∃ m n d, dist t a x = some m ∧ dist t x b = some n
      ∧ dist t a b = some d ∧ m + n = d)
    ∧ ∀ (pass : Option Pass) (day : Nat) (valid : Pass → Prop) (cover : List Interval)
        (reckon : Interval → BranchReckoning),
      (∀ q, valid q ↔ stationPresent t q.fromStation = true ∧ stationPresent t q.toStation = true
        ∧ day ≤ q.lastDay) →
      (∀ q, pass = some q → valid q → pathBetween t q.fromStation q.toStation = .ok cover) →
      (∀ q, pass = some q → ¬ valid q → cover = []) → (pass = none → cover = []) →
      (∀ i, reckon i = {
        interval := i
        covered := coveredLength i cover
        chargeable := i.high - i.low - coveredLength i cover
        owner := (branchEntry t i.branch).owner }) →
      (∀ path v, pathBetween t a b = .ok path → presentStation t a = some v →
        ∃ outcome, reckonPath t a b pass day = .ok {
          branches := path.map reckon
          raw := (path.map (fun i => i.high - i.low)).sum
          chargeable := (path.map (fun i => (reckon i).chargeable)).sum
          startOwner := (branchEntry t v.branch).owner
          pass := outcome }
        ∧ (outcome = .applied ↔ ∃ q, pass = some q ∧ valid q)
        ∧ (outcome = .none ↔ pass = none))
      ∧ ∀ e, pathBetween t a b = .error e → reckonPath t a b pass day = .error e)
  ∧ (∀ (i : Interval) (cover : List Interval),
    ((∀ k ∈ cover, k.branch ≠ i.branch) → coveredLength i cover = 0)
    ∧ ∀ before k after, cover = before ++ k :: after → (∀ q ∈ before, q.branch ≠ i.branch) →
      k.branch = i.branch → coveredLength i cover = min i.high k.high - max i.low k.low)
  ∧ (∀ (t : Tables) (d : Nat) (before after : List ScaleEntry) (e : ScaleEntry),
    t.scale = before ++ e :: after → (∀ v ∈ before, v.bound ≠ 65535) →
    (e.bound = 65535 → topFare t = e.fare) ∧ scaleFare t 0 = 0
    ∧ (0 < d → (∀ v ∈ before, v.bound < d) → e.bound = 65535 ∨ d ≤ e.bound → scaleFare t d = e.fare))
  ∧ (∀ (t : Tables) (day : Nat),
    ((∀ e ∈ t.exceptions, ¬ (e.used = true ∧ e.day = day)) →
      ∀ k, t.week[day % 7]? = some k → dayType t day = k)
    ∧ ∀ before e after, t.exceptions = before ++ e :: after → e.used = true → e.day = day →
      (∀ v ∈ before, ¬ (v.used = true ∧ v.day = day)) → dayType t day = e.dayType)
  ∧ (∀ (t : Tables) (k i : Nat), i < 8 → (bandList t k)[i]? = t.bands[k * 8 + i]?)
  ∧ (∀ (t : Tables) (k : Nat), (bandList t k).length ≤ 8)
  ∧ (∀ (before after : List BandEntry) (e : BandEntry) (minute : Nat), e.used = true →
    e.minute ≤ minute → (∀ v ∈ after, v.used = false ∨ minute < v.minute) →
    bandFactor (before ++ e :: after) minute = e.factor)
  ∧ (∀ (t : Tables) (rollover sec : Nat), timeFactor t rollover sec = bandFactor
    (bandList t (dayType t (serviceDay rollover sec))) (serviceMinute rollover sec))
  ∧ (∀ (t : Tables) (station : Nat),
    (∀ v, t.stations[station]? = some v → stationOwner t station = (branchEntry t v.branch).owner)
    ∧ incompleteOwner t station none = stationOwner t station
    ∧ ∀ c, incompleteOwner t station (some c)
      = stationOwner t (if stationPresent t c.originStation = true then c.originStation else station))
  ∧ (∀ step product : Nat, 1 ≤ step → ∃ k, roundToStep step product = step * k
      ∧ step * k * 1000000 ≤ product + step * 500000
      ∧ product + step * 500000 < step * (k + 1) * 1000000)
  ∧ (∀ (t : Tables) (p : Policy) (band time d f : Nat) (c : ClassEntry), t.policy = some p →
      f = roundToStep p.fareStep (band * time * c.factor) →
      (0 < d → 0 < c.factor → c.minimumApplies = true →
        factoredFare t band time c d = min (max f p.minimumFare) 65535)
      ∧ (d = 0 ∨ c.factor = 0 ∨ c.minimumApplies = false →
        factoredFare t band time c d = min f 65535))
  ∧ (∀ cap fare spent : Nat,
      capCharge cap fare none = ⟨fare, none, false, true⟩
      ∧ capCharge 0 fare (some spent) = ⟨fare, some (min (spent + fare) 65535), false, false⟩
      ∧ (0 < cap → ∀ charge, charge = min fare (cap - spent) →
        capCharge cap fare (some spent)
          = ⟨charge, some (spent + charge), decide (cap ≤ spent + charge), false⟩))
  ∧ (∀ (g : FareContext) (fareClass station time exit : Nat) (pass : Option Pass)
      (part applied : Option Continuation) (account : Option Nat) (origin : StationTime)
      (already : Nat),
    (∀ c, part = some c → applied = (if onPath g.tables c.originStation station exit = true then part else none)) →
    (part = none → applied = none) →
    (∀ c, applied = some c → origin = ⟨c.originStation, c.originTime⟩ ∧ already = c.charged) →
    (applied = none → origin = ⟨station, time⟩ ∧ already = 0) →
    (∀ path paid, reckonPath g.tables origin.station exit pass (serviceDay g.rollover origin.time)
        = .ok path →
      paid = capCharge (classEntry g.tables fareClass).cap
        (factoredFare g.tables (scaleFare g.tables path.chargeable)
          (timeFactor g.tables g.rollover origin.time) (classEntry g.tables fareClass) path.chargeable
          - already) account →
      fullPricing g fareClass station time exit pass part account = some {
        charge := paid.charge
        distance := path.chargeable
        shares := dealShares path.branches path.chargeable path.startOwner paid.charge
        spentAfter := paid.spentAfter
        origin := some origin
        chargedSoFar := some (min (already + paid.charge) 65535)
        passIgnored := decide (path.pass = .ignored)
        continued := applied.isSome
        continuationNotApplied := part.isSome && applied.isNone
        capReached := paid.capReached
        capUntracked := paid.capUntracked })
    ∧ ∀ e, reckonPath g.tables origin.station exit pass (serviceDay g.rollover origin.time) = .error e →
      fullPricing g fareClass station time exit pass part account = none)
  ∧ ∀ (g : FareContext) (p : Policy) (fareClass time : Nat) (part : Option Continuation),
    g.tables.policy = some p → incompleteCharge g fareClass time part
      = min (roundToStep p.fareStep (topFare g.tables
          * timeFactor g.tables g.rollover ((part.map Continuation.originTime).getD time)
          * (classEntry g.tables fareClass).factor)) 65535

/-- The shares of a charge sum to it exactly; one operator takes the whole of a charge of 0 or of a journey without chargeable length; otherwise the operators of weight stand in ascending order, and each takes its exact part rounded down or up, the remaining cents going to the greatest remainders and among equals to the lowest numbers (R55 to R57). -/
def Obligations.SharesSumToCharge : Prop :=
  ∀ (branches : List BranchReckoning) (d start charge : Nat),
    d = (branches.map BranchReckoning.chargeable).sum → (∀ b ∈ branches, b.owner ≤ 3) →
    ((dealShares branches d start charge).map Share.amount).sum = charge
    ∧ (charge = 0 ∨ d = 0 → dealShares branches d start charge = [⟨start, charge⟩])
    ∧ (charge ≠ 0 → d ≠ 0 →
      ((dealShares branches d start charge).map Share.operator).Pairwise (· < ·)
      ∧ (∀ k, (∃ v ∈ dealShares branches d start charge, v.operator = k)
          ↔ 0 < operatorWeight branches k)
      ∧ (∀ v ∈ dealShares branches d start charge,
          v.amount = charge * operatorWeight branches v.operator / d
          ∨ v.amount = charge * operatorWeight branches v.operator / d + 1)
      ∧ ∀ v ∈ dealShares branches d start charge, ∀ w ∈ dealShares branches d start charge,
          v.amount = charge * operatorWeight branches v.operator / d + 1 →
          w.amount = charge * operatorWeight branches w.operator / d →
          charge * operatorWeight branches w.operator % d
            < charge * operatorWeight branches v.operator % d
          ∨ charge * operatorWeight branches w.operator % d
              = charge * operatorWeight branches v.operator % d ∧ v.operator < w.operator)

/-- A token's set of accounts is the exclusive OR of its five groups of bits. Work that writes an account takes the one held; else it creates one, fresh, in the lowest free way of the token's set, or in place of the set's oldest record of a service day more than 3 before the current one; where neither is to be had the account is untracked, nothing is held, and Account Full is raised once in a service day. The current service day is the one read at the grant (R86, R88 to R91, R156, log 8; that Account Full carries that day is the model's choice, log 42). -/
def Obligations.AccountObtained : Prop :=
  (∀ (token : Token) (k : Nat), k = token.toNat → accountSet token
    = k % 2 ^ 13 ^^^ k / 2 ^ 13 % 2 ^ 13 ^^^ k / 2 ^ 26 % 2 ^ 13 ^^^ k / 2 ^ 39 % 2 ^ 13 ^^^ k / 2 ^ 52)
  ∧ ∀ (s : State) (token : Token) (day : Nat), AccountsSound s →
    (∀ w ∈ s.store.accounts, w.account.token = token → w.account.day = day →
      obtainAccount token day s = (s, some w.slot))
    ∧ ((∀ w ∈ s.store.accounts, ¬ (w.account.token = token ∧ w.account.day = day)) →
      (∀ n, n / 4 = accountSet token → (∀ w ∈ s.store.accounts, w.slot ≠ n) →
        (∀ m < n, m / 4 = accountSet token → ∃ w ∈ s.store.accounts, w.slot = m) →
        ∃ l, obtainAccount token day s
            = ({ s with store := { s.store with accounts := l } }, some n)
          ∧ (∀ w, w ∈ l ↔ w ∈ s.store.accounts ∨ w = ⟨n, ⟨token, day, 0, 0, none, none, none⟩⟩)
          ∧ (l.map AccountWay.slot).Pairwise (· < ·))
      ∧ ((∀ m, m / 4 = accountSet token → ∃ w ∈ s.store.accounts, w.slot = m) →
        (∀ v ∈ s.store.accounts, v.slot / 4 = accountSet token →
          v.account.day + 3 < s.store.grant.serviceDay →
          (∀ w ∈ s.store.accounts, w.slot / 4 = accountSet token →
            w.account.day + 3 < s.store.grant.serviceDay →
            v.account.day < w.account.day ∨ v.account.day = w.account.day ∧ v.slot ≤ w.slot) →
          ∃ l, obtainAccount token day s
              = ({ s with store := { s.store with accounts := l } }, some v.slot)
            ∧ (∀ w, w ∈ l ↔ (w ∈ s.store.accounts ∧ w.slot ≠ v.slot)
              ∨ w = ⟨v.slot, ⟨token, day, 0, 0, none, none, none⟩⟩)
            ∧ (l.map AccountWay.slot).Pairwise (· < ·))
        ∧ ((∀ w ∈ s.store.accounts, w.slot / 4 = accountSet token →
            s.store.grant.serviceDay ≤ w.account.day + 3) →
          (s.store.accountFullDay = some s.store.grant.serviceDay →
            obtainAccount token day s = (s, none))
          ∧ (s.store.accountFullDay ≠ some s.store.grant.serviceDay →
            obtainAccount token day s = ({ s with
              store := { s.store with accountFullDay := some s.store.grant.serviceDay }
              mgmt := { s.mgmt with
                events := raiseIn .accountFull (.day s.store.grant.serviceDay) s.clock.sec s.clock.ms
                  s.mgmt.events } }, none)))))

/-! ### Laws that every step keeps -/

/-- Every step keeps the law of the verdict places: frames and reserved places never exceed 128, and one place is reserved for each accepted tap not yet answered (R2, R4). -/
def Obligations.VerdictPlacesKept : Prop := Kept TapPathSound

/-- Every step keeps the law of the Office Queue's set-aside entries and of the requests for the Journey Store: every set-aside entry has its holder, and each requester's one request waits or holds the store exactly while its work is outstanding (R60, R162, R174, R176). -/
def Obligations.SetAsideEntriesKept : Prop := Kept (fun s => OfficeSound s ∧ RequestersSound s)

/-- Every step keeps the transmitters' law: what is being sent is the frame at the head of its queue, under a link that is Up, and none waits while its transmitter could send it. A forwarded frame that was being sent when RESTART emptied the Forward Queue stands in no queue and is finished all the same (R15, R164, R169, R172, log 20). -/
def Obligations.TransmittersKept : Prop := Kept TransmittersSound

/-- A token's set of journeys is the exclusive OR of its six groups of bits; every step keeps the tables of journeys sound, each journey in that set, and each slot's reference count equal to the number of open journeys tagged with it. So the last closing of a Retiring slot's journeys makes the slot Free and empties it, and raises Generation Freed with the slot and its old label (R64, R67, R142; said where the other slot is not Retiring too, as in every state that a run reaches). -/
def Obligations.ReferenceCountsKept : Prop :=
  (∀ (token : Token) (k : Nat), k = token.toNat → journeySet token
    = k % 2 ^ 12 ^^^ k / 2 ^ 12 % 2 ^ 12 ^^^ k / 2 ^ 24 % 2 ^ 12 ^^^ k / 2 ^ 36 % 2 ^ 12
      ^^^ k / 2 ^ 48 % 2 ^ 12 ^^^ k / 2 ^ 60)
  ∧ Kept CountsSound
  ∧ ∀ (s t : State) (x : SlotId), CountsSound s → (slotOf s x).state = .retiring →
    (slotOf s x.other).state ≠ .retiring → (∀ straps, s.pending.head? ≠ some (.pinReset straps)) →
    step s = .next t → tagged t x = 0 →
    slotOf t x = { state := .free, tables := Tables.emptied, refCount := 0, effective := none }
    ∧ ∃ e ∈ t.mgmt.events, e.kind = .generationFreed
      ∧ e.data = .generation x (((slotOf s x).label).getD 0)

/-- Every step keeps the Day Account Table sound: ways ascending, each record in its token's set, no two of one token and service day, legs priced at most 255 (R85, R86, R92). -/
def Obligations.AccountsKept : Prop := Kept AccountsSound

/-- Every step keeps the bounds of the Forward Queue, the arbiter's counts, the journey reference, the Sweep's cursors, the slots' states, the Deny List, the Line Clock, the counters, the pending events and the run settings (R61, R68, R119, R134, R145, R148, R149, R153, R165, R166, R169, R171, R177). -/
def Obligations.BoundsKept : Prop :=
  Kept ForwardSound ∧ Kept ArbiterSound ∧ Kept ReferenceSound ∧ Kept SweepSound ∧ Kept SlotsSound
    ∧ Kept DenyListSound ∧ Kept ClockSound ∧ Kept CountersSound ∧ Kept EventsSound
    ∧ Kept (fun s => s.mgmt.settings.inRange)

end
end

