-- ==== Sys2Proof/Laws/State.lean ====
section
/-! SUPPORT. What each update of the state leaves and changes, field by field: true by unfolding, for simp, so that no later proof unfolds a record update. -/

namespace Sys2Proof.Machine

/-- A count changes the counters and nothing else (R166). -/
@[simp] theorem count_frame (f : Counters → Counters) (s : State) :
    (count f s).rstnLow = s.rstnLow ∧ (count f s).nodeAddress = s.nodeAddress
    ∧ (count f s).linePort = s.linePort ∧ (count f s).officePort = s.officePort
    ∧ (count f s).tapQueue = s.tapQueue ∧ (count f s).verdictQueue = s.verdictQueue
    ∧ (count f s).forwardQueue = s.forwardQueue ∧ (count f s).officeQueue = s.officeQueue
    ∧ (count f s).reckoner = s.reckoner ∧ (count f s).store = s.store
    ∧ (count f s).sweep = s.sweep ∧ (count f s).tables = s.tables ∧ (count f s).clock = s.clock
    ∧ (count f s).freeIndex = s.freeIndex ∧ (count f s).pending = s.pending :=
  ⟨rfl, rfl, rfl, rfl, rfl, rfl, rfl, rfl, rfl, rfl, rfl, rfl, rfl, rfl, rfl⟩

@[simp] theorem count_mgmt (f : Counters → Counters) (s : State) :
    (count f s).mgmt = { s.mgmt with counters := f s.mgmt.counters } :=
  rfl

/-- An event raised changes the pending events and nothing else (R165). -/
@[simp] theorem raise_frame (k : EventKind) (d : EventData) (s : State) :
    (raise k d s).rstnLow = s.rstnLow ∧ (raise k d s).nodeAddress = s.nodeAddress
    ∧ (raise k d s).linePort = s.linePort ∧ (raise k d s).officePort = s.officePort
    ∧ (raise k d s).tapQueue = s.tapQueue ∧ (raise k d s).verdictQueue = s.verdictQueue
    ∧ (raise k d s).forwardQueue = s.forwardQueue ∧ (raise k d s).officeQueue = s.officeQueue
    ∧ (raise k d s).reckoner = s.reckoner ∧ (raise k d s).store = s.store
    ∧ (raise k d s).sweep = s.sweep ∧ (raise k d s).tables = s.tables
    ∧ (raise k d s).clock = s.clock ∧ (raise k d s).freeIndex = s.freeIndex
    ∧ (raise k d s).pending = s.pending :=
  ⟨rfl, rfl, rfl, rfl, rfl, rfl, rfl, rfl, rfl, rfl, rfl, rfl, rfl, rfl, rfl⟩

@[simp] theorem raise_mgmt (k : EventKind) (d : EventData) (s : State) :
    (raise k d s).mgmt = { s.mgmt with events := raiseIn k d s.clock.sec s.clock.ms s.mgmt.events } :=
  rfl

/-- A reserved place is one more in the Verdict Queue's count (R2). -/
@[simp] theorem reservePlace_frame (s : State) :
    (reservePlace s).rstnLow = s.rstnLow ∧ (reservePlace s).nodeAddress = s.nodeAddress
    ∧ (reservePlace s).linePort = s.linePort ∧ (reservePlace s).officePort = s.officePort
    ∧ (reservePlace s).tapQueue = s.tapQueue ∧ (reservePlace s).forwardQueue = s.forwardQueue
    ∧ (reservePlace s).officeQueue = s.officeQueue ∧ (reservePlace s).reckoner = s.reckoner
    ∧ (reservePlace s).store = s.store ∧ (reservePlace s).sweep = s.sweep
    ∧ (reservePlace s).tables = s.tables ∧ (reservePlace s).clock = s.clock
    ∧ (reservePlace s).mgmt = s.mgmt ∧ (reservePlace s).freeIndex = s.freeIndex
    ∧ (reservePlace s).pending = s.pending :=
  ⟨rfl, rfl, rfl, rfl, rfl, rfl, rfl, rfl, rfl, rfl, rfl, rfl, rfl, rfl, rfl⟩

@[simp] theorem reservePlace_verdictQueue (s : State) :
    (reservePlace s).verdictQueue = { s.verdictQueue with reserved := s.verdictQueue.reserved + 1 } :=
  rfl

/-- Entries set aside change the Office Queue's count and nothing else (R162). -/
@[simp] theorem setAside_frame (n : Nat) (s : State) :
    (setAside n s).rstnLow = s.rstnLow ∧ (setAside n s).nodeAddress = s.nodeAddress
    ∧ (setAside n s).linePort = s.linePort ∧ (setAside n s).officePort = s.officePort
    ∧ (setAside n s).tapQueue = s.tapQueue ∧ (setAside n s).verdictQueue = s.verdictQueue
    ∧ (setAside n s).forwardQueue = s.forwardQueue ∧ (setAside n s).reckoner = s.reckoner
    ∧ (setAside n s).store = s.store ∧ (setAside n s).sweep = s.sweep
    ∧ (setAside n s).tables = s.tables ∧ (setAside n s).clock = s.clock
    ∧ (setAside n s).mgmt = s.mgmt ∧ (setAside n s).freeIndex = s.freeIndex
    ∧ (setAside n s).pending = s.pending :=
  ⟨rfl, rfl, rfl, rfl, rfl, rfl, rfl, rfl, rfl, rfl, rfl, rfl, rfl, rfl, rfl⟩

@[simp] theorem setAside_officeQueue (n : Nat) (s : State) :
    (setAside n s).officeQueue = { s.officeQueue with setAside := s.officeQueue.setAside + n } :=
  rfl

/-- Entries returned change the Office Queue's count and nothing else (R162). -/
@[simp] theorem returnAside_frame (n : Nat) (s : State) :
    (returnAside n s).rstnLow = s.rstnLow ∧ (returnAside n s).nodeAddress = s.nodeAddress
    ∧ (returnAside n s).linePort = s.linePort ∧ (returnAside n s).officePort = s.officePort
    ∧ (returnAside n s).tapQueue = s.tapQueue ∧ (returnAside n s).verdictQueue = s.verdictQueue
    ∧ (returnAside n s).forwardQueue = s.forwardQueue ∧ (returnAside n s).reckoner = s.reckoner
    ∧ (returnAside n s).store = s.store ∧ (returnAside n s).sweep = s.sweep
    ∧ (returnAside n s).tables = s.tables ∧ (returnAside n s).clock = s.clock
    ∧ (returnAside n s).mgmt = s.mgmt ∧ (returnAside n s).freeIndex = s.freeIndex
    ∧ (returnAside n s).pending = s.pending :=
  ⟨rfl, rfl, rfl, rfl, rfl, rfl, rfl, rfl, rfl, rfl, rfl, rfl, rfl, rfl, rfl⟩

@[simp] theorem returnAside_officeQueue (n : Nat) (s : State) :
    (returnAside n s).officeQueue = { s.officeQueue with setAside := s.officeQueue.setAside - n } :=
  rfl

/-- The office sequence count advances alone (R171). -/
@[simp] theorem advanceSequence_frame (s : State) :
    (advanceSequence s).rstnLow = s.rstnLow ∧ (advanceSequence s).nodeAddress = s.nodeAddress
    ∧ (advanceSequence s).linePort = s.linePort ∧ (advanceSequence s).officePort = s.officePort
    ∧ (advanceSequence s).tapQueue = s.tapQueue
    ∧ (advanceSequence s).verdictQueue = s.verdictQueue
    ∧ (advanceSequence s).forwardQueue = s.forwardQueue
    ∧ (advanceSequence s).reckoner = s.reckoner ∧ (advanceSequence s).store = s.store
    ∧ (advanceSequence s).sweep = s.sweep ∧ (advanceSequence s).tables = s.tables
    ∧ (advanceSequence s).clock = s.clock ∧ (advanceSequence s).mgmt = s.mgmt
    ∧ (advanceSequence s).freeIndex = s.freeIndex ∧ (advanceSequence s).pending = s.pending :=
  ⟨rfl, rfl, rfl, rfl, rfl, rfl, rfl, rfl, rfl, rfl, rfl, rfl, rfl, rfl, rfl⟩

@[simp] theorem advanceSequence_officeQueue (s : State) :
    (advanceSequence s).officeQueue = { s.officeQueue with sequence := (s.officeQueue.sequence + 1) % 256 } :=
  rfl

/-- A change of the arbiter changes nothing else (R61). -/
@[simp] theorem onArbiter_frame (f : Arbiter → Arbiter) (s : State) :
    (onArbiter f s).rstnLow = s.rstnLow ∧ (onArbiter f s).nodeAddress = s.nodeAddress
    ∧ (onArbiter f s).linePort = s.linePort ∧ (onArbiter f s).officePort = s.officePort
    ∧ (onArbiter f s).tapQueue = s.tapQueue ∧ (onArbiter f s).verdictQueue = s.verdictQueue
    ∧ (onArbiter f s).forwardQueue = s.forwardQueue ∧ (onArbiter f s).officeQueue = s.officeQueue
    ∧ (onArbiter f s).reckoner = s.reckoner ∧ (onArbiter f s).sweep = s.sweep
    ∧ (onArbiter f s).tables = s.tables ∧ (onArbiter f s).clock = s.clock
    ∧ (onArbiter f s).mgmt = s.mgmt ∧ (onArbiter f s).freeIndex = s.freeIndex
    ∧ (onArbiter f s).pending = s.pending :=
  ⟨rfl, rfl, rfl, rfl, rfl, rfl, rfl, rfl, rfl, rfl, rfl, rfl, rfl, rfl, rfl⟩

@[simp] theorem onArbiter_store (f : Arbiter → Arbiter) (s : State) :
    (onArbiter f s).store = { s.store with arbiter := f s.store.arbiter } :=
  rfl

/-- A grant read changes what is read and the turn of the Sweep, and nothing else (R121). -/
@[simp] theorem readGrant_frame (s : State) :
    (readGrant s).rstnLow = s.rstnLow ∧ (readGrant s).nodeAddress = s.nodeAddress
    ∧ (readGrant s).linePort = s.linePort ∧ (readGrant s).officePort = s.officePort
    ∧ (readGrant s).tapQueue = s.tapQueue ∧ (readGrant s).verdictQueue = s.verdictQueue
    ∧ (readGrant s).forwardQueue = s.forwardQueue ∧ (readGrant s).officeQueue = s.officeQueue
    ∧ (readGrant s).reckoner = s.reckoner ∧ (readGrant s).tables = s.tables
    ∧ (readGrant s).clock = s.clock ∧ (readGrant s).mgmt = s.mgmt
    ∧ (readGrant s).freeIndex = s.freeIndex ∧ (readGrant s).pending = s.pending :=
  ⟨rfl, rfl, rfl, rfl, rfl, rfl, rfl, rfl, rfl, rfl, rfl, rfl, rfl, rfl⟩

@[simp] theorem readGrant_store (s : State) :
    (readGrant s).store = { s.store with grant := grantReading s } :=
  rfl

@[simp] theorem readGrant_sweep (s : State) : (readGrant s).sweep = passTurn s :=
  rfl

/-- The turn passed leaves the Sweep's other fields (R121). -/
@[simp] theorem passTurn_fields (s : State) :
    (passTurn s).journeyCursor = s.sweep.journeyCursor
    ∧ (passTurn s).accountCursor = s.sweep.accountCursor
    ∧ (passTurn s).spillMode = s.sweep.spillMode
    ∧ (passTurn s).purgePending = s.sweep.purgePending
    ∧ (passTurn s).resetAtRelease = s.sweep.resetAtRelease := by
  unfold passTurn
  split <;> simp

/-- A change of the arbiter with the reading of the grant it makes: the arbiter, the reading and the turn, and nothing else (R61, R121). -/
@[simp] theorem arbitrate_frame (f : Arbiter → Arbiter) (s : State) :
    (arbitrate f s).rstnLow = s.rstnLow ∧ (arbitrate f s).nodeAddress = s.nodeAddress
    ∧ (arbitrate f s).linePort = s.linePort ∧ (arbitrate f s).officePort = s.officePort
    ∧ (arbitrate f s).tapQueue = s.tapQueue ∧ (arbitrate f s).verdictQueue = s.verdictQueue
    ∧ (arbitrate f s).forwardQueue = s.forwardQueue ∧ (arbitrate f s).officeQueue = s.officeQueue
    ∧ (arbitrate f s).reckoner = s.reckoner ∧ (arbitrate f s).tables = s.tables
    ∧ (arbitrate f s).clock = s.clock ∧ (arbitrate f s).mgmt = s.mgmt
    ∧ (arbitrate f s).freeIndex = s.freeIndex ∧ (arbitrate f s).pending = s.pending
    ∧ (arbitrate f s).sweep.journeyCursor = s.sweep.journeyCursor
    ∧ (arbitrate f s).sweep.accountCursor = s.sweep.accountCursor
    ∧ (arbitrate f s).sweep.spillMode = s.sweep.spillMode
    ∧ (arbitrate f s).sweep.purgePending = s.sweep.purgePending
    ∧ (arbitrate f s).sweep.resetAtRelease = s.sweep.resetAtRelease
    ∧ (arbitrate f s).store.journeys = s.store.journeys
    ∧ (arbitrate f s).store.accounts = s.store.accounts
    ∧ (arbitrate f s).store.accountFullDay = s.store.accountFullDay
    ∧ (arbitrate f s).store.nextReference = s.store.nextReference
    ∧ (arbitrate f s).store.arbiter = f s.store.arbiter := by
  unfold arbitrate
  split <;> simp

/-- A request for the store: the arbiter, the reading of a grant and the turn (R61, R121). -/
@[simp] theorem requestStore_frame (r : Requester) (s : State) :
    (requestStore r s).rstnLow = s.rstnLow ∧ (requestStore r s).nodeAddress = s.nodeAddress
    ∧ (requestStore r s).linePort = s.linePort ∧ (requestStore r s).officePort = s.officePort
    ∧ (requestStore r s).tapQueue = s.tapQueue ∧ (requestStore r s).verdictQueue = s.verdictQueue
    ∧ (requestStore r s).forwardQueue = s.forwardQueue
    ∧ (requestStore r s).officeQueue = s.officeQueue ∧ (requestStore r s).reckoner = s.reckoner
    ∧ (requestStore r s).tables = s.tables ∧ (requestStore r s).clock = s.clock
    ∧ (requestStore r s).mgmt = s.mgmt ∧ (requestStore r s).freeIndex = s.freeIndex
    ∧ (requestStore r s).pending = s.pending
    ∧ (requestStore r s).sweep.journeyCursor = s.sweep.journeyCursor
    ∧ (requestStore r s).sweep.accountCursor = s.sweep.accountCursor
    ∧ (requestStore r s).sweep.spillMode = s.sweep.spillMode
    ∧ (requestStore r s).sweep.purgePending = s.sweep.purgePending
    ∧ (requestStore r s).sweep.resetAtRelease = s.sweep.resetAtRelease
    ∧ (requestStore r s).store.journeys = s.store.journeys
    ∧ (requestStore r s).store.accounts = s.store.accounts
    ∧ (requestStore r s).store.accountFullDay = s.store.accountFullDay
    ∧ (requestStore r s).store.nextReference = s.store.nextReference
    ∧ (requestStore r s).store.arbiter = s.store.arbiter.request r := by
  simp [requestStore]

/-- A slot put changes the Table Store and nothing else (R129). -/
@[simp] theorem putSlot_frame (x : SlotId) (v : Slot) (s : State) :
    (putSlot x v s).rstnLow = s.rstnLow ∧ (putSlot x v s).nodeAddress = s.nodeAddress
    ∧ (putSlot x v s).linePort = s.linePort ∧ (putSlot x v s).officePort = s.officePort
    ∧ (putSlot x v s).tapQueue = s.tapQueue ∧ (putSlot x v s).verdictQueue = s.verdictQueue
    ∧ (putSlot x v s).forwardQueue = s.forwardQueue ∧ (putSlot x v s).officeQueue = s.officeQueue
    ∧ (putSlot x v s).reckoner = s.reckoner ∧ (putSlot x v s).store = s.store
    ∧ (putSlot x v s).sweep = s.sweep ∧ (putSlot x v s).clock = s.clock
    ∧ (putSlot x v s).mgmt = s.mgmt ∧ (putSlot x v s).freeIndex = s.freeIndex
    ∧ (putSlot x v s).pending = s.pending :=
  ⟨rfl, rfl, rfl, rfl, rfl, rfl, rfl, rfl, rfl, rfl, rfl, rfl, rfl, rfl, rfl⟩

@[simp] theorem putSlot_tables (x : SlotId) (v : Slot) (s : State) :
    (putSlot x v s).tables = s.tables.put x v :=
  rfl

/-- A change of the held requests changes nothing else (R174). -/
@[simp] theorem onRequests_frame (f : List HeldRequest → List HeldRequest) (s : State) :
    (onRequests f s).rstnLow = s.rstnLow ∧ (onRequests f s).nodeAddress = s.nodeAddress
    ∧ (onRequests f s).linePort = s.linePort ∧ (onRequests f s).officePort = s.officePort
    ∧ (onRequests f s).tapQueue = s.tapQueue ∧ (onRequests f s).verdictQueue = s.verdictQueue
    ∧ (onRequests f s).forwardQueue = s.forwardQueue
    ∧ (onRequests f s).officeQueue = s.officeQueue ∧ (onRequests f s).reckoner = s.reckoner
    ∧ (onRequests f s).store = s.store ∧ (onRequests f s).sweep = s.sweep
    ∧ (onRequests f s).tables = s.tables ∧ (onRequests f s).clock = s.clock
    ∧ (onRequests f s).freeIndex = s.freeIndex ∧ (onRequests f s).pending = s.pending :=
  ⟨rfl, rfl, rfl, rfl, rfl, rfl, rfl, rfl, rfl, rfl, rfl, rfl, rfl, rfl, rfl⟩

@[simp] theorem onRequests_mgmt (f : List HeldRequest → List HeldRequest) (s : State) :
    (onRequests f s).mgmt = { s.mgmt with requests := f s.mgmt.requests } :=
  rfl

/-- A journey removed leaves the Journey Table and the admission list (R70). -/
@[simp] theorem removeJourney_frame (n : Nat) (s : State) :
    (removeJourney n s).rstnLow = s.rstnLow ∧ (removeJourney n s).nodeAddress = s.nodeAddress
    ∧ (removeJourney n s).linePort = s.linePort ∧ (removeJourney n s).officePort = s.officePort
    ∧ (removeJourney n s).tapQueue = s.tapQueue
    ∧ (removeJourney n s).verdictQueue = s.verdictQueue
    ∧ (removeJourney n s).forwardQueue = s.forwardQueue
    ∧ (removeJourney n s).officeQueue = s.officeQueue ∧ (removeJourney n s).reckoner = s.reckoner
    ∧ (removeJourney n s).sweep = s.sweep ∧ (removeJourney n s).tables = s.tables
    ∧ (removeJourney n s).clock = s.clock ∧ (removeJourney n s).mgmt = s.mgmt
    ∧ (removeJourney n s).freeIndex = s.freeIndex ∧ (removeJourney n s).pending = s.pending :=
  ⟨rfl, rfl, rfl, rfl, rfl, rfl, rfl, rfl, rfl, rfl, rfl, rfl, rfl, rfl, rfl⟩

@[simp] theorem removeJourney_store (n : Nat) (s : State) :
    (removeJourney n s).store = { s.store with journeys := s.store.journeys.filter (fun w => w.slot != n) } :=
  rfl

/-- A reference taken advances the counter and nothing else (R68). -/
@[simp] theorem takeReference_frame (s : State) :
    (takeReference s).rstnLow = s.rstnLow ∧ (takeReference s).nodeAddress = s.nodeAddress
    ∧ (takeReference s).linePort = s.linePort ∧ (takeReference s).officePort = s.officePort
    ∧ (takeReference s).tapQueue = s.tapQueue ∧ (takeReference s).verdictQueue = s.verdictQueue
    ∧ (takeReference s).forwardQueue = s.forwardQueue
    ∧ (takeReference s).officeQueue = s.officeQueue ∧ (takeReference s).reckoner = s.reckoner
    ∧ (takeReference s).sweep = s.sweep ∧ (takeReference s).tables = s.tables
    ∧ (takeReference s).clock = s.clock ∧ (takeReference s).mgmt = s.mgmt
    ∧ (takeReference s).freeIndex = s.freeIndex ∧ (takeReference s).pending = s.pending :=
  ⟨rfl, rfl, rfl, rfl, rfl, rfl, rfl, rfl, rfl, rfl, rfl, rfl, rfl, rfl, rfl⟩

@[simp] theorem takeReference_store (s : State) :
    (takeReference s).store = { s.store with
      nextReference := if s.store.nextReference = Config.max32 then 1 else s.store.nextReference + 1 } :=
  rfl

/-- A record created stands in its way (R89). -/
@[simp] theorem createAccount_frame (n : Nat) (t : Token) (day : Nat) (s : State) :
    (createAccount n t day s).rstnLow = s.rstnLow
    ∧ (createAccount n t day s).nodeAddress = s.nodeAddress
    ∧ (createAccount n t day s).linePort = s.linePort
    ∧ (createAccount n t day s).officePort = s.officePort
    ∧ (createAccount n t day s).tapQueue = s.tapQueue
    ∧ (createAccount n t day s).verdictQueue = s.verdictQueue
    ∧ (createAccount n t day s).forwardQueue = s.forwardQueue
    ∧ (createAccount n t day s).officeQueue = s.officeQueue
    ∧ (createAccount n t day s).reckoner = s.reckoner ∧ (createAccount n t day s).sweep = s.sweep
    ∧ (createAccount n t day s).tables = s.tables ∧ (createAccount n t day s).clock = s.clock
    ∧ (createAccount n t day s).mgmt = s.mgmt ∧ (createAccount n t day s).freeIndex = s.freeIndex
    ∧ (createAccount n t day s).pending = s.pending :=
  ⟨rfl, rfl, rfl, rfl, rfl, rfl, rfl, rfl, rfl, rfl, rfl, rfl, rfl, rfl, rfl⟩

@[simp] theorem createAccount_store (n : Nat) (t : Token) (day : Nat) (s : State) :
    (createAccount n t day s).store = { s.store with
      accounts := putWay ⟨n, Account.fresh t day⟩ s.store.accounts } :=
  rfl

/-- A record freed leaves the Day Account Table (R127). -/
@[simp] theorem removeAccount_frame (n : Nat) (s : State) :
    (removeAccount n s).rstnLow = s.rstnLow ∧ (removeAccount n s).nodeAddress = s.nodeAddress
    ∧ (removeAccount n s).linePort = s.linePort ∧ (removeAccount n s).officePort = s.officePort
    ∧ (removeAccount n s).tapQueue = s.tapQueue
    ∧ (removeAccount n s).verdictQueue = s.verdictQueue
    ∧ (removeAccount n s).forwardQueue = s.forwardQueue
    ∧ (removeAccount n s).officeQueue = s.officeQueue ∧ (removeAccount n s).reckoner = s.reckoner
    ∧ (removeAccount n s).sweep = s.sweep ∧ (removeAccount n s).tables = s.tables
    ∧ (removeAccount n s).clock = s.clock ∧ (removeAccount n s).mgmt = s.mgmt
    ∧ (removeAccount n s).freeIndex = s.freeIndex ∧ (removeAccount n s).pending = s.pending :=
  ⟨rfl, rfl, rfl, rfl, rfl, rfl, rfl, rfl, rfl, rfl, rfl, rfl, rfl, rfl, rfl⟩

@[simp] theorem removeAccount_store (n : Nat) (s : State) :
    (removeAccount n s).store = { s.store with accounts := s.store.accounts.filter (fun w => w.slot != n) } :=
  rfl

/-- A purge pass begins in the Sweep and changes nothing else (R126). -/
@[simp] theorem beginPurge_frame (s : State) :
    (beginPurge s).rstnLow = s.rstnLow ∧ (beginPurge s).nodeAddress = s.nodeAddress
    ∧ (beginPurge s).linePort = s.linePort ∧ (beginPurge s).officePort = s.officePort
    ∧ (beginPurge s).tapQueue = s.tapQueue ∧ (beginPurge s).verdictQueue = s.verdictQueue
    ∧ (beginPurge s).forwardQueue = s.forwardQueue ∧ (beginPurge s).officeQueue = s.officeQueue
    ∧ (beginPurge s).reckoner = s.reckoner ∧ (beginPurge s).store = s.store
    ∧ (beginPurge s).tables = s.tables ∧ (beginPurge s).clock = s.clock
    ∧ (beginPurge s).mgmt = s.mgmt ∧ (beginPurge s).freeIndex = s.freeIndex
    ∧ (beginPurge s).pending = s.pending :=
  ⟨rfl, rfl, rfl, rfl, rfl, rfl, rfl, rfl, rfl, rfl, rfl, rfl, rfl, rfl, rfl⟩

@[simp] theorem beginPurge_sweep (s : State) :
    (beginPurge s).sweep = { s.sweep with purgePending := true, accountCursor := 0, turn := .account } :=
  rfl

/-- A change of the Line Clock changes nothing else. -/
@[simp] theorem onClock_frame (f : LineClock → LineClock) (s : State) :
    (onClock f s).rstnLow = s.rstnLow ∧ (onClock f s).nodeAddress = s.nodeAddress
    ∧ (onClock f s).linePort = s.linePort ∧ (onClock f s).officePort = s.officePort
    ∧ (onClock f s).tapQueue = s.tapQueue ∧ (onClock f s).verdictQueue = s.verdictQueue
    ∧ (onClock f s).forwardQueue = s.forwardQueue ∧ (onClock f s).officeQueue = s.officeQueue
    ∧ (onClock f s).reckoner = s.reckoner ∧ (onClock f s).store = s.store
    ∧ (onClock f s).sweep = s.sweep ∧ (onClock f s).tables = s.tables
    ∧ (onClock f s).mgmt = s.mgmt ∧ (onClock f s).freeIndex = s.freeIndex
    ∧ (onClock f s).pending = s.pending :=
  ⟨rfl, rfl, rfl, rfl, rfl, rfl, rfl, rfl, rfl, rfl, rfl, rfl, rfl, rfl, rfl⟩

@[simp] theorem onClock_clock (f : LineClock → LineClock) (s : State) :
    (onClock f s).clock = f s.clock :=
  rfl

/-- A change of the Sweep changes nothing else. -/
@[simp] theorem onSweep_frame (f : Sweep → Sweep) (s : State) :
    (onSweep f s).rstnLow = s.rstnLow ∧ (onSweep f s).nodeAddress = s.nodeAddress
    ∧ (onSweep f s).linePort = s.linePort ∧ (onSweep f s).officePort = s.officePort
    ∧ (onSweep f s).tapQueue = s.tapQueue ∧ (onSweep f s).verdictQueue = s.verdictQueue
    ∧ (onSweep f s).forwardQueue = s.forwardQueue ∧ (onSweep f s).officeQueue = s.officeQueue
    ∧ (onSweep f s).reckoner = s.reckoner ∧ (onSweep f s).store = s.store
    ∧ (onSweep f s).tables = s.tables ∧ (onSweep f s).clock = s.clock
    ∧ (onSweep f s).mgmt = s.mgmt ∧ (onSweep f s).freeIndex = s.freeIndex
    ∧ (onSweep f s).pending = s.pending :=
  ⟨rfl, rfl, rfl, rfl, rfl, rfl, rfl, rfl, rfl, rfl, rfl, rfl, rfl, rfl, rfl⟩

@[simp] theorem onSweep_sweep (f : Sweep → Sweep) (s : State) :
    (onSweep f s).sweep = f s.sweep :=
  rfl

/-- A change of the drain changes nothing else. -/
@[simp] theorem onDrain_frame (f : Drain → Drain) (s : State) :
    (onDrain f s).rstnLow = s.rstnLow ∧ (onDrain f s).nodeAddress = s.nodeAddress
    ∧ (onDrain f s).linePort = s.linePort ∧ (onDrain f s).officePort = s.officePort
    ∧ (onDrain f s).tapQueue = s.tapQueue ∧ (onDrain f s).verdictQueue = s.verdictQueue
    ∧ (onDrain f s).forwardQueue = s.forwardQueue ∧ (onDrain f s).officeQueue = s.officeQueue
    ∧ (onDrain f s).reckoner = s.reckoner ∧ (onDrain f s).store = s.store
    ∧ (onDrain f s).sweep = s.sweep ∧ (onDrain f s).tables = s.tables
    ∧ (onDrain f s).clock = s.clock ∧ (onDrain f s).freeIndex = s.freeIndex
    ∧ (onDrain f s).pending = s.pending :=
  ⟨rfl, rfl, rfl, rfl, rfl, rfl, rfl, rfl, rfl, rfl, rfl, rfl, rfl, rfl, rfl⟩

@[simp] theorem onDrain_mgmt (f : Drain → Drain) (s : State) :
    (onDrain f s).mgmt = { s.mgmt with drain := f s.mgmt.drain } :=
  rfl

/-- The service state changes alone (R16). -/
@[simp] theorem setService_frame (v : ServiceState) (s : State) :
    (setService v s).rstnLow = s.rstnLow ∧ (setService v s).nodeAddress = s.nodeAddress
    ∧ (setService v s).linePort = s.linePort ∧ (setService v s).officePort = s.officePort
    ∧ (setService v s).tapQueue = s.tapQueue ∧ (setService v s).verdictQueue = s.verdictQueue
    ∧ (setService v s).forwardQueue = s.forwardQueue
    ∧ (setService v s).officeQueue = s.officeQueue ∧ (setService v s).reckoner = s.reckoner
    ∧ (setService v s).store = s.store ∧ (setService v s).sweep = s.sweep
    ∧ (setService v s).tables = s.tables ∧ (setService v s).clock = s.clock
    ∧ (setService v s).freeIndex = s.freeIndex ∧ (setService v s).pending = s.pending :=
  ⟨rfl, rfl, rfl, rfl, rfl, rfl, rfl, rfl, rfl, rfl, rfl, rfl, rfl, rfl, rfl⟩

@[simp] theorem setService_mgmt (v : ServiceState) (s : State) :
    (setService v s).mgmt = { s.mgmt with service := v } :=
  rfl

/-- The Deny List changes alone (R145). -/
@[simp] theorem setDenyList_frame (l : List Token) (s : State) :
    (setDenyList l s).rstnLow = s.rstnLow ∧ (setDenyList l s).nodeAddress = s.nodeAddress
    ∧ (setDenyList l s).linePort = s.linePort ∧ (setDenyList l s).officePort = s.officePort
    ∧ (setDenyList l s).tapQueue = s.tapQueue ∧ (setDenyList l s).verdictQueue = s.verdictQueue
    ∧ (setDenyList l s).forwardQueue = s.forwardQueue
    ∧ (setDenyList l s).officeQueue = s.officeQueue ∧ (setDenyList l s).reckoner = s.reckoner
    ∧ (setDenyList l s).store = s.store ∧ (setDenyList l s).sweep = s.sweep
    ∧ (setDenyList l s).clock = s.clock ∧ (setDenyList l s).mgmt = s.mgmt
    ∧ (setDenyList l s).freeIndex = s.freeIndex ∧ (setDenyList l s).pending = s.pending :=
  ⟨rfl, rfl, rfl, rfl, rfl, rfl, rfl, rfl, rfl, rfl, rfl, rfl, rfl, rfl, rfl⟩

@[simp] theorem setDenyList_tables (l : List Token) (s : State) :
    (setDenyList l s).tables = { s.tables with denyList := l } :=
  rfl

/-- The deadlines count down and nothing else changes (R5). -/
@[simp] theorem countDownAll_frame (n : Nat) (s : State) :
    (countDownAll n s).rstnLow = s.rstnLow ∧ (countDownAll n s).nodeAddress = s.nodeAddress
    ∧ (countDownAll n s).linePort = s.linePort ∧ (countDownAll n s).officePort = s.officePort
    ∧ (countDownAll n s).verdictQueue = s.verdictQueue
    ∧ (countDownAll n s).forwardQueue = s.forwardQueue
    ∧ (countDownAll n s).officeQueue = s.officeQueue ∧ (countDownAll n s).store = s.store
    ∧ (countDownAll n s).sweep = s.sweep ∧ (countDownAll n s).tables = s.tables
    ∧ (countDownAll n s).clock = s.clock ∧ (countDownAll n s).mgmt = s.mgmt
    ∧ (countDownAll n s).freeIndex = s.freeIndex ∧ (countDownAll n s).pending = s.pending :=
  ⟨rfl, rfl, rfl, rfl, rfl, rfl, rfl, rfl, rfl, rfl, rfl, rfl, rfl, rfl⟩

@[simp] theorem countDownAll_tapQueue (n : Nat) (s : State) :
    (countDownAll n s).tapQueue = s.tapQueue.map (countDown n) :=
  rfl

@[simp] theorem countDownAll_reckoner (n : Nat) (s : State) :
    (countDownAll n s).reckoner = s.reckoner.map (fun t => { t with entry := countDown n t.entry }) :=
  rfl

/-- A request come to a phase changes the held requests and nothing else (R174). -/
@[simp] theorem advanceTaken_frame (p : Phase) (s : State) :
    (advanceTaken p s).rstnLow = s.rstnLow ∧ (advanceTaken p s).nodeAddress = s.nodeAddress
    ∧ (advanceTaken p s).linePort = s.linePort ∧ (advanceTaken p s).officePort = s.officePort
    ∧ (advanceTaken p s).tapQueue = s.tapQueue ∧ (advanceTaken p s).verdictQueue = s.verdictQueue
    ∧ (advanceTaken p s).forwardQueue = s.forwardQueue
    ∧ (advanceTaken p s).officeQueue = s.officeQueue ∧ (advanceTaken p s).reckoner = s.reckoner
    ∧ (advanceTaken p s).store = s.store ∧ (advanceTaken p s).sweep = s.sweep
    ∧ (advanceTaken p s).tables = s.tables ∧ (advanceTaken p s).clock = s.clock
    ∧ (advanceTaken p s).freeIndex = s.freeIndex ∧ (advanceTaken p s).pending = s.pending :=
  ⟨rfl, rfl, rfl, rfl, rfl, rfl, rfl, rfl, rfl, rfl, rfl, rfl, rfl, rfl, rfl⟩

@[simp] theorem advanceTaken_mgmt (p : Phase) (s : State) :
    (advanceTaken p s).mgmt = { s.mgmt with 
      requests := s.mgmt.requests |> modifyFirst (fun r => r.phase == .taken)
        (fun r => { r with phase := p }) } :=
  rfl

/-- A request answered changes the held requests and nothing else (R174). -/
@[simp] theorem answerTaken_frame (v : Reply) (s : State) :
    (answerTaken v s).rstnLow = s.rstnLow ∧ (answerTaken v s).nodeAddress = s.nodeAddress
    ∧ (answerTaken v s).linePort = s.linePort ∧ (answerTaken v s).officePort = s.officePort
    ∧ (answerTaken v s).tapQueue = s.tapQueue ∧ (answerTaken v s).verdictQueue = s.verdictQueue
    ∧ (answerTaken v s).forwardQueue = s.forwardQueue
    ∧ (answerTaken v s).officeQueue = s.officeQueue ∧ (answerTaken v s).reckoner = s.reckoner
    ∧ (answerTaken v s).store = s.store ∧ (answerTaken v s).sweep = s.sweep
    ∧ (answerTaken v s).tables = s.tables ∧ (answerTaken v s).clock = s.clock
    ∧ (answerTaken v s).freeIndex = s.freeIndex ∧ (answerTaken v s).pending = s.pending :=
  ⟨rfl, rfl, rfl, rfl, rfl, rfl, rfl, rfl, rfl, rfl, rfl, rfl, rfl, rfl, rfl⟩

@[simp] theorem answerTaken_mgmt (v : Reply) (s : State) :
    (answerTaken v s).mgmt = { s.mgmt with 
      requests := s.mgmt.requests |> modifyFirst (fun r => r.phase == .taken)
        (fun r => { r with phase := .replyDue v }) } :=
  rfl

/-- An operation answered changes the held requests and nothing else (R174). -/
@[simp] theorem answerUnderway_frame (k : Request → Bool) (v : Reply) (s : State) :
    (answerUnderway k v s).rstnLow = s.rstnLow
    ∧ (answerUnderway k v s).nodeAddress = s.nodeAddress
    ∧ (answerUnderway k v s).linePort = s.linePort
    ∧ (answerUnderway k v s).officePort = s.officePort
    ∧ (answerUnderway k v s).tapQueue = s.tapQueue
    ∧ (answerUnderway k v s).verdictQueue = s.verdictQueue
    ∧ (answerUnderway k v s).forwardQueue = s.forwardQueue
    ∧ (answerUnderway k v s).officeQueue = s.officeQueue
    ∧ (answerUnderway k v s).reckoner = s.reckoner ∧ (answerUnderway k v s).store = s.store
    ∧ (answerUnderway k v s).sweep = s.sweep ∧ (answerUnderway k v s).tables = s.tables
    ∧ (answerUnderway k v s).clock = s.clock ∧ (answerUnderway k v s).freeIndex = s.freeIndex
    ∧ (answerUnderway k v s).pending = s.pending :=
  ⟨rfl, rfl, rfl, rfl, rfl, rfl, rfl, rfl, rfl, rfl, rfl, rfl, rfl, rfl, rfl⟩

@[simp] theorem answerUnderway_mgmt (k : Request → Bool) (v : Reply) (s : State) :
    (answerUnderway k v s).mgmt = { s.mgmt with 
      requests := s.mgmt.requests |> modifyFirst (fun r => r.phase == .underway && k r.request)
        (fun r => { r with phase := .replyDue v }) } :=
  rfl

end Sys2Proof.Machine
end

