-- ==== Sys2Proof/Laws/Ops.lean ====
section
/-! SUPPORT. One law for each shared operation: what it leaves as it is, and what it makes of the rest. -/

namespace Sys2Proof.Machine

/-- Two states with the same fields are the same. -/
theorem State.eq_of_fields {s t : State} (h1 : s.rstnLow = t.rstnLow)
    (h2 : s.nodeAddress = t.nodeAddress) (h3 : s.linePort = t.linePort)
    (h4 : s.officePort = t.officePort) (h5 : s.tapQueue = t.tapQueue)
    (h6 : s.verdictQueue = t.verdictQueue) (h7 : s.forwardQueue = t.forwardQueue)
    (h8 : s.officeQueue = t.officeQueue) (h9 : s.reckoner = t.reckoner) (h10 : s.store = t.store)
    (h11 : s.sweep = t.sweep) (h12 : s.tables = t.tables) (h13 : s.clock = t.clock)
    (h14 : s.mgmt = t.mgmt) (h15 : s.freeIndex = t.freeIndex) (h16 : s.pending = t.pending) :
    s = t := by
  cases s; cases t
  simp_all

/-- Two Management Units with the same fields are the same. -/
theorem Management.eq_of_fields {s t : Management} (h1 : s.service = t.service)
    (h2 : s.requests = t.requests) (h3 : s.settings = t.settings) (h4 : s.counters = t.counters)
    (h5 : s.events = t.events) (h6 : s.drain = t.drain) (h7 : s.restartLate = t.restartLate) :
    s = t := by
  cases s; cases t
  simp_all

/-- Two Journey Stores with the same fields are the same. -/
theorem JourneyStore.eq_of_fields {s t : JourneyStore} (h1 : s.journeys = t.journeys)
    (h2 : s.accounts = t.accounts) (h3 : s.accountFullDay = t.accountFullDay)
    (h4 : s.nextReference = t.nextReference) (h5 : s.arbiter = t.arbiter) (h6 : s.grant = t.grant) :
    s = t := by
  cases s; cases t
  simp_all

/-- Two Table Stores with the same fields are the same. -/
theorem TableStore.eq_of_fields {s t : TableStore} (h1 : s.slotA = t.slotA) (h2 : s.slotB = t.slotB)
    (h3 : s.swapDue = t.swapDue) (h4 : s.denyList = t.denyList) : s = t := by
  cases s; cases t
  simp_all

/-! ### Ports and queues -/

/-- The Line transmitter changes what it is sending and nothing else (R15). -/
@[simp] theorem transmitLine_frame (s : State) :
    (transmitLine s).rstnLow = s.rstnLow ∧ (transmitLine s).nodeAddress = s.nodeAddress
    ∧ (transmitLine s).officePort = s.officePort ∧ (transmitLine s).tapQueue = s.tapQueue
    ∧ (transmitLine s).verdictQueue = s.verdictQueue
    ∧ (transmitLine s).forwardQueue = s.forwardQueue
    ∧ (transmitLine s).officeQueue = s.officeQueue ∧ (transmitLine s).reckoner = s.reckoner
    ∧ (transmitLine s).store = s.store ∧ (transmitLine s).sweep = s.sweep
    ∧ (transmitLine s).tables = s.tables ∧ (transmitLine s).clock = s.clock
    ∧ (transmitLine s).mgmt = s.mgmt ∧ (transmitLine s).freeIndex = s.freeIndex
    ∧ (transmitLine s).pending = s.pending ∧ (transmitLine s).linePort.link = s.linePort.link := by
  unfold transmitLine
  (repeat' split) <;> simp_all

/-- The Office transmitter changes what it is sending and nothing else (R164). -/
@[simp] theorem transmitOffice_frame (s : State) :
    (transmitOffice s).rstnLow = s.rstnLow ∧ (transmitOffice s).nodeAddress = s.nodeAddress
    ∧ (transmitOffice s).linePort = s.linePort ∧ (transmitOffice s).tapQueue = s.tapQueue
    ∧ (transmitOffice s).verdictQueue = s.verdictQueue
    ∧ (transmitOffice s).forwardQueue = s.forwardQueue
    ∧ (transmitOffice s).officeQueue = s.officeQueue ∧ (transmitOffice s).reckoner = s.reckoner
    ∧ (transmitOffice s).store = s.store ∧ (transmitOffice s).sweep = s.sweep
    ∧ (transmitOffice s).tables = s.tables ∧ (transmitOffice s).clock = s.clock
    ∧ (transmitOffice s).mgmt = s.mgmt ∧ (transmitOffice s).freeIndex = s.freeIndex
    ∧ (transmitOffice s).pending = s.pending
    ∧ (transmitOffice s).officePort.link = s.officePort.link
    ∧ (transmitOffice s).officePort.ready = s.officePort.ready := by
  unfold transmitOffice
  split <;> simp_all

/-- A verdict placed joins the tail of the Verdict Queue; the Line transmitter may start a frame (R2). -/
@[simp] theorem placeVerdict_frame (v : Verdict) (s : State) :
    (placeVerdict v s).rstnLow = s.rstnLow ∧ (placeVerdict v s).nodeAddress = s.nodeAddress
    ∧ (placeVerdict v s).officePort = s.officePort ∧ (placeVerdict v s).tapQueue = s.tapQueue
    ∧ (placeVerdict v s).forwardQueue = s.forwardQueue
    ∧ (placeVerdict v s).officeQueue = s.officeQueue ∧ (placeVerdict v s).reckoner = s.reckoner
    ∧ (placeVerdict v s).store = s.store ∧ (placeVerdict v s).sweep = s.sweep
    ∧ (placeVerdict v s).tables = s.tables ∧ (placeVerdict v s).clock = s.clock
    ∧ (placeVerdict v s).mgmt = s.mgmt ∧ (placeVerdict v s).freeIndex = s.freeIndex
    ∧ (placeVerdict v s).pending = s.pending
    ∧ (placeVerdict v s).verdictQueue = { s.verdictQueue with frames := s.verdictQueue.frames ++ [v] } := by
  simp [placeVerdict]

/-- A verdict in a reserved place (R2). -/
@[simp] theorem fillReserved_frame (v : Verdict) (s : State) :
    (fillReserved v s).rstnLow = s.rstnLow ∧ (fillReserved v s).nodeAddress = s.nodeAddress
    ∧ (fillReserved v s).officePort = s.officePort ∧ (fillReserved v s).tapQueue = s.tapQueue
    ∧ (fillReserved v s).forwardQueue = s.forwardQueue
    ∧ (fillReserved v s).officeQueue = s.officeQueue ∧ (fillReserved v s).reckoner = s.reckoner
    ∧ (fillReserved v s).store = s.store ∧ (fillReserved v s).sweep = s.sweep
    ∧ (fillReserved v s).tables = s.tables ∧ (fillReserved v s).clock = s.clock
    ∧ (fillReserved v s).mgmt = s.mgmt ∧ (fillReserved v s).freeIndex = s.freeIndex
    ∧ (fillReserved v s).pending = s.pending
    ∧ (fillReserved v s).verdictQueue = ⟨s.verdictQueue.frames ++ [v], s.verdictQueue.reserved - 1⟩ := by
  simp [fillReserved]

/-- The Line link raised changes its port only (R172). -/
@[simp] theorem raiseLineLink_frame (s : State) :
    (raiseLineLink s).rstnLow = s.rstnLow ∧ (raiseLineLink s).nodeAddress = s.nodeAddress
    ∧ (raiseLineLink s).officePort = s.officePort ∧ (raiseLineLink s).tapQueue = s.tapQueue
    ∧ (raiseLineLink s).verdictQueue = s.verdictQueue
    ∧ (raiseLineLink s).forwardQueue = s.forwardQueue
    ∧ (raiseLineLink s).officeQueue = s.officeQueue ∧ (raiseLineLink s).reckoner = s.reckoner
    ∧ (raiseLineLink s).store = s.store ∧ (raiseLineLink s).sweep = s.sweep
    ∧ (raiseLineLink s).tables = s.tables ∧ (raiseLineLink s).clock = s.clock
    ∧ (raiseLineLink s).mgmt = s.mgmt ∧ (raiseLineLink s).freeIndex = s.freeIndex
    ∧ (raiseLineLink s).pending = s.pending := by
  simp [raiseLineLink]

/-- The Office link raised changes its port only (R172). -/
@[simp] theorem raiseOfficeLink_frame (s : State) :
    (raiseOfficeLink s).rstnLow = s.rstnLow ∧ (raiseOfficeLink s).nodeAddress = s.nodeAddress
    ∧ (raiseOfficeLink s).linePort = s.linePort ∧ (raiseOfficeLink s).tapQueue = s.tapQueue
    ∧ (raiseOfficeLink s).verdictQueue = s.verdictQueue
    ∧ (raiseOfficeLink s).forwardQueue = s.forwardQueue
    ∧ (raiseOfficeLink s).officeQueue = s.officeQueue ∧ (raiseOfficeLink s).reckoner = s.reckoner
    ∧ (raiseOfficeLink s).store = s.store ∧ (raiseOfficeLink s).sweep = s.sweep
    ∧ (raiseOfficeLink s).tables = s.tables ∧ (raiseOfficeLink s).clock = s.clock
    ∧ (raiseOfficeLink s).mgmt = s.mgmt ∧ (raiseOfficeLink s).freeIndex = s.freeIndex
    ∧ (raiseOfficeLink s).pending = s.pending := by
  simp [raiseOfficeLink]

/-- A frame placed joins the tail of the Office Queue; the Office transmitter may start a frame (R162). -/
@[simp] theorem placeFrame_frame (f : OfficeFrame) (s : State) :
    (placeFrame f s).rstnLow = s.rstnLow ∧ (placeFrame f s).nodeAddress = s.nodeAddress
    ∧ (placeFrame f s).linePort = s.linePort ∧ (placeFrame f s).tapQueue = s.tapQueue
    ∧ (placeFrame f s).verdictQueue = s.verdictQueue
    ∧ (placeFrame f s).forwardQueue = s.forwardQueue ∧ (placeFrame f s).reckoner = s.reckoner
    ∧ (placeFrame f s).store = s.store ∧ (placeFrame f s).sweep = s.sweep
    ∧ (placeFrame f s).tables = s.tables ∧ (placeFrame f s).clock = s.clock
    ∧ (placeFrame f s).mgmt = s.mgmt ∧ (placeFrame f s).freeIndex = s.freeIndex
    ∧ (placeFrame f s).pending = s.pending
    ∧ (placeFrame f s).officeQueue = { s.officeQueue with frames := s.officeQueue.frames ++ [f] } := by
  simp [placeFrame]

/-- A reply placed (R174). -/
@[simp] theorem placeReply_frame (r : HeldRequest) (v : Reply) (s : State) :
    (placeReply r v s).rstnLow = s.rstnLow ∧ (placeReply r v s).nodeAddress = s.nodeAddress
    ∧ (placeReply r v s).linePort = s.linePort ∧ (placeReply r v s).tapQueue = s.tapQueue
    ∧ (placeReply r v s).verdictQueue = s.verdictQueue
    ∧ (placeReply r v s).forwardQueue = s.forwardQueue ∧ (placeReply r v s).reckoner = s.reckoner
    ∧ (placeReply r v s).store = s.store ∧ (placeReply r v s).sweep = s.sweep
    ∧ (placeReply r v s).tables = s.tables ∧ (placeReply r v s).clock = s.clock
    ∧ (placeReply r v s).mgmt = s.mgmt ∧ (placeReply r v s).freeIndex = s.freeIndex
    ∧ (placeReply r v s).pending = s.pending
    ∧ (placeReply r v s).officeQueue = { s.officeQueue with
      frames := s.officeQueue.frames ++ [.reply r.sequence r.number r.code v] } := by
  simp [placeReply]

/-- A record placed: its entry, its sequence number, its kind's count (R160, R171). -/
@[simp] theorem placeRecord_frame (r : Record) (s : State) :
    (placeRecord r s).rstnLow = s.rstnLow ∧ (placeRecord r s).nodeAddress = s.nodeAddress
    ∧ (placeRecord r s).linePort = s.linePort ∧ (placeRecord r s).tapQueue = s.tapQueue
    ∧ (placeRecord r s).verdictQueue = s.verdictQueue
    ∧ (placeRecord r s).forwardQueue = s.forwardQueue ∧ (placeRecord r s).reckoner = s.reckoner
    ∧ (placeRecord r s).store = s.store ∧ (placeRecord r s).sweep = s.sweep
    ∧ (placeRecord r s).tables = s.tables ∧ (placeRecord r s).clock = s.clock
    ∧ (placeRecord r s).freeIndex = s.freeIndex ∧ (placeRecord r s).pending = s.pending
    ∧ (placeRecord r s).officeQueue = { s.officeQueue with
      frames := s.officeQueue.frames ++ [.record s.officeQueue.sequence r]
      sequence := (s.officeQueue.sequence + 1) % 256 }
    ∧ (placeRecord r s).mgmt = { s.mgmt with counters := Counters.record r.kind s.mgmt.counters } := by
  simp [placeRecord]

/-- A record placed in a set-aside entry (R162). -/
@[simp] theorem placeRecordAside_frame (r : Record) (s : State) :
    (placeRecordAside r s).rstnLow = s.rstnLow
    ∧ (placeRecordAside r s).nodeAddress = s.nodeAddress
    ∧ (placeRecordAside r s).linePort = s.linePort ∧ (placeRecordAside r s).tapQueue = s.tapQueue
    ∧ (placeRecordAside r s).verdictQueue = s.verdictQueue
    ∧ (placeRecordAside r s).forwardQueue = s.forwardQueue
    ∧ (placeRecordAside r s).reckoner = s.reckoner ∧ (placeRecordAside r s).store = s.store
    ∧ (placeRecordAside r s).sweep = s.sweep ∧ (placeRecordAside r s).tables = s.tables
    ∧ (placeRecordAside r s).clock = s.clock ∧ (placeRecordAside r s).freeIndex = s.freeIndex
    ∧ (placeRecordAside r s).pending = s.pending
    ∧ (placeRecordAside r s).officeQueue = {
      frames := s.officeQueue.frames ++ [.record s.officeQueue.sequence r]
      setAside := s.officeQueue.setAside - 1
      sequence := (s.officeQueue.sequence + 1) % 256 }
    ∧ (placeRecordAside r s).mgmt
      = { s.mgmt with counters := Counters.record r.kind s.mgmt.counters } := by
  simp [placeRecordAside]

/-! ### Slots and the store -/

/-- A slot freed changes the slot and the pending events (R142). -/
@[simp] theorem freeWithEvent_frame (x : SlotId) (s : State) :
    (freeWithEvent x s).rstnLow = s.rstnLow ∧ (freeWithEvent x s).nodeAddress = s.nodeAddress
    ∧ (freeWithEvent x s).linePort = s.linePort ∧ (freeWithEvent x s).officePort = s.officePort
    ∧ (freeWithEvent x s).tapQueue = s.tapQueue
    ∧ (freeWithEvent x s).verdictQueue = s.verdictQueue
    ∧ (freeWithEvent x s).forwardQueue = s.forwardQueue
    ∧ (freeWithEvent x s).officeQueue = s.officeQueue ∧ (freeWithEvent x s).reckoner = s.reckoner
    ∧ (freeWithEvent x s).store = s.store ∧ (freeWithEvent x s).sweep = s.sweep
    ∧ (freeWithEvent x s).clock = s.clock ∧ (freeWithEvent x s).freeIndex = s.freeIndex
    ∧ (freeWithEvent x s).pending = s.pending ∧ (freeWithEvent x s).mgmt.service = s.mgmt.service
    ∧ (freeWithEvent x s).mgmt.requests = s.mgmt.requests
    ∧ (freeWithEvent x s).mgmt.settings = s.mgmt.settings
    ∧ (freeWithEvent x s).mgmt.counters = s.mgmt.counters
    ∧ (freeWithEvent x s).mgmt.drain = s.mgmt.drain
    ∧ (freeWithEvent x s).mgmt.restartLate = s.mgmt.restartLate
    ∧ (freeWithEvent x s).tables = s.tables.put x Slot.freed := by
  simp [freeWithEvent]

/-- An admission's count message changes its tag's slot only (R142). -/
@[simp] theorem noteAdmission_frame (x : SlotId) (s : State) :
    (noteAdmission x s).rstnLow = s.rstnLow ∧ (noteAdmission x s).nodeAddress = s.nodeAddress
    ∧ (noteAdmission x s).linePort = s.linePort ∧ (noteAdmission x s).officePort = s.officePort
    ∧ (noteAdmission x s).tapQueue = s.tapQueue
    ∧ (noteAdmission x s).verdictQueue = s.verdictQueue
    ∧ (noteAdmission x s).forwardQueue = s.forwardQueue
    ∧ (noteAdmission x s).officeQueue = s.officeQueue ∧ (noteAdmission x s).reckoner = s.reckoner
    ∧ (noteAdmission x s).store = s.store ∧ (noteAdmission x s).sweep = s.sweep
    ∧ (noteAdmission x s).clock = s.clock ∧ (noteAdmission x s).mgmt = s.mgmt
    ∧ (noteAdmission x s).freeIndex = s.freeIndex ∧ (noteAdmission x s).pending = s.pending
    ∧ (noteAdmission x s).tables
      = s.tables.put x { s.tables.slot x with refCount := (s.tables.slot x).refCount + 1 } := by
  simp [noteAdmission, slotOf]

/-- A closing's count message changes its tag's slot and the pending events (R142). -/
@[simp] theorem noteClosing_frame (x : SlotId) (s : State) :
    (noteClosing x s).rstnLow = s.rstnLow ∧ (noteClosing x s).nodeAddress = s.nodeAddress
    ∧ (noteClosing x s).linePort = s.linePort ∧ (noteClosing x s).officePort = s.officePort
    ∧ (noteClosing x s).tapQueue = s.tapQueue ∧ (noteClosing x s).verdictQueue = s.verdictQueue
    ∧ (noteClosing x s).forwardQueue = s.forwardQueue
    ∧ (noteClosing x s).officeQueue = s.officeQueue ∧ (noteClosing x s).reckoner = s.reckoner
    ∧ (noteClosing x s).store = s.store ∧ (noteClosing x s).sweep = s.sweep
    ∧ (noteClosing x s).clock = s.clock ∧ (noteClosing x s).freeIndex = s.freeIndex
    ∧ (noteClosing x s).pending = s.pending ∧ (noteClosing x s).mgmt.service = s.mgmt.service
    ∧ (noteClosing x s).mgmt.requests = s.mgmt.requests
    ∧ (noteClosing x s).mgmt.settings = s.mgmt.settings
    ∧ (noteClosing x s).mgmt.counters = s.mgmt.counters
    ∧ (noteClosing x s).mgmt.drain = s.mgmt.drain
    ∧ (noteClosing x s).mgmt.restartLate = s.mgmt.restartLate := by
  unfold noteClosing
  dsimp only
  split <;> simp

/-- A slot retired: the slot and the pending events change (R141). -/
@[simp] theorem retireSlot_frame (x : SlotId) (s : State) :
    (retireSlot x s).rstnLow = s.rstnLow ∧ (retireSlot x s).nodeAddress = s.nodeAddress
    ∧ (retireSlot x s).linePort = s.linePort ∧ (retireSlot x s).officePort = s.officePort
    ∧ (retireSlot x s).tapQueue = s.tapQueue ∧ (retireSlot x s).verdictQueue = s.verdictQueue
    ∧ (retireSlot x s).forwardQueue = s.forwardQueue
    ∧ (retireSlot x s).officeQueue = s.officeQueue ∧ (retireSlot x s).reckoner = s.reckoner
    ∧ (retireSlot x s).store = s.store ∧ (retireSlot x s).sweep = s.sweep
    ∧ (retireSlot x s).clock = s.clock ∧ (retireSlot x s).freeIndex = s.freeIndex
    ∧ (retireSlot x s).pending = s.pending ∧ (retireSlot x s).mgmt.service = s.mgmt.service
    ∧ (retireSlot x s).mgmt.requests = s.mgmt.requests
    ∧ (retireSlot x s).mgmt.settings = s.mgmt.settings
    ∧ (retireSlot x s).mgmt.counters = s.mgmt.counters
    ∧ (retireSlot x s).mgmt.drain = s.mgmt.drain
    ∧ (retireSlot x s).mgmt.restartLate = s.mgmt.restartLate := by
  unfold retireSlot
  (repeat' split) <;> simp

/-- A swap changes the slots, the pending events and the request it answers (R141). -/
@[simp] theorem makeSwap_frame (x : SlotId) (s : State) :
    (makeSwap x s).rstnLow = s.rstnLow ∧ (makeSwap x s).nodeAddress = s.nodeAddress
    ∧ (makeSwap x s).linePort = s.linePort ∧ (makeSwap x s).officePort = s.officePort
    ∧ (makeSwap x s).tapQueue = s.tapQueue ∧ (makeSwap x s).verdictQueue = s.verdictQueue
    ∧ (makeSwap x s).forwardQueue = s.forwardQueue ∧ (makeSwap x s).officeQueue = s.officeQueue
    ∧ (makeSwap x s).reckoner = s.reckoner ∧ (makeSwap x s).store = s.store
    ∧ (makeSwap x s).sweep = s.sweep ∧ (makeSwap x s).clock = s.clock
    ∧ (makeSwap x s).freeIndex = s.freeIndex ∧ (makeSwap x s).pending = s.pending
    ∧ (makeSwap x s).mgmt.service = s.mgmt.service
    ∧ (makeSwap x s).mgmt.settings = s.mgmt.settings
    ∧ (makeSwap x s).mgmt.counters = s.mgmt.counters ∧ (makeSwap x s).mgmt.drain = s.mgmt.drain
    ∧ (makeSwap x s).mgmt.restartLate = s.mgmt.restartLate := by
  simp [makeSwap]

/-- A due swap settled changes what a swap changes (R141). -/
@[simp] theorem settleSwap_frame (s : State) :
    (settleSwap s).rstnLow = s.rstnLow ∧ (settleSwap s).nodeAddress = s.nodeAddress
    ∧ (settleSwap s).linePort = s.linePort ∧ (settleSwap s).officePort = s.officePort
    ∧ (settleSwap s).tapQueue = s.tapQueue ∧ (settleSwap s).verdictQueue = s.verdictQueue
    ∧ (settleSwap s).forwardQueue = s.forwardQueue ∧ (settleSwap s).officeQueue = s.officeQueue
    ∧ (settleSwap s).reckoner = s.reckoner ∧ (settleSwap s).store = s.store
    ∧ (settleSwap s).sweep = s.sweep ∧ (settleSwap s).clock = s.clock
    ∧ (settleSwap s).freeIndex = s.freeIndex ∧ (settleSwap s).pending = s.pending
    ∧ (settleSwap s).mgmt.service = s.mgmt.service
    ∧ (settleSwap s).mgmt.settings = s.mgmt.settings
    ∧ (settleSwap s).mgmt.counters = s.mgmt.counters ∧ (settleSwap s).mgmt.drain = s.mgmt.drain
    ∧ (settleSwap s).mgmt.restartLate = s.mgmt.restartLate := by
  unfold settleSwap
  (repeat' split) <;> simp

/-- A change of the arbiter that grants the free store is read at once (R61, log 8). -/
theorem arbitrate_of_grant {s : State} {f : Arbiter → Arbiter} (free : holder s = none)
    (granted : (f s.store.arbiter).holder ≠ none) : arbitrate f s = readGrant (onArbiter f s) := by
  simp_all [arbitrate, holder, onArbiter]

/-- A change of the arbiter that grants nothing changes the arbiter only (R61). -/
theorem arbitrate_of_no_grant {s : State} {f : Arbiter → Arbiter}
    (h : holder s ≠ none ∨ (f s.store.arbiter).holder = none) : arbitrate f s = onArbiter f s := by
  rcases h with h | h <;> simp_all [arbitrate, holder, onArbiter]

/-- The release of the store changes the arbiter, what a grant reads and what a due swap changes (R61, R121, R141). -/
@[simp] theorem releaseStore_frame (s : State) :
    (releaseStore s).rstnLow = s.rstnLow ∧ (releaseStore s).nodeAddress = s.nodeAddress
    ∧ (releaseStore s).linePort = s.linePort ∧ (releaseStore s).officePort = s.officePort
    ∧ (releaseStore s).tapQueue = s.tapQueue ∧ (releaseStore s).verdictQueue = s.verdictQueue
    ∧ (releaseStore s).forwardQueue = s.forwardQueue
    ∧ (releaseStore s).officeQueue = s.officeQueue ∧ (releaseStore s).reckoner = s.reckoner
    ∧ (releaseStore s).sweep.journeyCursor = s.sweep.journeyCursor
    ∧ (releaseStore s).sweep.accountCursor = s.sweep.accountCursor
    ∧ (releaseStore s).sweep.spillMode = s.sweep.spillMode
    ∧ (releaseStore s).sweep.purgePending = s.sweep.purgePending
    ∧ (releaseStore s).sweep.resetAtRelease = s.sweep.resetAtRelease ∧ (releaseStore s).clock = s.clock
    ∧ (releaseStore s).freeIndex = s.freeIndex ∧ (releaseStore s).pending = s.pending
    ∧ (releaseStore s).mgmt.service = s.mgmt.service
    ∧ (releaseStore s).mgmt.settings = s.mgmt.settings
    ∧ (releaseStore s).mgmt.counters = s.mgmt.counters
    ∧ (releaseStore s).mgmt.drain = s.mgmt.drain
    ∧ (releaseStore s).mgmt.restartLate = s.mgmt.restartLate
    ∧ (releaseStore s).store.journeys = s.store.journeys
    ∧ (releaseStore s).store.accounts = s.store.accounts
    ∧ (releaseStore s).store.accountFullDay = s.store.accountFullDay
    ∧ (releaseStore s).store.nextReference = s.store.nextReference := by
  simp [releaseStore]

/-- The next operation presented changes its phase, the arbiter, and what a grant reads (R60, R121). -/
@[simp] theorem presentNext_frame (s : State) :
    (presentNext s).rstnLow = s.rstnLow ∧ (presentNext s).nodeAddress = s.nodeAddress
    ∧ (presentNext s).linePort = s.linePort ∧ (presentNext s).officePort = s.officePort
    ∧ (presentNext s).tapQueue = s.tapQueue ∧ (presentNext s).verdictQueue = s.verdictQueue
    ∧ (presentNext s).forwardQueue = s.forwardQueue ∧ (presentNext s).officeQueue = s.officeQueue
    ∧ (presentNext s).reckoner = s.reckoner ∧ (presentNext s).sweep.journeyCursor = s.sweep.journeyCursor
    ∧ (presentNext s).sweep.accountCursor = s.sweep.accountCursor
    ∧ (presentNext s).sweep.spillMode = s.sweep.spillMode
    ∧ (presentNext s).sweep.purgePending = s.sweep.purgePending
    ∧ (presentNext s).sweep.resetAtRelease = s.sweep.resetAtRelease
    ∧ (presentNext s).tables = s.tables ∧ (presentNext s).clock = s.clock
    ∧ (presentNext s).freeIndex = s.freeIndex ∧ (presentNext s).pending = s.pending
    ∧ (presentNext s).mgmt.service = s.mgmt.service
    ∧ (presentNext s).mgmt.settings = s.mgmt.settings
    ∧ (presentNext s).mgmt.counters = s.mgmt.counters
    ∧ (presentNext s).mgmt.events = s.mgmt.events ∧ (presentNext s).mgmt.drain = s.mgmt.drain
    ∧ (presentNext s).mgmt.restartLate = s.mgmt.restartLate
    ∧ (presentNext s).store.journeys = s.store.journeys
    ∧ (presentNext s).store.accounts = s.store.accounts
    ∧ (presentNext s).store.accountFullDay = s.store.accountFullDay
    ∧ (presentNext s).store.nextReference = s.store.nextReference := by
  unfold presentNext
  (repeat' split) <;> simp

/-- The comparison with the marks changes spill mode and the pending events (R124). -/
@[simp] theorem compareMarks_frame (s : State) :
    (compareMarks s).rstnLow = s.rstnLow ∧ (compareMarks s).nodeAddress = s.nodeAddress
    ∧ (compareMarks s).linePort = s.linePort ∧ (compareMarks s).officePort = s.officePort
    ∧ (compareMarks s).tapQueue = s.tapQueue ∧ (compareMarks s).verdictQueue = s.verdictQueue
    ∧ (compareMarks s).forwardQueue = s.forwardQueue
    ∧ (compareMarks s).officeQueue = s.officeQueue ∧ (compareMarks s).reckoner = s.reckoner
    ∧ (compareMarks s).store = s.store ∧ (compareMarks s).tables = s.tables
    ∧ (compareMarks s).clock = s.clock ∧ (compareMarks s).freeIndex = s.freeIndex
    ∧ (compareMarks s).pending = s.pending ∧ (compareMarks s).mgmt.service = s.mgmt.service
    ∧ (compareMarks s).mgmt.requests = s.mgmt.requests
    ∧ (compareMarks s).mgmt.settings = s.mgmt.settings
    ∧ (compareMarks s).mgmt.counters = s.mgmt.counters
    ∧ (compareMarks s).mgmt.drain = s.mgmt.drain
    ∧ (compareMarks s).mgmt.restartLate = s.mgmt.restartLate := by
  unfold compareMarks
  dsimp only
  split <;> split <;> simp

/-- A closing removes its journey, compares the marks and sends its tag's count message (R70). -/
@[simp] theorem closeJourney_frame (w : JourneyWay) (s : State) :
    (closeJourney w s).rstnLow = s.rstnLow ∧ (closeJourney w s).nodeAddress = s.nodeAddress
    ∧ (closeJourney w s).linePort = s.linePort ∧ (closeJourney w s).officePort = s.officePort
    ∧ (closeJourney w s).tapQueue = s.tapQueue ∧ (closeJourney w s).verdictQueue = s.verdictQueue
    ∧ (closeJourney w s).forwardQueue = s.forwardQueue
    ∧ (closeJourney w s).officeQueue = s.officeQueue ∧ (closeJourney w s).reckoner = s.reckoner
    ∧ (closeJourney w s).clock = s.clock ∧ (closeJourney w s).freeIndex = s.freeIndex
    ∧ (closeJourney w s).pending = s.pending ∧ (closeJourney w s).mgmt.service = s.mgmt.service
    ∧ (closeJourney w s).mgmt.requests = s.mgmt.requests
    ∧ (closeJourney w s).mgmt.settings = s.mgmt.settings
    ∧ (closeJourney w s).mgmt.counters = s.mgmt.counters
    ∧ (closeJourney w s).mgmt.drain = s.mgmt.drain
    ∧ (closeJourney w s).mgmt.restartLate = s.mgmt.restartLate
    ∧ (closeJourney w s).store = { s.store with
      journeys := s.store.journeys.filter (fun v => v.slot != w.slot) } := by
  simp [closeJourney]

/-- An account found untracked changes the day of Account Full and the pending events (R91). -/
@[simp] theorem noteUntracked_frame (s : State) :
    (noteUntracked s).rstnLow = s.rstnLow ∧ (noteUntracked s).nodeAddress = s.nodeAddress
    ∧ (noteUntracked s).linePort = s.linePort ∧ (noteUntracked s).officePort = s.officePort
    ∧ (noteUntracked s).tapQueue = s.tapQueue ∧ (noteUntracked s).verdictQueue = s.verdictQueue
    ∧ (noteUntracked s).forwardQueue = s.forwardQueue
    ∧ (noteUntracked s).officeQueue = s.officeQueue ∧ (noteUntracked s).reckoner = s.reckoner
    ∧ (noteUntracked s).sweep = s.sweep ∧ (noteUntracked s).tables = s.tables
    ∧ (noteUntracked s).clock = s.clock ∧ (noteUntracked s).freeIndex = s.freeIndex
    ∧ (noteUntracked s).pending = s.pending ∧ (noteUntracked s).mgmt.service = s.mgmt.service
    ∧ (noteUntracked s).mgmt.requests = s.mgmt.requests
    ∧ (noteUntracked s).mgmt.settings = s.mgmt.settings
    ∧ (noteUntracked s).mgmt.counters = s.mgmt.counters
    ∧ (noteUntracked s).mgmt.drain = s.mgmt.drain
    ∧ (noteUntracked s).mgmt.restartLate = s.mgmt.restartLate
    ∧ (noteUntracked s).store.journeys = s.store.journeys
    ∧ (noteUntracked s).store.accounts = s.store.accounts
    ∧ (noteUntracked s).store.nextReference = s.store.nextReference
    ∧ (noteUntracked s).store.arbiter = s.store.arbiter
    ∧ (noteUntracked s).store.grant = s.store.grant := by
  unfold noteUntracked
  split <;> simp

/-- An account obtained changes the accounts, the day of Account Full and the pending events (R88). -/
@[simp] theorem obtainAccount_frame (t : Token) (day : Nat) (s : State) :
    ((obtainAccount t day s).1).rstnLow = s.rstnLow
    ∧ ((obtainAccount t day s).1).nodeAddress = s.nodeAddress
    ∧ ((obtainAccount t day s).1).linePort = s.linePort
    ∧ ((obtainAccount t day s).1).officePort = s.officePort
    ∧ ((obtainAccount t day s).1).tapQueue = s.tapQueue
    ∧ ((obtainAccount t day s).1).verdictQueue = s.verdictQueue
    ∧ ((obtainAccount t day s).1).forwardQueue = s.forwardQueue
    ∧ ((obtainAccount t day s).1).officeQueue = s.officeQueue
    ∧ ((obtainAccount t day s).1).reckoner = s.reckoner
    ∧ ((obtainAccount t day s).1).sweep = s.sweep ∧ ((obtainAccount t day s).1).tables = s.tables
    ∧ ((obtainAccount t day s).1).clock = s.clock
    ∧ ((obtainAccount t day s).1).freeIndex = s.freeIndex
    ∧ ((obtainAccount t day s).1).pending = s.pending
    ∧ ((obtainAccount t day s).1).mgmt.service = s.mgmt.service
    ∧ ((obtainAccount t day s).1).mgmt.requests = s.mgmt.requests
    ∧ ((obtainAccount t day s).1).mgmt.settings = s.mgmt.settings
    ∧ ((obtainAccount t day s).1).mgmt.counters = s.mgmt.counters
    ∧ ((obtainAccount t day s).1).mgmt.drain = s.mgmt.drain
    ∧ ((obtainAccount t day s).1).mgmt.restartLate = s.mgmt.restartLate
    ∧ ((obtainAccount t day s).1).store.journeys = s.store.journeys
    ∧ ((obtainAccount t day s).1).store.nextReference = s.store.nextReference
    ∧ ((obtainAccount t day s).1).store.arbiter = s.store.arbiter
    ∧ ((obtainAccount t day s).1).store.grant = s.store.grant := by
  unfold obtainAccount
  (repeat' split) <;> simp

/-- An account written changes the accounts only (R91). -/
@[simp] theorem writeAccount_frame (slot : Option Nat) (f : Account → Account) (s : State) :
    (writeAccount slot f s).rstnLow = s.rstnLow
    ∧ (writeAccount slot f s).nodeAddress = s.nodeAddress
    ∧ (writeAccount slot f s).linePort = s.linePort
    ∧ (writeAccount slot f s).officePort = s.officePort
    ∧ (writeAccount slot f s).tapQueue = s.tapQueue
    ∧ (writeAccount slot f s).verdictQueue = s.verdictQueue
    ∧ (writeAccount slot f s).forwardQueue = s.forwardQueue
    ∧ (writeAccount slot f s).officeQueue = s.officeQueue
    ∧ (writeAccount slot f s).reckoner = s.reckoner ∧ (writeAccount slot f s).sweep = s.sweep
    ∧ (writeAccount slot f s).tables = s.tables ∧ (writeAccount slot f s).clock = s.clock
    ∧ (writeAccount slot f s).mgmt = s.mgmt ∧ (writeAccount slot f s).freeIndex = s.freeIndex
    ∧ (writeAccount slot f s).pending = s.pending
    ∧ (writeAccount slot f s).store.journeys = s.store.journeys
    ∧ (writeAccount slot f s).store.accountFullDay = s.store.accountFullDay
    ∧ (writeAccount slot f s).store.nextReference = s.store.nextReference
    ∧ (writeAccount slot f s).store.arbiter = s.store.arbiter
    ∧ (writeAccount slot f s).store.grant = s.store.grant := by
  unfold writeAccount
  split <;> simp

/-- The current service day reckoned: the clock's day, the Sweep's purge pass and the pending events (R156). -/
@[simp] theorem reckonDay_frame (s : State) :
    (reckonDay s).rstnLow = s.rstnLow ∧ (reckonDay s).nodeAddress = s.nodeAddress
    ∧ (reckonDay s).linePort = s.linePort ∧ (reckonDay s).officePort = s.officePort
    ∧ (reckonDay s).tapQueue = s.tapQueue ∧ (reckonDay s).verdictQueue = s.verdictQueue
    ∧ (reckonDay s).forwardQueue = s.forwardQueue ∧ (reckonDay s).officeQueue = s.officeQueue
    ∧ (reckonDay s).reckoner = s.reckoner ∧ (reckonDay s).store = s.store
    ∧ (reckonDay s).tables = s.tables ∧ (reckonDay s).freeIndex = s.freeIndex
    ∧ (reckonDay s).pending = s.pending ∧ (reckonDay s).mgmt.service = s.mgmt.service
    ∧ (reckonDay s).mgmt.requests = s.mgmt.requests
    ∧ (reckonDay s).mgmt.settings = s.mgmt.settings
    ∧ (reckonDay s).mgmt.counters = s.mgmt.counters ∧ (reckonDay s).mgmt.drain = s.mgmt.drain
    ∧ (reckonDay s).mgmt.restartLate = s.mgmt.restartLate
    ∧ (reckonDay s).clock = { s.clock with serviceDay := dayOf s s.clock.sec } := by
  unfold reckonDay
  dsimp only
  split <;> simp

/-- An activation fired makes a swap due and changes nothing else (R157). -/
@[simp] theorem fireActivation_frame (s : State) :
    (fireActivation s).rstnLow = s.rstnLow ∧ (fireActivation s).nodeAddress = s.nodeAddress
    ∧ (fireActivation s).linePort = s.linePort ∧ (fireActivation s).officePort = s.officePort
    ∧ (fireActivation s).tapQueue = s.tapQueue ∧ (fireActivation s).verdictQueue = s.verdictQueue
    ∧ (fireActivation s).forwardQueue = s.forwardQueue
    ∧ (fireActivation s).officeQueue = s.officeQueue ∧ (fireActivation s).reckoner = s.reckoner
    ∧ (fireActivation s).clock = s.clock ∧ (fireActivation s).mgmt = s.mgmt
    ∧ (fireActivation s).freeIndex = s.freeIndex ∧ (fireActivation s).pending = s.pending
    ∧ (fireActivation s).store = s.store ∧ (fireActivation s).sweep = s.sweep
    ∧ (fireActivation s).tables.slotA = s.tables.slotA
    ∧ (fireActivation s).tables.slotB = s.tables.slotB
    ∧ (fireActivation s).tables.denyList = s.tables.denyList := by
  unfold fireActivation
  (repeat' split) <;> simp

/-- The holdover compared: the clock's state and the pending events (R153). -/
@[simp] theorem checkHoldover_frame (s : State) :
    (checkHoldover s).rstnLow = s.rstnLow ∧ (checkHoldover s).nodeAddress = s.nodeAddress
    ∧ (checkHoldover s).linePort = s.linePort ∧ (checkHoldover s).officePort = s.officePort
    ∧ (checkHoldover s).tapQueue = s.tapQueue ∧ (checkHoldover s).verdictQueue = s.verdictQueue
    ∧ (checkHoldover s).forwardQueue = s.forwardQueue
    ∧ (checkHoldover s).officeQueue = s.officeQueue ∧ (checkHoldover s).reckoner = s.reckoner
    ∧ (checkHoldover s).store = s.store ∧ (checkHoldover s).sweep = s.sweep
    ∧ (checkHoldover s).tables = s.tables ∧ (checkHoldover s).freeIndex = s.freeIndex
    ∧ (checkHoldover s).pending = s.pending ∧ (checkHoldover s).mgmt.service = s.mgmt.service
    ∧ (checkHoldover s).mgmt.requests = s.mgmt.requests
    ∧ (checkHoldover s).mgmt.settings = s.mgmt.settings
    ∧ (checkHoldover s).mgmt.counters = s.mgmt.counters
    ∧ (checkHoldover s).mgmt.drain = s.mgmt.drain
    ∧ (checkHoldover s).mgmt.restartLate = s.mgmt.restartLate := by
  unfold checkHoldover
  split <;> simp

/-- A clock that becomes Locked: its state and the pending events (R150). -/
@[simp] theorem becomeLocked_frame (s : State) :
    (becomeLocked s).rstnLow = s.rstnLow ∧ (becomeLocked s).nodeAddress = s.nodeAddress
    ∧ (becomeLocked s).linePort = s.linePort ∧ (becomeLocked s).officePort = s.officePort
    ∧ (becomeLocked s).tapQueue = s.tapQueue ∧ (becomeLocked s).verdictQueue = s.verdictQueue
    ∧ (becomeLocked s).forwardQueue = s.forwardQueue
    ∧ (becomeLocked s).officeQueue = s.officeQueue ∧ (becomeLocked s).reckoner = s.reckoner
    ∧ (becomeLocked s).store = s.store ∧ (becomeLocked s).sweep = s.sweep
    ∧ (becomeLocked s).tables = s.tables ∧ (becomeLocked s).freeIndex = s.freeIndex
    ∧ (becomeLocked s).pending = s.pending ∧ (becomeLocked s).mgmt.service = s.mgmt.service
    ∧ (becomeLocked s).mgmt.requests = s.mgmt.requests
    ∧ (becomeLocked s).mgmt.settings = s.mgmt.settings
    ∧ (becomeLocked s).mgmt.counters = s.mgmt.counters
    ∧ (becomeLocked s).mgmt.drain = s.mgmt.drain
    ∧ (becomeLocked s).mgmt.restartLate = s.mgmt.restartLate
    ∧ (becomeLocked s).clock = { s.clock with state := .locked } := by
  unfold becomeLocked
  split
  · rename_i h; simp [← h]
  · simp
/-! ### Outcomes -/

/-- While RSTN is high a command has its effect (R178). -/
theorem awake_high {s : State} (h : s.rstnLow = false) (t : State) : awake s t = .next t := by
  simp [awake, h]

/-- While RSTN is low it has none (R178, log 2). -/
theorem awake_low {s : State} (h : s.rstnLow = true) (t : State) : awake s t = .next s := by
  simp [awake, h]

/-- A command without effect leaves the state (log 1). -/
theorem awake_same (s : State) : awake s s = .next s := by
  simp [awake]

end Sys2Proof.Machine
end

