-- ==== Sys2Proof/Laws/Requests.lean ====
section
/-! SUPPORT. The request slots: which held request a row acts on, and what becomes of it (R174, log 5). -/

namespace Sys2Proof.Machine

/-- The first element that passes a test is changed, and only it. -/
theorem modifyFirst_split {α : Type} {test : α → Bool} {f : α → α} {before after : List α} {x : α}
    (hb : ∀ y ∈ before, test y = false) (hx : test x = true) :
    modifyFirst test f (before ++ x :: after) = before ++ f x :: after := by
  induction before with
  | nil => simp [modifyFirst, hx]
  | cons y ys ih =>
    have hy := hb y (by simp)
    have := ih (fun z hz => hb z (by simp [hz]))
    simp [modifyFirst, hy, this]

/-- A list with no element that passes the test is unchanged. -/
theorem modifyFirst_none {α : Type} {test : α → Bool} {f : α → α} {l : List α}
    (h : ∀ y ∈ l, test y = false) : modifyFirst test f l = l := by
  induction l with
  | nil => rfl
  | cons y ys ih =>
    have hy := h y (by simp)
    have := ih (fun z hz => h z (by simp [hz]))
    simp [modifyFirst, hy, this]

/-- The first element that passes a test is found. -/
theorem find?_split {α : Type} {test : α → Bool} {before after : List α} {x : α}
    (hb : ∀ y ∈ before, test y = false) (hx : test x = true) :
    (before ++ x :: after).find? test = some x := by
  induction before with
  | nil => simp [hx]
  | cons y ys ih =>
    have hy := hb y (by simp)
    have := ih (fun z hz => hb z (by simp [hz]))
    simp [hy, this]

/-- The first element that passes a test is erased, and only it. -/
theorem eraseP_split {α : Type} {test : α → Bool} {before after : List α} {x : α}
    (hb : ∀ y ∈ before, test y = false) (hx : test x = true) :
    (before ++ x :: after).eraseP test = before ++ after := by
  induction before with
  | nil => simp [hx]
  | cons y ys ih =>
    have hy := hb y (by simp)
    have := ih (fun z hz => hb z (by simp [hz]))
    simp [hy, this]

/-- The request a row acts on (log 5). -/
theorem nextTaken_of {s : State} {before after : List HeldRequest} {r : HeldRequest}
    (h : NextRequest s before r after) : nextTaken s = some r := by
  obtain ⟨_, hq, hb, hr⟩ := h
  unfold nextTaken
  rw [hq]
  exact find?_split (fun y hy => by simpa using hb y hy) (by simp [hr])

/-- The request a row acts on comes to a phase; the state may have changed otherwise meanwhile. -/
theorem advanceTaken_of {s t : State} {before after : List HeldRequest} {r : HeldRequest}
    (h : NextRequest s before r after) (ht : t.mgmt.requests = s.mgmt.requests) (p : Phase) :
    advanceTaken p t = t.withPhase before r after p := by
  obtain ⟨_, hq, hb, hr⟩ := h
  unfold advanceTaken onRequests State.withPhase
  rw [ht, hq, modifyFirst_split (fun y hy => by simpa using hb y hy) (by simp [hr])]

/-- The request a row acts on is answered. -/
theorem answerTaken_of {s t : State} {before after : List HeldRequest} {r : HeldRequest}
    (h : NextRequest s before r after) (ht : t.mgmt.requests = s.mgmt.requests) (v : Reply) :
    answerTaken v t = t.answered before r after v :=
  advanceTaken_of h ht _

/-- The operation that holds its request slot is answered (R174). -/
theorem answerUnderway_of {s : State} {before after : List HeldRequest} {r : HeldRequest}
    {kind : Request → Bool} (hq : s.mgmt.requests = before ++ r :: after)
    (hb : ∀ q ∈ before, ¬ (q.phase = .underway ∧ kind q.request = true))
    (hr : r.phase = .underway) (hk : kind r.request = true) (v : Reply) :
    answerUnderway kind v s = s.answered before r after v := by
  unfold answerUnderway onRequests State.answered State.withPhase
  rw [hq, modifyFirst_split (fun y hy => by
    have := hb y hy
    cases hp : (y.phase == Phase.underway) <;> simp_all) (by simp [hr, hk])]

/-- A request that becomes the state's only change: its fields. -/
@[simp] theorem withPhase_frame (s : State) (before : List HeldRequest) (r : HeldRequest)
    (after : List HeldRequest) (p : Phase) :
    (s.withPhase before r after p).rstnLow = s.rstnLow
    ∧ (s.withPhase before r after p).nodeAddress = s.nodeAddress
    ∧ (s.withPhase before r after p).linePort = s.linePort
    ∧ (s.withPhase before r after p).officePort = s.officePort
    ∧ (s.withPhase before r after p).tapQueue = s.tapQueue
    ∧ (s.withPhase before r after p).verdictQueue = s.verdictQueue
    ∧ (s.withPhase before r after p).forwardQueue = s.forwardQueue
    ∧ (s.withPhase before r after p).officeQueue = s.officeQueue
    ∧ (s.withPhase before r after p).reckoner = s.reckoner
    ∧ (s.withPhase before r after p).store = s.store
    ∧ (s.withPhase before r after p).sweep = s.sweep
    ∧ (s.withPhase before r after p).tables = s.tables
    ∧ (s.withPhase before r after p).clock = s.clock
    ∧ (s.withPhase before r after p).mgmt
      = { s.mgmt with requests := before ++ { r with phase := p } :: after }
    ∧ (s.withPhase before r after p).freeIndex = s.freeIndex
    ∧ (s.withPhase before r after p).pending = s.pending :=
  ⟨rfl, rfl, rfl, rfl, rfl, rfl, rfl, rfl, rfl, rfl, rfl, rfl, rfl, rfl, rfl, rfl⟩

end Sys2Proof.Machine
end

