-- ==== Sys2Proof/Laws/Taps.lean ====
section
/-! SUPPORT. What ends a tap transaction, whatever its handling was (R6, R7), the answers it gives, and the takings that follow (R8). -/

namespace Sys2Proof.Machine

/-- A granted tap is handled, its transaction ended, what waits in the Tap Queue taken and the store released (R7, R8, R60). -/
theorem exec_reckonerGrant_of {s : State} {x : SlotId} {t : TapTransaction} (h : Granted s x t) :
    exec .reckonerGrant s = .next (releaseStore (takeTaps
      (endTransaction t.entry t.clamped (exitDenied t s) (handleTap x t s)))) := by
  obtain ⟨h1, h2, h3, h4⟩ := h
  simp only [exec, execReckonerGrant, awake_high h1, reckonerWork, h2, h3, if_true, runTap, h4]

/-- An answer fills the reserved place, or nothing happens for a tap answered late (R6). -/
@[simp] theorem answerTap_frame (e : TapEntry) (c : Bool) (a : Answer) (s : State) :
    (answerTap e c a s).rstnLow = s.rstnLow ∧ (answerTap e c a s).nodeAddress = s.nodeAddress
    ∧ (answerTap e c a s).officePort = s.officePort ∧ (answerTap e c a s).tapQueue = s.tapQueue
    ∧ (answerTap e c a s).verdictQueue = (if e.answeredLate then s.verdictQueue else
      ⟨s.verdictQueue.frames ++ [verdictFor e.tap (toGate e.tap c a)], s.verdictQueue.reserved - 1⟩)
    ∧ (answerTap e c a s).forwardQueue = s.forwardQueue
    ∧ (answerTap e c a s).officeQueue = s.officeQueue ∧ (answerTap e c a s).reckoner = s.reckoner
    ∧ (answerTap e c a s).store = s.store ∧ (answerTap e c a s).sweep = s.sweep
    ∧ (answerTap e c a s).tables = s.tables ∧ (answerTap e c a s).clock = s.clock
    ∧ (answerTap e c a s).mgmt = s.mgmt ∧ (answerTap e c a s).freeIndex = s.freeIndex
    ∧ (answerTap e c a s).pending = s.pending := by
  unfold answerTap
  split <;> simp_all

/-- Records placed one after another touch the Office Port, the Office Queue and the counters. -/
@[simp] theorem placeAll_frame (l : List Record) (s : State) :
    (placeAll l s).rstnLow = s.rstnLow ∧ (placeAll l s).nodeAddress = s.nodeAddress
    ∧ (placeAll l s).linePort = s.linePort ∧ (placeAll l s).tapQueue = s.tapQueue
    ∧ (placeAll l s).verdictQueue = s.verdictQueue ∧ (placeAll l s).forwardQueue = s.forwardQueue
    ∧ (placeAll l s).reckoner = s.reckoner ∧ (placeAll l s).store = s.store
    ∧ (placeAll l s).sweep = s.sweep ∧ (placeAll l s).tables = s.tables
    ∧ (placeAll l s).clock = s.clock ∧ (placeAll l s).freeIndex = s.freeIndex
    ∧ (placeAll l s).pending = s.pending
    ∧ (placeAll l s).mgmt = { s.mgmt with
      counters := l.foldl (fun c r => Counters.record r.kind c) s.mgmt.counters } := by
  induction l generalizing s with
  | nil => simp [placeAll]
  | cons r rest ih =>
    have := ih (placeRecordAside r s)
    simp only [placeAll, List.foldl_cons] at this ⊢
    simpa using this

/-- What ends a transaction leaves of the state its handling made (R7). -/
@[simp] theorem endTransaction_frame (e : TapEntry) (c d : Bool) (h : Handled) :
    (endTransaction e c d h).rstnLow = h.st.rstnLow
    ∧ (endTransaction e c d h).nodeAddress = h.st.nodeAddress
    ∧ (endTransaction e c d h).tapQueue = h.st.tapQueue
    ∧ (endTransaction e c d h).verdictQueue = (if e.answeredLate then h.st.verdictQueue else
      ⟨h.st.verdictQueue.frames ++ [verdictFor e.tap (toGate e.tap c h.answer)],
        h.st.verdictQueue.reserved - 1⟩)
    ∧ (endTransaction e c d h).forwardQueue = h.st.forwardQueue
    ∧ (endTransaction e c d h).reckoner = none ∧ (endTransaction e c d h).store = h.st.store
    ∧ (endTransaction e c d h).sweep = h.st.sweep ∧ (endTransaction e c d h).tables = h.st.tables
    ∧ (endTransaction e c d h).clock = h.st.clock
    ∧ (endTransaction e c d h).freeIndex = h.st.freeIndex
    ∧ (endTransaction e c d h).pending = h.st.pending
    ∧ (endTransaction e c d h).mgmt = { h.st.mgmt with
      counters := (h.records.map (decorate e.tap e.answeredLate c d)).foldl
        (fun c r => Counters.record r.kind c) h.st.mgmt.counters } := by
  simp [endTransaction]

/-- The Office Queue after a transaction without a record (R72, R99). -/
theorem endTransaction_none (e : TapEntry) (c d : Bool) (s : State) (a : Answer) :
    (endTransaction e c d ⟨s, [], a⟩).officeQueue
      = { s.officeQueue with setAside := s.officeQueue.setAside - 3 } := by
  simp [endTransaction, placeAll]

/-- The Office Queue after a transaction with one record (R7). -/
theorem endTransaction_one (e : TapEntry) (c d : Bool) (s : State) (a : Answer) (r : Record) :
    (endTransaction e c d ⟨s, [r], a⟩).officeQueue = {
      frames := s.officeQueue.frames
        ++ [.record s.officeQueue.sequence (decorate e.tap e.answeredLate c d r)]
      setAside := s.officeQueue.setAside - 3
      sequence := (s.officeQueue.sequence + 1) % 256 } := by
  simp [endTransaction, placeAll]
  omega

/-- The Office Queue after a transaction with two records (R7). -/
theorem endTransaction_two (e : TapEntry) (c d : Bool) (s : State) (a : Answer) (r q : Record) :
    (endTransaction e c d ⟨s, [r, q], a⟩).officeQueue = {
      frames := s.officeQueue.frames
        ++ [.record s.officeQueue.sequence (decorate e.tap e.answeredLate c d r),
          .record ((s.officeQueue.sequence + 1) % 256) (decorate e.tap e.answeredLate c d q)]
      setAside := s.officeQueue.setAside - 3
      sequence := (s.officeQueue.sequence + 2) % 256 } := by
  simp [endTransaction, placeAll]
  omega

/-! ### The next taps (R8, R62) -/

/-- Nothing is taken by a Reckoner that is busy, from an empty Tap Queue, or with fewer than 3 entries free (R8). -/
theorem takeTap_of_unable {s : State}
    (h : s.reckoner.isSome = true ∨ s.tapQueue = [] ∨ officeFree s < 3) : takeTap s = s := by
  unfold takeTap
  rcases h with h | h | h
  · cases e : s.reckoner <;> simp_all
  · cases e : s.reckoner <;> simp_all
  · split
    · exact if_neg (Nat.not_le.mpr h)
    · rfl

/-- Where nothing can be taken, nothing is taken however often (R8). -/
theorem takeUpTo_of_unable {s : State}
    (h : s.reckoner.isSome = true ∨ s.tapQueue = [] ∨ officeFree s < 3) (n : Nat) :
    takeUpTo n s = s := by
  induction n with
  | zero => rfl
  | succ n ih => rw [takeUpTo, takeTap_of_unable h, ih]

/-- A taken tap leaves the Tap Queue to those behind it, and the store's tables, the clock, the Sweep's own state and most of the Management Unit as they were (R8). -/
@[simp] theorem takeHead_frame (e : TapEntry) (rest : List TapEntry) (s : State) :
    (takeHead e rest s).tapQueue = rest
    ∧ (takeHead e rest s).rstnLow = s.rstnLow ∧ (takeHead e rest s).nodeAddress = s.nodeAddress
    ∧ (takeHead e rest s).forwardQueue = s.forwardQueue
    ∧ (takeHead e rest s).store.journeys = s.store.journeys
    ∧ (takeHead e rest s).store.accounts = s.store.accounts
    ∧ (takeHead e rest s).store.accountFullDay = s.store.accountFullDay
    ∧ (takeHead e rest s).store.nextReference = s.store.nextReference
    ∧ (takeHead e rest s).sweep.journeyCursor = s.sweep.journeyCursor
    ∧ (takeHead e rest s).sweep.accountCursor = s.sweep.accountCursor
    ∧ (takeHead e rest s).sweep.spillMode = s.sweep.spillMode
    ∧ (takeHead e rest s).clock = s.clock
    ∧ (takeHead e rest s).mgmt.service = s.mgmt.service
    ∧ (takeHead e rest s).mgmt.settings = s.mgmt.settings
    ∧ (takeHead e rest s).mgmt.drain = s.mgmt.drain
    ∧ (takeHead e rest s).mgmt.restartLate = s.mgmt.restartLate
    ∧ (takeHead e rest s).freeIndex = s.freeIndex ∧ (takeHead e rest s).pending = s.pending := by
  unfold takeHead
  dsimp only
  split <;> simp [screenedOut, setAside]

/-- The head tap, when it can be taken, is taken first, and then what stands behind it (R8). -/
theorem takeTaps_of_head {s : State} {e : TapEntry} {rest : List TapEntry} (idle : s.reckoner = none)
    (head : s.tapQueue = e :: rest) (room : 3 ≤ officeFree s) :
    takeTaps s = takeTaps (takeHead e rest s) := by
  have taken : takeTap s = takeHead e rest s := by simp [takeTap, idle, head, room]
  simp [takeTaps, head, takeUpTo, taken]

/-- What each taking keeps, the takings at the end of a transaction keep. -/
theorem takeTaps_keeps {p : State → Prop} (keeps : ∀ s, p s → p (takeTap s)) {s : State} (h : p s) :
    p (takeTaps s) := by
  suffices all : ∀ n s, p s → p (takeUpTo n s) from all _ s h
  intro n
  induction n with
  | zero => exact fun _ h => h
  | succ n ih => exact fun s h => ih _ (keeps s h)

end Sys2Proof.Machine
end

