-- ==== Sys2Proof/WellFormed.lean ====
section
/-! DEFINITION. Which commands can be sent at all: an operand outside what the spec gives its event names no event. The meanings are total and do not need it. -/

namespace Sys2Proof

/-- A received frame has at least one byte: no event reaches a port for an empty string of bytes (R170). -/
def frameNonempty : List Byte → Bool
  | [] => false
  | _ :: _ => true

/-- A Tap Queue position is 0 to 63 (R4: the queue holds at most 64 taps). -/
def tapPlaceInRange : TapPlace → Bool
  | .queued i => i < 64
  | .reckoner => true

/-- Well-formed commands. -/
def Instr.wellFormed : Instr → Bool
  | .lineFrameReceived f => frameNonempty f
  | .officeFrameReceived f => frameNonempty f
  | .answerDeadlineExpiry p => tapPlaceInRange p
  | .rstnLow | .pinReset _ | .identify | .start | .halt | .restart | .restartLateRecord
  | .drainStepSetAside | .drainStep | .restartComplete | .setRunSettings | .timeMark | .counters
  | .tableWrite | .tableRead | .copyActive | .copyComplete | .discard | .activate
  | .validationComplete | .cancel | .activationFiring | .swap | .denyAdd | .denyRemove
  | .denyClear | .denyCheck | .journeyQuery | .journeyClose | .accountQuery
  | .journeyOperationSetAside _ | .journeyQueryGrant | .journeyCloseGrant | .accountQueryGrant
  | .replyPlacement _ | .reckonerTakeTap | .reckonerGrant | .sweepRequest | .sweepGrant
  | .rawTick | .slewComplete | .holdoverExpiry | .eventFramePlacement | .lineTransmitComplete
  | .officeTransmitComplete | .officeReadyIndication _ | .linkUp _ | .linkDown _ _ => true

end Sys2Proof
end

