-- ==== Sys2Proof/Tests/Slice0.lean ====
section
/-! SUPPORT. The model's own tests: ill-formed commands, worked cases of the manual, single steps, and for every obligation with hypotheses a concrete state and operands that meet them. -/

set_option Elab.async false

namespace Sys2Proof.Tests

open Sys2Proof Sys2Proof.Machine

/-! ### Small states -/

/-- The state a command leaves. -/
def after (c : Instr) (s : State) : State :=
  match exec c s with
  | .next t => t
  | .fault _ => s
  | .refused _ => s

/-- A list with some places replaced. -/
def place {α : Type} (l : List α) (changes : List (Nat × α)) : List α :=
  changes.foldl (fun m c => m.set c.1 c.2) l

/-- The generation of 2.6 and 3.11, off-peak all day. -/
def worked : Tables where
  stations := place Tables.emptied.stations [(0, ⟨true, 0, 0⟩), (1, ⟨true, 0, 320⟩),
    (2, ⟨true, 0, 745⟩), (3, ⟨true, 0, 1210⟩), (4, ⟨true, 0, 1690⟩), (5, ⟨true, 0, 2380⟩),
    (10, ⟨true, 1, 410⟩), (11, ⟨true, 1, 905⟩), (20, ⟨true, 2, 560⟩)]
  branches := [⟨true, none, 0⟩, ⟨true, some 3, 1⟩, ⟨true, some 4, 2⟩, ⟨false, none, 0⟩]
  scale := place Tables.emptied.scale [(0, ⟨500, 180⟩), (1, ⟨1000, 250⟩), (2, ⟨2000, 340⟩),
    (3, ⟨3000, 420⟩), (4, ⟨65535, 510⟩)]
  classes := place Tables.emptied.classes [(0, ⟨true, 1000, 1200, true⟩), (1, ⟨true, 500, 600, true⟩),
    (5, ⟨true, 0, 0, true⟩)]
  week := [0, 0, 0, 0, 0, 0, 0]
  exceptions := Tables.emptied.exceptions
  bands := place Tables.emptied.bands [(0, ⟨true, 0, 800⟩), (8, ⟨true, 0, 800⟩), (16, ⟨true, 0, 800⟩),
    (24, ⟨true, 0, 800⟩)]
  policy := some ⟨41, 180, 5, 150, 20, 30, 10, 180⟩

/-- Ten in the morning of service day 20,000, in line seconds. -/
def ten : Nat := 1728036000

/-- An engine in service at ten with that generation in slot A. -/
def live : State := { State.reset with
  tables := { State.reset.tables with slotA := ⟨.active, worked, 0, none⟩ }
  clock := { State.reset.clock with sec := ten, state := .locked, serviceDay := 20000 }
  mgmt := { State.reset.mgmt with service := .running } }

/-- A request held in a phase. -/
def held (q : Request) (p : Phase) : HeldRequest := ⟨9#8, 77, 1, q, p⟩

/-- A state with held requests. -/
def holding (rs : List HeldRequest) (s : State) : State := { s with mgmt := { s.mgmt with requests := rs } }

/-- A state in which one request has been taken. -/
def asked (q : Request) (s : State) : State := holding [held q .taken] s

/-- The replies that wait. -/
def repliesDue (s : State) : List Reply :=
  s.mgmt.requests.filterMap fun r => match r.phase with
    | .replyDue v => some v
    | _ => none

/-- A live tap of token 5 at a gate of station 1. -/
def tap (direction : Nat) : Tap := ⟨1, 2, direction, false, ten, 5#64, 0, 99, none, 5#8, 7#8⟩

/-- A tap in the Tap Queue, arrived at ten. -/
def queued (t : Tap) : TapEntry := ⟨t, ten, 0, 500, false⟩

/-- The wire bytes of `tap 1`. -/
def tapFrame : List Byte :=
  buildFrame 0xC0#8 5#8 kindTap 7#8 (beBytes 1 1 ++ beBytes 1 2 ++ beBytes 1 1 ++ [0#8]
    ++ beBytes 4 ten ++ beBytes 8 5 ++ beBytes 1 0 ++ beBytes 2 99)

/-- The Reckoner holds the store for a tap, its grant read in this state. -/
def reckoning (t : Tap) (s : State) : State := readGrant { s with
  reckoner := some ⟨queued t, t.gateTime, false⟩
  verdictQueue := { s.verdictQueue with reserved := 1 }
  officeQueue := { s.officeQueue with setAside := 3 }
  store := { s.store with arbiter := { s.store.arbiter with holder := some .reckoner } } }

/-- An open journey of a token under slot A, entered at a station and a time. -/
def journey (token : Token) (station time : Nat) : Journey :=
  ⟨token, 40, 0, station, time, none, .a, none, false, time, time + 10800, false⟩

/-- A state whose open journeys are these, tagged A. -/
def travelling (ways : List JourneyWay) (s : State) : State := { s with
  store := { s.store with journeys := ways }
  tables := { s.tables with slotA := { s.tables.slotA with refCount := ways.length } } }

/-- A state whose accounts are these. -/
def accounted (ways : List AccountWay) (s : State) : State := { s with
  store := { s.store with accounts := ways } }

/-- An account of token 5 on service day 20,000. -/
def account : Account := ⟨5#64, 20000, 0, 0, none, none, none⟩

/-- The Management Unit holds the store for an operation, its grant read in this state. -/
def operating (q : Request) (aside : Nat) (s : State) : State := readGrant { s with
  officeQueue := { s.officeQueue with setAside := aside }
  store := { s.store with arbiter := { s.store.arbiter with holder := some .management } }
  mgmt := { s.mgmt with requests := [held q .presented] } }

/-- The Sweep holds the store over these journeys, its grant read with the Sweep as given. -/
def sweeping (w : Sweep) (ways : List JourneyWay) (s : State) : State :=
  after .sweepRequest (travelling ways { s with sweep := w })

/-- A state with a slot B. -/
def withB (v : Slot) (s : State) : State := { s with tables := { s.tables with slotB := v } }

/-- A state with some Office Queue entries set aside. -/
def withAside (n : Nat) (s : State) : State := { s with
  officeQueue := { s.officeQueue with setAside := n } }

/-! ### Ill-formed commands (WellFormed) -/

theorem test_emptyLineFrame_illFormed : (Instr.lineFrameReceived []).wellFormed = false := rfl
theorem test_emptyOfficeFrame_illFormed : (Instr.officeFrameReceived []).wellFormed = false := rfl
theorem test_position64_illFormed :
    (Instr.answerDeadlineExpiry (.queued 64)).wellFormed = false := rfl
theorem test_position63_wellFormed :
    (Instr.answerDeadlineExpiry (.queued 63)).wellFormed = true := rfl
theorem test_oneByte_wellFormed : (Instr.lineFrameReceived [0#8]).wellFormed = true
    ∧ (Instr.officeFrameReceived [0#8]).wellFormed = true := ⟨rfl, rfl⟩

/-! ### Worked cases of the manual -/

/-- Paths of 2.6.1. -/
theorem test_distances : [dist worked 11 5, dist worked 10 20, dist worked 2 20, dist worked 11 10,
    dist worked 11 3, dist worked 0 5, dist worked 4 4, dist worked 6 5]
    = [some 2075, some 1450, some 1505, some 495, some 905, some 2380, some 0, none] := by
  decide +kernel

/-- Bands of 3.2. -/
theorem test_bands : [0, 1, 500, 501, 2075, 3000, 3001, 196602].map (scaleFare worked)
    = [0, 180, 180, 250, 420, 420, 510, 510] := by decide +kernel

/-- Case A of 3.11.1: a full journey capped. -/
theorem test_caseA : (fullPricing ⟨worked, 180⟩ 0 11 ten 5 none none (some 1000)).map
    (fun p => (p.distance, p.charge, p.spentAfter, p.shares, p.capReached))
    = some (2075, 200, some 1200, [⟨0, 113⟩, ⟨1, 87⟩], true) := by decide +kernel

/-- Case B of 3.11.2: the same journey with a pass from 3 to 5. -/
theorem test_caseB : (fullPricing ⟨worked, 180⟩ 0 11 ten 5 (some ⟨3, 5, 20000⟩) none (some 0)).map
    (fun p => (p.distance, p.charge)) = some (905, 200) := by decide +kernel

/-- The worked generation passes every check but the last under its own label (R139). -/
theorem test_validation : validate none worked = none
    ∧ (validate (some 41) worked).map CheckFailure.check = some 6 := by decide +kernel

/-- The worked folds of R64 and R86. -/
theorem test_folds : [0xA1F30#64, 0x123456789ABCDEF0#64].map journeySet = [3985, 2805]
    ∧ [0xA1F30#64, 0x123456789ABCDEF0#64].map accountSet = [8032, 7359] := by decide +kernel

/-- The generation with the calendar of 9.6.1. -/
def calendar : Tables := { worked with
  week := [0, 0, 0, 0, 0, 1, 2]
  exceptions := worked.exceptions.set 0 ⟨true, 20003, 2⟩
  bands := place worked.bands [(1, ⟨true, 150, 735⟩), (2, ⟨true, 210, 1250⟩), (3, ⟨true, 300, 800⟩),
    (4, ⟨true, 810, 1250⟩), (5, ⟨true, 990, 800⟩), (9, ⟨true, 480, 900⟩)] }

/-- The day types and factors of 9.6.1. -/
theorem test_calendar : [20000, 20003, 20004].map (dayType calendar) = [0, 2, 1]
    ∧ [(20000, 165), (20000, 250), (20000, 1430), (20003, 250), (20004, 540)].map
      (fun c => timeFactor calendar 180 (c.1 * 86400 + 10800 + c.2 * 60))
    = [735, 1250, 800, 800, 900] := by decide +kernel

/-- The CRC of R170 over the nine digits 1 to 9. -/
theorem test_crc : crc [0x31, 0x32, 0x33, 0x34, 0x35, 0x36, 0x37, 0x38, 0x39] = 0x29B1#16 := by
  decide +kernel

/-- Each check of validation fails where its rule says (R22, R39, R139). -/
theorem test_checks :
    check1 { worked with branches := worked.branches.set 0 ⟨false, none, 0⟩ } = some ⟨1, 2, 0⟩
    ∧ check1 { worked with branches := worked.branches.set 2 ⟨false, some 4, 2⟩ } = some ⟨1, 1, 20⟩
    ∧ check2 { worked with branches := worked.branches.set 1 ⟨true, some 10, 1⟩ } = some ⟨2, 2, 1⟩
    ∧ check3 { worked with stations := worked.stations.set 7 ⟨true, 0, 320⟩ } = some ⟨3, 1, 1⟩
    ∧ check4 { worked with scale := worked.scale.set 2 ⟨1000, 340⟩ } = some ⟨4, 3, 2⟩
    ∧ check5 { worked with classes := Tables.emptied.classes } = some ⟨5, 4, 0⟩
    ∧ check5 { worked with week := worked.week.set 6 4 } = some ⟨5, 5, 6⟩
    ∧ check5 { worked with exceptions := worked.exceptions.set 1 ⟨true, 20000, 0⟩ } = some ⟨5, 6, 1⟩
    ∧ check5 { worked with bands := worked.bands.set 25 ⟨true, 0, 800⟩ } = some ⟨5, 7, 25⟩
    ∧ check6 none { worked with policy := none } = some ⟨6, 8, 0⟩ := by decide +kernel

/-- A frame's CRC is checked over every bit of it (R170). -/
theorem test_frameChecks : (checkFrame tapFrame).isSome = true
    ∧ checkFrame (tapFrame.set 9 3#8) = none ∧ checkFrame tapFrame.dropLast = none := by
  decide +kernel

/-! ### Single steps -/

theorem test_rstnLow : (after .rstnLow live).rstnLow = true := rfl
theorem test_pinReset : (after (.pinReset 15#4) { live with rstnLow := true }).nodeAddress = 0xCF#8 := by
  decide +kernel
theorem test_lineFrame : (after (.lineFrameReceived tapFrame) live).tapQueue = [queued (tap 1)] := by
  decide +kernel
theorem test_officeFrame : (after (.officeFrameReceived
      (buildFrame 0xC0#8 0#8 kindRequest 9#8 [0#8, 77#8, 1#8])) live).mgmt.requests
    = [held .identify .taken] := by decide +kernel
theorem test_identify : (repliesDue (after .identify (asked .identify live))).map Reply.status
    = [.done] := by decide +kernel
theorem test_start : (after .start (asked .start { live with
    mgmt := { live.mgmt with service := .halted } })).mgmt.service = .running := by decide +kernel
theorem test_halt : (after .halt (asked .halt live)).mgmt.service = .halted := by decide +kernel
theorem test_restart : (after .restart (asked .restart live)).mgmt.drain = ⟨true, false, 0, 0⟩ := by
  decide +kernel
theorem test_setRunSettings : (after .setRunSettings (asked (.setRunSettings
      ⟨20000, 20000, 0, 0, 0, 0, 0, 0, 0, 1440⟩) live)).mgmt.settings
    = ⟨16384, 16383, 100, 10, 1, 1, 60, 100, 600, 1439⟩ := by decide +kernel
theorem test_timeMark : (after .timeMark (asked (.timeMark (ten + 1) 500) live)).clock.slew = 1500
    ∧ (after .timeMark (asked (.timeMark (ten + 3) 0) live)).clock.sec = ten + 3 := by decide +kernel
theorem test_counters : repliesDue (after .counters (asked (.counters true) live))
    = [⟨.done, .none, .counters {}⟩] := by decide +kernel
theorem test_tableWrite : (after .tableWrite (asked
      (.tableWrite .b 1 63 1 [1#8, 3#8, 0xFF#8, 0xFE#8]) live)).tables.slotB.tables.stations[63]?
    = some ⟨true, 3, 65534⟩ := by decide +kernel
theorem test_tableRead : repliesDue (after .tableRead (asked (.tableRead .a 3 4 1) live))
    = [⟨.done, .none, .entries 3 4 1 [0xFF#8, 0xFF#8, 1#8, 0xFE#8]⟩] := by decide +kernel
theorem test_copyActive : (after .copyActive (asked (.copyActive .b) live)).tables.slotB.state
    = .copying := by decide +kernel
theorem test_copyComplete : (after .copyComplete (after .copyActive (asked (.copyActive .b)
      live))).tables.slotB = ⟨.staging, worked, 0, none⟩ := by decide +kernel
theorem test_discard : (after .discard (asked (.discard .b)
      (withB ⟨.staging, worked, 0, none⟩ live))).tables.slotB = Slot.freed := by decide +kernel
theorem test_activate : (after .activate (asked (.activate .b none)
      (withB ⟨.staging, worked, 0, none⟩ live))).tables.slotB.state = .validating := by decide +kernel
theorem test_validationComplete : repliesDue (after .validationComplete (after .activate
      (asked (.activate .b none) (withB ⟨.staging, worked, 0, none⟩ live))))
    = [⟨.refused, .validation, .validation 6 8 0⟩] := by decide +kernel
theorem test_cancel : (after .cancel (asked (.cancel .b)
      (withB ⟨.pending, worked, 0, some (ten + 9)⟩ live))).tables.slotB
    = ⟨.staging, worked, 0, none⟩ := by decide +kernel
theorem test_firingAndSwap : (after .swap (after .activationFiring
      (withB ⟨.pending, worked, 0, some ten⟩ live))).tables.slotB = ⟨.active, worked, 0, none⟩ := by
  decide +kernel
theorem test_denyAdd : (after .denyAdd (asked (.denyAdd 5#64) { live with
      tables := { live.tables with denyList := [3#64, 9#64] } })).tables.denyList
    = [3#64, 5#64, 9#64] := by decide +kernel
theorem test_journeyQuery : repliesDue (after .journeyQuery (asked (.journeyQuery 5#64) live)) = []
    ∧ (after .journeyQuery (asked (.journeyQuery 5#64) live)).mgmt.requests.map HeldRequest.phase
      = [.waitingEntries] := by decide +kernel
theorem test_setAside : (after (.journeyOperationSetAside .earlier)
      (holding [held (.journeyClose 5#64 none none) .waitingEntries] live)).officeQueue.setAside = 2 := by
  decide +kernel
theorem test_accountQueryGrant : (after .accountQueryGrant
      (operating (.accountQuery 5#64 none) 1 live)).officeQueue.frames
    = [.reply 9#8 77 1 ⟨.done, .none, .accounts []⟩] := by decide +kernel
theorem test_replyPlacement : (after (.replyPlacement .earlier)
      (holding [held .start (.replyDue ⟨.done, .none, .nothing⟩)] live)).officeQueue.frames
    = [.reply 9#8 77 1 ⟨.done, .none, .nothing⟩] := by decide +kernel
theorem test_takeTap : (after .reckonerTakeTap { live with tapQueue := [queued (tap 1)] }).store.arbiter.holder
    = some .reckoner := by decide +kernel
theorem test_entryAdmitted : (after .reckonerGrant (reckoning (tap 1) live)).store.journeys.map JourneyWay.slot
      = [20] ∧ (after .reckonerGrant (reckoning (tap 1) live)).tables.slotA.refCount = 1 := by
  decide +kernel
theorem test_exitCompleted : ((after .reckonerGrant (reckoning (tap 2)
      (travelling [⟨20, journey 5#64 11 (ten - 600)⟩] live))).store.accounts.map
        fun w => (w.slot, w.account.day, w.account.spent)) = [(20, 20000, 270)] := by decide +kernel
theorem test_sweepGrant : (after .sweepGrant (after .sweepRequest live)).sweep.journeyCursor = 1 := by
  decide +kernel
/-- The Sweep asks again at its own release, and the Reckoner takes its next taps, one of them ended by screening, before it releases: what waits is chosen among, and counted against, with these requests (4.9, 7.9). -/
theorem test_nextRequestWaits :
    holder (after .sweepGrant (after .sweepRequest live)) = some .sweep
    ∧ (after .sweepGrant (after .reckonerTakeTap (after .sweepRequest
        { live with tapQueue := [queued (tap 1)] }))).store.arbiter
      = { Arbiter.reset with holder := some .reckoner, sweepWaiting := true, sweepWait := 1 }
    ∧ (after .reckonerGrant (after .sweepRequest (reckoning (tap 1)
        { live with tapQueue := [queued (tap 0), queued (tap 2)] }))).store.arbiter
      = { Arbiter.reset with holder := some .reckoner, sweepWaiting := true, sweepWait := 1 }
    ∧ (after .reckonerGrant (after .sweepRequest (reckoning (tap 1) live))).store.arbiter
      = { Arbiter.reset with holder := some .sweep } := by decide +kernel
theorem test_deadline : (after (.answerDeadlineExpiry (.queued 0)) { live with
      tapQueue := [{ queued (tap 1) with deadline := 0 }] }).mgmt.counters.fallbacksLate = 1 := by
  decide +kernel
theorem test_rawTick : (after .rawTick { live with clock := { live.clock with ms := 999 } }).clock.sec
    = ten + 1 := rfl
theorem test_linkDown : (after (.linkDown .line true) (after (.linkUp .line) live)).mgmt.counters.crcErrorsLine
    = 1 := by decide +kernel

/-! ### What meets the hypotheses: steps, pins and frames

Each theorem below names the obligation whose hypotheses its state and operands meet; a hypothesis that only names a value (`x = …`) is met by that value. -/

/-- The request is the next to be carried out in the state that has taken it. -/
abbrev isNext (q : Request) (s : State) : Prop := NextRequest (asked q s) [] (held q .taken) []

theorem test_meets_StepRunsFrontCommand : live.pending = [] := rfl
theorem test_meets_EveryCommandCompletes :
    nextTaken live = none ∧ live.tables.swapDue = none := by decide +kernel
theorem test_meets_RstnLowStopsThePorts : { live with rstnLow := true }.rstnLow = true
    ∧ Instr.start ≠ .rstnLow ∧ ∀ straps, Instr.start ≠ .pinReset straps :=
  ⟨rfl, nofun, nofun⟩
theorem test_meets_AcceptedFramesAreBuiltFrames :
    checkFrame tapFrame = some ⟨0xC0#8, 5#8, kindTap, 7#8, slice 6 19 tapFrame⟩
    ∧ (slice 6 19 tapFrame).length ≤ 1024
    ∧ tapFrame = buildFrame 0xC0#8 5#8 kindTap 7#8 (slice 6 19 tapFrame) := by decide +kernel
/-- The greatest value of every field. -/
theorem test_meets_BodiesAreReadAsLaidOut_tap :
    (255 < 256 ∧ 4294967295 < 4294967296 ∧ 65535 < 65536)
    ∧ (∀ p, some (Pass.mk 255 255 65535) = some p →
        p.fromStation < 256 ∧ p.toStation < 256 ∧ p.lastDay < 65536)
    ∧ ∀ p, (none : Option Pass) = some p →
        p.fromStation < 256 ∧ p.toStation < 256 ∧ p.lastDay < 65536 := by
  refine ⟨by decide, ?_, nofun⟩
  intro p h
  cases h
  decide
/-- The greatest value of every field; a junction of 254, and none. -/
theorem test_meets_BodiesAreReadAsLaidOut_entries :
    ((StationEntry.mk true 255 65535).branch < 256 ∧ (StationEntry.mk true 255 65535).chainage < 65536)
    ∧ (∀ j, (BranchEntry.mk true (some 254) 255).junction = some j → j < 255)
    ∧ (∀ j, (BranchEntry.mk true none 255).junction = some j → j < 255)
    ∧ (Policy.mk 65535 65535 255 65535 255 255 255 65535).label < 65536
    ∧ (Policy.mk 65535 65535 255 65535 255 255 255 65535).minimumFare < 65536 := by
  refine ⟨by decide, ?_, nofun, by decide⟩
  intro j h
  cases h
  decide

/-- Parameters of JOURNEY CLOSE for token 5 with both optional fields present, and of ACTIVATE for slot B with an absent time. -/
theorem test_meets_BodiesAreReadAsLaidOut_laidOut :
    RequestLaidOut 0x31#8 ([0, 0, 0, 0, 0, 0, 0, 5, 1, 63, 2, 0, 0, 1, 0] : List Byte)
      (.journeyClose 5#64 (some 63) (some 256))
    ∧ RequestLaidOut 0x14#8 ([1, 0, 9, 9, 9, 9] : List Byte) (.activate .b none)
    ∧ RequestLaidOut 0x10#8 ([1, 5, 6, 1, 3] : List Byte) (.tableWrite .b 5 6 1 [3#8])
    ∧ (∀ q, ¬ RequestLaidOut 0xFF#8 [] q)
    ∧ (buildFrame 0xC0#8 0#8 kindRequest 9#8 []).length = 8 :=
  ⟨⟨rfl, [1, 63], [2, 0, 0, 1, 0], rfl, ⟨1, 63, by decide, rfl, rfl⟩, ⟨2, 256, by decide, rfl, rfl⟩⟩,
    ⟨rfl, [0, 9, 9, 9, 9], rfl, 0, 0x09090909, by decide, by decide, rfl⟩,
    ⟨rfl, by decide, by decide, by decide, rfl, fun size h => by cases h; rfl⟩,
    fun q => by cases q <;> simp [RequestLaidOut],
    rfl⟩

/-- What a request body of these parameters is read as. -/
def readRequest (code : Byte) (parameters : List Byte) : Request :=
  parseRequest ⟨0xC0#8, 0#8, kindRequest, 9#8, [0xFF, 0xFF, code] ++ parameters⟩

/-- Codes, parameters and requests as R173 lays them out; a parameter too few is Malformed. -/
theorem test_requestBodies :
    readRequest 0x06 [0xFF, 0xFF, 0xFF, 0xFF, 3, 0xE7] = .timeMark 4294967295 999
    ∧ readRequest 0x07 [2] = .counters true
    ∧ readRequest 0x11 [0, 1, 63, 1] = .tableRead .a 1 63 1
    ∧ readRequest 0x14 [1, 1, 0, 0, 1, 0] = .activate .b (some 256)
    ∧ readRequest 0x14 [2, 0, 0, 0, 0, 0] = .malformed
    ∧ readRequest 0x20 [0, 0, 0, 0, 0, 0, 1, 5] = .denyAdd 261#64
    ∧ readRequest 0x32 [0, 0, 0, 0, 0, 0, 0, 5, 1, 0x4E, 0x20] = .accountQuery 5#64 (some 20000)
    ∧ readRequest 0x32 [0, 0, 0, 0, 0, 0, 0, 5, 1, 0x4E] = .malformed := by decide +kernel

/-- The frame of `tap 1` arrives in any state that is awake under node C0H. -/
theorem test_tapFrame_arrives (s : State) (h : s.rstnLow = false) (n : s.nodeAddress = 0xC0#8) :
    TapArrives s tapFrame (tap 1) :=
  ⟨h, ⟨0xC0#8, 5#8, kindTap, 7#8, slice 6 19 tapFrame⟩, by decide +kernel, rfl, n.symm, by decide +kernel⟩

theorem test_meets_DiscardedFramesAreCounted_bad :
    live.rstnLow = false ∧ checkFrame tapFrame.dropLast = none := by decide +kernel
theorem test_meets_DiscardedFramesAreCounted_noPlace :
    ∃ s, TapArrives s tapFrame (tap 1) ∧ verdictFree s = 0 :=
  ⟨{ live with verdictQueue := ⟨[], 128⟩ }, test_tapFrame_arrives _ rfl rfl, by decide⟩
theorem test_meets_DiscardedFramesAreCounted_length : live.rstnLow = false
    ∧ checkFrame (buildFrame 0xC0#8 5#8 kindTap 7#8 [1#8])
      = some ⟨0xC0#8, 5#8, kindTap, 7#8, [1#8]⟩
    ∧ 0xC0#8 = live.nodeAddress ∧ [1#8].length ≠ 19 ∧ [1#8].length ≠ 23 := by decide +kernel
/-- The last free verdict place and the last entry of the Tap Queue. -/
theorem test_meets_TapQueuedAtArrival : ∃ s, TapArrives s tapFrame (tap 1) ∧ verdictFree s = 1
    ∧ s.mgmt.service = .running ∧ s.tapQueue.length = 63 :=
  ⟨{ live with
      verdictQueue := ⟨[], 127⟩
      tapQueue := List.replicate 63 (queued (tap 1)) }, test_tapFrame_arrives _ rfl rfl,
    by decide +kernel⟩
theorem test_meets_TapAnsweredAtArrival_full : ∃ s, TapArrives s tapFrame (tap 1) ∧ 1 ≤ verdictFree s
    ∧ s.mgmt.service = .running ∧ s.tapQueue.length = 64 :=
  ⟨{ live with tapQueue := List.replicate 64 (queued (tap 1)) }, test_tapFrame_arrives _ rfl rfl,
    by decide +kernel⟩
theorem test_meets_TapAnsweredAtArrival_halted : ∀ n ∈ [0, 1], ∃ s, TapArrives s tapFrame (tap 1)
    ∧ 1 ≤ verdictFree s ∧ s.mgmt.service = .halted ∧ officeFree s = n := by
  intro n h
  refine ⟨withAside (2048 - n) { live with mgmt := State.reset.mgmt }, test_tapFrame_arrives _ rfl rfl, ?_⟩
  revert n
  decide +kernel
/-- With 4 entries free, and with 3. -/
theorem test_meets_StationFrameForwarded : ∀ n ∈ [3, 4], ∃ f : ReceivedFrame,
    (withAside (2048 - n) live).rstnLow = false
    ∧ checkFrame (buildFrame 0#8 5#8 0x44#8 7#8 []) = some f
    ∧ ¬ (f.kind = kindTap ∧ f.destination = live.nodeAddress)
    ∧ officeFree (withAside (2048 - n) live) = n := by
  intro n h
  refine ⟨⟨0#8, 5#8, 0x44#8, 7#8, []⟩, ?_⟩
  revert n
  decide +kernel
/-- A request slot free; both held with an entry free, and with none. -/
theorem test_meets_OfficeFrameRouted_engine : live.rstnLow = false
    ∧ checkFrame (buildFrame 0xC0#8 0#8 kindRequest 9#8 [0#8, 77#8, 1#8])
      = some ⟨0xC0#8, 0#8, kindRequest, 9#8, [0#8, 77#8, 1#8]⟩
    ∧ (asked .start live).mgmt.requests.length < 2
    ∧ ∀ n ∈ [0, 1], (holding [held .start .taken, held .halt .taken]
        (withAside (2048 - n) live)).mgmt.requests.length = 2
      ∧ officeFree (holding [held .start .taken, held .halt .taken] (withAside (2048 - n) live)) = n := by
  decide +kernel
/-- The Forward Queue with one place left, and full. -/
theorem test_meets_OfficeFrameRouted_forward : ∀ n ∈ [255, 256],
    checkFrame (buildFrame 5#8 0#8 kindRequest 9#8 []) = some ⟨5#8, 0#8, kindRequest, 9#8, []⟩
    ∧ 5#8 ≠ live.nodeAddress
    ∧ { live with forwardQueue := List.replicate n [1#8] }.forwardQueue.length = n := by
  decide +kernel

/-! ### Transmission, links, service -/

/-- Each state of the transmitters that a clause of FramesAreSent speaks of. -/
theorem test_meets_FramesAreSent :
    (∃ s : State, s.rstnLow = false ∧ s.linePort = ⟨.up, none⟩
      ∧ s.verdictQueue.frames = [plainVerdict (tap 1) .go .none] ∧ s.forwardQueue = [[1#8]])
    ∧ (∃ s : State, s.rstnLow = false ∧ s.linePort = ⟨.up, none⟩ ∧ s.verdictQueue.frames = []
      ∧ s.forwardQueue = [[1#8]])
    ∧ (∃ s : State, s.linePort.link = .up ∧ s.linePort.sending = none
      ∧ s.verdictQueue.frames = [] ∧ s.forwardQueue = [])
    ∧ (∃ s : State, s.rstnLow = false ∧ s.linePort.sending = some ⟨.verdict, []⟩
      ∧ s.verdictQueue.frames = [plainVerdict (tap 1) .go .none])
    ∧ (∃ s : State, s.rstnLow = false ∧ s.linePort.sending = some ⟨.forward, [1#8]⟩
      ∧ s.forwardQueue = [[1#8]]) :=
  ⟨⟨{ live with
      linePort := ⟨.up, none⟩
      verdictQueue := ⟨[plainVerdict (tap 1) .go .none], 0⟩
      forwardQueue := [[1#8]] }, rfl, rfl, rfl, rfl⟩,
    ⟨{ live with linePort := ⟨.up, none⟩, forwardQueue := [[1#8]] }, rfl, rfl, rfl, rfl⟩,
    ⟨{ live with linePort := ⟨.up, none⟩ }, rfl, rfl, rfl, rfl⟩,
    ⟨{ live with
      linePort := ⟨.up, some ⟨.verdict, []⟩⟩
      verdictQueue := ⟨[plainVerdict (tap 1) .go .none], 0⟩ }, rfl, rfl, rfl⟩,
    ⟨{ live with linePort := ⟨.up, some ⟨.forward, [1#8]⟩⟩, forwardQueue := [[1#8]] }, rfl, rfl, rfl⟩⟩
/-- A forwarded frame that RESTART has dropped from its queue, under way. -/
theorem test_meets_FramesAreSent_dropped : ∃ s : State, s.rstnLow = false ∧ s.forwardQueue = []
    ∧ s.linePort.sending = some ⟨.dropped, [1#8]⟩ :=
  ⟨after .restart (asked .restart { live with
    linePort := ⟨.up, some ⟨.forward, [1#8]⟩⟩, forwardQueue := [[1#8]] }), by decide +kernel⟩
theorem test_meets_FramesAreSent_office :
    (∃ s : State, s.rstnLow = false ∧ s.officePort = ⟨.up, true, none⟩
      ∧ s.officeQueue.frames = [.forwarded [1#8]])
    ∧ (∃ s : State, s.officePort.ready = false) ∧ (∃ s : State, s.officePort.sending = none)
    ∧ ∃ s : State, s.rstnLow = false ∧ s.officePort.sending = some [1#8]
      ∧ s.officeQueue.frames = [.forwarded [1#8]] :=
  ⟨⟨{ live with
      officePort := ⟨.up, true, none⟩
      officeQueue := ⟨[.forwarded [1#8]], 0, 0⟩ }, rfl, rfl, rfl⟩,
    ⟨live, rfl⟩, ⟨live, rfl⟩,
    ⟨{ live with
      officePort := ⟨.up, true, some [1#8]⟩
      officeQueue := ⟨[.forwarded [1#8]], 0, 0⟩ }, rfl, rfl, rfl⟩⟩
theorem test_meets_LinkStatesChange : live.rstnLow = false ∧ live.linePort.link = .down
    ∧ live.officePort.link = .down ∧ (after (.linkUp .line) live).linePort.link = .up
    ∧ (after (.linkUp .office) live).officePort.link = .up := by decide +kernel
/-- IDENTIFY, COUNTERS, HALT, and START under each of its conditions. -/
theorem test_meets_ServiceRequestsAnswered :
    isNext .identify live ∧ isNext (.counters true) live ∧ isNext .halt live
    ∧ (isNext .start (after .restart (asked .restart live))
      ∧ (after .restart (asked .restart live)).mgmt.drain.inProgress = true)
    ∧ (isNext .start State.reset ∧ State.reset.mgmt.drain.inProgress = false
      ∧ activeSlot State.reset = none)
    ∧ (isNext .start { live with clock := State.reset.clock } ∧ activeSlot live ≠ none
      ∧ State.reset.clock.state = .unset)
    ∧ isNext .start live ∧ live.clock.state ≠ .unset := by decide +kernel
/-- With a service day that the settings move forward, and with one that they leave. -/
theorem test_meets_SettingsTaken : ∀ v ∈ [RunSettings.reset, ⟨1024, 1023, 100, 10, 1, 1, 60, 100, 600, 1439⟩,
      ⟨16384, 16383, 2000, 3600, 48, 60, 86400, 60000, 86400, 0⟩], isNext (.setRunSettings v) live := by
  decide +kernel
theorem test_meets_SettingsTaken_day :
    live.clock.serviceDay = (after .setRunSettings (asked (.setRunSettings RunSettings.reset) live)).clock.serviceDay
    ∧ { live.clock with serviceDay := 19999 }.serviceDay < (after .setRunSettings
      (asked (.setRunSettings RunSettings.reset)
        { live with clock := { live.clock with serviceDay := 19999 } })).clock.serviceDay := by
  decide +kernel
/-- Settings that end and begin spill mode, that free a clock, and that move the day: each event they raise. -/
theorem test_meets_SettingsTaken_events :
    (after .setRunSettings (asked (.setRunSettings { RunSettings.reset with holdover := 60 })
      { live with
        sweep := { live.sweep with spillMode := true }
        clock := { live.clock with holdover := 60000, serviceDay := 19999 } })).mgmt.events.map
          PendingEvent.kind = [.pressureOff, .clockFreeRunning, .dayRollover] := by decide +kernel

/-! ### Time Marks -/

/-- Malformed at 1,000; stepped under an Unset clock and one millisecond beyond the threshold. -/
theorem test_meets_TimeMarkStepped : (isNext (.timeMark ten 1000) live ∧ 999 < 1000)
    ∧ (isNext (.timeMark ten 999) { live with clock := State.reset.clock }
      ∧ State.reset.clock.state = .unset)
    ∧ isNext (.timeMark (ten + 2) 1) live
    ∧ live.mgmt.settings.stepThreshold
      < (((ten + 2) * 1000 + 1 : Nat) - (live.clock.sec * 1000 + live.clock.ms : Nat) : Int).natAbs := by
  decide +kernel
/-- A mark that steps line time to just the effective time of a Pending slot, and one that stays a second short of it. -/
theorem test_meets_TimeMarkStepped_firing : ∀ c ∈ [(ten + 3, some SlotId.b), (ten + 4, none)],
    isNext (.timeMark (ten + 3) 0) (withB ⟨.pending, worked, 0, some c.1⟩ live)
    ∧ swapDueAt (withB ⟨.pending, worked, 0, some c.1⟩ live) (ten + 3) = c.2
    ∧ (after .timeMark (asked (.timeMark (ten + 3) 0)
      (withB ⟨.pending, worked, 0, some c.1⟩ live))).tables.swapDue = c.2 := by decide +kernel
/-- An error of just the threshold, and one of 0; without and with a rate measurement. -/
theorem test_meets_TimeMarkSlewed : isNext (.timeMark (ten + 2) 0) live
    ∧ (((ten + 2) * 1000 + 0 : Nat) - (live.clock.sec * 1000 + live.clock.ms : Nat) : Int).natAbs
      ≤ live.mgmt.settings.stepThreshold
    ∧ live.clock.state ≠ .unset ∧ live.clock.rate = none
    ∧ isNext (.timeMark ten 0) live := by decide +kernel
/-- A mark before the reference, one a millisecond short of the measurement span, and one of just the span. -/
theorem test_meets_TimeMarkSlewed_rate :
    (∀ r ∈ [ten * 1000 + 1, ten * 1000 - 3599999, ten * 1000 - 3600000],
      isNext (.timeMark ten 0) { live with clock := { live.clock with rate := some ⟨r, 7, 0⟩ } })
    ∧ ten * 1000 < ten * 1000 + 1
    ∧ ten * 1000 - (ten * 1000 - 3599999) < live.mgmt.settings.measurementSpan * 1000
    ∧ ten * 1000 - (ten * 1000 - 3600000) = live.mgmt.settings.measurementSpan * 1000 := by
  decide +kernel

/-! ### Fare generations -/

/-- A slot in a state, with the worked tables. -/
def slotAt (v : SlotState) : Slot := ⟨v, worked, 0, none⟩

/-- The worked tables under another label. -/
def labelled (n : Nat) : Tables :=
  { worked with policy := worked.policy.map (fun p => { p with label := n }) }

/-- A window ill-formed by its table, its count or its end; the last entry of a table into a Staging slot and into a Free one; an entry out of range. -/
theorem test_meets_TableWriteStoresEntries :
    (∀ w ∈ [(0, 0, 1), (9, 0, 1), (1, 0, 0), (1, 63, 2)],
      isNext (.tableWrite .b w.1 w.2.1 w.2.2 []) live ∧ tableWindow w.1 w.2.1 w.2.2 = none)
    ∧ (isNext (.tableWrite .b 5 6 1 [3#8]) (withB (slotAt .staging) live)
      ∧ tableWindow 5 6 1 = some 1 ∧ firstOutOfRange 5 6 (chunks 1 1 [3#8]) = none)
    ∧ (isNext (.tableWrite .b 5 6 1 [3#8]) live ∧ live.tables.slotB.state = .free
      ∧ (slotOf live (SlotId.other .b)).state.loading = false)
    ∧ firstOutOfRange 1 63 (chunks 4 1 [1#8, 4#8, 0#8, 0#8]) = some 63
    ∧ tableWindow 1 63 1 = some 4 := by decide +kernel
/-- The refusing states of TABLE WRITE. -/
theorem test_meets_TableWriteStoresEntries_refused :
    (∀ v ∈ [SlotState.copying, .validating, .pending, .active, .retiring],
      isNext (.tableWrite .b 5 6 1 [3#8]) (withB (slotAt v) live)
      ∧ (slotOf (withB (slotAt v) live) .b).state = v)
    ∧ isNext (.tableWrite .a 5 6 1 [3#8]) (withB (slotAt .staging) State.reset)
    ∧ (slotOf (withB (slotAt .staging) State.reset) (SlotId.other .a)).state.loading = true
    ∧ (slotOf State.reset .a).state = .free := by decide +kernel
/-- Entries that reach just the end of each table. -/
theorem test_meets_TableWriteStoresEntries_lengths :
    63 + [[1#8]].length ≤ worked.stations.length ∧ 3 + [[1#8]].length ≤ worked.branches.length
    ∧ 31 + [[1#8]].length ≤ worked.scale.length ∧ 7 + [[1#8]].length ≤ worked.classes.length
    ∧ 6 + [[1#8]].length ≤ worked.week.length ∧ 31 + [[1#8]].length ≤ worked.exceptions.length
    ∧ 31 + [[1#8]].length ≤ worked.bands.length := by decide +kernel
/-- Entries at the end of their ranges, and just beyond it (R20, R21, R130, R132, R133). -/
theorem test_entryRanges :
    [entryInRange 1 63 (stationBytes ⟨true, 3, 65534⟩), entryInRange 2 3 (branchBytes ⟨true, some 63, 3⟩),
      entryInRange 2 0 (branchBytes ⟨true, none, 3⟩), entryInRange 4 7 (classBytes ⟨true, 1000, 65535, true⟩),
      entryInRange 7 31 (bandBytes ⟨true, 1439, 2000⟩),
      entryInRange 8 0 (policyBytes ⟨65535, 720, 60, 65535, 120, 60, 100, 65535⟩)].all id = true
    ∧ [entryInRange 1 63 (stationBytes ⟨true, 4, 0⟩), entryInRange 1 63 (stationBytes ⟨true, 0, 65535⟩),
      entryInRange 2 3 (branchBytes ⟨true, some 64, 3⟩), entryInRange 2 0 (branchBytes ⟨true, some 1, 3⟩),
      entryInRange 2 3 (branchBytes ⟨true, none, 4⟩), entryInRange 4 7 (classBytes ⟨true, 1001, 0, true⟩),
      entryInRange 7 31 (bandBytes ⟨true, 1440, 0⟩), entryInRange 7 31 (bandBytes ⟨true, 0, 2001⟩),
      entryInRange 8 0 (policyBytes ⟨0, 720, 60, 0, 0, 1, 1, 0⟩),
      entryInRange 8 0 (policyBytes ⟨1, 9, 60, 0, 0, 1, 1, 0⟩),
      entryInRange 8 0 (policyBytes ⟨1, 10, 60, 0, 0, 0, 1, 0⟩),
      entryInRange 8 0 (policyBytes ⟨1, 10, 60, 0, 0, 1, 3, 0⟩)].any id = false := by decide +kernel
theorem test_meets_TableReadReplies :
    (isNext (.tableRead .b 9 0 1) live ∧ tableWindow 9 0 1 = none)
    ∧ tableWindow 1 63 1 ≠ none ∧ tableWindow 8 0 1 ≠ none
    ∧ (isNext (.tableRead .b 1 63 1) live ∧ (slotOf live .b).state = .free)
    ∧ isNext (.tableRead .b 1 63 1) (withB (slotAt .copying) live)
    ∧ isNext (.tableRead .a 1 63 1) live ∧ (slotOf live .a).state ≠ .free
    ∧ (slotOf live .a).state ≠ .copying := by decide +kernel
/-- The last entry of each table. -/
theorem test_meets_TableReadReplies_entries :
    (∃ a l, worked.stations = a ++ l ++ [] ∧ l.length = 1 ∧ a.length = 63)
    ∧ (∃ a l, worked.bands = a ++ l ++ [] ∧ l.length = 1 ∧ a.length = 31)
    ∧ worked.policy = some ⟨41, 180, 5, 150, 20, 30, 10, 180⟩ :=
  ⟨⟨worked.stations.take 63, worked.stations.drop 63, by decide +kernel⟩,
    ⟨worked.bands.take 31, worked.bands.drop 31, by decide +kernel⟩, rfl⟩
theorem test_meets_CopyActiveAndComplete :
    (isNext (.copyActive .b) live ∧ activeSlot live ≠ none ∧ (slotOf live .b).state = .free)
    ∧ (isNext (.copyActive .b) State.reset ∧ activeSlot State.reset = none)
    ∧ (∀ v ∈ [SlotState.validating, .pending],
      isNext (.copyActive .b) (withB (slotAt v) State.reset)
      ∧ activeSlot (withB (slotAt v) State.reset) = none)
    ∧ (∀ v ∈ [SlotState.staging, .copying, .validating, .pending, .retiring],
      isNext (.copyActive .b) (withB (slotAt v) live) ∧ activeSlot (withB (slotAt v) live) ≠ none)
    ∧ isNext (.copyActive .a) live ∧ (slotOf live .a).state = .active
    ∧ (slotIn (· == .copying) (after .copyActive (asked (.copyActive .b) live)) = some .b
      ∧ activeSlot (after .copyActive (asked (.copyActive .b) live)) = some .a
      ∧ (after .copyActive (asked (.copyActive .b) live)).mgmt.requests
        = [held (.copyActive .b) .underway]) := by decide +kernel
theorem test_meets_DiscardAndCancel :
    (∀ q ∈ [Request.discard .b, .cancel .b],
      (isNext q { withB (slotAt .pending) live with
          tables := { (withB (slotAt .pending) live).tables with swapDue := some .b } }
        ∧ holder live ≠ some .reckoner)
      ∧ ∀ v ∈ [SlotState.free, .staging, .validating, .pending, .active, .retiring],
        isNext q (withB (slotAt v) live) ∧ (withB (slotAt v) live).tables.swapDue = none)
    ∧ NextRequest (holding [held (.copyActive .b) .underway, held (.discard .b) .taken]
        (withB (slotAt .copying) live)) [held (.copyActive .b) .underway] (held (.discard .b) .taken) []
    ∧ (Request.copyActive .b).isCopy = true := by decide +kernel
theorem test_meets_ActivateAndValidate :
    (∀ e ∈ [none, some ten], isNext (.activate .b e) (withB (slotAt .staging) live)
      ∧ live.clock.state ≠ .unset)
    ∧ (isNext (.activate .b (some 0)) (withB (slotAt .staging) State.reset)
      ∧ State.reset.clock.state = .unset)
    ∧ ∀ v ∈ [SlotState.free, .copying, .validating, .pending, .active, .retiring],
      isNext (.activate .b none) (withB (slotAt v) live) := by decide +kernel
/-- A validation that fails, one that passes for a later moment, one that passes for just now, and one for at once. -/
theorem test_meets_ActivateAndValidate_complete :
    ∀ c ∈ [(41, none), (42, some (ten + 1)), (42, some ten), (42, none)], ∃ s : State,
      s.rstnLow = false ∧ slotIn (· == .validating) s = some .b ∧ s.tables.swapDue ≠ some .b
      ∧ s.mgmt.requests = [held (.activate .b c.2) .underway]
      ∧ (Request.activate .b c.2).isActivate = true
      ∧ (validate (activeLabel s) (slotOf s .b).tables = none ↔ c.1 = 42)
      ∧ (slotOf s .b).effective = c.2 ∧ s.clock.sec = ten := by
  intro c h
  refine ⟨holding [held (.activate .b c.2) .underway]
    (withB ⟨.validating, labelled c.1, 0, c.2⟩ live), ?_⟩
  revert c
  decide +kernel
/-- An effective time just reached, and one a second ahead; a swap that the Reckoner holds back, and one that nothing does. -/
theorem test_meets_SwapChangesTheActiveSlot :
    (∀ e ∈ [ten, ten + 1], slotIn (· == .pending) (withB ⟨.pending, worked, 0, some e⟩ live) = some .b
      ∧ (slotOf (withB ⟨.pending, worked, 0, some e⟩ live) .b).effective = some e
      ∧ live.rstnLow = false ∧ live.tables.swapDue = none ∧ live.clock.sec = ten)
    ∧ (after .activationFiring (withB ⟨.pending, worked, 0, some ten⟩ live)).tables.swapDue = some .b
    ∧ holder live ≠ some .reckoner ∧ holder (reckoning (tap 1) live) = some .reckoner := by
  decide +kernel

/-! ### The Deny List and the journey operations -/

/-- A Deny List of so many tokens. -/
def denying (n : Nat) (s : State) : State := { s with
  tables := { s.tables with denyList := (List.range n).map (BitVec.ofNat 64) } }

theorem test_meets_DenyAddAndRemove :
    (∀ k ∈ [2, 3], isNext (.denyAdd (BitVec.ofNat 64 k)) (denying 3 live)
      ∧ DenyListSound (denying 3 live)
      ∧ (BitVec.ofNat 64 k ∈ (denying 3 live).tables.denyList ↔ k = 2))
    ∧ (∀ k ∈ [2, 3], isNext (.denyRemove (BitVec.ofNat 64 k)) (denying 3 live))
    ∧ (denying 3 live).tables.denyList = [0#64, 1#64] ++ 2#64 :: [] := by decide +kernel
/-- Ascending tokens, as many as may be. -/
theorem test_denying_sound (n : Nat) (most : n ≤ 8192) : isNext (.denyAdd 8192#64) (denying n live)
    ∧ DenyListSound (denying n live) ∧ 8192#64 ∉ (denying n live).tables.denyList
    ∧ (denying n live).tables.denyList.length = n := by
  have entries : (denying n live).tables.denyList = (List.range n).map (BitVec.ofNat 64) := rfl
  refine ⟨⟨rfl, rfl, fun _ h => absurd h List.not_mem_nil, rfl⟩, ⟨?_, ?_⟩, ?_, ?_⟩
  · rw [entries, List.map_map, List.pairwise_map]
    refine List.Pairwise.imp_of_mem ?_ List.pairwise_lt_range
    intro a b ha hb h
    simp only [List.mem_range, Function.comp_apply, BitVec.toNat_ofNat] at *
    omega
  · simpa [entries] using most
  · rw [entries]
    simp only [List.mem_map, List.mem_range, not_exists, not_and]
    intro a h e
    have := congrArg BitVec.toNat e
    simp only [BitVec.toNat_ofNat] at this
    omega
  · simp [entries]
theorem test_meets_DenyAddAndRemove_full : ∃ s, isNext (.denyAdd 8192#64) s ∧ DenyListSound s
    ∧ 8192#64 ∉ s.tables.denyList ∧ s.tables.denyList.length = 8192 := by
  suffices h : ∀ n, n = 8192 → ∃ s, isNext (.denyAdd 8192#64) s ∧ DenyListSound s
      ∧ 8192#64 ∉ s.tables.denyList ∧ s.tables.denyList.length = 8192 from h 8192 rfl
  intro n full
  obtain ⟨next, sound, absent, length⟩ := test_denying_sound n (Nat.le_of_eq full)
  exact ⟨denying n live, next, sound, absent, length.trans full⟩
theorem test_meets_DenyClearAndCheck : isNext .denyClear (denying 3 live) ∧ DenyListSound (denying 3 live)
    ∧ ∀ k ∈ [2, 3], isNext (.denyCheck (BitVec.ofNat 64 k)) (denying 3 live)
      ∧ (BitVec.ofNat 64 k ∈ (denying 3 live).tables.denyList ↔ k = 2) := by decide +kernel
theorem test_meets_JourneyOperationsWaitForEntries : ∀ q ∈ [Request.journeyQuery 5#64,
      .accountQuery 5#64 none, .accountQuery 5#64 (some 0), .journeyClose 5#64 none none,
      .journeyClose 5#64 (some 63) (some ten), .journeyClose 5#64 (some 64) (some ten),
      .journeyClose 5#64 (some 3) none, .journeyClose 5#64 none (some ten)], isNext q live := by
  decide +kernel
/-- One entry free, and two, for a JOURNEY CLOSE; with nothing outstanding, and while the other operation is. -/
theorem test_meets_JourneyOperationsWaitForEntries_aside :
    (∀ n ∈ [1, 2], officeFree (withAside (2048 - n)
        (holding [held (.journeyClose 5#64 none none) .waitingEntries] live)) = n
      ∧ outstanding (holding [held (.journeyClose 5#64 none none) .waitingEntries] live) = 0
      ∧ heldIndex .earlier = [].length (α := HeldRequest))
    ∧ outstanding (holding [held (.journeyQuery 5#64) .presented, held (.journeyQuery 6#64) .waitingEntries]
        live) ≠ 0
    ∧ heldIndex .later = [held (.journeyQuery 5#64) .presented].length := by decide +kernel
/-- One entry free: a JOURNEY CLOSE that needs 2 waits before a query that needs 1; and a query that has its entry before another that takes the last. -/
theorem test_meets_JourneyOperationsWaitForEntries_turn :
    ∀ r ∈ [held (.journeyClose 5#64 none none) .waitingEntries, held (.journeyQuery 5#64) .ready],
    (holding [r, held (.journeyQuery 6#64) .waitingEntries] (withAside 2047 live)).mgmt.requests
      = [] ++ r :: [] ++ held (.journeyQuery 6#64) .waitingEntries :: []
    ∧ heldIndex .later = [r].length
    ∧ officeFree (holding [r, held (.journeyQuery 6#64) .waitingEntries] (withAside 2047 live)) = 1
    ∧ outstanding (holding [r, held (.journeyQuery 6#64) .waitingEntries] (withAside 2047 live)) = 0
    ∧ (after (.journeyOperationSetAside .later)
        (holding [r, held (.journeyQuery 6#64) .waitingEntries] (withAside 2047 live))).mgmt.requests.map
          HeldRequest.phase
      = [if r.phase = .ready then .presented else .waitingEntries, .ready] := by decide +kernel
/-- Token 5 travelling, and not; its account listed. -/
theorem test_meets_QueriesAnswered :
    (GrantedOperation (operating (.journeyQuery 5#64) 1 live) [] (held (.journeyQuery 5#64) .presented) []
      ∧ findJourney live 5#64 = none)
    ∧ findJourney (operating (.journeyQuery 5#64) 1 (travelling [⟨20, journey 5#64 11 ten⟩] live)) 5#64
      = some ⟨20, journey 5#64 11 ten⟩
    ∧ GrantedOperation (operating (.accountQuery 5#64 none) 1 (accounted [⟨20, account⟩] live)) []
      (held (.accountQuery 5#64 none) .presented) []
    ∧ AccountsSound (accounted [⟨20, account⟩] live) := by decide +kernel
theorem test_meets_StoreReleasedAndHandedOn :
    (live.tables.swapDue = none ∧ Arbiter.reset.choose false = none
      ∧ ({ Arbiter.reset with sweepWaiting := true }).choose false = some .sweep)
    ∧ (after .activationFiring (withB ⟨.pending, worked, 0, some ten⟩ live)).tables.swapDue = some .b
    ∧ (outstanding (operating (.journeyQuery 5#64) 1 live) ≠ 0 ∧ outstanding live = 0
      ∧ live.mgmt.requests = [])
    ∧ ∀ p ∈ [Phase.waitingEntries, .ready], outstanding (holding [held (.journeyQuery 5#64) p] live) = 0 := by
  decide +kernel
/-- The first of two held requests ready, and waiting for its entries. -/
theorem test_meets_StoreReleasedAndHandedOn_next : ∀ p ∈ [Phase.ready, .waitingEntries],
    outstanding (holding [held .start (.replyDue Reply.malformed), held (.journeyQuery 5#64) p] live) = 0
    ∧ (∀ q ∈ [held .start (.replyDue Reply.malformed)],
      q.phase ≠ .waitingEntries ∧ q.phase ≠ .ready) := by decide +kernel
/-- What the Sweep's grant reads, and the turn passed on in a purge pass. -/
theorem test_grantReading :
    (requestStore .sweep { live with sweep := ⟨0, 0, false, true, .journey, false⟩ }).store.grant
      = ⟨ten, 20000, false, .cursor⟩
    ∧ (requestStore .sweep { live with
        sweep := ⟨0, 0, false, true, .journey, false⟩ }).sweep.turn = .account := by decide +kernel
/-- The store handed on while the Reckoner asks again before each release. -/
def stream : Nat → Arbiter → List (Option Requester)
  | 0, _ => []
  | n + 1, a =>
    let b := (if a.holder = some .reckoner then a.mark true .reckoner else a).release false
    b.holder :: stream n b
/-- The grants of 4.9: the fifth to the Management Unit, the seventeenth to the Sweep, every other to the Reckoner. -/
theorem test_grantsUnderAStream :
    stream 17 { Arbiter.reset with
        holder := some .reckoner, managementWaiting := true, sweepWaiting := true }
      = (List.range 17).map (fun n => some (if n = 4 then .management else if n = 16 then .sweep
        else .reckoner)) := by decide +kernel
theorem test_meets_ArbiterGrantsInOrder : (holder live = none
      ∧ holder (reckoning (tap 1) live) ≠ none) ∧ Arbiter.reset.holder = none
    ∧ (Arbiter.reset.grant .sweep).holder ≠ none ∧ Requester.sweep ≠ .reckoner := by decide +kernel
/-- No journey; an absent station; an exit a second before the entry; without an exit; an exit at the very entry time. -/
theorem test_meets_JourneyCloseForced :
    (∀ c ∈ [((none : Option Nat), (none : Option Nat)), (some 9, some ten), (some 5, some (ten - 1)),
      (some 5, some ten)],
      GrantedOperation (operating (.journeyClose 5#64 c.1 c.2) 2
          (travelling [⟨20, journey 5#64 11 ten⟩] live)) []
        (held (.journeyClose 5#64 c.1 c.2) .presented) []
      ∧ findJourney (operating (.journeyClose 5#64 c.1 c.2) 2
          (travelling [⟨20, journey 5#64 11 ten⟩] live)) 5#64 = some ⟨20, journey 5#64 11 ten⟩)
    ∧ findJourney (operating (.journeyClose 5#64 none none) 2 live) 5#64 = none
    ∧ stationPresent worked 9 = false ∧ stationPresent worked 5 = true
    ∧ stationPresent worked 11 = true := by decide +kernel
/-- An entry free, and none; an event that waits, and none. -/
theorem test_meets_RepliesAndEventsPlaced :
    (∀ n ∈ [0, 1], officeFree (withAside (2048 - n)
        (holding [held .start (.replyDue ⟨.done, .none, .nothing⟩)] live)) = n)
    ∧ heldIndex .earlier = 0 ∧ live.rstnLow = false ∧ live.mgmt.events = []
    ∧ (raise .clockLocked .nothing live).mgmt.events = [⟨.clockLocked, 1, .nothing, ten, 0⟩] := by
  decide +kernel
/-- An entry of the kind raised, behind one of another kind, with the greatest count. -/
theorem test_meets_RepliesAndEventsPlaced_raise :
    (∀ v ∈ [PendingEvent.mk .clockLocked 1 .nothing 5 0], v.kind ≠ .dayRollover)
    ∧ raiseIn .dayRollover (.day 8) 9 1
        [⟨.clockLocked, 1, .nothing, 5, 0⟩, ⟨.dayRollover, 65535, .day 7, 6, 0⟩, ⟨.pressureOn, 2, .occupancy 3, 7, 0⟩]
      = [⟨.clockLocked, 1, .nothing, 5, 0⟩, ⟨.dayRollover, 65535, .day 8, 9, 1⟩,
        ⟨.pressureOn, 2, .occupancy 3, 7, 0⟩] := by decide +kernel

/-! ### RESTART -/

theorem test_meets_RestartTaken :
    (NextRequest (holding [held .restart .underway, held .restart .taken] live)
        [held .restart .underway] (held .restart .taken) []
      ∧ ∃ q ∈ [held .restart .underway, held .restart .taken],
        q.request = .restart ∧ q.phase ≠ .taken)
    ∧ isNext .restart live ∧ SlotsSound live
    ∧ (∀ v ∈ [SlotState.copying, .validating], SlotsSound (withB (slotAt v) live))
    ∧ (holder (after .sweepRequest live) = some .sweep ∧ holder live ≠ some .sweep
      ∧ (after .sweepRequest (operating .start 1 live)).store.arbiter.sweepWaiting = true)
    ∧ ∀ q ∈ (asked .restart live).mgmt.requests, q.request = .restart → q.phase = .taken := by
  decide +kernel
theorem test_meets_RestartAbortsOperations : ∀ p ∈ [Phase.waitingEntries, .ready, .presented],
    NextRequest (holding [held (.journeyQuery 5#64) p, held .restart .taken] live)
      [held (.journeyQuery 5#64) p] (held .restart .taken) []
    ∧ Request.journeyQuery 5#64 ≠ .restart ∧ holder live ≠ some .management
    ∧ holder (operating .start 1 live) = some .management := by decide +kernel
/-- A request in the other slot whose reply waits, and one that came after the RESTART. -/
theorem test_meets_RestartAbortsOperations_stand :
    NextRequest (holding [held .start (.replyDue Reply.malformed), held .restart .taken] live)
      [held .start (.replyDue Reply.malformed)] (held .restart .taken) []
    ∧ Request.start ≠ .restart
    ∧ NextRequest (holding [held .restart .taken, held .start .taken] live) []
      (held .restart .taken) [held .start .taken] := by decide +kernel
/-- A COPY ACTIVE and an ACTIVATE under way in the other slot; a swap that waits for the Reckoner. -/
theorem test_meets_RestartAbortsOperations_underway :
    ∀ c ∈ [(Request.copyActive .b, SlotState.copying), (.activate .b none, .validating)],
    NextRequest (holding [held c.1 .underway, held .restart .taken] (withB (slotAt c.2) live))
      [held c.1 .underway] (held .restart .taken) []
    ∧ c.1 ≠ .restart ∧ SlotsSound (withB (slotAt c.2) live)
    ∧ (slotOf (withB (slotAt c.2) live) .b).state = c.2
    ∧ (withB (slotAt c.2) live).tables.swapDue ≠ some .b
    ∧ (after .validationComplete (holding [held (.activate .b none) .underway, held .restart .taken]
        (withB ⟨.validating, labelled 42, 0, none⟩ (reckoning (tap 1) live)))).tables.swapDue = some .b
    ∧ (after .validationComplete (holding [held (.activate .b none) .underway, held .restart .taken]
        (withB ⟨.validating, labelled 42, 0, none⟩ (reckoning (tap 1) live)))).mgmt.requests
      = [held (.activate .b none) .underway, held .restart .taken] := by
  decide +kernel
/-- Each moment of the course of a RESTART. -/
theorem test_meets_RestartRunsItsCourse :
    (∃ s : State, s.rstnLow = false ∧ s.mgmt.restartLate = [tap 1] ∧ 1 ≤ officeFree s)
    ∧ (∃ s : State, s.rstnLow = false ∧ s.mgmt.drain.inProgress = true ∧ outstanding s = 0
      ∧ 1 ≤ officeFree s)
    ∧ (∀ ways ∈ [[], [JourneyWay.mk 20 (journey 5#64 11 ten)]], ∃ s : State, s.rstnLow = false
      ∧ holder s = some .management ∧ s.mgmt.drain.presented = true ∧ s.store.journeys = ways)
    ∧ ∃ s : State, s.rstnLow = false ∧ s.mgmt.requests = [held .restart .underway]
      ∧ s.mgmt.drain.inProgress = false ∧ s.mgmt.restartLate = [] ∧ 1 ≤ officeFree s := by
  refine ⟨⟨{ live with mgmt := { live.mgmt with restartLate := [tap 1] } }, rfl, rfl, by decide⟩,
    ⟨after .restart (asked .restart live), by decide +kernel⟩, ?_,
    ⟨holding [held .restart .underway] live, by decide +kernel⟩⟩
  intro ways _
  exact ⟨travelling ways { operating .restart 1 live with
    mgmt := { live.mgmt with drain := ⟨true, true, 0, 0⟩ } }, rfl, rfl, rfl, rfl⟩

/-! ### The Reckoner -/

/-- One tap waits for the Reckoner. -/
def waiting (t : Tap) (s : State) : State := { s with
  tapQueue := [queued t]
  verdictQueue := { s.verdictQueue with reserved := 1 } }

theorem test_meets_TapTaken_not : live.tapQueue = [] ∧ (reckoning (tap 1) live).reckoner.isSome = true
    ∧ officeFree (withAside 2046 live) < 3 := by decide +kernel
/-- A Reckoner that takes a tap. -/
theorem test_meets_TapTaken_next : ∃ u, live.rstnLow = false
    ∧ exec .reckonerTakeTap (waiting (tap 1) live) = .next u :=
  ⟨_, rfl, rfl⟩
/-- With 3 entries free: a live tap at and just beyond the skew limit either way, a deferred one just beyond it, and one at the deferral age. -/
theorem test_meets_TapTaken : ∀ c ∈ [(false, ten + 120), (false, ten - 120), (false, ten + 121),
      (false, ten - 121), (true, ten + 121), (true, ten + 120), (true, ten - 172800)],
    ∃ s e, s.rstnLow = false ∧ s.reckoner = none ∧ s.tapQueue = [e] ∧ settleSwap s = s
      ∧ officeFree s = 3 ∧ activeSlot s ≠ none ∧ e.tap.station ≤ 63 ∧ e.tap.fareClass ≤ 7
      ∧ e.tap.direction = 1 ∧ e.tap.pass = none ∧ e.tap.deferred = c.1 ∧ e.tap.gateTime = c.2
      ∧ e.arrivalSec = ten ∧ s.mgmt.settings.skewLimit = 120
      ∧ s.mgmt.settings.deferralAge * 3600 = 172800 := by
  intro c h
  refine ⟨waiting { tap 1 with deferred := c.1, gateTime := c.2 } (withAside 2045 live),
    queued { tap 1 with deferred := c.1, gateTime := c.2 }, rfl, rfl, rfl, rfl, ?_⟩
  revert c
  decide +kernel
/-- A station, a class and a direction just out of range, live and deferred; no Active slot; a deferred tap a second too old. -/
theorem test_meets_TapEndedByScreening :
    (∀ t ∈ [{ tap 1 with station := 64 }, { tap 2 with fareClass := 8 }, tap 0,
        { tap 1 with station := 64, deferred := true }],
      (waiting t live).tapQueue = [queued t] ∧ 3 ≤ officeFree (waiting t live)
      ∧ ¬ (t.station ≤ 63 ∧ t.fareClass ≤ 7 ∧ (t.direction = 1 ∨ t.direction = 2)))
    ∧ (∀ t ∈ [tap 1, { tap 2 with deferred := true }],
      (waiting t State.reset).reckoner = none ∧ activeSlot (settleSwap (waiting t State.reset)) = none)
    ∧ activeSlot (settleSwap (waiting { tap 1 with deferred := true, gateTime := ten - 172801 } live)) ≠ none
    ∧ (ten - 172801) + live.mgmt.settings.deferralAge * 3600 < ten := by decide +kernel
/-- The transaction that `reckoning` holds. -/
def work (t : Tap) : TapTransaction := ⟨queued t, t.gateTime, false⟩

theorem test_meets_EntryRefusedAtGrant : ∀ c ∈ [({ tap 1 with station := 9 }, live),
      ({ tap 1 with fareClass := 7 }, live),
      (tap 1, { live with tables := { live.tables with denyList := [5#64] } })],
    Granted (reckoning c.1 c.2) .a (work c.1) ∧ c.1.direction = 1 ∧ c.1.deferred = false
    ∧ (stationPresent worked c.1.station = false
      ∨ (classEntry worked c.1.fareClass).permitted = false
      ∨ (reckoning c.1 c.2).store.grant.denied = true) := by decide +kernel

/-- Tokens that fold to the set of token 5, in its ways. -/
def neighbours : List JourneyWay :=
  [⟨20, journey 0x5000#64 11 ten⟩, ⟨21, journey 0x5000000#64 11 ten⟩,
   ⟨22, journey 0x5000000000#64 11 ten⟩, ⟨23, journey 0x5000000000000#64 11 ten⟩]

/-- The second way of the set is the lowest free one, for a live and a deferred entry. -/
theorem test_meets_EntryAdmitted_free : ∀ d ∈ [false, true], ∃ s x tr p,
    Granted s x tr ∧ EntryPasses s x tr ∧ (slotOf s x).tables.policy = some p
    ∧ tr.entry.tap.deferred = d
    ∧ (∀ w ∈ s.store.journeys, w.journey.token ≠ tr.entry.tap.token)
    ∧ findAccount s tr.entry.tap.token (serviceDay s.mgmt.settings.rolloverMinute tr.tapTime) = none
    ∧ 21 / 4 = journeySet tr.entry.tap.token ∧ (∀ w ∈ s.store.journeys, w.slot ≠ 21)
    ∧ ∀ m < 21, m / 4 = journeySet tr.entry.tap.token → ∃ w ∈ s.store.journeys, w.slot = m := by
  intro d h
  refine ⟨reckoning { tap 1 with deferred := d } (travelling (neighbours.take 1) live), .a,
    work { tap 1 with deferred := d }, ⟨41, 180, 5, 150, 20, 30, 10, 180⟩, ?_⟩
  revert d
  decide +kernel
/-- A last exit at the end of the continuation window. -/
theorem test_meets_EntryAdmitted_continued : ∃ w l, findAccount (accounted [⟨20, { account with
      lastExit := some ⟨1, ten - 1200, 0, ten - 1800, 200, false, 200, 33⟩ }⟩] live) 5#64
      (serviceDay 180 ten) = some w ∧ w.account.lastExit = some l
    ∧ continues ⟨41, 180, 5, 150, 20, 30, 10, 180⟩ 1 ten l :=
  ⟨⟨20, { account with lastExit := some ⟨1, ten - 1200, 0, ten - 1800, 200, false, 200, 33⟩ }⟩,
    ⟨1, ten - 1200, 0, ten - 1800, 200, false, 200, 33⟩, by decide +kernel⟩
/-- The set is full, its earliest admission first. -/
theorem test_meets_EntryAdmitted_full : ∃ s w after_, Granted s .a (work (tap 1))
    ∧ EntryPasses s .a (work (tap 1)) ∧ JourneysSound s
    ∧ (∀ v ∈ s.store.journeys, v.journey.token ≠ 5#64)
    ∧ (∀ m, m / 4 = journeySet 5#64 → ∃ v ∈ s.store.journeys, v.slot = m)
    ∧ s.store.journeys = [] ++ w :: after_ ∧ w.slot / 4 = journeySet 5#64 := by
  refine ⟨reckoning (tap 1) (travelling neighbours live), ⟨20, journey 0x5000#64 11 ten⟩,
    neighbours.tail, by decide +kernel, by decide +kernel, by decide +kernel, by decide +kernel, ?_,
    rfl, by decide +kernel⟩
  intro m h
  have set : journeySet 5#64 = 5 := by decide +kernel
  have ways : m = 20 ∨ m = 21 ∨ m = 22 ∨ m = 23 := by omega
  rcases ways with rfl | rfl | rfl | rfl <;> decide +kernel
/-- The same station just beyond the duplicate window, at the end of the grace and just beyond it, and another station; earlier and later than the open journey. -/
theorem test_meets_EntrySupersedes : ∀ c ∈ [(1, ten - 31), (1, ten - 300), (1, ten - 301), (1, ten + 31),
      (1, ten + 300), (1, ten + 301), (11, ten), (11, ten + 1)],
    Granted (reckoning (tap 1) (travelling [⟨20, journey 5#64 c.1 c.2⟩] live)) .a (work (tap 1))
    ∧ EntryPasses (reckoning (tap 1) (travelling [⟨20, journey 5#64 c.1 c.2⟩] live)) .a (work (tap 1))
    ∧ worked.policy = some ⟨41, 180, 5, 150, 20, 30, 10, 180⟩
    ∧ JourneysSound (reckoning (tap 1) (travelling [⟨20, journey 5#64 c.1 c.2⟩] live))
    ∧ (c.1 = 1 → 30 < ((ten : Int) - (c.2 : Int)).natAbs) := by decide +kernel
/-- The way of the closed journey is the lowest free one again, and a last exit gives the admitted journey its continuation part. -/
theorem test_meets_EntrySupersedes_admitted : ((after .reckonerGrant (reckoning (tap 1)
      (accounted [⟨20, { account with
          lastExit := some ⟨1, ten - 1200, 0, ten - 1800, 200, false, 200, 33⟩ }⟩]
        (travelling [⟨20, journey 5#64 11 (ten - 60)⟩, ⟨22, journey 0x5000#64 11 ten⟩] live)))).store.journeys.map
    fun w => (w.slot, w.journey.continuation))
    = [(22, none), (20, some ⟨0, ten - 1800, 200, false⟩)] := by decide +kernel
/-- The admission that reaches the high mark enters spill mode and raises Pressure On with the occupancy (R124). -/
theorem test_pressureOnAtAdmission :
    let marked := { live with mgmt := { live.mgmt with
      settings := { live.mgmt.settings with highMark := 2, lowMark := 0 } } }
    let s := after .reckonerGrant (reckoning (tap 1) (travelling [⟨22, journey 0x5000#64 11 ten⟩] marked))
    s.sweep.spillMode = true
    ∧ s.mgmt.events.map (fun e => (e.kind, e.data)) = [(.pressureOn, .occupancy 2)] := by
  decide +kernel
/-- Within the duplicate window to the second, either way. -/
theorem test_meets_RepeatsLeaveTheStore_entry : ∀ c ∈ [ten - 30, ten, ten + 30],
    Granted (reckoning (tap 1) (travelling [⟨20, journey 5#64 1 c⟩] live)) .a (work (tap 1))
    ∧ EntryPasses (reckoning (tap 1) (travelling [⟨20, journey 5#64 1 c⟩] live)) .a (work (tap 1))
    ∧ JourneysSound (reckoning (tap 1) (travelling [⟨20, journey 5#64 1 c⟩] live))
    ∧ ((ten : Int) - (c : Int)).natAbs ≤ 30 := by decide +kernel
/-- A last exit repeated in the account of the day, and in that of the day before. -/
theorem test_meets_RepeatsLeaveTheStore_exit : ∀ day ∈ [20000, 19999], ∃ s w l,
    Granted s .a (work (tap 2)) ∧ s.store.journeys = []
    ∧ serviceDay s.mgmt.settings.rolloverMinute ten = 20000
    ∧ findAccount s 5#64 day = some w ∧ w.account.lastExit = some l ∧ l.station = 1
    ∧ (((ten : Int) - (l.exitTime : Int)).natAbs) = 30
    ∧ (day = 19999 → findAccount s 5#64 20000 = none) := by
  intro day h
  refine ⟨reckoning (tap 2) (accounted [⟨20, { account with
      day := day, lastExit := some ⟨1, ten - 30, 11, ten - 900, 270, false, 270, 33⟩ }⟩] live),
    ⟨20, { account with
      day := day, lastExit := some ⟨1, ten - 30, 11, ten - 900, 270, false, 270, 33⟩ }⟩,
    ⟨1, ten - 30, 11, ten - 900, 270, false, 270, 33⟩, ?_⟩
  revert day
  decide +kernel
/-- A journey with a continuation part that ends where it began: the break station on the path from its origin, and the origin absent from the tables. -/
theorem test_meets_MatchedExitCloses_continued : ∀ c ∈ [(11, true), (9, false)], ∃ s w paid,
    Granted s .a (work (tap 2)) ∧ JourneysSound s ∧ w ∈ s.store.journeys ∧ w.journey.token = 5#64
    ∧ w.journey.entryStation = 1 ∧ w.journey.continuation = some ⟨c.1, ten - 900, 100, false⟩
    ∧ fullPricing (fareContext s w.journey.tag) w.journey.fareClass 1 w.journey.entryTime 1 none
      w.journey.continuation (some 0) = some paid
    ∧ paid.continued = c.2 := by
  intro c h
  refine ⟨reckoning (tap 2) (travelling [⟨20, { journey 5#64 1 (ten - 60) with
      continuation := some ⟨c.1, ten - 900, 100, false⟩ }⟩] live),
    ⟨20, { journey 5#64 1 (ten - 60) with continuation := some ⟨c.1, ten - 900, 100, false⟩ }⟩,
    (fullPricing ⟨worked, 180⟩ 0 1 (ten - 60) 1 none (some ⟨c.1, ten - 900, 100, false⟩)
      (some 0)).getD (cancelledPricing worked 1), ?_⟩
  revert c
  decide +kernel
/-- The path of an overstay, with a pass that is ignored, and the start owner of one that continues another. -/
theorem test_meets_MatchedExitCloses_overstay :
    (reckonPath worked 11 1 (some ⟨3, 5, 19999⟩) 20000).toOption.map
      (fun p => (p.chargeable, p.startOwner, p.pass)) = some (1795, 1, .ignored)
    ∧ incompleteOwner worked 11 (some ⟨1, ten, 0, true⟩) = 0
    ∧ incompleteOwner worked 11 (some ⟨9, ten, 0, true⟩) = 1 := by decide +kernel
/-- An exit at an absent station, one a second beyond the maximum journey time and one at it, and a same-station exit at the end of the grace and a second beyond it. -/
theorem test_meets_MatchedExitCloses : ∀ c ∈ [(9, 11, ten), (1, 11, ten - 10801), (1, 11, ten - 10800),
      (1, 11, ten), (1, 1, ten - 300), (1, 1, ten - 301)], ∃ s w,
    Granted s .a (work { tap 2 with station := c.1 }) ∧ JourneysSound s ∧ w ∈ s.store.journeys
    ∧ w.journey.token = 5#64 ∧ w.journey.entryStation = c.2.1 ∧ w.journey.entryTime = c.2.2
    ∧ w.journey.entryTime ≤ ten ∧ w.journey.continuation = none
    ∧ (fareContext s w.journey.tag).tables.policy = some ⟨41, 180, 5, 150, 20, 30, 10, 180⟩
    ∧ (stationPresent (fareContext s w.journey.tag).tables c.1 = false ↔ c.1 = 9)
    ∧ (c.1 = 1 → (fullPricing (fareContext s w.journey.tag) w.journey.fareClass
        w.journey.entryStation w.journey.entryTime c.1 none none (some 0)).isSome = true)
    ∧ (obtainAccount 5#64 20000 s).2 = some 20 := by
  intro c h
  refine ⟨reckoning { tap 2 with station := c.1 }
    (accounted [] (travelling [⟨20, journey 5#64 c.2.1 c.2.2⟩] live)), ⟨20, journey 5#64 c.2.1 c.2.2⟩, ?_⟩
  revert c
  decide +kernel
/-- No journey, or one that begins after the exit, and nothing to correct; a last incomplete that the exit does not correct, its station absent or its entry a second later. -/
theorem test_meets_ExitWithoutJourney :
    (∀ ways ∈ [[], [JourneyWay.mk 20 (journey 5#64 11 (ten + 1))]],
      Granted (reckoning (tap 2) (travelling ways live)) .a (work (tap 2))
      ∧ (fareContext (reckoning (tap 2) (travelling ways live)) .a).tables.policy
        = some ⟨41, 180, 5, 150, 20, 30, 10, 180⟩
      ∧ ∀ d ∈ [20000, 19999], findAccount (reckoning (tap 2) (travelling ways live)) 5#64 d = none)
    ∧ serviceDay live.mgmt.settings.rolloverMinute ten = 20000
    ∧ stationPresent worked 9 = false ∧ ¬ ten + 1 ≤ ten := by decide +kernel
/-- An Unmatched record carries the label of the slot Active at the grant (R159). -/
theorem test_unmatchedLabel :
    (exitUnmatched .a (tap 2) ten live).records.map Record.label = [some 41] := by decide +kernel
/-- A last incomplete entered at the maximum journey time, a second beyond it, and at the same station at the end of the grace and a second beyond that, in the account of the day and of the day before; a path and a full pricing that each can have. -/
theorem test_meets_ExitWithoutJourney_correction : ∀ day ∈ [20000, 19999],
    ∀ c ∈ [(11, ten - 10800), (11, ten - 10801), (1, ten - 300), (1, ten - 301)], ∃ s w l,
    Granted s .a (work (tap 2)) ∧ s.store.journeys = []
    ∧ findAccount s 5#64 day = some w ∧ w.account.lastExit = none
    ∧ w.account.lastIncomplete = some l ∧ l.entryStation = c.1 ∧ l.entryTime = c.2 ∧ c.2 ≤ ten
    ∧ stationPresent (fareContext s .a).tables l.entryStation = true
    ∧ stationPresent (fareContext s .a).tables 1 = true
    ∧ (day = 19999 → findAccount s 5#64 20000 = none)
    ∧ (reckonPath (fareContext s .a).tables l.entryStation 1 none 20000).toOption.isSome = true
    ∧ (fullPricing (fareContext s .a) l.fareClass l.entryStation l.entryTime 1 none none
      (spentOf s (some w.slot))).isSome = true := by
  intro day h c k
  refine ⟨reckoning (tap 2) (accounted [⟨20, { account with
      day := day, lastIncomplete := some ⟨c.1, c.2, 0, 510, 33⟩ }⟩] live),
    ⟨20, { account with day := day, lastIncomplete := some ⟨c.1, c.2, 0, 510, 33⟩ }⟩,
    ⟨c.1, c.2, 0, 510, 33⟩, ?_⟩
  revert day c
  decide +kernel
/-- A last unmatched exit at the very entry time, and one at the end of the maximum journey time, in the account of the day and, with one a second too late in the day's, of the next. -/
theorem test_meets_DeferredEntryRepairs : ∀ left ∈ [ten, ten + 10800], ∀ day ∈ [20000, 20001], ∃ s w l,
    Granted s .a (work { tap 1 with deferred := true }) ∧ stationPresent (slotOf s .a).tables 1 = true
    ∧ findAccount s 5#64 day = some w ∧ w.account.lastUnmatched = some l ∧ l.exitTime = left
    ∧ repairs (slotOf s .a).tables ⟨41, 180, 5, 150, 20, 30, 10, 180⟩ ten l
    ∧ (day = 20001 → NothingToRepair s .a 5#64 20000 ten
      ∧ (findAccount s 5#64 20000).isSome = true)
    ∧ (fullPricing (fareContext s .a) 0 1 ten l.station none none
      (spentOf (obtainAccount 5#64 20000 s).1 (obtainAccount 5#64 20000 s).2)).isSome = true := by
  intro left h day k
  refine ⟨reckoning { tap 1 with deferred := true } (accounted [⟨20, { account with
      lastUnmatched := some ⟨5, if day = 20000 then left else ten + 10801, 0, 33⟩ }⟩,
    ⟨21, { account with day := 20001, lastUnmatched := some ⟨5, left, 0, 34⟩ }⟩] live),
    if day = 20000 then ⟨20, { account with lastUnmatched := some ⟨5, left, 0, 33⟩ }⟩
    else ⟨21, { account with day := 20001, lastUnmatched := some ⟨5, left, 0, 34⟩ }⟩,
    ⟨5, left, 0, if day = 20000 then 33 else 34⟩, ?_⟩
  revert left day
  decide +kernel
theorem test_meets_TapTransactionEnds : ∃ s, Granted s .a (work (tap 1)) ∧ s.officeQueue.sequence = 255 :=
  ⟨{ reckoning (tap 1) live with officeQueue := ⟨[], 3, 255⟩ }, by decide +kernel⟩
/-- A deadline at 0 and one at 1; a tap answered late. -/
theorem test_meets_DeadlineAnswersLate : ∀ c ∈ [(0, false), (1, false), (0, true)],
    { live with tapQueue := [{ queued (tap 1) with deadline := c.1, answeredLate := c.2 }] }.tapQueue
      = [] ++ { queued (tap 1) with deadline := c.1, answeredLate := c.2 } :: []
    ∧ { live with reckoner := some ⟨{ queued (tap 1) with deadline := c.1, answeredLate := c.2 }, ten,
        false⟩ }.reckoner
      = some ⟨{ queued (tap 1) with deadline := c.1, answeredLate := c.2 }, ten, false⟩ := by
  decide +kernel

/-! ### The Sweep and the Line Clock -/

theorem test_meets_SweepVisits_request : (live.store.arbiter.sweepWaiting = false
      ∧ holder live ≠ some .sweep ∧ 1 ≤ officeFree (withAside 2047 live))
    ∧ officeFree (withAside 2048 live) = 0 ∧ holder (after .sweepRequest live) = some .sweep := by
  decide +kernel
/-- The Sweep holds the store for each kind of visit: of the last account way, before and after a rollover; without room; a spill with a journey and without; of a journey due at the grant and one a second early; each with the last entry free. -/
theorem test_meets_SweepVisits :
    (∀ day ∈ [20000, 20001], ∃ s, holder s = some .sweep ∧ AccountsSound s
      ∧ s.store.grant.visit = .account ∧ s.sweep.accountCursor = 32767
      ∧ s.store.grant.serviceDay = 20000 ∧ s.clock.serviceDay = day)
    ∧ (∃ s, holder s = some .sweep ∧ s.store.grant.visit ≠ .account ∧ officeFree s = 0)
    ∧ (∀ ways ∈ [[], [JourneyWay.mk 20 (journey 5#64 11 ten)]],
      (sweeping ⟨0, 0, true, false, .journey, false⟩ ways live).store.grant.visit = .spill
      ∧ officeFree (sweeping ⟨0, 0, true, false, .journey, false⟩ ways (withAside 2047 live)) = 1
      ∧ holder (sweeping ⟨0, 0, true, false, .journey, false⟩ ways live) = some .sweep
      ∧ (sweeping ⟨0, 0, true, false, .journey, false⟩ ways live).store.journeys = ways
      ∧ JourneysSound (sweeping ⟨0, 0, true, false, .journey, false⟩ ways live))
    ∧ ∀ c ∈ [(ten - 10800, true), (ten - 10799, false)], ∃ s w, holder s = some .sweep
      ∧ s.store.grant.visit = .cursor ∧ officeFree s = 1 ∧ JourneysSound s
      ∧ w ∈ s.store.journeys ∧ w.slot = s.sweep.journeyCursor
      ∧ (w.journey.deadline ≤ s.store.grant.sec ↔ c.2 = true) := by
  refine ⟨?_, ⟨withAside 2048 (after .sweepRequest live), by decide +kernel⟩,
    by decide +kernel, ?_⟩
  · intro day h
    refine ⟨{ sweeping ⟨0, 32767, false, true, .account, false⟩ [] live with
      clock := { live.clock with serviceDay := day } }, ?_⟩
    revert day
    decide +kernel
  · intro c h
    refine ⟨sweeping ⟨20, 0, false, false, .journey, false⟩ [⟨20, journey 5#64 11 c.1⟩]
        (withAside 2047 live), ⟨20, journey 5#64 11 c.1⟩, ?_⟩
    revert c
    decide +kernel
/-- A second's last millisecond; the last moment and the one before it; a trim that reaches a whole millisecond either way; a hold of the slew that meets a hold of the trim. -/
theorem test_meets_RawTickAdvancesLineTime : ∀ c ∈ [
      { live.clock with ms := 999, accumulator := 999999, trim := 1, slew := -5, slewDue := true },
      { live.clock with accumulator := -999999, trim := -1, slew := -5, slewDue := true },
      { live.clock with sec := 4294967295, ms := 998, slew := 5, slewDue := true },
      { live.clock with sec := 4294967295, ms := 999, slew := 5, slewDue := true }],
    { live with clock := c }.rstnLow = false ∧ c.ms ≤ 999
    ∧ (lineMsAfter c : Int) = min ((c.sec * 1000 + c.ms : Nat) + 1
        + (if 1000000 ≤ c.accumulator + c.trim then 1 else if c.accumulator + c.trim ≤ -1000000 then -1
          else 0)
        + (if c.slew < 0 ∧ c.accumulator + c.trim ≤ -1000000 then 0 else Int.sign c.slew))
      4294967295999 := by decide +kernel
/-- The tick that brings line time to just the effective time of a Pending slot. -/
theorem test_meets_RawTickAdvancesLineTime_firing : ∀ c ∈ [(ten + 1, some SlotId.b), (ten + 2, none)],
    (after .rawTick { withB ⟨.pending, worked, 0, some c.1⟩ live with
        clock := { live.clock with ms := 999 } }).tables.swapDue = c.2 := by decide +kernel
theorem test_meets_LineTimeNeverRunsBack : ∃ t, exec .rawTick live = .next t ∧ Instr.rawTick ≠ .timeMark
    ∧ ∀ straps, Instr.rawTick ≠ .pinReset straps := ⟨_, rfl, nofun, nofun⟩
theorem test_meets_ClockStateChanges :
    (∃ s : State, s.rstnLow = false ∧ s.clock.state = .slewing ∧ s.clock.slew = 0)
    ∧ live.clock.state ≠ .slewing
    ∧ (∃ s : State, s.rstnLow = false ∧ s.clock.state = .locked
      ∧ s.mgmt.settings.holdover * 1000 = s.clock.holdover)
    ∧ live.clock.holdover < live.mgmt.settings.holdover * 1000
    ∧ State.reset.clock.state = .unset :=
  ⟨⟨{ live with clock := { live.clock with state := .slewing } }, rfl, rfl, rfl⟩, nofun,
    ⟨{ live with clock := { live.clock with holdover := 3600000 } }, rfl, rfl, rfl⟩, by decide +kernel, rfl⟩
/-- The moment of the first rollover, the moment before it, and the last second of line time. -/
theorem test_meets_ServiceDayReckoned : (180 ≤ 1439 ∧ 180 * 60 ≤ 10800 ∧ 10799 < 180 * 60
      ∧ 1439 * 60 ≤ 4294967295)
    ∧ (serviceDay 180 10800, serviceMinute 180 10800) = (0, 0)
    ∧ (serviceDay 180 10799, serviceMinute 180 10799) = (0, 1439)
    ∧ serviceDay 0 4294967295 = 49710 ∧ live.mgmt.settings.rolloverMinute = 180 := by decide +kernel

/-! ### Fares, accounts, and what every step keeps -/

/-- An exact half, rounded up; a minimum that applies, and each way it does not; a class with a cap. -/
theorem test_meets_FareRoundedAndCapped : (1 ≤ 10 ∧ roundToStep 10 5000000 = 10)
    ∧ worked.policy = some ⟨41, 180, 5, 150, 20, 30, 10, 180⟩
    ∧ (0 < 1 ∧ 0 < (classEntry worked 0).factor ∧ (classEntry worked 0).minimumApplies = true)
    ∧ (classEntry worked 5).factor = 0 ∧ (classEntry worked 2).minimumApplies = false
    ∧ 0 < (classEntry worked 0).cap := by decide +kernel
/-- A used exception behind another, a day without one, and a change point with those behind it unused or later. -/
theorem test_meets_FareRoundedAndCapped_calendar :
    (calendar.exceptions = [] ++ ⟨true, 20003, 2⟩ :: calendar.exceptions.tail
      ∧ ∀ e ∈ calendar.exceptions, ¬ (e.used = true ∧ e.day = 20000))
    ∧ calendar.week[20000 % 7]? = some 0
    ∧ bandList calendar 0 = (calendar.bands.take 2) ++ ⟨true, 210, 1250⟩ :: (calendar.bands.drop 3).take 5
    ∧ ∀ v ∈ (calendar.bands.drop 3).take 5, v.used = false ∨ 299 < v.minute := by decide +kernel
/-- Paths on one branch and over two; an absent start, end and both. -/
theorem test_paths : pathBetween worked 0 5 = .ok [⟨0, 0, 2380⟩]
    ∧ pathBetween worked 20 11 = .ok [⟨0, 1210, 1690⟩, ⟨1, 0, 905⟩, ⟨2, 0, 560⟩]
    ∧ pathBetween worked 9 5 = .error .start ∧ pathBetween worked 5 9 = .error .finish
    ∧ pathBetween worked 9 9 = .error .both := ⟨rfl, rfl, rfl, rfl, rfl⟩
/-- A valid pass and two that are not; a break station on the path and off it; the sentinel's band and one below it. -/
theorem test_meets_FareRoundedAndCapped_paths :
    (reckonPath worked 11 5 (some ⟨3, 5, 20000⟩) 20000).toOption.map
        (fun r => (r.raw, r.chargeable, r.startOwner, r.pass)) = some (2075, 905, 1, .applied)
    ∧ [⟨3, 5, 19999⟩, ⟨3, 9, 20000⟩].map (fun p => (reckonPath worked 11 5 (some p) 20000).toOption.map
        PathReckoning.pass) = [some .ignored, some .ignored]
    ∧ (coveredLength ⟨0, 1210, 2380⟩ [⟨0, 1690, 2380⟩], coveredLength ⟨0, 0, 320⟩ [⟨0, 745, 2380⟩],
      coveredLength ⟨1, 0, 905⟩ [⟨0, 745, 2380⟩]) = (690, 0, 0)
    ∧ onPath worked 11 3 5 = true ∧ onPath worked 11 20 5 = false
    ∧ worked.scale = worked.scale.take 4 ++ ⟨65535, 510⟩ :: worked.scale.drop 5
    ∧ (∀ v ∈ worked.scale.take 4, v.bound ≠ 65535 ∧ v.bound < 3001) := by decide +kernel
/-- The branches of the worked case A, a charge and a length of 0 and above. -/
theorem test_meets_SharesSumToCharge : (reckonPath worked 11 5 none 20000).toOption.map (fun r =>
      ((r.branches.map BranchReckoning.chargeable).sum, r.branches.all (fun b => b.owner ≤ 3),
        dealShares r.branches 2075 1 200, dealShares r.branches 2075 1 0))
    = some (2075, true, [⟨0, 113⟩, ⟨1, 87⟩], [⟨1, 0⟩]) := by decide +kernel

/-- A full set of accounts of the set of token 5, of the service days given, in ways 20 to 23. -/
def accountsOfSet (days : Nat → Nat) : List AccountWay :=
  (List.range 4).map fun i => ⟨20 + i, { account with token := 0xA000#64, day := days i }⟩

/-- The account held; the second way of its set free; a full set whose oldest record is old to the day, and one with none old, noted already and not. -/
theorem test_meets_AccountObtained : accountSet 5#64 = 5 ∧ accountSet 0xA000#64 = 5
    ∧ AccountsSound (accounted [⟨20, account⟩] live)
    ∧ (AccountsSound (accounted [⟨20, { account with day := 19999 }⟩] live)
      ∧ ∀ m < 21, m / 4 = accountSet 5#64 →
        ∃ w ∈ (accounted [⟨20, { account with day := 19999 }⟩] live).store.accounts, w.slot = m)
    ∧ (AccountsSound (accounted (accountsOfSet (fun i => 19996 + i)) live)
      ∧ 19996 + 3 < (reckoning (tap 1) live).store.grant.serviceDay)
    ∧ AccountsSound (accounted (accountsOfSet (fun i => 19997 + i)) live)
    ∧ (∀ w ∈ accountsOfSet (fun i => 19997 + i),
      (reckoning (tap 1) live).store.grant.serviceDay ≤ w.account.day + 3)
    ∧ live.store.accountFullDay ≠ some (reckoning (tap 1) live).store.grant.serviceDay := by
  decide +kernel
theorem test_meets_AccountObtained_full (days : Nat → Nat) : ∀ m, m / 4 = 5 →
    ∃ w ∈ accountsOfSet days, w.slot = m := by
  intro m h
  have ways : m = 20 ∨ m = 21 ∨ m = 22 ∨ m = 23 := by omega
  rcases ways with rfl | rfl | rfl | rfl <;> simp [accountsOfSet, List.range_succ]

/-- A state from which a step runs, and which every law of VerdictPlacesKept to BoundsKept holds of. -/
def moving : State := { live with pending := [.rawTick] }

theorem test_meets_Kept_step : ∃ t, step moving = .next t := ⟨_, rfl⟩
theorem test_meets_VerdictPlacesKept : TapPathSound moving := by decide +kernel
theorem test_meets_SetAsideEntriesKept : OfficeSound moving ∧ RequestersSound moving := by
  decide +kernel
theorem test_meets_TransmittersKept : TransmittersSound moving := by decide +kernel
theorem test_meets_ReferenceCountsKept : CountsSound moving := by decide +kernel
/-- The exit that closes the last journey of a Retiring slot. -/
theorem test_meets_ReferenceCountsKept_last : ∃ s t, CountsSound s
    ∧ (slotOf s .b).state = .retiring ∧ (slotOf s .a).state = .active
    ∧ s.pending = [.reckonerGrant] ∧ step s = .next t ∧ tagged t .b = 0 :=
  ⟨{ withB ⟨.retiring, labelled 40, 1, none⟩ (reckoning (tap 2) { live with store := { live.store with
      journeys := [⟨20, { journey 5#64 11 (ten - 600) with tag := .b }⟩] } }) with
    pending := [.reckonerGrant] }, _, by decide +kernel, by decide +kernel, by decide +kernel, rfl, rfl,
    by decide +kernel⟩
theorem test_meets_AccountsKept : AccountsSound moving := by decide +kernel
theorem test_meets_BoundsKept : ForwardSound moving ∧ ArbiterSound moving ∧ ReferenceSound moving
    ∧ SweepSound moving ∧ SlotsSound moving ∧ DenyListSound moving ∧ CountersSound moving
    ∧ EventsSound moving ∧ moving.mgmt.settings.inRange := by decide +kernel
theorem test_meets_BoundsKept_clock : ClockSound moving := by
  refine ⟨by decide, by decide, by decide, by decide, by decide, by decide, Nat.zero_le _,
    fun _ h => absurd h List.not_mem_nil⟩

end Sys2Proof.Tests
end

