-- ==== Sys2Proof/Proofs/DenyList.lean ====
section
/-! SUPPORT. The Deny List (R145 to R147): what each of its four rows makes of the oldest request taken, where an insertion puts a token, what a removal leaves, and the obligations of the family. -/

namespace Sys2Proof.Machine

/-! ### The list -/

/-- A sound Deny List is strictly ascending by the tokens' values (R145). -/
theorem DenyListSound.ascending {s : State} (h : DenyListSound s) :
    s.tables.denyList.Pairwise (fun x y => x.toNat < y.toNat) :=
  List.pairwise_map.mp h.1

/-- An insertion keeps every token in order around the one it places: those before it are less, those after it greater (R146). -/
theorem insertToken_split {t : Token} {l : List Token}
    (ascending : l.Pairwise (fun x y => x.toNat < y.toNat)) (absent : t ∉ l) :
    ∃ low high : List Token, l = low ++ high ∧ (∀ x ∈ low, x.toNat < t.toNat)
      ∧ (∀ x ∈ high, t.toNat < x.toNat) ∧ insertToken t l = low ++ t :: high := by
  induction l with
  | nil => exact ⟨[], [], by simp [insertToken]⟩
  | cons x rest ih =>
    obtain ⟨least, restAscending⟩ := List.pairwise_cons.mp ascending
    obtain ⟨differs, restAbsent⟩ := List.ne_and_not_mem_of_not_mem_cons absent
    by_cases below : t.toNat < x.toNat
    · refine ⟨[], x :: rest, rfl, by simp, ?_, by simp [insertToken, below]⟩
      simpa [below] using fun y hy => Nat.lt_trans below (least y hy)
    · obtain ⟨low, high, split, less, greater, placed⟩ := ih restAscending restAbsent
      have above : x.toNat < t.toNat :=
        Nat.lt_of_le_of_ne (Nat.not_lt.mp below) fun h => differs (BitVec.eq_of_toNat_eq h.symm)
      exact ⟨x :: low, high, by simp [split], by simpa [above] using less, greater,
        by simp [insertToken, below, placed]⟩

/-- A token of a strictly ascending list is erased at its only place, and the tokens after it close up in order (R146). -/
theorem erase_of_ascending {t : Token} {low high : List Token}
    (ascending : (low ++ t :: high).Pairwise (fun x y => x.toNat < y.toNat)) :
    (low ++ t :: high).erase t = low ++ high := by
  have notBefore : t ∉ low := fun ht =>
    Nat.lt_irrefl t.toNat
      ((List.pairwise_append.mp ascending).2.2 t ht t List.mem_cons_self)
  rw [List.erase_append_right _ notBefore, List.erase_cons_head]

/-! ### What a request makes of the list -/

theorem denyAdd_present {t : Token} {s : State} (h : t ∈ s.tables.denyList) :
    denyAdd t s = answerTaken (Reply.refused .alreadyPresent) s := by
  simp [denyAdd, h]

theorem denyAdd_full {t : Token} {s : State} (absent : t ∉ s.tables.denyList)
    (full : 8192 ≤ s.tables.denyList.length) :
    denyAdd t s = answerTaken (Reply.refused .listFull) s := by
  simp [denyAdd, absent, Config.denyListSize, full]

theorem denyAdd_room {t : Token} {s : State} (absent : t ∉ s.tables.denyList)
    (room : s.tables.denyList.length < 8192) :
    denyAdd t s = answerTaken (Reply.done (.length (s.tables.denyList.length + 1)))
      (setDenyList (insertToken t s.tables.denyList) s) := by
  simp [denyAdd, absent, Config.denyListSize, Nat.not_le.mpr room]

theorem denyRemove_absent {t : Token} {s : State} (h : t ∉ s.tables.denyList) :
    denyRemove t s = answerTaken (Reply.refused .notFound) s := by
  simp [denyRemove, h]

theorem denyRemove_present {t : Token} {s : State} (h : t ∈ s.tables.denyList) :
    denyRemove t s = answerTaken (Reply.done (.length (s.tables.denyList.length - 1)))
      (setDenyList (s.tables.denyList.erase t) s) := by
  simp [denyRemove, h, List.length_erase_of_mem h]

/-! ### What each row does with the request it acts on -/

section Rows
variable {s : State} {before after : List HeldRequest} {r : HeldRequest}

theorem exec_denyAdd_of {t : Token} (h : NextRequest s before r after)
    (hr : r.request = .denyAdd t) : exec .denyAdd s = .next (denyAdd t s) := by
  change execDenyAdd s = _
  simp [execDenyAdd, awake_high h.1, nextTaken_of h, hr]

theorem exec_denyRemove_of {t : Token} (h : NextRequest s before r after)
    (hr : r.request = .denyRemove t) : exec .denyRemove s = .next (denyRemove t s) := by
  change execDenyRemove s = _
  simp [execDenyRemove, awake_high h.1, nextTaken_of h, hr]

theorem exec_denyClear_of (h : NextRequest s before r after) (hr : r.request = .denyClear) :
    exec .denyClear s = .next (answerTaken (Reply.done (.length s.tables.denyList.length))
      (setDenyList [] s)) := by
  change execDenyClear s = _
  simp [execDenyClear, awake_high h.1, nextTaken_of h, hr]

theorem exec_denyCheck_of {t : Token} (h : NextRequest s before r after)
    (hr : r.request = .denyCheck t) :
    exec .denyCheck s = .next (answerTaken (Reply.done (.denyCheck
      (s.tables.denyList.contains t) s.tables.denyList.length)) s) := by
  change execDenyCheck s = _
  simp [execDenyCheck, awake_high h.1, nextTaken_of h, hr]

/-- A request answered after it replaced the Deny List. -/
theorem answerTaken_setDenyList (h : NextRequest s before r after) (l : List Token) (v : Reply) :
    answerTaken v (setDenyList l s)
      = { s with tables := { s.tables with denyList := l } }.answered before r after v :=
  answerTaken_of (t := setDenyList l s) h rfl v

end Rows

end Sys2Proof.Machine

section

open Sys2Proof Sys2Proof.Machine

/-- Settles O25: an addition falls into the three cases of R146, and in the third the insertion splits the ascending list around the token; a removal finds the token at its only place. -/
theorem denyAddAndRemove : Obligations.DenyAddAndRemove := by
  intro s before after r token next sound
  refine ⟨fun hr => ⟨fun present => ?_, fun absent full => ?_, fun absent room => ?_⟩,
    fun hr => ⟨fun absent => ?_, fun low high split => ?_⟩⟩
  · rw [exec_denyAdd_of next hr, denyAdd_present present, answerTaken_of next rfl, Reply.refused]
  · rw [exec_denyAdd_of next hr, denyAdd_full absent (Nat.le_of_eq full.symm), answerTaken_of next rfl,
      Reply.refused]
  · obtain ⟨low, high, split, less, greater, placed⟩ := insertToken_split sound.ascending absent
    refine ⟨low, high, split, less, greater, ?_⟩
    rw [exec_denyAdd_of next hr, denyAdd_room absent room, placed, answerTaken_setDenyList next,
      Reply.done]
  · rw [exec_denyRemove_of next hr, denyRemove_absent absent, answerTaken_of next rfl,
      Reply.refused]
  · have present : token ∈ s.tables.denyList := by simp [split]
    have closesUp : s.tables.denyList.erase token = low ++ high := by
      rw [split]
      exact erase_of_ascending (split ▸ sound.ascending)
    rw [exec_denyRemove_of next hr, denyRemove_present present, closesUp,
      answerTaken_setDenyList next, Reply.done]

/-- Settles O26: the number of tokens removed is the length of a sound list (R145), and a check reads membership and length without writing either. -/
theorem denyClearAndCheck : Obligations.DenyClearAndCheck := by
  intro s before after r next
  refine ⟨fun ⟨_, atMost⟩ => atMost, fun hr => ?_,
    fun token hr => ⟨fun present => ?_, fun absent => ?_⟩⟩
  · rw [exec_denyClear_of next hr, answerTaken_setDenyList next, Reply.done]
  · rw [exec_denyCheck_of next hr, List.contains_iff_mem.mpr present, answerTaken_of next rfl,
      Reply.done]
  · have notListed : s.tables.denyList.contains token = false := by simpa using absent
    rw [exec_denyCheck_of next hr, notListed, answerTaken_of next rfl, Reply.done]

end
end

