-- ==== Sys2Proof/Proofs/ServiceDay.lean ====
section
/-! SUPPORT. The service day and its minutes (R155): the two cases of the reckoning, the ranges, the service day that names a journey's account, and the obligation of the family. -/

namespace Sys2Proof.Machine

variable {rollover sec : Nat}

/-! ### The two cases of the reckoning -/

/-- From the first rollover on, days are counted from it (R155). -/
theorem serviceDay_of_le (h : rollover * 60 ≤ sec) :
    serviceDay rollover sec = (sec - rollover * 60) / 86400 := if_pos h

theorem serviceMinute_of_le (h : rollover * 60 ≤ sec) :
    serviceMinute rollover sec = (sec - rollover * 60) % 86400 / 60 := if_pos h

/-- The time before the first rollover counts to service day 0 (R155). -/
theorem serviceDay_of_lt (h : sec < rollover * 60) : serviceDay rollover sec = 0 :=
  if_neg (Nat.not_le.mpr h)

/-- Before the first rollover the minutes are those of a day that ends at it (R155). -/
theorem serviceMinute_of_lt (h : sec < rollover * 60) :
    serviceMinute rollover sec = (sec + 86400 - rollover * 60) / 60 :=
  if_neg (Nat.not_le.mpr h)

/-! ### The ranges -/

/-- A rollover minute only moves service days later: none is past the calendar day of the time. -/
theorem serviceDay_le_div (rollover sec : Nat) : serviceDay rollover sec ≤ sec / 86400 := by
  rcases Nat.lt_or_ge sec (rollover * 60) with before | since
  · rw [serviceDay_of_lt before]
    exact Nat.zero_le _
  · rw [serviceDay_of_le since]
    exact Nat.div_le_div_right (Nat.sub_le _ _)

/-- In both cases fewer than 86,400 seconds of the service day have passed, so the minute is one of 1,440 (R155). -/
theorem serviceMinute_lt (rollover sec : Nat) : serviceMinute rollover sec < 1440 := by
  rcases Nat.lt_or_ge sec (rollover * 60) with before | since
  · have elapsed : sec + 86400 - rollover * 60 < 60 * 1440 := by omega
    rw [serviceMinute_of_lt before]
    exact Nat.div_lt_of_lt_mul elapsed
  · have elapsed : (sec - rollover * 60) % 86400 < 60 * 1440 := Nat.mod_lt _ (by decide)
    rw [serviceMinute_of_le since]
    exact Nat.div_lt_of_lt_mul elapsed

/-! ### The rollover minute in force -/

/-- The account of a journey is named by the service day of its origin time where it continues another, else of its entry time (R87). -/
theorem journeyDay_eq_serviceDay (s : State) (j : Journey) :
    journeyDay s j = serviceDay s.mgmt.settings.rolloverMinute
      ((j.continuation.map Continuation.originTime).getD j.entryTime) := rfl

end Sys2Proof.Machine

section

open Sys2Proof Sys2Proof.Machine

/-- Settles O51: the time is before or past the first rollover, and the last second of line time falls on calendar day 49,710. -/
theorem serviceDayReckoned : Obligations.ServiceDayReckoned := by
  intro r s _ lineTime
  refine ⟨fun since => ⟨serviceDay_of_le since, serviceMinute_of_le since⟩,
    fun before => ⟨serviceDay_of_lt before, serviceMinute_of_lt before⟩, ?dayRange,
    Nat.le_of_lt_succ (serviceMinute_lt r s), fun _ => rfl, fun _ => rfl, ?inForce⟩
  case dayRange =>
    calc serviceDay r s ≤ s / 86400 := serviceDay_le_div r s
      _ ≤ 4294967295 / 86400 := Nat.div_le_div_right lineTime
      _ = 49710 := by decide
  case inForce =>
    rintro t j rfl
    exact ⟨rfl, journeyDay_eq_serviceDay t j⟩

end
end

