-- ==== Sys2Proof/Proofs/StationFrames.lean ====
section
/-! SUPPORT. Station frames that are no taps (R1, R168): when 4 entries of the Office Queue are free, what the arrival of such a frame makes of the state, and the obligation of the family. -/

namespace Sys2Proof.Machine

/-! ### The free entries -/

/-- So many entries are free exactly when they, the frames held and the set-aside entries fit in the queue's 2,048 (R162). -/
theorem le_officeFree_iff {n : Nat} (s : State) (hn : 1 ≤ n) :
    n ≤ officeFree s ↔ s.officeQueue.frames.length + s.officeQueue.setAside + n ≤ 2048 := by
  simp only [officeFree, Config.officeQueueSize]
  omega

/-- The Line link raised leaves the free entries (R172). -/
theorem officeFree_raiseLineLink (s : State) : officeFree (raiseLineLink s) = officeFree s := by
  simp [officeFree]

/-! ### What the arrival makes of the state -/

/-- A frame placed behind the raised link changes the two ports and the Office Queue, where it stands last. -/
theorem placeFrame_raiseLineLink (g : OfficeFrame) (s : State) :
    placeFrame g (raiseLineLink s) = { s with
      linePort := (placeFrame g (raiseLineLink s)).linePort
      officePort := (placeFrame g (raiseLineLink s)).officePort
      officeQueue := { s.officeQueue with frames := s.officeQueue.frames ++ [g] } } := by
  apply State.eq_of_fields <;> simp

/-- A count behind the raised link changes the Line Port and the counters. -/
theorem count_raiseLineLink (c : Counters → Counters) (s : State) :
    count c (raiseLineLink s) = { s with
      linePort := (count c (raiseLineLink s)).linePort
      mgmt := { s.mgmt with counters := c s.mgmt.counters } } := by
  apply State.eq_of_fields <;> simp

/-! ### The arrival -/

section Arrival
variable {s : State} {bytes : List Byte} {f : ReceivedFrame}

theorem forwardToOffice_room (h : 4 ≤ officeFree s) :
    forwardToOffice bytes s = placeFrame (.forwarded bytes) s := if_pos h

theorem forwardToOffice_full (h : officeFree s < 4) :
    forwardToOffice bytes s
      = count (fun c => { c with droppedLineToOffice := bump c.droppedLineToOffice }) s :=
  if_neg (Nat.not_le.mpr h)

/-- A checked frame that is no tap goes to the Office Queue once it has raised its link, whatever the service state (R1, R168, R172). -/
theorem exec_lineFrameReceived_noTap (high : s.rstnLow = false) (passes : checkFrame bytes = some f)
    (noTap : ¬ (f.kind = kindTap ∧ f.destination = s.nodeAddress)) :
    exec (.lineFrameReceived bytes) s = .next (forwardToOffice bytes (raiseLineLink s)) := by
  have sorted : sortLineFrame bytes f (raiseLineLink s) = forwardToOffice bytes (raiseLineLink s) :=
    if_neg (by simpa using noTap)
  change execLineFrameReceived bytes s = _
  rw [execLineFrameReceived, awake_high high, lineFrame, passes, ← sorted]

end Arrival

end Sys2Proof.Machine

section

open Sys2Proof Sys2Proof.Machine

/-- Settles O11: the raised link leaves the free entries as they were, so the two cases of R168 are those of the state before the arrival; neither looks at the service state. -/
theorem stationFrameForwarded : Obligations.StationFrameForwarded := by
  intro s bytes f high passes noTap
  have arrival := exec_lineFrameReceived_noTap high passes noTap
  refine ⟨fun room => ?_, fun full => ?_⟩
  · have free : 4 ≤ officeFree (raiseLineLink s) := by
      rw [officeFree_raiseLineLink]
      exact (le_officeFree_iff s (by decide)).mpr room
    rw [forwardToOffice_room free] at arrival
    exact ⟨_, arrival, placeFrame_raiseLineLink _ s⟩
  · have free : officeFree (raiseLineLink s) < 4 := by
      rw [officeFree_raiseLineLink, ← Nat.not_le, le_officeFree_iff s (by decide)]
      exact Nat.not_le.mpr full
    rw [forwardToOffice_full free] at arrival
    exact ⟨_, arrival, count_raiseLineLink _ s⟩

end
end

