-- ==== Sys2Proof/Proofs/Lists.lean ====
section
/-! SUPPORT. Facts about lists, sums and words that the package proves for itself: its files are built without Mathlib. -/

namespace Sys2Proof

variable {α β : Type}

/-- Two entries of a list whose keys are all different are one if their keys are. -/
theorem eq_of_nodup_map {f : α → β} {l : List α} (keys : (l.map f).Nodup) {a b : α} (ha : a ∈ l)
    (hb : b ∈ l) (same : f a = f b) : a = b := by
  induction l with
  | nil => exact absurd ha List.not_mem_nil
  | cons x xs ih =>
    obtain ⟨fresh, keys⟩ := List.nodup_cons.mp keys
    rcases List.mem_cons.mp ha with rfl | ha' <;> rcases List.mem_cons.mp hb with rfl | hb'
    · rfl
    · exact absurd (List.mem_map.mpr ⟨b, hb', same.symm⟩) fresh
    · exact absurd (List.mem_map.mpr ⟨a, ha', same⟩) fresh
    · exact ih keys ha' hb'

theorem nodup_concat {l : List α} {a : α} (nodup : l.Nodup) (fresh : a ∉ l) : (l ++ [a]).Nodup := by
  refine List.nodup_append.mpr ⟨nodup, by simp, fun x held y new same => fresh ?_⟩
  rwa [same, List.mem_singleton.mp new] at held

theorem sum_le_length_mul {l : List Nat} {n : Nat} (bound : ∀ x ∈ l, x ≤ n) : l.sum ≤ l.length * n := by
  induction l with
  | nil => simp
  | cons x xs ih =>
    have head := bound x List.mem_cons_self
    have tail := ih fun y hy => bound y (List.mem_cons_of_mem x hy)
    rw [List.sum_cons, List.length_cons, Nat.succ_mul]
    omega

theorem beq_decides [BEq α] [LawfulBEq α] [DecidableEq α] {a b : α} : (a == b) = decide (a = b) := by
  by_cases same : a = b <;> simp [same]

end Sys2Proof
end

