-- ==== Sys2Proof/Proofs/Effects.lean ====
section
/-! SUPPORT. What a command does, said once: the effect of each row while RSTN is high, the row a request has, and when a property is kept by every step. -/

namespace Sys2Proof.Machine

/-! ### The effect of each command -/

/-- A request carried out (R174): what its row makes of the state when the request is the oldest one taken (log 5). -/
def carryOut (q : Request) (s : State) : State :=
  match q with
  | .malformed => s
  | .identify => answerTaken (Reply.done (.identity (identity s))) s
  | .start => startService s
  | .halt => answerTaken (Reply.done .nothing) (setService .halted s)
  | .restart =>
    if restartHeld s then answerTaken (Reply.refused .restartInProgress) s else restartNow s
  | .setRunSettings v =>
    answerTaken (Reply.done (.settings (clampSettings v))) (applySettings (clampSettings v) s)
  | .timeMark sec ms => timeMark sec ms s
  | .counters clear => readCounters clear s
  | .tableWrite x table first n bytes => tableWrite x table first n bytes s
  | .tableRead x table first n => tableRead x table first n s
  | .copyActive x => copyActive x s
  | .discard x => discard x (settleSwap s)
  | .activate x effective => activate x effective s
  | .cancel x => cancel x (settleSwap s)
  | .denyAdd t => denyAdd t s
  | .denyRemove t => denyRemove t s
  | .denyClear => answerTaken (Reply.done (.length s.tables.denyList.length)) (setDenyList [] s)
  | .denyCheck t => answerTaken (Reply.done
      (.denyCheck (s.tables.denyList.contains t) s.tables.denyList.length)) s
  | .journeyQuery _ => advanceTaken .waitingEntries s
  | .journeyClose _ exitStation exitTime =>
    if closeFormValid exitStation exitTime then advanceTaken .waitingEntries s
    else answerTaken Reply.malformed s
  | .accountQuery _ _ => advanceTaken .waitingEntries s

/-- The row of a request; a malformed frame has none (R174). -/
def requestRow : Request → Option Instr
  | .malformed => none
  | .identify => some .identify
  | .start => some .start
  | .halt => some .halt
  | .restart => some .restart
  | .setRunSettings _ => some .setRunSettings
  | .timeMark _ _ => some .timeMark
  | .counters _ => some .counters
  | .tableWrite _ _ _ _ _ => some .tableWrite
  | .tableRead _ _ _ _ => some .tableRead
  | .copyActive _ => some .copyActive
  | .discard _ => some .discard
  | .activate _ _ => some .activate
  | .cancel _ => some .cancel
  | .denyAdd _ => some .denyAdd
  | .denyRemove _ => some .denyRemove
  | .denyClear => some .denyClear
  | .denyCheck _ => some .denyCheck
  | .journeyQuery _ => some .journeyQuery
  | .journeyClose _ _ _ => some .journeyClose
  | .accountQuery _ _ => some .accountQuery

/-- What a request's row makes of the state: nothing unless the oldest request taken is of its kind (log 5). -/
def requestEffect (c : Instr) (s : State) : State :=
  match nextTaken s with
  | some r => if requestRow r.request = some c then carryOut r.request s else s
  | none => s

/-- The journey operation of a grant's row, carried out (R81, R82, R100). -/
def grantEffect (c : Instr) (s : State) : State :=
  match grantedOperation s with
  | some r =>
    match c, r.request with
    | .journeyQueryGrant, .journeyQuery t => replyAndEnd r (queryReply t s) 0 s
    | .journeyCloseGrant, .journeyClose t exitStation exitTime =>
      closeGranted r t exitStation exitTime s
    | .accountQueryGrant, .accountQuery t day => replyAndEnd r (accountReply t day s) 0 s
    | _, _ => s
  | none => s

/-- What a command does when RSTN does not stop it (R178). -/
def effect (c : Instr) (s : State) : State :=
  match c with
  | .rstnLow => dropRstn s
  | .pinReset straps => resetWith straps s
  | .lineFrameReceived bytes => lineFrame bytes s
  | .officeFrameReceived bytes => officeFrame bytes s
  | .restartLateRecord => placeLateRecord s
  | .drainStepSetAside => drainSetAside s
  | .drainStep => drainWork s
  | .restartComplete => completeRestart s
  | .copyComplete => copyComplete s
  | .validationComplete => validationComplete s
  | .activationFiring => fireActivation s
  | .swap => settleSwap s
  | .journeyOperationSetAside which => setAsideOperation (heldIndex which) s
  | .journeyQueryGrant => grantEffect .journeyQueryGrant s
  | .journeyCloseGrant => grantEffect .journeyCloseGrant s
  | .accountQueryGrant => grantEffect .accountQueryGrant s
  | .replyPlacement which => placeWaitingReply (heldIndex which) s
  | .reckonerTakeTap => takeTap s
  | .reckonerGrant => reckonerWork s
  | .sweepRequest => askForStore s
  | .sweepGrant => sweepGrant s
  | .answerDeadlineExpiry (.queued i) => expireQueued i s
  | .answerDeadlineExpiry .reckoner => expireReckoner s
  | .rawTick => tick s
  | .slewComplete => completeSlew s
  | .holdoverExpiry => checkHoldover s
  | .eventFramePlacement => placeEvent s
  | .lineTransmitComplete => lineSent s
  | .officeTransmitComplete => officeSent s
  | .officeReadyIndication ready => setReady ready s
  | .linkUp port => raiseLink port s
  | .linkDown .line midFrame => loseLineLink midFrame s
  | .linkDown .office midFrame => loseOfficeLink midFrame s
  | c => requestEffect c s

/-- The two commands that RSTN's low level does not stop (R178). -/
def isPin : Instr → Bool
  | .rstnLow | .pinReset _ => true
  | _ => false

theorem exec_of_awake {c : Instr} {s : State} (h : exec c s = awake s (effect c s))
    (noPin : isPin c = false) :
    exec c s = .next (if s.rstnLow = true ∧ isPin c = false then s else effect c s) := by
  simp [h, awake, noPin]

/-- A command has its effect, but for the commands that RSTN's low level stops (R178, log 2). -/
theorem exec_eq (c : Instr) (s : State) :
    exec c s = .next (if s.rstnLow = true ∧ isPin c = false then s else effect c s) := by
  cases c
  case identify | start | halt | restart | setRunSettings | timeMark | counters | tableWrite
      | tableRead | copyActive | discard | activate | cancel | denyAdd | denyRemove | denyClear
      | denyCheck | journeyQuery | journeyClose | accountQuery =>
    cases low : s.rstnLow
    all_goals
      simp only [exec, execIdentify, execStart, execHalt, execRestart, execSetRunSettings,
        execTimeMark, execCounters, execTableWrite, execTableRead, execCopyActive, execDiscard,
        execActivate, execCancel, execDenyAdd, execDenyRemove, execDenyClear, execDenyCheck,
        execJourneyQuery, execJourneyClose, execAccountQuery, effect, requestEffect, isPin, awake, low]
    · cases nextTaken s with
      | none => simp
      | some r => cases hr : r.request <;> simp [requestRow, carryOut, hr]
    · simp
  case journeyQueryGrant | journeyCloseGrant | accountQueryGrant =>
    cases low : s.rstnLow
    all_goals
      simp only [exec, execJourneyQueryGrant, execJourneyCloseGrant, execAccountQueryGrant,
        effect, grantEffect, isPin, awake, low]
    · cases grantedOperation s with
      | none => simp
      | some r => cases hr : r.request <;> simp [hr]
    · simp
  case answerDeadlineExpiry place =>
    cases place <;> cases low : s.rstnLow <;>
      simp [exec, execAnswerDeadlineExpiry, effect, isPin, awake, low]
  case linkDown port midFrame =>
    cases port <;> cases low : s.rstnLow <;>
      simp [exec, execLinkDown, effect, isPin, awake, low]
  case rstnLow => simp [exec, execRstnLow, effect, isPin]
  case pinReset => simp [exec, execPinReset, effect, isPin]
  all_goals exact exec_of_awake rfl rfl

/-- While RSTN is high a command has its effect. -/
theorem exec_high {s : State} (high : s.rstnLow = false) (c : Instr) :
    exec c s = .next (effect c s) := by
  simp [exec_eq, high]

/-- A request's row carries out the oldest request taken, when it is of its kind (log 5). -/
theorem exec_request_of {s : State} {before after : List HeldRequest} {r : HeldRequest} {c : Instr}
    (next : NextRequest s before r after) (row : requestRow r.request = some c) :
    exec c s = .next (carryOut r.request s) := by
  have acts : requestEffect c s = carryOut r.request s := by
    simp [requestEffect, nextTaken_of next, row]
  rw [exec_high next.1, ← acts]
  cases hr : r.request <;> simp only [hr, requestRow, reduceCtorEq, Option.some.injEq] at row <;>
    subst row <;> rfl

/-! ### Steps -/

/-- A property that does not look at the queue of commands is kept by every step when the two pins' commands and every effect under a high RSTN keep it. -/
theorem kept_of_effects {p : State → Prop} (queue : ∀ s l, p s → p { s with pending := l })
    (low : ∀ s, p s → p (dropRstn s)) (reset : ∀ straps s, p (resetWith straps s))
    (keeps : ∀ c s, isPin c = false → s.rstnLow = false → p s → p (effect c s)) : Kept p := by
  intro s t hs hstep
  unfold step at hstep
  split at hstep
  next c rest _ =>
    have hs' := queue s rest hs
    rw [exec_eq] at hstep
    injection hstep with ht
    subst ht
    split
    · exact hs'
    next stopped =>
      cases hc : isPin c
      · refine keeps c _ hc ?_ hs'
        simpa [hc] using stopped
      · cases c with
        | rstnLow => exact low _ hs'
        | pinReset straps => exact reset _ _
        | _ => exact absurd hc Bool.false_ne_true
  next => injection hstep with ht; exact ht ▸ hs

end Sys2Proof.Machine
end

