-- ==== Sys2Proof/Proofs/StoreWork.lean ====
section
/-! SUPPORT. Every command but the pins' is a run of a few shared operations, its moves: said once, so that a law that each move keeps is a law that every step keeps. -/

namespace Sys2Proof.Machine

/-! ### The operations on the two tables of the Journey Store -/

/-- A change of an account record that keeps its key and the bound of its legs priced (R85, R92). -/
structure KeepsKey (f : Account → Account) : Prop where
  token : ∀ a, (f a).token = a.token
  day : ∀ a, (f a).day = a.day
  legs : ∀ a, a.legs ≤ 255 → (f a).legs ≤ 255

/-- A way that an admission may take: in the token's set, free, and the token without an open journey (R64, R65). -/
structure Admissible (s : State) (w : JourneyWay) : Prop where
  inSet : w.slot / 4 = journeySet w.journey.token
  free : ∀ v ∈ s.store.journeys, v.slot ≠ w.slot
  single : ∀ v ∈ s.store.journeys, v.journey.token ≠ w.journey.token

/-- One operation of a journey handling that began in `s0`, on the Journey Table, the Day Account Table and the counts they send. -/
inductive StoreWork (s0 : State) : State → State → Prop
  | obtain (token : Token) (day : Nat) (s : State) : StoreWork s0 s (obtainAccount token day s).1
  | write (slot : Option Nat) (f : Account → Account) (s : State) (hf : KeepsKey f) :
      StoreWork s0 s (writeAccount slot f s)
  | reference (s : State) : StoreWork s0 s (takeReference s)
  | close (w : JourneyWay) (s : State) (held : w ∈ s.store.journeys) :
      StoreWork s0 s (closeJourney w s)
  | giveWay (w : JourneyWay) (s : State) (held : w ∈ s.store.journeys) :
      StoreWork s0 s (noteClosing w.journey.tag (removeJourney w.slot s))
  | join (w : JourneyWay) (s : State) (active : (slotOf s w.journey.tag).state = .active)
      (fits : JourneysSound s0 → Admissible s w) : StoreWork s0 s (appendJourney w s)

/-- The state with another Journey Store, Sweep, Table Store and pending events. -/
def State.storeAs (s t : State) : State :=
  { s with
    store := { t.store with arbiter := s.store.arbiter, grant := s.store.grant }
    sweep := { s.sweep with spillMode := t.sweep.spillMode }
    tables := { t.tables with swapDue := s.tables.swapDue, denyList := s.tables.denyList }
    mgmt := { s.mgmt with events := t.mgmt.events } }

@[simp] theorem TableStore.put_swapDue (t : TableStore) (x : SlotId) (v : Slot) :
    (t.put x v).swapDue = t.swapDue := by cases x <;> rfl

@[simp] theorem TableStore.put_denyList (t : TableStore) (x : SlotId) (v : Slot) :
    (t.put x v).denyList = t.denyList := by cases x <;> rfl

@[simp] theorem TableStore.slot_put_same (t : TableStore) (x : SlotId) (v : Slot) :
    (t.put x v).slot x = v := by cases x <;> rfl

@[simp] theorem TableStore.slot_put_other (t : TableStore) (x : SlotId) (v : Slot) :
    (t.put x v).slot x.other = t.slot x.other := by cases x <;> rfl

theorem TableStore.slot_put_ne (t : TableStore) {x y : SlotId} (v : Slot) (h : y ≠ x) :
    (t.put x v).slot y = t.slot y := by
  cases x <;> cases y
  case a.a | b.b => exact absurd rfl h
  case a.b | b.a => rfl

/-- The marks compared change of the Sweep its spill mode only (R124). -/
theorem compareMarks_sweep (s : State) :
    (compareMarks s).sweep = { s.sweep with spillMode := (compareMarks s).sweep.spillMode } := by
  unfold compareMarks
  dsimp only
  split <;> split <;> simp

@[simp] theorem noteClosing_tables (x : SlotId) (s : State) :
    (noteClosing x s).tables.swapDue = s.tables.swapDue
    ∧ (noteClosing x s).tables.denyList = s.tables.denyList := by
  unfold noteClosing
  dsimp only
  split <;> simp

@[simp] theorem closeJourney_tables (w : JourneyWay) (s : State) :
    (closeJourney w s).tables.swapDue = s.tables.swapDue
    ∧ (closeJourney w s).tables.denyList = s.tables.denyList := by
  simp [closeJourney]

theorem closeJourney_sweep (w : JourneyWay) (s : State) :
    (closeJourney w s).sweep
      = { s.sweep with spillMode := (closeJourney w s).sweep.spillMode } := by
  have := compareMarks_sweep (removeJourney w.slot s)
  simpa [closeJourney] using this

/-- An admission joins the admission list, compares the marks and sends its tag's count message (R69, R75). -/
@[simp] theorem appendJourney_frame (w : JourneyWay) (s : State) :
    (appendJourney w s).rstnLow = s.rstnLow ∧ (appendJourney w s).nodeAddress = s.nodeAddress
    ∧ (appendJourney w s).linePort = s.linePort ∧ (appendJourney w s).officePort = s.officePort
    ∧ (appendJourney w s).tapQueue = s.tapQueue
    ∧ (appendJourney w s).verdictQueue = s.verdictQueue
    ∧ (appendJourney w s).forwardQueue = s.forwardQueue
    ∧ (appendJourney w s).officeQueue = s.officeQueue
    ∧ (appendJourney w s).reckoner = s.reckoner ∧ (appendJourney w s).clock = s.clock
    ∧ (appendJourney w s).freeIndex = s.freeIndex ∧ (appendJourney w s).pending = s.pending
    ∧ (appendJourney w s).mgmt.service = s.mgmt.service
    ∧ (appendJourney w s).mgmt.requests = s.mgmt.requests
    ∧ (appendJourney w s).mgmt.settings = s.mgmt.settings
    ∧ (appendJourney w s).mgmt.counters = s.mgmt.counters
    ∧ (appendJourney w s).mgmt.drain = s.mgmt.drain
    ∧ (appendJourney w s).mgmt.restartLate = s.mgmt.restartLate
    ∧ (appendJourney w s).store = { s.store with journeys := s.store.journeys ++ [w] }
    ∧ (appendJourney w s).tables = s.tables.put w.journey.tag
      { s.tables.slot w.journey.tag with refCount := (s.tables.slot w.journey.tag).refCount + 1 } := by
  simp [appendJourney]

theorem appendJourney_sweep (w : JourneyWay) (s : State) :
    (appendJourney w s).sweep
      = { s.sweep with spillMode := (appendJourney w s).sweep.spillMode } := by
  have := compareMarks_sweep
    { s with store := { s.store with journeys := s.store.journeys ++ [w] } }
  simpa [appendJourney] using this

/-- An operation on the two tables leaves every other block as it is. -/
theorem StoreWork.frame {s0 s t : State} (h : StoreWork s0 s t) : t = s.storeAs t := by
  cases h with
  | obtain token day =>
    apply State.eq_of_fields <;> simp [State.storeAs]
    · apply JourneyStore.eq_of_fields <;> simp
    · apply Management.eq_of_fields <;> simp
  | write slot f => apply State.eq_of_fields <;> simp [State.storeAs]; apply JourneyStore.eq_of_fields <;> simp
  | reference => apply State.eq_of_fields <;> simp [State.storeAs]
  | close w =>
    apply State.eq_of_fields <;> simp [State.storeAs]
    · exact closeJourney_sweep w s
    · apply TableStore.eq_of_fields <;> simp
    · apply Management.eq_of_fields <;> simp
  | giveWay w =>
    apply State.eq_of_fields <;> simp [State.storeAs]
    · apply TableStore.eq_of_fields <;> simp
    · apply Management.eq_of_fields <;> simp
  | join w =>
    apply State.eq_of_fields <;> simp [State.storeAs]
    · exact appendJourney_sweep w s
    · apply TableStore.eq_of_fields <;> simp
    · apply Management.eq_of_fields <;> simp

/-- A run: what is reached from a state in steps of the relation, none or more. (The package is built without Mathlib, so the closure is stated here.) -/
inductive Run (r : State → State → Prop) (s : State) : State → Prop
  | refl : Run r s s
  | tail {t u : State} : Run r s t → r t u → Run r s u

namespace Run

variable {r r' : State → State → Prop} {s t u : State}

theorem single (h : r s t) : Run r s t := .tail .refl h

theorem trans (first : Run r s t) (second : Run r t u) : Run r s u := by
  induction second with
  | refl => exact first
  | tail _ step ih => exact ih.tail step

theorem mono (le : ∀ s t, r s t → r' s t) (run : Run r s t) : Run r' s t := by
  induction run with
  | refl => exact .refl
  | tail _ step ih => exact ih.tail (le _ _ step)

end Run

/-- A run of operations on the two tables. -/
abbrev StoreWorks (s0 : State) : State → State → Prop := Run (StoreWork s0)

/-- So does a run of them. -/
theorem StoreWorks.frame {s0 s t : State} (h : StoreWorks s0 s t) : t = s.storeAs t := by
  induction h with
  | refl => rfl
  | tail _ work ih =>
    rw [work.frame, ih]
    rfl

/-- A count message of a closing leaves an Active slot Active (R142). -/
theorem noteClosing_active {x y : SlotId} {s : State} (h : (slotOf s y).state = .active) :
    (slotOf (noteClosing x s) y).state = .active := by
  unfold noteClosing
  dsimp only
  by_cases same : y = x
  · subst same
    rw [if_neg (by simp [h])]
    simpa [slotOf] using h
  · split <;> simpa [slotOf, TableStore.slot_put_ne _ _ same] using h

/-- The operations on the two tables leave an Active slot Active. -/
theorem StoreWork.active {s0 s t : State} (h : StoreWork s0 s t) {x : SlotId}
    (hx : (slotOf s x).state = .active) : (slotOf t x).state = .active := by
  cases h with
  | obtain | write | reference => simpa [slotOf] using hx
  | close w => exact noteClosing_active (by simpa [slotOf] using hx)
  | giveWay w => exact noteClosing_active (by simpa [slotOf] using hx)
  | join w =>
    by_cases same : x = w.journey.tag
    · subst same
      simpa [slotOf] using hx
    · simpa [slotOf, TableStore.slot_put_ne _ _ same] using hx

theorem StoreWorks.active {s0 s t : State} (h : StoreWorks s0 s t) {x : SlotId}
    (hx : (slotOf s x).state = .active) : (slotOf t x).state = .active := by
  induction h with
  | refl => exact hx
  | tail _ work ih => exact work.active ih

end Sys2Proof.Machine
end

