-- ==== Sys2Proof/Proofs/Handlings.lean ====
section
/-! SUPPORT. Every handling of a tap, every visit of the Sweep and every forced close is a run of operations on the two tables of the Journey Store (Chapters 4 to 7). -/

namespace Sys2Proof.Machine

variable {s0 s t : State}

/-! ### Closings -/

/-- What is written into an account keeps its key and the bound of its legs (R85, R92). -/
theorem keepsKey_lastIncomplete (l : LastIncomplete) :
    KeepsKey (fun a => { a with lastIncomplete := some l }) := ⟨fun _ => rfl, fun _ => rfl, fun _ h => h⟩

theorem keepsKey_exit (spent : Account → Nat) (l : LastExit) :
    KeepsKey (fun a => ({ a with spent := spent a, lastExit := some l }).addLeg) :=
  ⟨fun _ => rfl, fun _ => rfl, fun _ _ => Nat.min_le_right _ _⟩

theorem keepsKey_lastUnmatched (l : LastUnmatched) :
    KeepsKey (fun a => { a with lastUnmatched := some l }) := ⟨fun _ => rfl, fun _ => rfl, fun _ h => h⟩

theorem keepsKey_clearUnmatched (u : LastUnmatched) :
    KeepsKey (fun a => if a.lastUnmatched = some u then { a with lastUnmatched := none } else a) :=
  ⟨fun a => by split <;> rfl, fun a => by split <;> rfl,
    fun a h => by split <;> exact h⟩

/-- An account obtained and then written. -/
theorem works_obtain_write (token : Token) (day : Nat) (slot : Option Nat) {f : Account → Account}
    (hf : KeepsKey f) (s : State) :
    StoreWorks s0 s (writeAccount slot f (obtainAccount token day s).1) :=
  .tail (.single (.obtain token day s)) (.write slot f _ hf)

theorem closeIncomplete_works (extra : RecordFlags) {w : JourneyWay} (held : w ∈ s.store.journeys) :
    StoreWorks s0 s (closeIncomplete extra w s).st :=
  .tail (works_obtain_write _ _ _ (keepsKey_lastIncomplete _) s)
    (.close w _ (by simpa [writeLastIncomplete] using held))

theorem closeCompleted_works (extra : RecordFlags) {w : JourneyWay} (exit : StationTime)
    (slot : Option Nat) (p : Pricing) (held : w ∈ s.store.journeys) :
    StoreWorks s0 s (closeCompleted extra w exit slot p s).st :=
  .tail (.single (.write slot _ s (keepsKey_exit _ _)))
    (.close w _ (by simpa [writeExit] using held))

/-- A journey found is one of the table's, with the token sought (R64). -/
theorem findJourney_mem {token : Token} {w : JourneyWay} (h : findJourney s token = some w) :
    w ∈ s.store.journeys ∧ w.journey.token = token := by
  refine ⟨List.mem_of_find?_eq_some h, ?_⟩
  have := List.find?_some h
  simp_all

/-- A token without an open journey has none in a sound table (R64). -/
theorem findJourney_none {token : Token} (h : findJourney s token = none) (sound : JourneysSound s) :
    ∀ v ∈ s.store.journeys, v.journey.token ≠ token := by
  intro v hv same
  have := List.find?_eq_none.mp h v hv
  simp [same, sound.2.2 v hv] at this

/-! ### Admissions -/

/-- The room made in a set: a way of the set that no journey left holds (R75). -/
theorem makeRoom_works (set : Nat) (s : State) :
    StoreWorks s0 s (makeRoom set s).1 ∧ (makeRoom set s).2.2 / 4 = set
    ∧ ∀ v ∈ (makeRoom set s).1.store.journeys, v ∈ s.store.journeys ∧ v.slot ≠ (makeRoom set s).2.2 := by
  unfold makeRoom
  dsimp only
  split
  next _ n found =>
    have hn := List.mem_of_find?_eq_some found
    have free := List.find?_some found
    have inSet : n / 4 = set := by
      simp only [List.mem_cons, List.not_mem_nil, or_false] at hn
      omega
    refine ⟨.refl, inSet, fun v hv => ⟨hv, fun same => ?_⟩⟩
    simp only [List.contains_eq_mem, List.mem_map, List.mem_filter, beq_iff_eq, Bool.not_eq_true', decide_eq_false_iff_not, not_exists, not_and] at free
    exact free v ⟨hv, by rw [same, inSet]⟩ same
  next w rest full filtered =>
    have hw : w ∈ s.store.journeys.filter (fun w => w.slot / 4 == set) := by simp [filtered]
    simp only [List.mem_filter, beq_iff_eq] at hw
    refine ⟨.single (.giveWay w s hw.1), hw.2, fun v hv => ?_⟩
    simpa using hv
  next full empty =>
    simp [empty, freeWay] at full

/-- An admission, once the token's set has room (R75). -/
theorem admitEntry_works {e : EntryWork} {before : List Record}
    (active : (slotOf s e.slot).state = .active)
    (single : JourneysSound s0 → ∀ v ∈ s.store.journeys, v.journey.token ≠ e.tap.token) :
    StoreWorks s0 s (admitEntry e before s).st := by
  obtain ⟨works, inSet, free⟩ := makeRoom_works (s0 := s0) (journeySet e.tap.token) s
  refine .tail (.tail works (.reference _)) (.join _ _ ?_ fun sound => ⟨inSet, ?_, ?_⟩)
  · simpa [slotOf, admittedJourney] using works.active active
  · exact fun v hv => (free v hv).2
  · exact fun v hv => single sound v (free v hv).1

theorem closeNewEntry_works (cancelled : Bool) (e : EntryWork) (s : State) :
    StoreWorks s0 s (closeNewEntry cancelled e s).st := by
  unfold closeNewEntry
  cases cancelled
  · exact (Run.single (.reference s)).trans
      (works_obtain_write _ _ _ (keepsKey_lastIncomplete _) _)
  · exact .single (.reference s)

/-! ### Entries -/

/-- The other journeys left once one is closed do not have its token (R65). -/
theorem token_ne_of_closed {w : JourneyWay} (sound : JourneysSound s) (held : w ∈ s.store.journeys) :
    ∀ v ∈ s.store.journeys.filter (fun v => v.slot != w.slot), v.journey.token ≠ w.journey.token := by
  intro v hv same
  simp only [List.mem_filter, bne_iff_ne, ne_eq] at hv
  exact hv.2 (congrArg JourneyWay.slot (eq_of_nodup_map sound.2.1 hv.1 held same))

theorem handleEntry_works {e : EntryWork} (active : (slotOf s e.slot).state = .active) :
    StoreWorks s s (handleEntry e s).st := by
  unfold handleEntry
  split
  next none => exact admitEntry_works active (findJourney_none none)
  next w found =>
    obtain ⟨held, token⟩ := findJourney_mem found
    dsimp only
    split
    · exact .refl
    · split
      · have closed : StoreWorks s s (closeCancelled w s).st := .single (.close w s held)
        refine closed.trans (admitEntry_works (closed.active active) fun sound => ?_)
        simpa [closeCancelled, ← token] using token_ne_of_closed sound held
      · exact closeNewEntry_works _ e s
    · split
      · have closed := closeIncomplete_works (s0 := s) {} held
        refine closed.trans (admitEntry_works (closed.active active) fun sound => ?_)
        simpa [closeIncomplete, writeLastIncomplete, ← token] using token_ne_of_closed sound held
      · exact closeNewEntry_works _ e s

theorem liveEntry_works {e : EntryWork} (active : (slotOf s e.slot).state = .active) :
    StoreWorks s s (liveEntry e s).st := by
  unfold liveEntry
  dsimp only
  split
  · exact .refl
  split
  · exact .refl
  split
  · exact .refl
  · exact handleEntry_works active

/-! ### Exits -/

/-- A journey priced obtains its account and nothing more (R37, R88). -/
theorem priceJourney_state {w : JourneyWay} {pass : Option Pass} {exit : StationTime} {s1 : State}
    {slot : Option Nat} {p : Pricing} (h : priceJourney w pass exit s = some (s1, slot, p)) :
    obtainAccount w.journey.token (journeyDay s w.journey) s = (s1, slot) := by
  unfold priceJourney at h
  simp only [Option.map_eq_some_iff, Prod.mk.injEq] at h
  obtain ⟨q, _, h1, h2, _⟩ := h
  exact Prod.ext h1 h2

theorem matchedExit_works {w : JourneyWay} (tap : Tap) (tapTime : Nat) (held : w ∈ s.store.journeys) :
    StoreWorks s0 s (matchedExit w tap tapTime s).st := by
  have obtained : StoreWorks s0 s (obtainAccount w.journey.token (journeyDay s w.journey) s).1 :=
    .single (.obtain _ _ s)
  have held' : w ∈ (obtainAccount w.journey.token (journeyDay s w.journey) s).1.store.journeys := by
    simpa using held
  have closed : StoreWorks s0 s (closeJourney w s) := .single (.close w s held)
  unfold matchedExit
  dsimp only
  split
  · exact closed
  split
  · exact obtained.trans (closeCompleted_works {} _ _ _ held')
  split
  · split
    · exact closed
    · exact obtained.trans (closeCompleted_works {} _ _ _ held')
  · unfold exitFull
    split
    next s1 slot p priced =>
      have hs1 : s1 = (obtainAccount w.journey.token (journeyDay s w.journey) s).1 := by
        rw [priceJourney_state priced]
      subst hs1
      exact obtained.trans (closeCompleted_works {} _ _ _ held')
    · exact closed

theorem correctExit_works (x : SlotId) (slot : Nat) (l : LastIncomplete) (tap : Tap) (tapTime : Nat)
    (p : Pricing) (s : State) : StoreWorks s0 s (correctExit x slot l tap tapTime p s).st :=
  .tail (.single (.write (some slot) _ s (keepsKey_exit _ _)))
    (.write (some slot) (fun a => { a with lastIncomplete := none }) _
      ⟨fun _ => rfl, fun _ => rfl, fun _ h => h⟩)

theorem exitUnmatched_works (x : SlotId) (tap : Tap) (tapTime : Nat) (s : State) :
    StoreWorks s0 s (exitUnmatched x tap tapTime s).st :=
  (Run.single (.reference s)).trans
    (works_obtain_write _ _ _ (keepsKey_lastUnmatched _) _)

theorem exitWithoutJourney_works (x : SlotId) (tap : Tap) (tapTime : Nat) (s : State) :
    StoreWorks s0 s (exitWithoutJourney x tap tapTime s).st := by
  unfold exitWithoutJourney correctOrUnmatched
  split
  · exact .refl
  split
  · split
    · exact correctExit_works x _ _ tap tapTime _ s
    · exact exitUnmatched_works x tap tapTime s
  · exact exitUnmatched_works x tap tapTime s

theorem handleExit_works (x : SlotId) (tap : Tap) (tapTime : Nat) (s : State) :
    StoreWorks s0 s (handleExit x tap tapTime s).st := by
  unfold handleExit
  split
  next w found =>
    split
    · exact matchedExit_works tap tapTime (findJourney_mem found).1
    · exact exitWithoutJourney_works x tap tapTime s
  next => exact exitWithoutJourney_works x tap tapTime s

/-! ### Deferred entries and the handling of a granted tap -/

theorem repairEntry_works {e : EntryWork} {home : Nat} {u : LastUnmatched} {h : Handled}
    (repaired : repairEntry e home u s = some h) : StoreWorks s0 s h.st := by
  unfold repairEntry at repaired
  simp only [Option.map_eq_some_iff] at repaired
  obtain ⟨p, _, rfl⟩ := repaired
  exact .tail (works_obtain_write _ _ _ (keepsKey_exit _ _) s)
    (.write (some home) _ _ (keepsKey_clearUnmatched u))

theorem deferredEntry_works {e : EntryWork} (active : (slotOf s e.slot).state = .active) :
    StoreWorks s s (deferredEntry e s).st := by
  unfold deferredEntry
  split
  · exact .refl
  split
  next h repaired =>
    obtain ⟨r, _, hr⟩ := Option.bind_eq_some_iff.mp repaired
    exact repairEntry_works hr
  next => exact handleEntry_works active

/-- The Active slot is one in the state Active (R129). -/
theorem slotIn_some {p : SlotState → Bool} {x : SlotId} (h : slotIn p s = some x) :
    p (slotOf s x).state = true := by
  unfold slotIn at h
  split at h
  · injection h with h; subst h; assumption
  split at h
  · injection h with h; subst h; assumption
  · simp at h

theorem activeSlot_state {x : SlotId} (h : activeSlot s = some x) : (slotOf s x).state = .active := by
  simpa using slotIn_some h

/-- The handling of a granted tap is a run of operations on the two tables (R7). -/
theorem handleTap_works {x : SlotId} (tr : TapTransaction) (active : activeSlot s = some x) :
    StoreWorks s s (handleTap x tr s).st := by
  have isActive := activeSlot_state active
  unfold handleTap
  dsimp only
  split
  · split
    · exact deferredEntry_works isActive
    · exact liveEntry_works isActive
  · exact handleExit_works x _ _ s

end Sys2Proof.Machine
end

