-- ==== Sys2Proof/Proofs/Moves.lean ====
section
/-! SUPPORT. The moves of the commands: the shared operations, each with what it is called under, and each command's run of them. -/

namespace Sys2Proof.Machine

/-! ### Bounds a move is called under -/

/-- Counters of 32 bits (R166). -/
def Counters.inRange (c : Counters) : Prop := ∀ n ∈ c.list, n ≤ 4294967295

/-- The ranges of the Line Clock (R148, R149, R153). -/
structure LineClock.InRange (c : LineClock) : Prop where
  sec : c.sec ≤ 4294967295
  ms : c.ms ≤ 999
  trimLow : -500 ≤ c.trim
  trimHigh : c.trim ≤ 500
  accumulatorLow : -999999 ≤ c.accumulator
  accumulatorHigh : c.accumulator ≤ 999999
  holdover : c.holdover ≤ Config.holdoverMax

/-- The cursors of the Sweep name slots (R119). -/
def Sweep.inRange (w : Sweep) : Prop := w.journeyCursor < 16384 ∧ w.accountCursor < 32768

/-- Every held request of `l` is one of `k` come to another phase, or carries a mark of 32 bits (R173). -/
def RequestsFrom (k l : List HeldRequest) : Prop :=
  ∀ r ∈ l, markInRange r.request = true ∨ ∃ q ∈ k, r.request = q.request

/-- A change of a slot that is neither Active nor Retiring, before or after (R134, R136 to R141): it is loaded only when it was or the other is not, and a due swap left standing is for a slot that waits for it. -/
structure SlotChange (s : State) (x : SlotId) (v : Slot) (due : Option SlotId) : Prop where
  before : (slotOf s x).state ≠ .active ∧ (slotOf s x).state ≠ .retiring
  after : v.state ≠ .active ∧ v.state ≠ .retiring
  count : v.refCount = (slotOf s x).refCount ∨ v.refCount = 0
  loading : v.state.loading = true → (slotOf s x).state.loading = true
    ∨ (slotOf s x.other).state.loading = false
  due : due = none ∨ (due = some x ∧ (v.state = .validating ∨ v.state = .pending))
    ∨ due = s.tables.swapDue ∧ (due = some x → ((slotOf s x).state ≠ .validating
      ∧ (slotOf s x).state ≠ .pending) ∨ v.state = .validating ∨ v.state = .pending)

/-- A slot and the due swap replaced (R129, R141). -/
def changeSlot (x : SlotId) (v : Slot) (due : Option SlotId) (s : State) : State :=
  { s with tables := { s.tables.put x v with swapDue := due } }

/-- What a command's moves may do. -/
structure Scope where
  /-- It closes journeys: it works on the two tables of the Journey Store, makes no change of a slot but those that the tables' counts and a due swap bring, and takes no pending event. -/
  closes : Bool
  /-- It accepts, takes or answers taps. -/
  answers : Bool
  /-- It sets entries of the Office Queue aside or asks for the store, or undoes these. -/
  books : Bool
  /-- It moves line time. -/
  times : Bool

/-- Held requests changed, with the same entries set aside, the same requests for the store and a RESTART underway still underway (R60, R162, R176). -/
structure KeepsBooks (k l : List HeldRequest) : Prop where
  length : k.length ≤ 2 → l.length ≤ 2
  aside : (l.map HeldRequest.aside).sum = (k.map HeldRequest.aside).sum
  presented : (l.filter (fun r => r.phase == .presented)).length
    = (k.filter (fun r => r.phase == .presented)).length
  restart : k.any (fun r => r.phase == .underway && r.request.isRestart) = true →
    l.any (fun r => r.phase == .underway && r.request.isRestart) = true

/-- One move of a command that began in `s0`, within what its scope `k` lets it do. -/
inductive Move (k : Scope) (s0 : State) : State → State → Prop
  | work {s t : State} (hc : k.closes = true) (h : StoreWork s0 s t) : Move k s0 s t
  | count (f : Counters → Counters) (s : State) (hf : ∀ c, c.inRange → (f c).inRange) :
      Move k s0 s (count f s)
  | raise (e : EventKind) (d : EventData) (s : State) (he : e ≠ .generationFreed) :
      Move k s0 s (raise e d s)
  | verdict (v : Verdict) (s : State) (ha : k.answers = true) : Move k s0 s (placeVerdict v s)
  | reserve (n : Nat) (s : State) (ha : k.answers = true) :
      Move k s0 s { s with verdictQueue := { s.verdictQueue with reserved := n } }
  | raiseLine (s : State) : Move k s0 s (raiseLineLink s)
  | loseLine (s : State) : Move k s0 s { s with linePort := ⟨.down, none⟩ }
  | ready (b : Bool) (s : State) : Move k s0 s (setReady b s)
  | loseOffice (s : State) : Move k s0 s { s with officePort := ⟨.down, false, none⟩ }
  | lineSent (s : State) : Move k s0 s (lineSent s)
  | officeSent (s : State) : Move k s0 s (officeSent s)
  | forward (bytes : List Byte) (s : State) (room : s.forwardQueue.length < 256) :
      Move k s0 s (transmitLine { s with forwardQueue := s.forwardQueue ++ [bytes] })
  | emptyForward (s : State) : Move k s0 s (emptyForward s)
  | frame (f : OfficeFrame) (s : State) (hb : k.books = true ∨ 1 ≤ officeFree s) :
      Move k s0 s (placeFrame f s)
  | aside (n : Nat) (s : State) (hb : k.books = true) :
      Move k s0 s { s with officeQueue := { s.officeQueue with setAside := n } }
  | sequence (s : State) : Move k s0 s (advanceSequence s)
  | taps (l : List TapEntry) (r : Option TapTransaction) (s : State) (ha : k.answers = true)
      (hb : k.books = true ∨ r.isSome = s.reckoner.isSome) :
      Move k s0 s { s with tapQueue := l, reckoner := r }
  | request (r : Requester) (s : State) (hb : k.books = true) : Move k s0 s (requestStore r s)
  | release (s : State) (hb : k.books = true) : Move k s0 s (releaseStore s)
  | withdraw (r : Requester) (s : State) (hb : k.books = true) :
      Move k s0 s (onArbiter (fun a => a.withdraw r) s)
  | settle (s : State) : Move k s0 s (settleSwap s)
  | slot (x : SlotId) (v : Slot) (due : Option SlotId) (s : State) (hc : k.closes = false)
      (h : SlotChange s x v due) : Move k s0 s (changeSlot x v due s)
  | requests (f : List HeldRequest → List HeldRequest) (s : State)
      (h : RequestsFrom s.mgmt.requests (f s.mgmt.requests))
      (hb : k.books = true ∨ KeepsBooks s.mgmt.requests (f s.mgmt.requests)) : Move k s0 s (onRequests f s)
  | events (l : List PendingEvent) (s : State) (hc : k.closes = false) (h : l.Sublist s.mgmt.events) :
      Move k s0 s { s with mgmt := { s.mgmt with events := l } }
  | service (v : ServiceState) (s : State) : Move k s0 s (setService v s)
  | drain (f : Drain → Drain) (s : State) (hb : k.books = true) : Move k s0 s (onDrain f s)
  | late (l : List Tap) (s : State) : Move k s0 s { s with mgmt := { s.mgmt with restartLate := l } }
  | filler (n : Nat) (s : State) : Move k s0 s { s with freeIndex := n }
  | settings (v : RunSettings) (s : State) (h : v.inRange) :
      Move k s0 s { s with mgmt := { s.mgmt with settings := v } }
  | clock (f : LineClock → LineClock) (s : State)
      (h : (∀ r ∈ s0.mgmt.requests, markInRange r.request = true) → s.clock.InRange →
        (f s.clock).InRange)
      (ht : k.times = true ∨ (f s.clock).sec = s.clock.sec ∧ (f s.clock).ms = s.clock.ms) :
      Move k s0 s (onClock f s)
  | sweep (f : Sweep → Sweep) (s : State) (h : s.sweep.inRange → (f s.sweep).inRange) :
      Move k s0 s (onSweep f s)
  | denyList (l : List Token) (s : State) (h : DenyListSound s → DenyListSound (setDenyList l s)) :
      Move k s0 s (setDenyList l s)
  | freeAccount (n : Nat) (s : State) : Move k s0 s (removeAccount n s)
  | emptyAccounts (s : State) :
      Move k s0 s { s with store := { s.store with accounts := [], accountFullDay := none } }
  | marks (s : State) : Move k s0 s (compareMarks s)

/-- A run of moves. -/
abbrev Moves (k : Scope) (s0 : State) : State → State → Prop := Run (Move k s0)

/-- What every move keeps, a run of them keeps. -/
theorem Moves.keeps {k : Scope} {p : State → Prop} {s0 s t : State} (run : Moves k s0 s t)
    (keeps : ∀ s t, Move k s0 s t → p s → p t) (h : p s) : p t := by
  induction run with
  | refl => exact h
  | tail _ move ih => exact keeps _ _ move ih

variable {k : Scope} {s0 s t : State}

theorem StoreWorks.moves (hc : k.closes = true) (h : StoreWorks s0 s t) : Moves k s0 s t :=
  h.mono fun _ _ work => .work hc work

/-! ### Records, replies and counts -/

theorem bump_le (n : Nat) : bump n ≤ 4294967295 := Nat.min_le_right _ _

theorem Counters.inRange_iff (c : Counters) : c.inRange ↔ ∀ n ∈ c.list, n ≤ 4294967295 := Iff.rfl

/-- A record's count keeps the range (R166). -/
theorem Counters.record_inRange (k : RecordKind) {c : Counters} (h : c.inRange) :
    (Counters.record k c).inRange := by
  cases k <;> simp_all [Counters.inRange, Counters.list, Counters.record, bump_le]

theorem moves_placeRecord (r : Record) (s : State) (hb : k.books = true ∨ 1 ≤ officeFree s) :
    Moves k s0 s (placeRecord r s) :=
  .tail (.tail (.single (.sequence s)) (.frame _ _ hb)) (.count _ _ fun _ => Counters.record_inRange _)

theorem moves_placeRecordAside (hb : k.books = true) (r : Record) (s : State) :
    Moves k s0 s (placeRecordAside r s) :=
  .trans (.single (.aside _ s hb)) (moves_placeRecord r _ (.inl hb))

theorem moves_fillReserved (ha : k.answers = true) (v : Verdict) (s : State) :
    Moves k s0 s (fillReserved v s) :=
  .tail (.single (.reserve _ s ha)) (.verdict v _ ha)

/-- A request that comes to another phase is the request it was. -/
theorem requestsFrom_modifyFirst (test : HeldRequest → Bool) (p : Phase) (l : List HeldRequest) :
    RequestsFrom l (modifyFirst test (fun r => { r with phase := p }) l) := by
  induction l with
  | nil => intro r hr; cases hr
  | cons x rest ih =>
    unfold modifyFirst
    split
    · intro r hr
      rcases List.mem_cons.mp hr with rfl | hr
      · exact .inr ⟨x, by simp, rfl⟩
      · exact .inr ⟨r, by simp [hr], rfl⟩
    · intro r hr
      rcases List.mem_cons.mp hr with rfl | hr
      · exact .inr ⟨r, by simp, rfl⟩
      · rcases ih r hr with h | ⟨q, hq, same⟩
        · exact .inl h
        · exact .inr ⟨q, by simp [hq], same⟩

theorem requestsFrom_sublist {k l : List HeldRequest} (h : l.Sublist k) : RequestsFrom k l :=
  fun r hr => .inr ⟨r, h.subset hr, rfl⟩

@[simp] theorem modifyFirst_length {α : Type} (test : α → Bool) (f : α → α) (l : List α) :
    (modifyFirst test f l).length = l.length := by
  induction l with
  | nil => rfl
  | cons x rest ih => unfold modifyFirst; split <;> simp [ih]

/-- A request in a phase that counts for none of the books. -/
def HeldRequest.offBooks (r : HeldRequest) : Prop :=
  r.phase ≠ .ready ∧ r.phase ≠ .presented ∧ ¬ (r.phase = .underway ∧ r.request.isRestart = true)

/-- A request outside the books that comes to a phase without entries set aside. -/
theorem keepsBooks_modifyFirst {test : HeldRequest → Bool} {p : Phase} {l : List HeldRequest}
    (off : ∀ r, test r = true → r.offBooks) (hp : p ≠ .ready ∧ p ≠ .presented) :
    KeepsBooks l (modifyFirst test (fun r => { r with phase := p }) l) := by
  suffices same : ((modifyFirst test (fun r => { r with phase := p }) l).map HeldRequest.aside).sum
        = (l.map HeldRequest.aside).sum
      ∧ ((modifyFirst test (fun r => { r with phase := p }) l).filter
          (fun r => r.phase == .presented)).length = (l.filter (fun r => r.phase == .presented)).length
      ∧ (l.any (fun r => r.phase == .underway && r.request.isRestart) = true →
        (modifyFirst test (fun r => { r with phase := p }) l).any
          (fun r => r.phase == .underway && r.request.isRestart) = true) from
    ⟨by simp, same.1, same.2.1, same.2.2⟩
  induction l with
  | nil => simp [modifyFirst]
  | cons x rest ih =>
    obtain ⟨aside, presented, restart⟩ := ih
    unfold modifyFirst
    split
    next hx =>
      obtain ⟨ready, notPresented, notRestart⟩ := off x hx
      refine ⟨by simp [HeldRequest.aside, *], by simp [*], fun h => ?_⟩
      simp only [List.any_cons, Bool.or_eq_true, Bool.and_eq_true, beq_iff_eq] at h ⊢
      exact .inr (h.resolve_left notRestart)
    next =>
      refine ⟨by simp [aside], ?_, fun h => ?_⟩
      · simp only [List.filter_cons]
        split <;> simp [presented]
      · simp only [List.any_cons, Bool.or_eq_true] at h ⊢
        exact h.imp_right restart

/-- A taken request comes to a phase without entries set aside (R174). -/
theorem move_advanceTaken {p : Phase} (hp : p ≠ .ready ∧ p ≠ .presented) (s : State) :
    Move k s0 s (advanceTaken p s) :=
  .requests _ s (requestsFrom_modifyFirst _ p _)
    (.inr (keepsBooks_modifyFirst (fun r hr => by simp_all [HeldRequest.offBooks]) hp))

theorem move_answerTaken (v : Reply) (s : State) : Move k s0 s (answerTaken v s) :=
  move_advanceTaken (by simp) s

theorem isRestart_of_isCopy (q : Request) (h : q.isCopy = true) : q.isRestart = false := by
  cases q with
  | copyActive x => rfl
  | _ => exact absurd h Bool.false_ne_true

theorem isRestart_of_isActivate (q : Request) (h : q.isActivate = true) : q.isRestart = false := by
  cases q with
  | activate x effective => rfl
  | _ => exact absurd h Bool.false_ne_true

/-- An operation on a slot that is underway is answered (R174). -/
theorem move_answerUnderway {kind : Request → Bool} (other : ∀ q, kind q = true → q.isRestart = false)
    (v : Reply) (s : State) : Move k s0 s (answerUnderway kind v s) :=
  .requests _ s (requestsFrom_modifyFirst _ _ _)
    (.inr (keepsBooks_modifyFirst (fun r hr => by
      simp only [Bool.and_eq_true, beq_iff_eq] at hr
      simp [HeldRequest.offBooks, hr.1, other _ hr.2]) (by simp)))

/-- A request answered after a run of moves. -/
theorem Moves.answered (h : Moves k s0 s t) (v : Reply) : Moves k s0 s (answerTaken v t) :=
  .tail h (move_answerTaken v t)

/-! ### The clock's rows -/

theorem moves_reckonDay (s : State) : Moves k s0 s (reckonDay s) := by
  have day : Move k s0 s { s with clock := { s.clock with serviceDay := dayOf s s.clock.sec } } :=
    .clock (fun c => { c with serviceDay := dayOf s s.clock.sec }) s
      (fun _ h => ⟨h.1, h.2, h.3, h.4, h.5, h.6, h.7⟩) (.inr ⟨rfl, rfl⟩)
  unfold reckonDay
  dsimp only
  split
  · refine .tail (.tail (.single day) (.sweep (fun w => { w with
      purgePending := true, accountCursor := 0, turn := .account }) _ fun h => ⟨h.1, ?_⟩)) (.raise _ _ _ (by decide))
    exact Nat.zero_lt_succ _
  · exact .single day

/-- A slot in one of the states that are neither Active nor Retiring. -/
theorem slotIn_state {q : SlotState} {x : SlotId} (h : slotIn (· == q) s = some x) :
    (slotOf s x).state = q := by simpa using slotIn_some h

@[simp] theorem TableStore.put_slot (t : TableStore) (x : SlotId) : t.put x (t.slot x) = t := by
  cases x <;> rfl

theorem moves_fireActivation (hc : k.closes = false) (s : State) :
    Moves k s0 s (fireActivation s) := by
  unfold fireActivation
  split
  next x _ pending _ _ =>
    have state := slotIn_state pending
    split
    · refine .single ?_
      have move : Move k s0 s (changeSlot x (slotOf s x) (some x) s) := .slot x _ _ s hc
        { before := by simp [state]
          after := by simp [state]
          count := .inl rfl
          loading := .inl
          due := .inr (.inl ⟨rfl, .inr state⟩) }
      simpa [changeSlot, slotOf] using move
    · exact .refl
  next => exact .refl

theorem moves_becomeLocked (s : State) : Moves k s0 s (becomeLocked s) := by
  unfold becomeLocked
  split
  · exact .refl
  · exact .tail (.single (.clock (fun c => { c with state := .locked }) s
      (fun _ h => ⟨h.1, h.2, h.3, h.4, h.5, h.6, h.7⟩) (.inr ⟨rfl, rfl⟩))) (.raise _ _ _ (by decide))

theorem moves_checkHoldover (s : State) : Moves k s0 s (checkHoldover s) := by
  unfold checkHoldover
  split
  · exact .tail (.single (.clock (fun c => { c with state := .freeRunning }) s
      (fun _ h => ⟨h.1, h.2, h.3, h.4, h.5, h.6, h.7⟩) (.inr ⟨rfl, rfl⟩))) (.raise _ _ _ (by decide))
  · exact .refl

/-- The trim accumulator stays within 999,999 millionths while the trim stays within 500 ppm (R149). -/
theorem trimAccumulator_range {c : LineClock} (h : c.InRange) :
    -999999 ≤ trimAccumulator c ∧ trimAccumulator c ≤ 999999 := by
  obtain ⟨_, _, h3, h4, h5, h6, _⟩ := h
  by_cases insert : 1000000 ≤ c.accumulator + c.trim
  · simp only [trimAccumulator, trimWork, if_pos insert]
    omega
  · by_cases hold : c.accumulator + c.trim ≤ -1000000
    · simp only [trimAccumulator, trimWork, if_neg insert, if_pos hold]
      omega
    · simp only [trimAccumulator, trimWork, if_neg insert, if_neg hold]
      omega

/-- Line time does not pass its last moment (R148). -/
theorem lineMsAfter_le {c : LineClock} (h : c.InRange) : lineMsAfter c ≤ 4294967295999 := by
  obtain ⟨h1, h2, _⟩ := h
  unfold lineMsAfter
  split
  · simp only [LineClock.lineMs]
    omega
  · exact Nat.min_le_right _ _

theorem tickClock_inRange {c : LineClock} (h : c.InRange) : (tickClock c).InRange where
  sec := by
    have := lineMsAfter_le h
    simp only [tickClock]
    omega
  ms := Nat.le_of_lt_succ (Nat.mod_lt _ (by decide))
  trimLow := h.trimLow
  trimHigh := h.trimHigh
  accumulatorLow := (trimAccumulator_range h).1
  accumulatorHigh := (trimAccumulator_range h).2
  holdover := Nat.min_le_right _ _

theorem moves_tick (hc : k.closes = false) (ha : k.answers = true) (ht : k.times = true) (s : State) :
    Moves k s0 s (tick s) := by
  have moved : Moves k s0 s (countDownAll ((tickClock s.clock).lineMs - s.clock.lineMs)
      { s with clock := tickClock s.clock }) :=
    .tail (.single (.clock (fun _ => tickClock s.clock) s (fun _ => tickClock_inRange) (.inl ht)))
      (.taps _ _ _ ha (.inr (by simp)))
  unfold tick
  dsimp only
  split
  · exact moved
  · exact (moved.trans (moves_reckonDay _)).trans (moves_fireActivation hc _)

/-- The trim's update is held within 500 ppm (R154). -/
theorem trimUpdate_range (trim : Int) (office localElapsed : Nat) :
    -500 ≤ trimUpdate trim office localElapsed ∧ trimUpdate trim office localElapsed ≤ 500 := by
  simp only [trimUpdate]
  omega

theorem measureRate_inRange {span officeMs : Nat} {c : LineClock} (h : c.InRange) :
    (measureRate span officeMs c).InRange := by
  have ⟨h1, h2, h3, h4, h5, h6, h7⟩ := h
  unfold measureRate
  split
  · exact h
  · split
    · exact ⟨h1, h2, h3, h4, h5, h6, h7⟩
    split
    · exact ⟨h1, h2, h3, h4, h5, h6, h7⟩
    · exact ⟨h1, h2, (trimUpdate_range _ _ _).1, (trimUpdate_range _ _ _).2, h5, h6, h7⟩

theorem moves_takeMark (hc : k.closes = false) (ht : k.times = true) {sec ms : Nat} (s : State) (ms_le : ms ≤ 999)
    (sec_le : (∀ r ∈ s0.mgmt.requests, markInRange r.request = true) → sec ≤ 4294967295) :
    Moves k s0 s (takeMark sec ms s) := by
  unfold takeMark
  split
  · refine (((Run.single (.clock _ s ?_ (.inl ht))).tail (.raise _ _ _ (by decide))).trans
      (moves_becomeLocked _)).trans ((moves_reckonDay _).trans (moves_fireActivation hc _))
    exact fun held h => ⟨sec_le held, ms_le, h.3, h.4, h.5, h.6, Nat.zero_le _⟩
  · unfold slewMark
    dsimp only
    have measured : Moves k s0 s (onClock (fun c => measureRate s.mgmt.settings.measurementSpan
        (sec * 1000 + ms) { c with slew := markError s (sec * 1000 + ms), holdover := 0 }) s) :=
      .single (.clock _ s (fun _ h => measureRate_inRange ⟨h.1, h.2, h.3, h.4, h.5, h.6, Nat.zero_le _⟩)
        (.inl ht))
    split
    · exact measured.trans (moves_becomeLocked _)
    · exact .tail measured
        (.clock _ _ (fun _ h => ⟨h.1, h.2, h.3, h.4, h.5, h.6, h.7⟩) (.inl ht))

theorem moves_timeMark (hc : k.closes = false) (ht : k.times = true) {sec ms : Nat} (s : State)
    (sec_le : (∀ r ∈ s0.mgmt.requests, markInRange r.request = true) → sec ≤ 4294967295) :
    Moves k s0 s (timeMark sec ms s) := by
  unfold timeMark
  split
  · exact .single (move_answerTaken _ s)
  next ms_le => exact (moves_takeMark hc ht s (Nat.not_lt.mp ms_le) sec_le).answered _

/-! ### Settings, counters and the Deny List -/

theorem clampSettings_inRange (v : RunSettings) : (clampSettings v).inRange := by
  simp only [RunSettings.inRange, clampSettings, clampTo]
  omega

theorem moves_applySettings {v : RunSettings} (hv : v.inRange) (s : State) :
    Moves k s0 s (applySettings v s) :=
  (((Run.single (.settings v s hv)).tail (.marks _)).trans (moves_checkHoldover _)).trans
    (moves_reckonDay _)

theorem zeroCounters_inRange : Counters.inRange {} := by simp [Counters.inRange, Counters.list]

theorem insertToken_length (token : Token) (l : List Token) :
    (insertToken token l).length = l.length + 1 := by
  induction l with
  | nil => rfl
  | cons x rest ih =>
    unfold insertToken
    split <;> simp_all

/-- An insertion into a Deny List that has room and does not hold the token keeps it sound (R145, R146). -/
theorem insertToken_sound {token : Token} (absent : token ∉ s.tables.denyList)
    (room : s.tables.denyList.length < 8192) (sound : DenyListSound s) :
    DenyListSound (setDenyList (insertToken token s.tables.denyList) s) := by
  obtain ⟨low, high, split, less, greater, placed⟩ := insertToken_split sound.ascending absent
  have ascending := sound.ascending
  rw [split, List.pairwise_append] at ascending
  obtain ⟨lowAscending, highAscending, across⟩ := ascending
  refine ⟨?_, ?_⟩
  · simp only [setDenyList_tables, placed]
    rw [List.pairwise_map, List.pairwise_append, List.pairwise_cons]
    refine ⟨lowAscending, ⟨greater, highAscending⟩, fun x hx y hy => ?_⟩
    rcases List.mem_cons.mp hy with rfl | hy
    · exact less x hx
    · exact across x hx y hy
  · simp only [setDenyList_tables, insertToken_length]
    omega

theorem denyListSound_of_sublist {l : List Token} (h : l.Sublist s.tables.denyList)
    (sound : DenyListSound s) : DenyListSound (setDenyList l s) :=
  ⟨sound.1.sublist (h.map _), Nat.le_trans h.length_le sound.2⟩

theorem moves_denyAdd (token : Token) (s : State) : Moves k s0 s (denyAdd token s) := by
  unfold denyAdd
  split
  · exact .single (move_answerTaken _ s)
  next absent =>
    split
    · exact .single (move_answerTaken _ s)
    next room =>
      refine Moves.answered (.single (.denyList _ s (insertToken_sound ?_ ?_))) _
      · simpa using absent
      · exact Nat.not_le.mp room

theorem moves_denyRemove (token : Token) (s : State) : Moves k s0 s (denyRemove token s) := by
  unfold denyRemove
  split
  · exact Moves.answered (.single (.denyList _ s (denyListSound_of_sublist List.erase_sublist))) _
  · exact .single (move_answerTaken _ s)

end Sys2Proof.Machine
end

