-- ==== Sys2Proof/Proofs/CommandMoves.lean ====
section
/-! SUPPORT. Each command's run of moves. -/

namespace Sys2Proof.Machine

variable {k : Scope} {s0 s t : State}

/-! ### Slots (Chapter 8) -/

/-- A slot replaced while the due swap stands. -/
theorem move_putSlot (hc : k.closes = false) {x : SlotId} {v : Slot} (h : SlotChange s x v s.tables.swapDue) :
    Move k s0 s (putSlot x v s) := by
  have move : Move k s0 s (changeSlot x v s.tables.swapDue s) := .slot x v _ s hc h
  have same : changeSlot x v s.tables.swapDue s = putSlot x v s := by
    cases x <;> rfl
  exact same ▸ move

/-- A slot that waited for a swap replaced, its due swap dropped (R141). -/
theorem move_dropSwap (hc : k.closes = false) {x : SlotId} {v : Slot} (before : (slotOf s x).state = .pending)
    (after : v.state ≠ .active ∧ v.state ≠ .retiring)
    (count : v.refCount = (slotOf s x).refCount ∨ v.refCount = 0) :
    Move k s0 s (dropSwap x (putSlot x v s)) := by
  have loading : (slotOf s x).state.loading = true := by rw [before]; rfl
  unfold dropSwap
  split
  next due =>
    exact .slot x v none s hc ⟨by simp [before], after, count, fun _ => .inl loading, .inl rfl⟩
  next due =>
    refine move_putSlot hc ⟨by simp [before], after, count, fun _ => .inl loading, .inr (.inr ⟨rfl, ?_⟩)⟩
    intro h
    simp [h] at due

/-- A slot that no swap can be due for, replaced. -/
theorem move_putSlot_of (hc : k.closes = false) {x : SlotId} {v : Slot}
    (before : (slotOf s x).state = .free ∨ (slotOf s x).state = .staging
      ∨ (slotOf s x).state = .copying)
    (after : v.state ≠ .active ∧ v.state ≠ .retiring)
    (count : v.refCount = (slotOf s x).refCount ∨ v.refCount = 0)
    (loading : v.state.loading = true → (slotOf s x).state ≠ .free
      ∨ (slotOf s x.other).state.loading = false) :
    Move k s0 s (putSlot x v s) := by
  refine move_putSlot hc ⟨?_, after, count, fun h => (loading h).imp_left fun h => ?_,
    .inr (.inr ⟨rfl, fun _ => .inl ?_⟩)⟩
  all_goals rcases before with b | b | b <;> simp_all [SlotState.loading]

theorem moves_tableWrite (hc : k.closes = false) (x : SlotId) (table first n : Nat) (bytes : List Byte) (s : State) :
    Moves k s0 s (tableWrite x table first n bytes s) := by
  unfold tableWrite
  split
  · exact .single (move_answerTaken _ s)
  split
  · exact .single (move_answerTaken _ s)
  next accepted =>
    unfold writeTables
    split
    · exact .single (move_answerTaken _ s)
    · have written (tables : Tables) :
          Move k s0 s (putSlot x { slotOf s x with state := .staging, tables := tables } s) := by
        refine move_putSlot_of hc ?_ (by simp) (.inl rfl) fun _ => ?_
        all_goals
          unfold writeRefusal at accepted
          split at accepted <;> simp_all
      exact Moves.answered (.single (written _)) _

theorem moves_tableRead (x : SlotId) (table first n : Nat) (s : State) :
    Moves k s0 s (tableRead x table first n s) := by
  unfold tableRead
  split <;> exact .single (move_answerTaken _ s)

/-- A slot that is Free beside an Active one is not loaded beside (R134). -/
theorem other_not_loading {x y : SlotId} (active : (slotOf s y).state = .active)
    (h : (slotOf s x).state ≠ .active) : (slotOf s x.other).state.loading = false := by
  have : x.other = y := by
    cases x <;> cases y
    case a.a | b.b => exact absurd active h
    case a.b | b.a => rfl
  rw [this, active]
  rfl

theorem moves_copyActive (hc : k.closes = false) (x : SlotId) (s : State) : Moves k s0 s (copyActive x s) := by
  unfold copyActive
  split
  · exact .single (move_answerTaken _ s)
  next accepted =>
    have copying : Move k s0 s (putSlot x { slotOf s x with
        state := .copying, tables := Tables.emptied, effective := none } s) := by
      refine move_putSlot_of hc ?_ (by simp) (.inl rfl) fun _ => ?_
      all_goals
        unfold copyRefusal at accepted
        split at accepted <;> simp_all
      obtain ⟨y, active⟩ := Option.ne_none_iff_exists'.mp (by assumption)
      exact other_not_loading (activeSlot_state active) (by simp_all)
    exact .tail (.single copying) (move_advanceTaken (by simp) _)

theorem moves_copyComplete (hc : k.closes = false) (s : State) : Moves k s0 s (copyComplete s) := by
  unfold copyComplete
  split
  next x y copying _ =>
    have state := slotIn_state copying
    have copied (tables : Tables) :
        Move k s0 s (putSlot x { slotOf s x with state := .staging, tables := tables } s) :=
      move_putSlot_of hc (.inr (.inr state)) (by simp) (.inl rfl) fun _ => .inl (by simp [state])
    exact .tail (.single (copied _)) (move_answerUnderway isRestart_of_isCopy _ _)
  next => exact .refl

theorem moves_discard (hc : k.closes = false) (x : SlotId) (s : State) : Moves k s0 s (discard x s) := by
  have freed (h : (slotOf s x).state = .free ∨ (slotOf s x).state = .staging
      ∨ (slotOf s x).state = .copying) : Moves k s0 s (putSlot x Slot.freed s) :=
    .single (move_putSlot_of hc h (by simp [Slot.freed]) (.inr rfl) (by simp [Slot.freed, SlotState.loading]))
  unfold discard
  split
  next state => exact (freed (.inr (.inl state))).answered _
  next state =>
    exact Moves.answered (.single (move_dropSwap hc state (by simp [Slot.freed]) (.inr rfl))) _
  next state => exact Moves.answered (.tail (freed (.inr (.inr state))) (move_answerUnderway isRestart_of_isCopy _ _)) _
  all_goals exact .single (move_answerTaken _ s)

theorem moves_activate (hc : k.closes = false) (x : SlotId) (effective : Option Nat) (s : State) :
    Moves k s0 s (activate x effective s) := by
  unfold activate
  split
  · exact .single (move_answerTaken _ s)
  next accepted =>
    have validating :
        Move k s0 s (putSlot x { slotOf s x with state := .validating, effective := effective } s) := by
      refine move_putSlot_of hc ?_ (by simp) (.inl rfl) fun _ => ?_
      all_goals
        unfold activateRefusal at accepted
        split at accepted <;> simp_all
    exact .tail (.single validating) (move_advanceTaken (by simp) _)

/-- A Validating slot without a due swap comes to another state before the swap (R139, R144). -/
theorem move_validated (hc : k.closes = false) {x : SlotId} {v : Slot} (validating : slotIn (· == .validating) s = some x)
    (notDue : s.tables.swapDue ≠ some x) (after : v.state ≠ .active ∧ v.state ≠ .retiring)
    (count : v.refCount = (slotOf s x).refCount) : Move k s0 s (putSlot x v s) := by
  have state := slotIn_state validating
  refine move_putSlot hc ⟨by simp [state], after, .inl count, fun _ => .inl ?_,
    .inr (.inr ⟨rfl, fun h => absurd h notDue⟩)⟩
  rw [state]
  rfl

theorem moves_validationComplete (hc : k.closes = false) (s : State) : Moves k s0 s (validationComplete s) := by
  unfold validationComplete
  split
  next x validating =>
    have state := slotIn_state validating
    split
    · exact .refl
    next notDue =>
      split
      · have failed : Move k s0 s (putSlot x { slotOf s x with state := .staging, effective := none } s) :=
          move_validated hc validating notDue (by simp) rfl
        exact .tail (.single failed) (move_answerUnderway isRestart_of_isActivate _ _)
      · unfold validationPassed
        split
        · have passed : Move k s0 s (putSlot x { slotOf s x with state := .pending } s) :=
            move_validated hc validating notDue (by simp) rfl
          exact .tail (.single passed) (move_answerUnderway isRestart_of_isActivate _ _)
        · have move : Move k s0 s (changeSlot x (slotOf s x) (some x) s) :=
            .slot x _ _ s hc ⟨by simp [state], by simp [state], .inl rfl, .inl, .inr (.inl ⟨rfl, .inl state⟩)⟩
          exact .single (by simpa [changeSlot, slotOf] using move)
  next => exact .refl

theorem moves_cancel (hc : k.closes = false) (x : SlotId) (s : State) : Moves k s0 s (cancel x s) := by
  unfold cancel
  split
  next state =>
    have cancelled : Move k s0 s
        (dropSwap x (putSlot x { slotOf s x with state := .staging, effective := none } s)) :=
      move_dropSwap hc state (by simp) (.inl rfl)
    exact Moves.answered (.single cancelled) _
  all_goals exact .single (move_answerTaken _ s)

theorem moves_restartSlots (hc : k.closes = false) (s : State) : Moves k s0 s (restartSlots s) := by
  unfold restartSlots
  split
  next x _ copying =>
    exact .tail (.single (move_putSlot_of hc (.inr (.inr (slotIn_state copying))) (by simp [Slot.freed])
      (.inr rfl) (by simp [Slot.freed, SlotState.loading]))) (move_answerUnderway isRestart_of_isCopy _ _)
  next x _ validating =>
    split
    · exact .refl
    next notDue =>
      have aborted : Move k s0 s (putSlot x { slotOf s x with state := .staging, effective := none } s) :=
        move_validated hc validating notDue (by simp) rfl
      exact .tail (.single aborted) (move_answerUnderway isRestart_of_isActivate _ _)
  next => exact .refl

/-! ### RESTART and the drain -/

theorem moves_flushTap (ha : k.answers = true) (s : State) (e : TapEntry) : Moves k s0 s (flushTap s e) := by
  unfold flushTap
  split
  · exact .single (.late _ s)
  · exact .tail (moves_fillReserved ha _ s) (.count _ _ fun c h => by
      simp_all [Counters.inRange, Counters.list, bump_le])

theorem moves_foldl_flushTap (ha : k.answers = true) (l : List TapEntry) (s : State) :
    Moves k s0 s (l.foldl flushTap s) := by
  induction l generalizing s with
  | nil => exact .refl
  | cons e rest ih => exact (moves_flushTap ha s e).trans (ih _)

theorem moves_flushTaps (ha : k.answers = true) (s : State) : Moves k s0 s (flushTaps s) :=
  .tail (moves_foldl_flushTap ha _ s) (.taps [] _ _ ha (.inr rfl))

theorem moves_restartSweep (hb : k.books = true) (s : State) : Moves k s0 s (restartSweep s) := by
  unfold restartSweep
  split
  · exact .single (.sweep (fun w => { w with resetAtRelease := true }) s fun h => h)
  · exact .tail (.single (.withdraw .sweep s hb)) (.sweep (fun _ => Sweep.reset) _ fun _ => by
      simp [Sweep.inRange, Sweep.reset])

theorem moves_placeReply (r : HeldRequest) (v : Reply) (s : State) (hb : k.books = true ∨ 1 ≤ officeFree s) :
    Moves k s0 s (placeReply r v s) :=
  .single (.frame _ s hb)

theorem moves_abortOperation (hb : k.books = true) (s : State) : Moves k s0 s (abortOperation s) := by
  unfold abortOperation
  split
  next r _ =>
    split
    · exact .single (.requests _ s (requestsFrom_modifyFirst _ _ _) (.inl hb))
    split
    · exact .refl
    · have withdrawn : Moves k s0 s
          (if r.phase = .presented then onArbiter (fun a => a.withdraw .management) s else s) := by
        split
        · exact .single (.withdraw .management s hb)
        · exact .refl
      exact .tail (.tail (.tail withdrawn
        (.requests _ _ (requestsFrom_sublist List.eraseP_sublist) (.inl hb)))
        (.aside _ _ hb)) (.frame _ _ (.inl hb))
  next => exact .refl

theorem moves_restartNow (hc : k.closes = false) (ha : k.answers = true) (hb : k.books = true)
    (s : State) : Moves k s0 s (restartNow s) := by
  have flushed : Moves k s0 s (emptyForward (flushTaps (setService .halted (advanceTaken .underway s)))) :=
    .tail (.trans (.tail (.single (move_advanceTaken (by simp) s)) (.service _ _))
      (moves_flushTaps ha _)) (.emptyForward _)
  have silent := Run.tail flushed (.events [] _ hc (List.nil_sublist _))
  exact (((silent.trans (moves_restartSweep hb _)).trans (moves_restartSlots hc _)).tail
    (.drain _ _ hb)).trans (moves_abortOperation hb _)

theorem moves_placeLateRecord (s : State) : Moves k s0 s (placeLateRecord s) := by
  unfold placeLateRecord
  split
  · split
    next room => exact .trans (.single (.late _ s)) (moves_placeRecord _ _ (.inr room))
    next => exact .refl
  · exact .refl

theorem moves_drainSetAside (hb : k.books = true) (s : State) : Moves k s0 s (drainSetAside s) := by
  unfold drainSetAside
  split
  · exact .tail (.tail (.single (.aside _ s hb)) (.drain _ _ hb)) (.request _ _ hb)
  · exact .refl

theorem moves_presentNext (hb : k.books = true) (s : State) : Moves k s0 s (presentNext s) := by
  unfold presentNext
  split
  · exact .refl
  split
  · split
    · exact .tail (.single (.requests _ s (requestsFrom_modifyFirst _ _ _) (.inl hb)))
        (.request _ _ hb)
    · exact .refl
  · exact .refl

theorem moves_drainWork (hc : k.closes = true) (hb : k.books = true) (s : State) :
    Moves k s0 s (drainWork s) := by
  unfold drainWork
  split
  · have worked : Moves k s0 s (match s.store.journeys with
        | w :: _ => drainSpill w s
        | [] => drainEnd s) := by
      split
      next w _ held =>
        have spilled : Moves k s0 s (closeSpill w s).st := .single (.work hc (.close w s (by simp [held])))
        have drained (f : Drain → Drain) : Moves k s0 s (onDrain f
            (placeRecordAside (closeSpill w s).record (closeSpill w s).st)) :=
          .tail (spilled.trans (moves_placeRecordAside hb _ _)) (.drain f _ hb)
        unfold drainSpill
        exact drained _
      next => exact .tail (.tail (.single (.emptyAccounts s)) (.aside _ _ hb)) (.drain _ _ hb)
    exact .trans (.tail worked (.release _ hb)) (moves_presentNext hb _)
  · exact .refl

theorem moves_completeRestart (hb : k.books = true) (s : State) : Moves k s0 s (completeRestart s) := by
  unfold completeRestart
  split
  · split
    · exact .tail (.tail (.single (.drain _ s hb))
        (.requests _ _ (requestsFrom_sublist List.eraseP_sublist) (.inl hb))) (.frame _ _ (.inl hb))
    · exact .refl
  · exact .refl

/-! ### Journey operations -/

theorem moves_setAsideOperation (hb : k.books = true) (i : Nat) (s : State) :
    Moves k s0 s (setAsideOperation i s) := by
  unfold setAsideOperation
  split
  next r held =>
    split
    · refine .trans (.tail (.single (.requests _ s ?_ (.inl hb))) (.aside _ _ hb)) (moves_presentNext hb _)
      intro q hq
      rcases List.mem_or_eq_of_mem_set hq with hq | rfl
      · exact .inr ⟨q, hq, rfl⟩
      · exact .inr ⟨r, List.mem_of_getElem? held, rfl⟩
    · exact .refl
  next => exact .refl

theorem Moves.replied (hb : k.books = true) (h : Moves k s0 s t) (r : HeldRequest) (v : Reply) (unused : Nat) :
    Moves k s0 s (replyAndEnd r v unused t) :=
  .trans (.tail (.tail (.tail (.tail (.tail h (.aside _ _ hb)) (.frame _ _ (.inl hb))) (.aside _ _ hb))
    (.requests _ _ (requestsFrom_sublist List.eraseP_sublist) (.inl hb))) (.release _ hb))
    (moves_presentNext hb _)

theorem moves_closeGranted (hc : k.closes = true) (hb : k.books = true) (r : HeldRequest)
    (token : Token) (exitStation exitTime : Option Nat) (s : State) :
    Moves k s0 s (closeGranted r token exitStation exitTime s) := by
  have refused (reason : ReplyReason) : Moves k s0 s (forcedRefused r reason s) :=
    Moves.replied hb .refl _ _ _
  have done {w : JourneyWay} {c : Closed} (h : StoreWorks s0 s c.st) : Moves k s0 s (forcedDone r w c) :=
    Moves.replied hb ((h.moves hc).trans (moves_placeRecordAside hb _ _)) _ _ _
  unfold closeGranted
  split
  · exact refused _
  next w found =>
    have held := (findJourney_mem found).1
    split
    next x time =>
      unfold forceCompleted
      dsimp only
      split
      · exact refused _
      split
      · exact refused _
      split
      next s1 slot p priced =>
        have hs1 : s1 = (obtainAccount w.journey.token (journeyDay s w.journey) s).1 := by
          rw [priceJourney_state priced]
        subst hs1
        exact done (.trans (.single (.obtain _ _ s)) (closeCompleted_works _ _ _ _ (by simpa using held)))
      · exact refused _
    next => exact done (closeIncomplete_works _ held)

theorem moves_grantEffect (hc : k.closes = true) (hb : k.books = true) (c : Instr) (s : State) :
    Moves k s0 s (grantEffect c s) := by
  unfold grantEffect
  split
  · split
    · exact Moves.replied hb .refl _ _ _
    · exact moves_closeGranted hc hb _ _ _ _ s
    · exact Moves.replied hb .refl _ _ _
    · exact .refl
  · exact .refl

/-! ### Ports, replies and events -/

theorem foldl_beNat (bytes : List Byte) (n : Nat) :
    bytes.foldl (fun n b => n * 256 + b.toNat) n = n * 256 ^ bytes.length + beNat bytes := by
  induction bytes generalizing n with
  | nil => simp [beNat]
  | cons b rest ih =>
    simp only [beNat, List.foldl_cons, List.length_cons]
    rw [ih, ih (0 * 256 + b.toNat)]
    grind

/-- A field's value is below what its bytes can hold (R170). -/
theorem beNat_lt (bytes : List Byte) : beNat bytes < 256 ^ bytes.length := by
  induction bytes with
  | nil => simp [beNat]
  | cons b rest ih =>
    have first := Nat.mul_le_mul_right (256 ^ rest.length) (Nat.le_of_lt_succ b.isLt)
    rw [beNat, List.foldl_cons, foldl_beNat, List.length_cons, Nat.pow_succ, Nat.zero_mul, Nat.zero_add]
    omega

theorem field_lt (offset size : Nat) (bytes : List Byte) : field offset size bytes < 256 ^ size :=
  Nat.lt_of_lt_of_le (beNat_lt _) (Nat.pow_le_pow_right (by decide) (List.length_take_le _ _))

/-- A TIME MARK's seconds are four bytes (R173). -/
theorem markInRange_parseParams {code : Nat} {p : List Byte} {q : Request}
    (h : parseParams code p = some q) : markInRange q = true := by
  have sec := field_lt 0 4 p
  unfold parseParams at h
  split at h
  case h_6 =>
    simp only [sized, Option.ite_none_right_eq_some, Option.some.injEq] at h
    obtain ⟨_, rfl⟩ := h
    simp only [markInRange, decide_eq_true_eq]
    omega
  all_goals
    simp only [sized, sizedSlot, Option.ite_none_right_eq_some, Option.map_eq_some_iff,
      Option.some.injEq, reduceCtorEq] at h
  all_goals
    grind [markInRange]

theorem markInRange_parseRequest (f : ReceivedFrame) : markInRange (parseRequest f) = true := by
  unfold parseRequest
  split
  · cases parsed : parseParams (field 2 1 f.body) (f.body.drop 3) with
    | none => rfl
    | some q => exact markInRange_parseParams parsed
  · rfl

/-- A request joins those held, taken or, malformed, answered at once (R174). -/
theorem keepsBooks_append {l : List HeldRequest} (f : ReceivedFrame) (room : l.length < 2) :
    KeepsBooks l (l ++ [heldFrom f]) := by
  have phase : (heldFrom f).phase ≠ .ready ∧ (heldFrom f).phase ≠ .presented := by
    unfold heldFrom
    dsimp only
    split <;> simp
  exact {
    length := fun _ => by simp; omega
    aside := by simp [HeldRequest.aside, phase]
    presented := by simp [phase]
    restart := fun h => by simp_all }

theorem moves_takeRequest (f : ReceivedFrame) (s : State) : Moves k s0 s (takeRequest f s) := by
  unfold takeRequest
  split
  next room =>
    refine .single (.requests _ s (fun r hr => ?_) (.inr (keepsBooks_append f room)))
    rcases List.mem_append.mp hr with hr | hr
    · exact .inr ⟨r, hr, rfl⟩
    · rw [List.mem_singleton.mp hr]
      exact .inl (markInRange_parseRequest f)
  split
  next room => exact moves_placeReply _ _ s (.inr room)
  next => exact .single (.count _ s fun c h => by simp_all [Counters.inRange, Counters.list, bump_le])

theorem move_raiseOffice (s : State) : Move k s0 s (raiseOfficeLink s) := by
  have same : setReady s.officePort.ready s = raiseOfficeLink s := rfl
  exact same ▸ .ready _ s

theorem moves_officeFrame (bytes : List Byte) (s : State) : Moves k s0 s (officeFrame bytes s) := by
  have raised : Moves k s0 s (raiseOfficeLink s) := .single (move_raiseOffice s)
  unfold officeFrame
  dsimp only
  split
  · split
    · exact raised.trans (moves_takeRequest _ _)
    · unfold forwardToLine
      split
      next room => exact raised.tail (.forward bytes _ room)
      next => exact raised.tail (.count _ _ fun c h => by simp_all [Counters.inRange, Counters.list, bump_le])
  · exact raised.tail (.count _ _ fun c h => by simp_all [Counters.inRange, Counters.list, bump_le])

/-- A request whose reply waited leaves its slot (R174). -/
theorem keepsBooks_eraseIdx {l : List HeldRequest} {i : Nat} {r : HeldRequest} {reply : Reply}
    (held : l[i]? = some r) (due : r.phase = .replyDue reply) : KeepsBooks l (l.eraseIdx i) := by
  obtain ⟨inside, hr⟩ := List.getElem?_eq_some_iff.mp held
  have split : l = l.take i ++ r :: l.drop (i + 1) := by
    rw [← hr, List.getElem_cons_drop, List.take_append_drop]
  have erased : l.eraseIdx i = l.take i ++ l.drop (i + 1) := List.eraseIdx_eq_take_drop_succ l i
  generalize l.take i = before at split erased
  generalize l.drop (i + 1) = after at split erased
  rw [erased, split]
  exact {
    length := by simp; omega
    aside := by simp [HeldRequest.aside, due]
    presented := by simp [due]
    restart := by simp [due] }

theorem moves_placeWaitingReply (i : Nat) (s : State) : Moves k s0 s (placeWaitingReply i s) := by
  unfold placeWaitingReply
  split
  next r held =>
    split
    next reply due =>
      split
      next room =>
        exact .tail (.single (.requests _ s (requestsFrom_sublist (List.eraseIdx_sublist _ _))
          (.inr (keepsBooks_eraseIdx held due)))) (.frame _ _ (.inr room))
      next => exact .refl
    next => exact .refl
  next => exact .refl

theorem moves_placeEvent (hc : k.closes = false) (s : State) : Moves k s0 s (placeEvent s) := by
  unfold placeEvent
  split
  next e rest held =>
    split
    next room =>
      exact .tail (.tail (.tail (.single (.events rest s hc (by simp [held]))) (.filler _ _))
        (.sequence _)) (.frame _ _ (.inr room))
    next => exact .refl
  next => exact .refl

theorem moves_loseLineLink (midFrame : Bool) (s : State) : Moves k s0 s (loseLineLink midFrame s) := by
  unfold loseLineLink
  split
  · refine .tail (.single (.loseLine s)) (.count _ _ fun c h => ?_)
    cases midFrame <;> simp_all [Counters.inRange, Counters.list, bump_le]
  · exact .refl

theorem moves_loseOfficeLink (midFrame : Bool) (s : State) : Moves k s0 s (loseOfficeLink midFrame s) := by
  unfold loseOfficeLink
  split
  · refine .tail (.single (.loseOffice s)) (.count _ _ fun c h => ?_)
    cases midFrame <;> simp_all [Counters.inRange, Counters.list, bump_le]
  · exact .refl

/-! ### The Sweep -/

theorem moves_requestAgain (hb : k.books = true) (s : State) : Moves k s0 s (requestAgain s) := by
  unfold requestAgain
  split
  · exact .single (.request _ s hb)
  · exact .refl

theorem move_advanceAccountCursor (s : State) : Move k s0 s (advanceAccountCursor s) := by
  refine .sweep _ s fun ⟨journeys, accounts⟩ => ?_
  split
  · exact ⟨journeys, Nat.zero_lt_succ _⟩
  next notLast =>
    refine ⟨journeys, ?_⟩
    simp only [Config.accountSlots] at notLast
    dsimp only
    omega

theorem moves_sweepVisit (hc : k.closes = true) (s : State) :
    Moves k s0 s (sweepVisit s) := by
  have cursor (t : State) : Move k s0 t (advanceJourneyCursor t) :=
    .sweep (fun w => { w with journeyCursor := (w.journeyCursor + 1) % Config.journeySlots }) t
      fun h => ⟨Nat.mod_lt _ (by decide), h.2⟩
  unfold sweepVisit
  split
  · have purged : Moves k s0 s (match oldAtCursor s with
        | some w => removeAccount w.slot s
        | none => s) := by
      split
      · exact .single (.freeAccount _ s)
      · exact .refl
    unfold accountVisit
    dsimp only
    split
    · exact .tail purged (move_advanceAccountCursor _)
    · exact purged
  · split
    next room =>
      unfold spillVisit
      split
      next w _ held =>
        exact (Run.single (.work hc (.close w s (by simp [held])))).trans
          (moves_placeRecord _ _ (.inr (by simpa [officeFree, closeSpill] using room)))
      next => exact .refl
    next => exact .refl
  · split
    next room =>
      unfold cursorVisit
      split
      next w overdue =>
        have held : w ∈ s.store.journeys :=
          List.mem_of_find?_eq_some (Option.filter_eq_some_iff.mp overdue).1
        have closed := closeIncomplete_works (s0 := s0) {} held
        have free : 1 ≤ officeFree (closeIncomplete {} w s).st := by
          rw [closed.frame]
          exact room
        exact .tail ((closed.moves hc).trans (moves_placeRecord _ _ (.inr free))) (cursor _)
      next => exact .single (cursor s)
    next => exact .refl

theorem moves_sweepGrant (hc : k.closes = true) (hb : k.books = true) (s : State) :
    Moves k s0 s (sweepGrant s) := by
  unfold sweepGrant
  split
  · have ended (t : State) : Moves k s0 t (resetAtRelease t) := by
      unfold resetAtRelease
      split
      · exact .single (.sweep (fun _ => Sweep.reset) t fun _ => by simp [Sweep.inRange, Sweep.reset])
      · exact .refl
    exact .tail (((moves_sweepVisit hc s).trans (ended _)).trans (moves_requestAgain hb _)) (.release _ hb)
  · exact .refl

/-! ### The tap path -/

theorem moves_placeAll (hb : k.books = true) (l : List Record) (s : State) : Moves k s0 s (placeAll l s) := by
  induction l generalizing s with
  | nil => exact .refl
  | cons r rest ih => exact (moves_placeRecordAside hb r s).trans (ih _)

theorem Moves.transactionEnded (ha : k.answers = true) (hb : k.books = true) {h : Handled} (run : Moves k s0 s h.st) (e : TapEntry) (c d : Bool) :
    Moves k s0 s (endTransaction e c d h) := by
  have answered : Moves k s0 h.st (answerTap e c h.answer h.st) := by
    unfold answerTap
    split
    · exact .refl
    · exact moves_fillReserved ha _ _
  exact .tail (.tail ((run.trans answered).trans (moves_placeAll hb _ _)) (.aside _ _ hb))
    (.taps _ none _ ha (.inl hb))

theorem moves_takeHead (ha : k.answers = true) (hb : k.books = true) (e : TapEntry) (rest : List TapEntry) (s : State) :
    Moves k s0 s (takeHead e rest s) := by
  have taken : Moves k s0 s (setAside 3 { settleSwap s with tapQueue := rest }) :=
    .tail (.tail (.single (.settle s)) (.taps rest _ _ ha (.inl hb))) (.aside _ _ hb)
  unfold takeHead
  dsimp only
  split
  · exact Moves.transactionEnded ha hb taken _ _ _
  · exact .tail (.tail taken (.taps _ (some _) _ ha (.inl hb))) (.request _ _ hb)

theorem moves_takeTap (ha : k.answers = true) (hb : k.books = true) (s : State) :
    Moves k s0 s (takeTap s) := by
  unfold takeTap
  split
  · split
    · exact moves_takeHead ha hb _ _ s
    · exact .refl
  · exact .refl

theorem Moves.taken (ha : k.answers = true) (hb : k.books = true) (h : Moves k s0 s t) :
    Moves k s0 s (takeTaps t) :=
  takeTaps_keeps (p := Moves k s0 s) (fun _ run => run.trans (moves_takeTap ha hb _)) h

theorem moves_reckonerWork (hc : k.closes = true) (ha : k.answers = true) (hb : k.books = true)
    (s : State) : Moves k s s (reckonerWork s) := by
  unfold reckonerWork
  split
  next tr _ =>
    split
    · refine .tail (Moves.taken ha hb ?_) (.release _ hb)
      split
      next x active => exact Moves.transactionEnded ha hb ((handleTap_works tr active).moves hc) _ _ _
      next => exact Moves.transactionEnded ha hb (h := ⟨s, _, _⟩) .refl _ _ _
    · exact .refl
  next => exact .refl

theorem move_tapNotAccepted (s : State) : Move k s0 s (tapNotAccepted s) :=
  .count _ s fun c h => by simp_all [Counters.inRange, Counters.list, bump_le]

theorem moves_acceptTap (ha : k.answers = true) (tap : Tap) (s : State) : Moves k s0 s (acceptTap tap s) := by
  unfold acceptTap
  split
  · refine .trans (.single (.count (fun c => { c with tapsAccepted := bump c.tapsAccepted }) s
      fun c h => by simp_all [Counters.inRange, Counters.list, bump_le])) ?_
    unfold dealTap
    split
    · unfold tapHalted
      dsimp only
      split
      next room => exact .trans (.single (.verdict _ _ ha)) (moves_placeRecord _ _ (.inr room))
      next => exact .single (.verdict _ _ ha)
    split
    · exact .tail (.single (.verdict _ _ ha)) (.count _ _ fun c h => by
        simp_all [Counters.inRange, Counters.list, bump_le])
    · exact .tail (.single (.reserve _ _ ha)) (.taps _ _ _ ha (.inr rfl))
  · exact .single (move_tapNotAccepted s)

theorem moves_lineFrame (ha : k.answers = true) (bytes : List Byte) (s : State) :
    Moves k s0 s (lineFrame bytes s) := by
  have raised : Moves k s0 s (raiseLineLink s) := .single (.raiseLine s)
  unfold lineFrame
  dsimp only
  split
  · unfold sortLineFrame
    split
    · split
      · exact raised.trans (moves_acceptTap ha _ _)
      · exact raised.tail (move_tapNotAccepted _)
    · unfold forwardToOffice
      split
      next room => exact raised.tail (.frame _ _ (.inr (Nat.le_trans (by decide) room)))
      next =>
        exact raised.tail (.count _ _ fun c h => by
          simp_all [Counters.inRange, Counters.list, bump_le])
  · exact raised.tail (.count _ _ fun c h => by simp_all [Counters.inRange, Counters.list, bump_le])

theorem moves_lateVerdict (ha : k.answers = true) (e : TapEntry) (s : State) :
    Moves k s0 s (lateVerdict e s) :=
  .tail (moves_fillReserved ha _ s) (.count _ _ fun c h => by
    simp_all [Counters.inRange, Counters.list, bump_le])

theorem moves_expireQueued (ha : k.answers = true) (i : Nat) (s : State) :
    Moves k s0 s (expireQueued i s) := by
  unfold expireQueued
  split
  · split
    · exact .trans (.single (.taps _ _ s ha (.inr rfl))) (moves_lateVerdict ha _ _)
    · exact .refl
  · exact .refl

theorem moves_expireReckoner (ha : k.answers = true) (s : State) :
    Moves k s0 s (expireReckoner s) := by
  unfold expireReckoner
  split
  next tr held =>
    split
    · exact .trans (.single (.taps _ _ s ha (.inr (by simp [held])))) (moves_lateVerdict ha _ _)
    · exact .refl
  next => exact .refl

/-! ### Every command -/

/-- A TIME MARK. -/
def Request.isTimeMark : Request → Bool
  | .timeMark _ _ => true
  | _ => false

/-- A request carried out is a run of moves. -/
theorem moves_carryOut {r : HeldRequest} (taken : nextTaken s = some r) :
    Moves ⟨false, r.request.isRestart, r.request.isRestart, r.request.isTimeMark⟩ s s (carryOut r.request s) := by
  have held : r ∈ s.mgmt.requests := List.mem_of_find?_eq_some taken
  have waits {k : Scope} : Moves k s s (advanceTaken .waitingEntries s) :=
    .single (move_advanceTaken (by simp) s)
  have answered {k : Scope} (v : Reply) : Moves k s s (answerTaken v s) := .single (move_answerTaken v s)
  cases hr : r.request with
  | malformed => exact .refl
  | identify | denyCheck => exact answered _
  | journeyQuery | accountQuery => exact waits
  | start =>
    change Moves ⟨false, false, false, false⟩ s s (startService s)
    unfold startService
    split
    · exact answered _
    · exact Moves.answered (.single (.service _ s)) _
  | halt => exact Moves.answered (.single (.service _ s)) _
  | restart =>
    change Moves ⟨false, true, true, false⟩ s s
      (if restartHeld s then answerTaken (Reply.refused .restartInProgress) s else restartNow s)
    split
    · exact answered _
    · exact moves_restartNow rfl rfl rfl s
  | setRunSettings v => exact (moves_applySettings (clampSettings_inRange v) s).answered _
  | timeMark sec ms =>
    refine moves_timeMark rfl rfl s fun inRange => ?_
    simpa [hr, markInRange] using inRange r held
  | counters clear =>
    change Moves ⟨false, false, false, false⟩ s s (readCounters clear s)
    unfold readCounters
    refine Moves.answered ?_ _
    split
    · exact .single (.count _ s fun _ _ => zeroCounters_inRange)
    · exact .refl
  | tableWrite => exact moves_tableWrite rfl _ _ _ _ _ s
  | tableRead => exact moves_tableRead _ _ _ _ s
  | copyActive => exact moves_copyActive rfl _ s
  | discard => exact .trans (.single (.settle s)) (moves_discard rfl _ _)
  | activate => exact moves_activate rfl _ _ s
  | cancel => exact .trans (.single (.settle s)) (moves_cancel rfl _ _)
  | denyAdd => exact moves_denyAdd _ s
  | denyRemove => exact moves_denyRemove _ s
  | denyClear =>
    exact Moves.answered (.single (.denyList _ s (denyListSound_of_sublist (List.nil_sublist _)))) _
  | journeyClose token exitStation exitTime =>
    change Moves ⟨false, false, false, false⟩ s s (if closeFormValid exitStation exitTime then advanceTaken .waitingEntries s
      else answerTaken Reply.malformed s)
    split
    · exact waits
    · exact answered _

/-- What each command's moves may do: the grants of the store and a drain step close journeys. -/
def scope : Instr → Scope
  | .reckonerGrant => ⟨true, true, true, false⟩
  | .sweepGrant | .drainStep | .journeyQueryGrant | .journeyCloseGrant | .accountQueryGrant =>
    ⟨true, false, true, false⟩
  | .restart | .reckonerTakeTap => ⟨false, true, true, false⟩
  | .drainStepSetAside | .restartComplete | .journeyOperationSetAside _ | .sweepRequest =>
    ⟨false, false, true, false⟩
  | .lineFrameReceived _ | .answerDeadlineExpiry _ => ⟨false, true, false, false⟩
  | .rawTick => ⟨false, true, false, true⟩
  | .timeMark => ⟨false, false, false, true⟩
  | _ => ⟨false, false, false, false⟩

/-- The scope of a request's row. -/
theorem scope_requestRow {q : Request} {c : Instr} (row : requestRow q = some c) :
    scope c = ⟨false, q.isRestart, q.isRestart, q.isTimeMark⟩ := by
  cases q <;> simp only [requestRow, Option.some.injEq, reduceCtorEq] at row <;> subst row <;> rfl

theorem moves_requestEffect (c : Instr) (s : State) : Moves (scope c) s s (requestEffect c s) := by
  unfold requestEffect
  split
  next r taken =>
    split
    next row =>
      rw [scope_requestRow row]
      exact moves_carryOut taken
    next => exact .refl
  next => exact .refl

/-- Every command but the pins' is a run of moves. -/
theorem moves_effect {c : Instr} (noPin : isPin c = false) (s : State) :
    Moves (scope c) s s (effect c s) := by
  cases c
  case rstnLow | pinReset => simp [isPin] at noPin
  case lineFrameReceived => exact moves_lineFrame rfl _ s
  case officeFrameReceived => exact moves_officeFrame _ s
  case restartLateRecord => exact moves_placeLateRecord s
  case drainStepSetAside => exact moves_drainSetAside rfl s
  case drainStep => exact moves_drainWork rfl rfl s
  case restartComplete => exact moves_completeRestart rfl s
  case copyComplete => exact moves_copyComplete rfl s
  case validationComplete => exact moves_validationComplete rfl s
  case activationFiring => exact moves_fireActivation rfl s
  case swap => exact .single (.settle s)
  case journeyOperationSetAside => exact moves_setAsideOperation rfl _ s
  case journeyQueryGrant | journeyCloseGrant | accountQueryGrant => exact moves_grantEffect rfl rfl _ s
  case replyPlacement => exact moves_placeWaitingReply _ s
  case reckonerTakeTap => exact moves_takeTap rfl rfl s
  case reckonerGrant => exact moves_reckonerWork rfl rfl rfl s
  case sweepRequest =>
    change Moves _ s s (askForStore s)
    unfold askForStore
    split
    · exact .refl
    · exact moves_requestAgain rfl s
  case sweepGrant => exact moves_sweepGrant rfl rfl s
  case answerDeadlineExpiry place =>
    cases place with
    | queued => exact moves_expireQueued rfl _ s
    | reckoner => exact moves_expireReckoner rfl s
  case rawTick => exact moves_tick rfl rfl rfl s
  case slewComplete =>
    change Moves _ s s (completeSlew s)
    unfold completeSlew
    split
    · exact moves_becomeLocked s
    · exact .refl
  case holdoverExpiry => exact moves_checkHoldover s
  case eventFramePlacement => exact moves_placeEvent rfl s
  case lineTransmitComplete => exact .single (.lineSent s)
  case officeTransmitComplete => exact .single (.officeSent s)
  case officeReadyIndication => exact .single (.ready _ s)
  case linkUp port =>
    cases port with
    | line => exact .single (.raiseLine s)
    | office => exact .single (move_raiseOffice s)
  case linkDown port midFrame =>
    cases port with
    | line => exact moves_loseLineLink _ s
    | office => exact moves_loseOfficeLink _ s
  all_goals exact moves_requestEffect _ s

/-- A property that does not look at the queue of commands is kept by every step when the pins' commands and every move of a command begun under it keep it. -/
theorem kept_of_moves {p : State → Prop} (queue : ∀ s l, p s → p { s with pending := l })
    (low : ∀ s, p s → p (dropRstn s)) (reset : ∀ straps s, p (resetWith straps s))
    (keeps : ∀ k s0 s t, p s0 → Move k s0 s t → p s → p t) : Kept p :=
  kept_of_effects queue low reset fun _ s noPin _ hs =>
    (moves_effect noPin s).keeps (fun u v move => keeps _ s u v hs move) hs

end Sys2Proof.Machine
end

