-- ==== Sys2Proof/Proofs/Bounds.lean ====
section
/-! SUPPORT. The bounds of the blocks (O60): each is kept by every move, so by every step. -/

namespace Sys2Proof.Machine

variable {s0 s t : State}

/-! ### What the moves of the ports and the slots leave -/

@[simp] theorem setReady_frame (b : Bool) (s : State) :
    (setReady b s).rstnLow = s.rstnLow ∧ (setReady b s).nodeAddress = s.nodeAddress
    ∧ (setReady b s).linePort = s.linePort ∧ (setReady b s).tapQueue = s.tapQueue
    ∧ (setReady b s).verdictQueue = s.verdictQueue ∧ (setReady b s).forwardQueue = s.forwardQueue
    ∧ (setReady b s).officeQueue = s.officeQueue ∧ (setReady b s).reckoner = s.reckoner
    ∧ (setReady b s).store = s.store ∧ (setReady b s).sweep = s.sweep
    ∧ (setReady b s).tables = s.tables ∧ (setReady b s).clock = s.clock
    ∧ (setReady b s).mgmt = s.mgmt ∧ (setReady b s).freeIndex = s.freeIndex
    ∧ (setReady b s).pending = s.pending := by
  simp [setReady]

@[simp] theorem emptyForward_frame (s : State) :
    (emptyForward s).rstnLow = s.rstnLow ∧ (emptyForward s).nodeAddress = s.nodeAddress
    ∧ (emptyForward s).officePort = s.officePort ∧ (emptyForward s).tapQueue = s.tapQueue
    ∧ (emptyForward s).verdictQueue = s.verdictQueue ∧ (emptyForward s).forwardQueue = []
    ∧ (emptyForward s).officeQueue = s.officeQueue ∧ (emptyForward s).reckoner = s.reckoner
    ∧ (emptyForward s).store = s.store ∧ (emptyForward s).sweep = s.sweep
    ∧ (emptyForward s).tables = s.tables ∧ (emptyForward s).clock = s.clock
    ∧ (emptyForward s).mgmt = s.mgmt ∧ (emptyForward s).freeIndex = s.freeIndex
    ∧ (emptyForward s).pending = s.pending :=
  ⟨rfl, rfl, rfl, rfl, rfl, rfl, rfl, rfl, rfl, rfl, rfl, rfl, rfl, rfl, rfl⟩

@[simp] theorem leaveLineQueue_frame (f : LineSource) (s : State) :
    (leaveLineQueue f s).rstnLow = s.rstnLow ∧ (leaveLineQueue f s).nodeAddress = s.nodeAddress
    ∧ (leaveLineQueue f s).linePort = s.linePort ∧ (leaveLineQueue f s).officePort = s.officePort
    ∧ (leaveLineQueue f s).tapQueue = s.tapQueue
    ∧ (leaveLineQueue f s).officeQueue = s.officeQueue ∧ (leaveLineQueue f s).reckoner = s.reckoner
    ∧ (leaveLineQueue f s).store = s.store ∧ (leaveLineQueue f s).sweep = s.sweep
    ∧ (leaveLineQueue f s).tables = s.tables ∧ (leaveLineQueue f s).clock = s.clock
    ∧ (leaveLineQueue f s).mgmt = s.mgmt ∧ (leaveLineQueue f s).freeIndex = s.freeIndex
    ∧ (leaveLineQueue f s).pending = s.pending := by
  cases f <;> simp [leaveLineQueue]

/-- A frame sent on the Line Port leaves its queue and changes the port (R15). -/
@[simp] theorem lineSent_frame (s : State) :
    (lineSent s).rstnLow = s.rstnLow ∧ (lineSent s).nodeAddress = s.nodeAddress
    ∧ (lineSent s).officePort = s.officePort ∧ (lineSent s).tapQueue = s.tapQueue
    ∧ (lineSent s).officeQueue = s.officeQueue ∧ (lineSent s).reckoner = s.reckoner
    ∧ (lineSent s).store = s.store ∧ (lineSent s).sweep = s.sweep
    ∧ (lineSent s).tables = s.tables ∧ (lineSent s).clock = s.clock ∧ (lineSent s).mgmt = s.mgmt
    ∧ (lineSent s).freeIndex = s.freeIndex ∧ (lineSent s).pending = s.pending := by
  unfold lineSent
  split <;> simp

/-- A frame sent on the Office Port leaves its queue and changes the port (R164). -/
@[simp] theorem officeSent_frame (s : State) :
    (officeSent s).rstnLow = s.rstnLow ∧ (officeSent s).nodeAddress = s.nodeAddress
    ∧ (officeSent s).linePort = s.linePort ∧ (officeSent s).tapQueue = s.tapQueue
    ∧ (officeSent s).verdictQueue = s.verdictQueue ∧ (officeSent s).forwardQueue = s.forwardQueue
    ∧ (officeSent s).officeQueue.sequence = s.officeQueue.sequence
    ∧ (officeSent s).officeQueue.setAside = s.officeQueue.setAside
    ∧ (officeSent s).reckoner = s.reckoner
    ∧ (officeSent s).store = s.store ∧ (officeSent s).sweep = s.sweep
    ∧ (officeSent s).tables = s.tables ∧ (officeSent s).clock = s.clock
    ∧ (officeSent s).mgmt = s.mgmt ∧ (officeSent s).freeIndex = s.freeIndex
    ∧ (officeSent s).pending = s.pending := by
  unfold officeSent
  split <;> simp

@[simp] theorem changeSlot_frame (x : SlotId) (v : Slot) (due : Option SlotId) (s : State) :
    (changeSlot x v due s).rstnLow = s.rstnLow ∧ (changeSlot x v due s).nodeAddress = s.nodeAddress
    ∧ (changeSlot x v due s).linePort = s.linePort
    ∧ (changeSlot x v due s).officePort = s.officePort
    ∧ (changeSlot x v due s).tapQueue = s.tapQueue
    ∧ (changeSlot x v due s).verdictQueue = s.verdictQueue
    ∧ (changeSlot x v due s).forwardQueue = s.forwardQueue
    ∧ (changeSlot x v due s).officeQueue = s.officeQueue
    ∧ (changeSlot x v due s).reckoner = s.reckoner ∧ (changeSlot x v due s).store = s.store
    ∧ (changeSlot x v due s).sweep = s.sweep ∧ (changeSlot x v due s).clock = s.clock
    ∧ (changeSlot x v due s).mgmt = s.mgmt ∧ (changeSlot x v due s).freeIndex = s.freeIndex
    ∧ (changeSlot x v due s).pending = s.pending
    ∧ (changeSlot x v due s).tables.denyList = s.tables.denyList := by
  simp [changeSlot]

@[simp] theorem freeWithEvent_tables (x : SlotId) (s : State) :
    (freeWithEvent x s).tables.swapDue = s.tables.swapDue
    ∧ (freeWithEvent x s).tables.denyList = s.tables.denyList := by
  simp

@[simp] theorem retireSlot_tables (x : SlotId) (s : State) :
    (retireSlot x s).tables.swapDue = s.tables.swapDue
    ∧ (retireSlot x s).tables.denyList = s.tables.denyList := by
  unfold retireSlot
  (repeat' split) <;> simp

@[simp] theorem settleSwap_denyList (s : State) :
    (settleSwap s).tables.denyList = s.tables.denyList := by
  unfold settleSwap makeSwap
  (repeat' split) <;> simp

@[simp] theorem releaseStore_denyList (s : State) :
    (releaseStore s).tables.denyList = s.tables.denyList := by
  simp [releaseStore]

/-! ### The Forward Queue (R169) -/

theorem leaveLineQueue_forward (f : LineSource) (s : State) :
    (leaveLineQueue f s).forwardQueue.length ≤ s.forwardQueue.length := by
  cases f <;> simp [leaveLineQueue]

theorem forwardSound_kept : Kept ForwardSound := by
  refine kept_of_moves (fun _ _ h => h) (fun _ h => h) (fun _ _ => Nat.zero_le _) fun _ s0 s t _ move h => ?_
  cases move with
  | work _ h' => rw [h'.frame]; exact h
  | forward bytes _ room => simp only [ForwardSound, transmitLine_frame, List.length_append, List.length_singleton]; omega
  | lineSent =>
    unfold lineSent
    split
    · simpa using Nat.le_trans (leaveLineQueue_forward _ s) h
    · exact h
  | emptyForward => exact Nat.zero_le _
  | _ => simpa [ForwardSound] using h

/-! ### The arbiter (R61) -/

/-- The bounds of an arbiter's counts (R61). -/
structure Arbiter.Sound (a : Arbiter) : Prop where
  management : a.managementWait ≤ 4
  sweep : a.sweepWait ≤ 16
  managementIdle : a.managementWaiting = false → a.managementWait = 0
  sweepIdle : a.sweepWaiting = false → a.sweepWait = 0

/-- No request waits (R61). -/
def Arbiter.idle (a : Arbiter) : Prop :=
  a.reckonerWaiting = false ∧ a.managementWaiting = false ∧ a.sweepWaiting = false

theorem arbiterSound_iff (s : State) : ArbiterSound s ↔
    s.store.arbiter.Sound ∧ (s.store.arbiter.holder = none → s.store.arbiter.idle) :=
  ⟨fun ⟨h1, h2, h3, h4, h5⟩ => ⟨⟨h1, h2, h3, h4⟩, h5⟩,
    fun ⟨⟨h1, h2, h3, h4⟩, h5⟩ => ⟨h1, h2, h3, h4, h5⟩⟩

theorem Arbiter.Sound.mark {a : Arbiter} (h : a.Sound) (b : Bool) (r : Requester) : (a.mark b r).Sound := by
  obtain ⟨h1, h2, h3, h4⟩ := h
  cases r <;> exact ⟨by simp [Arbiter.mark, h1], by simp [Arbiter.mark, h2],
    by simp_all [Arbiter.mark], by simp_all [Arbiter.mark]⟩

theorem Arbiter.Sound.grant {a : Arbiter} (h : a.Sound) (r : Requester) : (a.grant r).Sound := by
  obtain ⟨h1, h2, h3, h4⟩ := h.mark false r
  refine ⟨?_, ?_, ?_, ?_⟩ <;> simp only [Arbiter.grant, Arbiter.passOver]
  · split <;> omega
  · split <;> omega
  · intro idle; simp [idle, h3 idle]
  · intro idle; simp [idle, h4 idle]

@[simp] theorem Arbiter.grant_holder (a : Arbiter) (r : Requester) : (a.grant r).holder = some r := rfl

/-- Where the arbiter finds no one to grant, no one waits (R62). -/
theorem Arbiter.choose_none {a : Arbiter} {spill : Bool} (h : a.choose spill = none) : a.idle := by
  unfold Arbiter.choose at h
  (repeat' split at h) <;> simp_all [Arbiter.idle]

theorem arbiterSound_kept : Kept ArbiterSound := by
  refine kept_of_moves (fun _ _ h => h) (fun _ h => h) (fun _ _ => (show ArbiterSound State.reset by decide)) fun _ s0 s t _ move h => ?_
  cases move with
  | work _ h' => rw [h'.frame]; exact h
  | request r =>
    rw [arbiterSound_iff] at h ⊢
    simp only [requestStore_frame, Arbiter.request]
    split
    · exact ⟨h.1.grant r, by simp⟩
    next held => exact ⟨h.1.mark true r, fun free => by cases r <;> simp_all [Arbiter.mark]⟩
  | release =>
    rw [arbiterSound_iff] at h ⊢
    have vacant : ({ s.store.arbiter with holder := none } : Arbiter).Sound :=
      ⟨h.1.1, h.1.2, h.1.3, h.1.4⟩
    simp only [releaseStore, arbitrate_frame, settleSwap_frame, onArbiter_store, Arbiter.release,
      Arbiter.vacate]
    split
    · exact ⟨vacant.grant _, by simp⟩
    next noOne => exact ⟨vacant, fun _ => Arbiter.choose_none noOne⟩
  | withdraw r =>
    rw [arbiterSound_iff] at h ⊢
    simp only [onArbiter_store, Arbiter.withdraw]
    split
    · refine ⟨h.1.mark false r, fun free => ?_⟩
      have idle := h.2 (by cases r <;> simpa [Arbiter.mark] using free)
      cases r <;> simp_all [Arbiter.mark, Arbiter.idle]
    · exact h
  | _ => simpa [ArbiterSound] using h

/-! ### The journey reference (R68) and the Sweep's cursors (R119) -/

theorem referenceSound_kept : Kept ReferenceSound := by
  refine kept_of_moves (fun _ _ h => h) (fun _ h => h) (fun _ _ => (show ReferenceSound State.reset by decide)) fun _ s0 s t _ move h => ?_
  cases move with
  | work _ h' =>
    cases h' with
    | reference =>
      obtain ⟨low, high⟩ := h
      by_cases last : s.store.nextReference = Config.max32
      · simp [ReferenceSound, last]
      · have below : s.store.nextReference ≠ 4294967295 := last
        simp only [ReferenceSound, takeReference_store, last, if_false]
        omega
    | _ => simpa [ReferenceSound] using h
  | _ => simpa [ReferenceSound] using h

theorem sweepSound_kept : Kept SweepSound := by
  refine kept_of_moves (fun _ _ h => h) (fun _ h => h) (fun _ _ => (show SweepSound State.reset by decide)) fun _ s0 s t _ move h => ?_
  cases move with
  | work _ h' => rw [h'.frame]; exact h
  | sweep f _ hf => exact hf h
  | marks => rw [SweepSound, compareMarks_sweep]; exact h
  | _ => simpa [SweepSound] using h

/-! ### The slots' states (R134) -/

/-- A change that leaves each slot's state, or frees or retires the slot, keeps the slots' law (R134). -/
theorem slotsSound_of_states (h : SlotsSound s) (states : ∀ x, (slotOf t x).state = (slotOf s x).state
    ∨ (slotOf t x).state = .free ∨ (slotOf t x).state = .retiring) : SlotsSound t := by
  obtain ⟨h1, h2⟩ := h
  have ha : t.tables.slotA.state = _ ∨ _ := states .a
  have hb : t.tables.slotB.state = _ ∨ _ := states .b
  refine ⟨fun ⟨a, b⟩ => ?_, fun ⟨a, b⟩ => ?_⟩
  · rcases ha with ha | ha | ha <;> rcases hb with hb | hb | hb <;> simp_all [slotOf, TableStore.slot]
  · rcases ha with ha | ha | ha <;> rcases hb with hb | hb | hb <;>
      simp_all [slotOf, TableStore.slot, SlotState.loading]

/-- A count message of a closing leaves a slot's state, or frees the slot (R142). -/
theorem noteClosing_state (x y : SlotId) (s : State) :
    (slotOf (noteClosing x s) y).state = (slotOf s y).state
    ∨ (slotOf (noteClosing x s) y).state = .free := by
  unfold noteClosing
  dsimp only
  by_cases same : y = x
  · subst same
    split <;> simp [slotOf, Slot.freed]
  · split <;> simp [slotOf, TableStore.slot_put_ne _ _ same]

theorem StoreWork.state (h : StoreWork s0 s t) (x : SlotId) :
    (slotOf t x).state = (slotOf s x).state ∨ (slotOf t x).state = .free := by
  cases h with
  | obtain | write | reference => exact .inl (by simp [slotOf])
  | close w => simpa [slotOf, closeJourney] using noteClosing_state w.journey.tag x (compareMarks (removeJourney w.slot s))
  | giveWay w => simpa [slotOf] using noteClosing_state w.journey.tag x (removeJourney w.slot s)
  | join w =>
    by_cases same : x = w.journey.tag
    · exact .inl (by simp [slotOf, same])
    · exact .inl (by simp [slotOf, TableStore.slot_put_ne _ _ same])

/-- The slot a retirement leaves: an Active one Retiring while journeys are tagged with it, else Free (R141). -/
theorem retireSlot_slot (x : SlotId) (s : State) :
    slotOf (retireSlot x s) x = (if (slotOf s x).state = .active then
      (if 0 < (slotOf s x).refCount then { slotOf s x with state := .retiring } else Slot.freed)
      else slotOf s x) := by
  unfold retireSlot
  (repeat' split) <;> simp_all [slotOf]

theorem retireSlot_ne {x y : SlotId} {s : State} (h : y ≠ x) :
    slotOf (retireSlot x s) y = slotOf s y := by
  unfold retireSlot
  (repeat' split) <;> simp [slotOf, TableStore.slot_put_ne _ _ h]

theorem SlotId.other_ne (x : SlotId) : x.other ≠ x := by cases x <;> simp [SlotId.other]

theorem SlotId.ne_iff {x y : SlotId} : y ≠ x ↔ y = x.other := by
  cases x <;> cases y <;> simp [SlotId.other]

/-- The slots a swap leaves: the slot Active, the other as its retirement makes it (R141). -/
theorem makeSwap_slot (x : SlotId) (s : State) :
    slotOf (makeSwap x s) x = { slotOf s x with state := .active, effective := none } := by
  simp only [makeSwap, slotOf]
  rw [show ∀ u : TableStore, ({ u with swapDue := none } : TableStore).slot x = u.slot x by
    intro u; cases x <;> rfl]
  have := retireSlot_ne (x := x.other) (y := x) (s := raise .generationActive
    (.generation x (((slotOf s x).label).getD 0))
    (putSlot x { slotOf s x with state := .active, effective := none } s)) (SlotId.other_ne x).symm
  simpa [slotOf] using this

theorem makeSwap_other (x : SlotId) (s : State) :
    slotOf (makeSwap x s) x.other = (if (slotOf s x.other).state = .active then
      (if 0 < (slotOf s x.other).refCount then { slotOf s x.other with state := .retiring }
        else Slot.freed)
      else slotOf s x.other) := by
  simp only [makeSwap, slotOf]
  rw [show ∀ u : TableStore, ({ u with swapDue := none } : TableStore).slot x.other = u.slot x.other by
    intro u; cases x <;> rfl]
  have := retireSlot_slot x.other (raise .generationActive
    (.generation x (((slotOf s x).label).getD 0))
    (putSlot x { slotOf s x with state := .active, effective := none } s))
  have there : slotOf (raise .generationActive (.generation x (((slotOf s x).label).getD 0))
      (putSlot x { slotOf s x with state := .active, effective := none } s)) x.other
      = slotOf s x.other := by simp [slotOf]
  rw [there] at this
  simpa [slotOf] using this

/-- The slots' law, said of a slot and the other. -/
theorem slotsSound_iff (x : SlotId) (s : State) : SlotsSound s ↔
    ¬ ((slotOf s x).state = .active ∧ (slotOf s x.other).state = .active)
    ∧ ¬ ((slotOf s x).state.loading = true ∧ (slotOf s x.other).state.loading = true) := by
  cases x
  · rfl
  · exact and_congr (not_congr and_comm) (not_congr and_comm)

theorem settleSwap_slotsSound (h : SlotsSound s) : SlotsSound (settleSwap s) := by
  unfold settleSwap
  split
  next x _ =>
    split
    · exact h
    · rw [slotsSound_iff x] at h ⊢
      rw [makeSwap_slot, makeSwap_other]
      refine ⟨fun ⟨_, b⟩ => ?_, fun ⟨a, _⟩ => by simp [SlotState.loading] at a⟩
      split at b
      · split at b <;> simp [Slot.freed] at b
      next notActive => exact notActive b
  next => exact h

theorem slotsSound_kept : Kept SlotsSound := by
  refine kept_of_moves (fun _ _ h => h) (fun _ h => h) (fun _ _ => ?_) fun _ s0 s t _ move h => ?_
  · simp [SlotsSound, resetWith, State.reset, TableStore.reset, Slot.freed, SlotState.loading]
  cases move with
  | work _ h' => exact slotsSound_of_states h fun x => (h'.state x).imp_right .inl
  | settle => exact settleSwap_slotsSound h
  | release =>
    have vacated : SlotsSound (onArbiter Arbiter.vacate s) := h
    simpa [releaseStore, SlotsSound] using settleSwap_slotsSound vacated
  | slot x v due _ _ change =>
    rw [slotsSound_iff x] at h ⊢
    have here : slotOf (changeSlot x v due s) x = v := by cases x <;> rfl
    have there : slotOf (changeSlot x v due s) x.other = slotOf s x.other := by cases x <;> rfl
    rw [here, there]
    refine ⟨fun ⟨a, _⟩ => change.after.1 a, fun ⟨a, b⟩ => ?_⟩
    rcases change.loading a with was | notLoading
    · exact h.2 ⟨was, b⟩
    · simp [notLoading] at b
  | _ => simpa [SlotsSound] using h

/-! ### The Deny List (R145), the Line Clock (R148), the counters (R166) -/

theorem denyListSound_kept : Kept DenyListSound := by
  refine kept_of_moves (fun _ _ h => h) (fun _ h => h) (fun _ _ => (show DenyListSound State.reset by decide)) fun _ s0 s t _ move h => ?_
  cases move with
  | work _ h' => rw [h'.frame]; exact h
  | denyList l _ hl => exact hl h
  | _ => simpa [DenyListSound] using h

theorem clockSound_iff (s : State) : ClockSound s ↔
    s.clock.InRange ∧ ∀ r ∈ s.mgmt.requests, markInRange r.request = true :=
  ⟨fun ⟨h1, h2, h3, h4, h5, h6, h7, h8⟩ => ⟨⟨h1, h2, h3, h4, h5, h6, h7⟩, h8⟩,
    fun ⟨⟨h1, h2, h3, h4, h5, h6, h7⟩, h8⟩ => ⟨h1, h2, h3, h4, h5, h6, h7, h8⟩⟩

/-- A swap answers a request of those held (R141). -/
theorem settleSwap_requests (s : State) :
    RequestsFrom s.mgmt.requests (settleSwap s).mgmt.requests := by
  unfold settleSwap
  split
  · split
    · exact requestsFrom_sublist (List.Sublist.refl _)
    · simpa [makeSwap] using requestsFrom_modifyFirst _ _ s.mgmt.requests
  · exact requestsFrom_sublist (List.Sublist.refl _)

theorem RequestsFrom.inRange {k l : List HeldRequest} (h : RequestsFrom k l)
    (hk : ∀ r ∈ k, markInRange r.request = true) : ∀ r ∈ l, markInRange r.request = true := by
  intro r hr
  rcases h r hr with done | ⟨q, hq, same⟩
  · exact done
  · rw [same]
    exact hk q hq

theorem clockSound_kept : Kept ClockSound := by
  refine kept_of_moves (fun _ _ h => h) (fun _ h => h) (fun _ _ => ?_) fun _ s0 s t h0 move h => ?_
  · simp [ClockSound, resetWith, State.reset, LineClock.reset, Management.reset]
  rw [clockSound_iff] at h0 h ⊢
  cases move with
  | work _ h' => rw [h'.frame]; exact h
  | clock f _ hf => exact ⟨hf h0.2 h.1, h.2⟩
  | requests f _ hf => exact ⟨h.1, hf.inRange h.2⟩
  | settle => exact ⟨by simpa using h.1, (settleSwap_requests s).inRange h.2⟩
  | release =>
    have := (settleSwap_requests (onArbiter Arbiter.vacate s)).inRange h.2
    exact ⟨by simpa using h.1, by simpa [releaseStore] using this⟩
  | _ => simpa [ClockSound] using h

theorem countersSound_kept : Kept CountersSound := by
  refine kept_of_moves (fun _ _ h => h) (fun _ h => h) (fun _ _ => ?_) fun _ s0 s t _ move h => ?_
  · simp [CountersSound, resetWith, State.reset, Management.reset, Counters.list]
  cases move with
  | work _ h' => rw [h'.frame]; exact h
  | count f _ hf => exact ⟨hf _ h.1, h.2⟩
  | sequence => exact ⟨h.1, Nat.le_of_lt_succ (Nat.mod_lt _ (by decide))⟩
  | _ => simpa [CountersSound] using h

/-! ### The pending events (R165) and the run settings (R177) -/

theorem raiseIn_kinds (k : EventKind) (d : EventData) (sec ms : Nat) (l : List PendingEvent) :
    (raiseIn k d sec ms l).map PendingEvent.kind
      = if k ∈ l.map PendingEvent.kind then l.map PendingEvent.kind
        else l.map PendingEvent.kind ++ [k] := by
  induction l with
  | nil => rfl
  | cons e rest ih =>
    unfold raiseIn
    by_cases same : e.kind = k
    · simp [same]
    · have : k ≠ e.kind := fun h => same h.symm
      simp only [same, if_false, List.map_cons, ih, List.mem_cons, this, false_or]
      split <;> rfl

theorem raiseIn_counts {k : EventKind} {d : EventData} {sec ms : Nat} {l : List PendingEvent}
    (h : ∀ e ∈ l, 1 ≤ e.count ∧ e.count ≤ 65535) :
    ∀ e ∈ raiseIn k d sec ms l, 1 ≤ e.count ∧ e.count ≤ 65535 := by
  induction l with
  | nil => simp [raiseIn]
  | cons x rest ih =>
    obtain ⟨hx, hrest⟩ := List.forall_mem_cons.mp h
    unfold raiseIn
    split <;> rw [List.forall_mem_cons]
    · refine ⟨?_, hrest⟩
      dsimp only
      omega
    · exact ⟨hx, ih hrest⟩

/-- An event raised joins the entry of its kind or the tail, so each kind keeps one entry (R165). -/
theorem raise_eventsSound (k : EventKind) (d : EventData) (h : EventsSound s) :
    EventsSound (raise k d s) := by
  refine ⟨?_, raiseIn_counts h.2⟩
  simp only [raise_mgmt, raiseIn_kinds]
  split
  · exact h.1
  next absent =>
    exact nodup_concat h.1 absent

theorem compareMarks_eventsSound (h : EventsSound s) : EventsSound (compareMarks s) := by
  unfold compareMarks
  dsimp only
  split
  · split
    · exact raise_eventsSound _ _ h
    · exact h
  · split
    · exact raise_eventsSound _ _ h
    · exact h

theorem noteClosing_eventsSound (x : SlotId) (h : EventsSound s) : EventsSound (noteClosing x s) := by
  unfold noteClosing
  dsimp only
  split
  · exact raise_eventsSound _ _ h
  · exact h

theorem retireSlot_eventsSound (x : SlotId) (h : EventsSound s) : EventsSound (retireSlot x s) := by
  unfold retireSlot
  split
  · split
    · exact h
    · exact raise_eventsSound _ _ h
  · exact h

theorem settleSwap_eventsSound (h : EventsSound s) : EventsSound (settleSwap s) := by
  unfold settleSwap
  split
  next x _ =>
    split
    · exact h
    · exact retireSlot_eventsSound x.other (raise_eventsSound .generationActive _ h)
  · exact h

theorem obtainAccount_eventsSound (token : Token) (day : Nat) (h : EventsSound s) :
    EventsSound (obtainAccount token day s).1 := by
  unfold obtainAccount noteUntracked
  split
  · exact h
  split
  · exact h
  dsimp only
  split
  · exact h
  · exact raise_eventsSound _ _ h

theorem StoreWork.eventsSound (work : StoreWork s0 s t) (h : EventsSound s) : EventsSound t := by
  cases work with
  | obtain token day => exact obtainAccount_eventsSound token day h
  | write | reference => simpa [EventsSound] using h
  | close w => exact noteClosing_eventsSound _ (compareMarks_eventsSound h)
  | giveWay w => exact noteClosing_eventsSound _ h
  | join w =>
    have joined : EventsSound { s with store := { s.store with journeys := s.store.journeys ++ [w] } } := h
    simpa [appendJourney, EventsSound] using compareMarks_eventsSound joined

theorem eventsSound_kept : Kept EventsSound := by
  refine kept_of_moves (fun _ _ h => h) (fun _ h => h) (fun _ _ => ?_) fun _ s0 s t _ move h => ?_
  · simp [EventsSound, resetWith, State.reset, Management.reset]
  cases move with
  | work _ work => exact work.eventsSound h
  | raise k d => exact raise_eventsSound k d h
  | events l _ _ sub => exact ⟨h.1.sublist (sub.map _), fun e he => h.2 e (sub.subset he)⟩
  | settle => exact settleSwap_eventsSound h
  | release =>
    have vacated : EventsSound (onArbiter Arbiter.vacate s) := h
    simpa [releaseStore, EventsSound] using settleSwap_eventsSound vacated
  | marks => exact compareMarks_eventsSound h
  | _ => simpa [EventsSound] using h

theorem settingsInRange_kept : Kept (fun s => s.mgmt.settings.inRange) := by
  refine kept_of_moves (fun _ _ h => h) (fun _ h => h) (fun _ _ => (show RunSettings.reset.inRange by decide)) fun _ s0 s t _ move h => ?_
  cases move with
  | work _ h' => rw [h'.frame]; exact h
  | settings v _ hv => exact hv
  | _ => simpa using h

end Sys2Proof.Machine

section

open Sys2Proof Sys2Proof.Machine

/-- Settles O60: each bound is kept by every move of a command. -/
theorem boundsKept : Obligations.BoundsKept :=
  ⟨forwardSound_kept, arbiterSound_kept, referenceSound_kept, sweepSound_kept, slotsSound_kept,
    denyListSound_kept, clockSound_kept, countersSound_kept, eventsSound_kept, settingsInRange_kept⟩

end
end

