-- ==== Sys2Proof/Proofs/Accounts.lean ====
section
/-! SUPPORT. The Day Account Table (R86 to R92): the set of a token, the way a new record takes, and the law of the table (O54, O59). -/

namespace Sys2Proof.Machine

variable {s0 s t : State}

/-! ### A record put into its way -/

theorem mem_putWay_of {w v : AccountWay} {l : List AccountWay} (h : v ∈ putWay w l) : v = w ∨ v ∈ l := by
  induction l with
  | nil => exact .inl (List.mem_singleton.mp h)
  | cons x rest ih =>
    unfold putWay at h
    split at h
    · exact List.mem_cons.mp h
    split at h
    · exact (List.mem_cons.mp h).imp_right (List.mem_cons_of_mem x)
    · rcases List.mem_cons.mp h with rfl | h
      · exact .inr List.mem_cons_self
      · exact (ih h).imp_right (List.mem_cons_of_mem x)

/-- In a table in slot order the record put replaces what its way held, and every other record stands (R86). -/
theorem mem_putWay {w v : AccountWay} {l : List AccountWay}
    (ascending : l.Pairwise (fun x y => x.slot < y.slot)) :
    v ∈ putWay w l ↔ v = w ∨ v ∈ l ∧ v.slot ≠ w.slot := by
  induction l with
  | nil => simp [putWay]
  | cons x rest ih =>
    obtain ⟨least, restAscending⟩ := List.pairwise_cons.mp ascending
    unfold putWay
    by_cases before : w.slot < x.slot
    · rw [if_pos before]
      have other : ∀ u ∈ x :: rest, u.slot ≠ w.slot := by
        rintro u (_ | ⟨_, hu⟩)
        · omega
        · have := least u hu
          omega
      simp only [List.mem_cons (a := v) (b := w)]
      exact or_congr_right ⟨fun h => ⟨h, other v h⟩, And.left⟩
    rw [if_neg before]
    by_cases same : w.slot = x.slot
    · rw [if_pos same]
      have other : ∀ u ∈ rest, u.slot ≠ w.slot := fun u hu => by
        have := least u hu
        omega
      simp only [List.mem_cons]
      constructor
      · rintro (h | h)
        · exact .inl h
        · exact .inr ⟨.inr h, other v h⟩
      · rintro (h | ⟨rfl | h, differs⟩)
        · exact .inl h
        · exact absurd same.symm differs
        · exact .inr h
    · simp only [if_neg same, List.mem_cons, ih restAscending]
      constructor
      · rintro (rfl | rfl | ⟨h, differs⟩)
        · exact .inr ⟨.inl rfl, fun h => same h.symm⟩
        · exact .inl rfl
        · exact .inr ⟨.inr h, differs⟩
      · rintro (rfl | ⟨rfl | h, differs⟩)
        · exact .inr (.inl rfl)
        · exact .inl rfl
        · exact .inr (.inr ⟨h, differs⟩)

/-- The table stays in slot order (R86). -/
theorem putWay_ascending {w : AccountWay} {l : List AccountWay}
    (ascending : l.Pairwise (fun x y => x.slot < y.slot)) :
    (putWay w l).Pairwise (fun x y => x.slot < y.slot) := by
  induction l with
  | nil => simp [putWay]
  | cons x rest ih =>
    obtain ⟨least, restAscending⟩ := List.pairwise_cons.mp ascending
    unfold putWay
    by_cases before : w.slot < x.slot
    · rw [if_pos before]
      refine List.pairwise_cons.mpr ⟨?_, ascending⟩
      rintro u (_ | ⟨_, hu⟩)
      · exact before
      · exact Nat.lt_trans before (least u hu)
    rw [if_neg before]
    by_cases same : w.slot = x.slot
    · rw [if_pos same]
      exact List.pairwise_cons.mpr ⟨fun u hu => same ▸ least u hu, restAscending⟩
    · rw [if_neg same]
      refine List.pairwise_cons.mpr ⟨fun u hu => ?_, ih restAscending⟩
      rcases mem_putWay_of hu with rfl | hu
      · omega
      · exact least u hu

/-! ### The law of the table -/

/-- A list of accounts is sound: the law of `AccountsSound`, with the keys said of any two records (R85, R86, R92). -/
structure AccountTable (l : List AccountWay) : Prop where
  ascending : l.Pairwise (fun x y => x.slot < y.slot)
  keys : ∀ v ∈ l, ∀ w ∈ l, v.account.token = w.account.token → v.account.day = w.account.day → v = w
  inSet : ∀ w ∈ l, w.slot / 4 = accountSet w.account.token
  legs : ∀ w ∈ l, w.account.legs ≤ 255

/-- Slots in ascending order are told apart. -/
theorem slots_nodup {l : List AccountWay} (ascending : l.Pairwise (fun x y => x.slot < y.slot)) :
    (l.map AccountWay.slot).Nodup :=
  List.pairwise_map.mpr (ascending.imp Nat.ne_of_lt)

theorem accountsSound_iff (s : State) : AccountsSound s ↔ AccountTable s.store.accounts := by
  unfold AccountsSound
  rw [List.pairwise_map]
  constructor
  · rintro ⟨ascending, keys, inSet, legs⟩
    refine ⟨ascending, fun v hv w hw token day => ?_, inSet, legs⟩
    exact eq_of_nodup_map keys hv hw (Prod.ext token day)
  · rintro ⟨ascending, keys, inSet, legs⟩
    refine ⟨ascending, ?_, inSet, legs⟩
    refine List.pairwise_map.mpr (ascending.imp_of_mem fun hv hw less same => ?_)
    obtain ⟨token, day⟩ := Prod.mk.inj same
    exact absurd (congrArg AccountWay.slot (keys _ hv _ hw token day)) (Nat.ne_of_lt less)

theorem AccountTable.sublist {k l : List AccountWay} (h : AccountTable l) (sub : k.Sublist l) :
    AccountTable k :=
  ⟨h.ascending.sublist sub, fun v hv w hw => h.keys v (sub.subset hv) w (sub.subset hw),
    fun w hw => h.inSet w (sub.subset hw), fun w hw => h.legs w (sub.subset hw)⟩

/-- A record changed in its way, its key kept. -/
theorem AccountTable.write {l : List AccountWay} (h : AccountTable l) {f : Account → Account}
    (hf : KeepsKey f) (n : Nat) :
    AccountTable (l.map (fun w => if w.slot = n then { w with account := f w.account } else w)) := by
  have slot (w : AccountWay) :
      (if w.slot = n then { w with account := f w.account } else w).slot = w.slot := by
    split <;> rfl
  have token (w : AccountWay) :
      (if w.slot = n then { w with account := f w.account } else w).account.token = w.account.token := by
    split
    · exact hf.token _
    · rfl
  have day (w : AccountWay) :
      (if w.slot = n then { w with account := f w.account } else w).account.day = w.account.day := by
    split
    · exact hf.day _
    · rfl
  refine ⟨?_, ?_, ?_, ?_⟩
  · rw [List.pairwise_map]
    simpa only [slot] using h.ascending
  · simp only [List.mem_map]
    rintro _ ⟨v, hv, rfl⟩ _ ⟨w, hw, rfl⟩ sameToken sameDay
    rw [token, token] at sameToken
    rw [day, day] at sameDay
    rw [h.keys v hv w hw sameToken sameDay]
  · simp only [List.mem_map]
    rintro _ ⟨w, hw, rfl⟩
    rw [slot, token]
    exact h.inSet w hw
  · simp only [List.mem_map]
    rintro _ ⟨w, hw, rfl⟩
    split
    · exact hf.legs _ (h.legs w hw)
    · exact h.legs w hw

/-- A fresh record put into a way of its token's set, where its key is new (R89). -/
theorem AccountTable.create {l : List AccountWay} (h : AccountTable l) {n day : Nat} {token : Token}
    (inSet : n / 4 = accountSet token)
    (new : ∀ w ∈ l, ¬ (w.account.token = token ∧ w.account.day = day)) :
    AccountTable (putWay ⟨n, Account.fresh token day⟩ l) := by
  refine ⟨putWay_ascending h.ascending, fun v hv w hw sameToken sameDay => ?_, fun w hw => ?_, fun w hw => ?_⟩
  · rw [mem_putWay h.ascending] at hv hw
    rcases hv with rfl | ⟨hv, _⟩ <;> rcases hw with rfl | ⟨hw, _⟩
    · rfl
    · exact absurd ⟨sameToken.symm, sameDay.symm⟩ (new w hw)
    · exact absurd ⟨sameToken, sameDay⟩ (new v hv)
    · exact h.keys v hv w hw sameToken sameDay
  · rcases mem_putWay_of hw with rfl | hw
    · exact inSet
    · exact h.inSet w hw
  · rcases mem_putWay_of hw with rfl | hw
    · exact Nat.zero_le _
    · exact h.legs w hw

/-! ### The account obtained (R88 to R91) -/

/-- The way found free is the lowest of its set that is not held (R64, R89). -/
theorem freeWay_eq_some {set n : Nat} {held : List Nat} : freeWay set held = some n ↔
    n / 4 = set ∧ n ∉ held ∧ ∀ m < n, m / 4 = set → m ∈ held := by
  unfold freeWay
  constructor
  · intro h
    obtain ⟨free, before, after, split, heldBefore⟩ := List.find?_eq_some_iff_append.mp h
    have hn := List.mem_of_find?_eq_some h
    have inSet : n / 4 = set := by
      simp only [List.mem_cons, List.not_mem_nil, or_false] at hn
      omega
    refine ⟨inSet, by simpa using free, fun m below hm => ?_⟩
    have way : m ∈ [set * 4, set * 4 + 1, set * 4 + 2, set * 4 + 3] := by
      simp only [List.mem_cons, List.not_mem_nil, or_false]
      omega
    have ascending : (before ++ n :: after).Pairwise (· < ·) := by
      rw [← split]
      simp only [List.pairwise_cons, List.mem_cons, List.not_mem_nil, or_false]
      refine ⟨?_, ?_, ?_, ?_⟩ <;> simp
    rw [split] at way
    rcases List.mem_append.mp way with way | way
    · simpa using heldBefore m way
    · have := (List.pairwise_append.mp ascending).2.1
      rw [List.pairwise_cons] at this
      rcases List.mem_cons.mp way with rfl | way
      · omega
      · have := this.1 m way
        omega
  · rintro ⟨inSet, free, lowest⟩
    have way : n = set * 4 ∨ n = set * 4 + 1 ∨ n = set * 4 + 2 ∨ n = set * 4 + 3 := by omega
    have held' (m : Nat) (hm : m < n) (h : m / 4 = set) : held.contains m = true := by
      simpa using lowest m hm h
    have free' : held.contains n = false := by simpa using free
    rcases way with rfl | rfl | rfl | rfl
    · rw [List.find?_cons_of_pos (by simpa using free)]
    · rw [List.find?_cons_of_neg (by simpa using held' (set * 4) (by omega) (by omega)),
        List.find?_cons_of_pos (by simpa using free)]
    · rw [List.find?_cons_of_neg (by simpa using held' (set * 4) (by omega) (by omega)),
        List.find?_cons_of_neg (by simpa using held' (set * 4 + 1) (by omega) (by omega)),
        List.find?_cons_of_pos (by simpa using free)]
    · rw [List.find?_cons_of_neg (by simpa using held' (set * 4) (by omega) (by omega)),
        List.find?_cons_of_neg (by simpa using held' (set * 4 + 1) (by omega) (by omega)),
        List.find?_cons_of_neg (by simpa using held' (set * 4 + 2) (by omega) (by omega)),
        List.find?_cons_of_pos (by simpa using free)]

/-- No way is free when all four of the set are held. -/
theorem freeWay_eq_none {set : Nat} {held : List Nat} (full : ∀ m, m / 4 = set → m ∈ held) :
    freeWay set held = none := by
  cases found : freeWay set held with
  | none => rfl
  | some n =>
    obtain ⟨inSet, free, _⟩ := freeWay_eq_some.mp found
    exact absurd (full n inSet) free

theorem lowestDay_mem {l : List AccountWay} {w : AccountWay} (h : lowestDay l = some w) : w ∈ l := by
  induction l with
  | nil => simp [lowestDay] at h
  | cons x rest ih =>
    unfold lowestDay at h
    split at h
    next v found =>
      split at h
      · injection h with h
        subst h
        exact List.mem_cons_of_mem x (ih found)
      · injection h with h
        exact h ▸ List.mem_cons_self
    next =>
      injection h with h
      exact h ▸ List.mem_cons_self

/-- The record of the lowest service day, the lowest-numbered among equals (R90). -/
theorem lowestDay_eq {l : List AccountWay} {v : AccountWay}
    (ascending : l.Pairwise (fun x y => x.slot < y.slot)) (hv : v ∈ l)
    (lowest : ∀ w ∈ l, v.account.day < w.account.day ∨ v.account.day = w.account.day ∧ v.slot ≤ w.slot) :
    lowestDay l = some v := by
  induction l with
  | nil => cases hv
  | cons x rest ih =>
    obtain ⟨least, restAscending⟩ := List.pairwise_cons.mp ascending
    unfold lowestDay
    rcases List.mem_cons.mp hv with rfl | hv
    · split
      next u found =>
        have := lowest u (List.mem_cons_of_mem v (lowestDay_mem found))
        rw [if_neg (by omega)]
      next => rfl
    · rw [ih restAscending hv fun w hw => lowest w (List.mem_cons_of_mem x hw)]
      have below := least v hv
      have := lowest x List.mem_cons_self
      simp only [ite_eq_left_iff]
      omega

/-- A new record takes a way of its token's set (R89, R90). -/
theorem slotForNew_inSet {token : Token} {n : Nat} (h : slotForNew s token = some n) :
    n / 4 = accountSet token := by
  unfold slotForNew at h
  dsimp only at h
  split at h
  next m found =>
    injection h with h
    exact h ▸ (freeWay_eq_some.mp found).1
  next =>
    obtain ⟨w, found, rfl⟩ := Option.map_eq_some_iff.mp h
    have hw := lowestDay_mem found
    simp only [List.mem_filter, beq_iff_eq] at hw
    exact hw.1.2

/-- No account of a key in a sound table where none is found (R86). -/
theorem findAccount_none {token : Token} {day : Nat} (sound : AccountTable s.store.accounts)
    (h : findAccount s token day = none) :
    ∀ w ∈ s.store.accounts, ¬ (w.account.token = token ∧ w.account.day = day) := by
  rintro w hw ⟨rfl, rfl⟩
  have := List.find?_eq_none.mp h w hw
  simp [sound.inSet w hw] at this

/-- The account found is the only one of its key (R86). -/
theorem findAccount_eq {w : AccountWay} (sound : AccountTable s.store.accounts)
    (hw : w ∈ s.store.accounts) : findAccount s w.account.token w.account.day = some w := by
  cases found : findAccount s w.account.token w.account.day with
  | none => exact absurd ⟨rfl, rfl⟩ (findAccount_none sound found w hw)
  | some v =>
    have matched := List.find?_some found
    simp only [Bool.and_eq_true, beq_iff_eq] at matched
    rw [sound.keys v (List.mem_of_find?_eq_some found) w hw matched.1.2 matched.2]

theorem findAccount_eq_none {token : Token} {day : Nat}
    (h : ∀ w ∈ s.store.accounts, ¬ (w.account.token = token ∧ w.account.day = day)) :
    findAccount s token day = none := by
  refine List.find?_eq_none.mpr fun w hw => ?_
  have := h w hw
  simp only [Bool.and_eq_true, beq_iff_eq]
  exact fun ⟨⟨_, token⟩, day⟩ => this ⟨token, day⟩

theorem obtainAccount_accounts (token : Token) (day : Nat) (sound : AccountTable s.store.accounts) :
    AccountTable (obtainAccount token day s).1.store.accounts := by
  unfold obtainAccount
  split
  · exact sound
  next none =>
    split
    next n found => exact sound.create (slotForNew_inSet found) (findAccount_none sound none)
    next => simpa using sound

/-! ### The law is kept (O59) -/

theorem accountsSound_kept : Kept AccountsSound := by
  refine kept_of_moves (fun _ _ h => h) (fun _ h => h)
    (fun _ _ => (show AccountsSound State.reset by decide)) fun _ s0 s t _ move h => ?_
  rw [accountsSound_iff] at h ⊢
  cases move with
  | work _ work =>
    cases work with
    | obtain token day => exact obtainAccount_accounts token day h
    | write slot f _ hf =>
      unfold writeAccount
      split
      · exact h.write hf _
      · exact h
    | _ => simpa using h
  | freeAccount n => exact h.sublist List.filter_sublist
  | emptyAccounts => exact h.sublist (List.nil_sublist _)
  | _ => simpa using h

/-! ### A token's set (R86) -/

/-- A token's set of accounts, by numbers: the exclusive OR of its five groups of bits (R86). -/
theorem accountSet_eq (token : Token) : accountSet token
    = token.toNat % 2 ^ 13 ^^^ token.toNat / 2 ^ 13 % 2 ^ 13 ^^^ token.toNat / 2 ^ 26 % 2 ^ 13
      ^^^ token.toNat / 2 ^ 39 % 2 ^ 13 ^^^ token.toNat / 2 ^ 52 := by
  have bound := token.isLt
  have last : token.toNat / 2 ^ 52 % 2 ^ 12 % 2 ^ 13 = token.toNat / 2 ^ 52 := by omega
  simp only [accountSet, BitVec.toNat_xor, BitVec.extractLsb'_toNat, BitVec.toNat_setWidth,
    Nat.shiftRight_eq_div_pow, last, Nat.pow_zero, Nat.div_one]

/-! ### What an account obtained is (O54) -/

section Obtained
variable {token : Token} {day : Nat}

/-- The account held is the one obtained (R88). -/
theorem obtainAccount_held (sound : AccountTable s.store.accounts) {w : AccountWay}
    (hw : w ∈ s.store.accounts) (sameToken : w.account.token = token) (sameDay : w.account.day = day) :
    obtainAccount token day s = (s, some w.slot) := by
  subst sameToken sameDay
  unfold obtainAccount
  rw [findAccount_eq sound hw]

/-- Without an account of its key, a record is created in the way that a new one takes (R89). -/
theorem obtainAccount_new {n : Nat}
    (new : ∀ w ∈ s.store.accounts, ¬ (w.account.token = token ∧ w.account.day = day))
    (slot : slotForNew s token = some n) :
    obtainAccount token day s = (createAccount n token day s, some n) := by
  unfold obtainAccount
  rw [findAccount_eq_none new, slot]

theorem obtainAccount_untracked
    (new : ∀ w ∈ s.store.accounts, ¬ (w.account.token = token ∧ w.account.day = day))
    (slot : slotForNew s token = none) :
    obtainAccount token day s = (noteUntracked s, none) := by
  unfold obtainAccount
  rw [findAccount_eq_none new, slot]

/-- The slots held in a token's set. -/
theorem mem_slotsInSet {set n : Nat} : n ∈ (s.store.accounts.filter (fun w => w.slot / 4 == set)).map
    AccountWay.slot ↔ n / 4 = set ∧ ∃ w ∈ s.store.accounts, w.slot = n := by
  simp only [List.mem_map, List.mem_filter, beq_iff_eq]
  constructor
  · rintro ⟨w, ⟨hw, inSet⟩, rfl⟩
    exact ⟨inSet, w, hw, rfl⟩
  · rintro ⟨inSet, w, hw, rfl⟩
    exact ⟨w, ⟨hw, inSet⟩, rfl⟩

/-- With a way of its set free, a new record takes the lowest one (R89). -/
theorem slotForNew_free {n : Nat} (inSet : n / 4 = accountSet token)
    (free : ∀ w ∈ s.store.accounts, w.slot ≠ n)
    (lowest : ∀ m < n, m / 4 = accountSet token → ∃ w ∈ s.store.accounts, w.slot = m) :
    slotForNew s token = some n := by
  have found : freeWay (accountSet token) ((s.store.accounts.filter
      (fun w => w.slot / 4 == accountSet token)).map AccountWay.slot) = some n := by
    refine freeWay_eq_some.mpr ⟨inSet, fun held => ?_, fun m below hm => ?_⟩
    · obtain ⟨_, w, hw, same⟩ := mem_slotsInSet.mp held
      exact free w hw same
    · exact mem_slotsInSet.mpr ⟨hm, lowest m below hm⟩
  simp only [slotForNew, found]

/-- In a full set a new record takes the way of the oldest old record, if there is one (R90). -/
theorem slotForNew_full (full : ∀ m, m / 4 = accountSet token → ∃ w ∈ s.store.accounts, w.slot = m) :
    slotForNew s token = (lowestDay ((s.store.accounts.filter
      (fun w => w.slot / 4 == accountSet token)).filter (fun w => isOld s w.account))).map
        AccountWay.slot := by
  have none : freeWay (accountSet token) ((s.store.accounts.filter
      (fun w => w.slot / 4 == accountSet token)).map AccountWay.slot) = none :=
    freeWay_eq_none fun m hm => mem_slotsInSet.mpr ⟨hm, full m hm⟩
  simp only [slotForNew, none]

theorem slotForNew_oldest (sound : AccountTable s.store.accounts)
    (full : ∀ m, m / 4 = accountSet token → ∃ w ∈ s.store.accounts, w.slot = m) {v : AccountWay}
    (hv : v ∈ s.store.accounts) (inSet : v.slot / 4 = accountSet token)
    (old : v.account.day + 3 < s.store.grant.serviceDay)
    (oldest : ∀ w ∈ s.store.accounts, w.slot / 4 = accountSet token →
      w.account.day + 3 < s.store.grant.serviceDay →
      v.account.day < w.account.day ∨ v.account.day = w.account.day ∧ v.slot ≤ w.slot) :
    slotForNew s token = some v.slot := by
  rw [slotForNew_full full, lowestDay_eq (v := v)]
  · rfl
  · exact (sound.ascending.sublist List.filter_sublist).sublist List.filter_sublist
  · simp only [List.mem_filter, beq_iff_eq, isOld, decide_eq_true_eq]
    exact ⟨⟨hv, inSet⟩, old⟩
  · intro w hw
    simp only [List.mem_filter, beq_iff_eq, isOld, decide_eq_true_eq] at hw
    exact oldest w hw.1.1 hw.1.2 hw.2

theorem slotForNew_none (full : ∀ m, m / 4 = accountSet token → ∃ w ∈ s.store.accounts, w.slot = m)
    (recent : ∀ w ∈ s.store.accounts, w.slot / 4 = accountSet token →
      s.store.grant.serviceDay ≤ w.account.day + 3) : slotForNew s token = none := by
  have noOld : (s.store.accounts.filter (fun w => w.slot / 4 == accountSet token)).filter
      (fun w => isOld s w.account) = [] := by
    refine List.filter_eq_nil_iff.mpr fun w hw => ?_
    simp only [List.mem_filter, beq_iff_eq] at hw
    have := recent w hw.1 hw.2
    simp only [isOld, decide_eq_true_eq]
    omega
  rw [slotForNew_full full, noOld]
  rfl

end Obtained

end Sys2Proof.Machine

section

open Sys2Proof Sys2Proof.Machine

/-- Settles O59: an account is created only under a new key and in its token's set, and a write keeps the key. -/
theorem accountsKept : Obligations.AccountsKept := accountsSound_kept

/-- Settles O54: the account held, the lowest free way, the oldest old record of a full set, or none. -/
theorem accountObtained : Obligations.AccountObtained := by
  refine ⟨fun token k hk => hk ▸ accountSet_eq token, fun s token day sound => ?_⟩
  rw [accountsSound_iff] at sound
  refine ⟨fun w hw sameToken sameDay => obtainAccount_held sound hw sameToken sameDay, fun new =>
    ⟨fun n inSet free lowest => ?_, fun full => ⟨fun v hv inSet old oldest => ?_, fun recent =>
      ⟨fun raised => ?_, fun quiet => ?_⟩⟩⟩⟩
  · refine ⟨_, obtainAccount_new new (slotForNew_free inSet free lowest), fun w => ?_, ?_⟩
    · rw [mem_putWay sound.ascending, or_comm]
      refine or_congr_left ⟨And.left, fun hw => ⟨hw, free w hw⟩⟩
    · rw [List.pairwise_map]
      exact putWay_ascending sound.ascending
  · refine ⟨_, obtainAccount_new new (slotForNew_oldest sound full hv inSet old oldest), fun w => ?_, ?_⟩
    · rw [mem_putWay sound.ascending, or_comm]
      rfl
    · rw [List.pairwise_map]
      exact putWay_ascending sound.ascending
  · rw [obtainAccount_untracked new (slotForNew_none full recent), noteUntracked, if_pos raised]
  · rw [obtainAccount_untracked new (slotForNew_none full recent), noteUntracked, if_neg quiet]
    rfl

end
end

