-- ==== Sys2Proof/Proofs/Transmitters.lean ====
section
/-! SUPPORT. The transmitters (R15, R164, R169, R172): what each sends is the frame at the head of its queue (O57). -/

namespace Sys2Proof.Machine

variable {s0 s t : State}

/-! ### The Line transmitter -/

/-- What the Line transmitter sends is under a link that is Up and, unless a RESTART dropped it, at the head of its queue (R15, R169). -/
def LineHead (s : State) : Prop :=
  ∀ f, s.linePort.sending = some f → s.linePort.link = .up
    ∧ (f.source = .verdict → s.verdictQueue.frames.head?.map (verdictWire s.nodeAddress) = some f.wire)
    ∧ (f.source = .forward → s.forwardQueue.head? = some f.wire)

/-- A Line transmitter that sends nothing could send nothing. -/
def LineIdle (s : State) : Prop :=
  s.linePort.sending = none → s.rstnLow = true ∨ s.linePort.link = .down
    ∨ s.verdictQueue.frames = [] ∧ s.forwardQueue = []

theorem lineSound_iff (s : State) : lineSound s = true ↔ LineHead s ∧ LineIdle s := by
  unfold lineSound LineHead LineIdle
  cases s.linePort.sending with
  | none => simp [List.isEmpty_iff, or_assoc]
  | some f => rcases f with ⟨_ | _ | _, wire⟩ <;> simp

/-- A frame chosen is the head of its queue, and none is left that could be chosen. -/
theorem transmitLine_sound (h : LineHead s) : lineSound (transmitLine s) = true := by
  rw [lineSound_iff]
  unfold transmitLine
  split
  next up free =>
    split
    next v rest hv => exact ⟨fun f hf => by cases hf; simp_all, fun none => by simp at none⟩
    next b rest hv hb => exact ⟨fun f hf => by cases hf; simp_all, fun none => by simp at none⟩
    next hv hb => exact ⟨h, fun _ => .inr (.inr ⟨hv, hb⟩)⟩
  next busy =>
    refine ⟨h, fun none => .inr (.inl ?_)⟩
    cases link : s.linePort.link
    · rfl
    · exact (busy link none).elim

theorem head?_append_some {α : Type} {l k : List α} {x : α} (h : l.head? = some x) :
    (l ++ k).head? = some x := by
  cases l with
  | nil => cases h
  | cons y rest => exact h

/-- The head of a queue stays while frames join its tail. -/
theorem LineHead.append (h : LineHead s) {t : State} (port : t.linePort = s.linePort)
    (node : t.nodeAddress = s.nodeAddress) {vs : List Verdict}
    (verdicts : t.verdictQueue.frames = s.verdictQueue.frames ++ vs) {bs : List (List Byte)}
    (forwards : t.forwardQueue = s.forwardQueue ++ bs) : LineHead t := by
  intro f hf
  rw [port] at hf ⊢
  obtain ⟨up, verdict, forward⟩ := h f hf
  refine ⟨up, fun source => ?_, fun source => ?_⟩
  · obtain ⟨v, hv, wire⟩ := Option.map_eq_some_iff.mp (verdict source)
    rw [verdicts, node, head?_append_some hv, Option.map_some, wire]
  · rw [forwards, head?_append_some (forward source)]

/-- A free transmitter sends nothing, whatever stands in the queues. -/
theorem lineHead_of_free (h : s.linePort.sending = none) : LineHead s := by
  intro f hf
  rw [h] at hf
  cases hf

theorem lineSound_emptyForward (h : lineSound s = true) : lineSound (emptyForward s) = true := by
  rw [lineSound_iff] at h ⊢
  obtain ⟨head, idle⟩ := h
  refine ⟨fun f hf => ?_, fun none => ?_⟩
  · obtain ⟨g, hg, rfl⟩ := Option.map_eq_some_iff.mp hf
    obtain ⟨up, verdict, _⟩ := head g hg
    refine ⟨up, ?_, ?_⟩ <;> split <;> simp_all
  · rcases idle (Option.map_eq_none_iff.mp none) with low | down | ⟨verdicts, _⟩
    · exact .inl low
    · exact .inr (.inl down)
    · exact .inr (.inr ⟨verdicts, rfl⟩)

theorem lineSound_move {k : Scope} (move : Move k s0 s t) (h : lineSound s = true) : lineSound t = true := by
  have head := ((lineSound_iff s).mp h).1
  cases move with
  | work _ work => rw [work.frame]; exact h
  | verdict v => exact transmitLine_sound (head.append rfl rfl rfl (List.append_nil _).symm)
  | forward bytes => exact transmitLine_sound (head.append rfl rfl (List.append_nil _).symm rfl)
  | raiseLine => exact transmitLine_sound fun f hf => ⟨rfl, (head f hf).2⟩
  | loseLine => simp [lineSound]
  | lineSent =>
    unfold lineSent
    split
    · exact transmitLine_sound (lineHead_of_free rfl)
    · exact h
  | emptyForward => exact lineSound_emptyForward h
  | _ => simpa [lineSound] using h

/-! ### The Office transmitter -/

/-- What the Office transmitter sends is the head of the Office Queue, under a link that is Up (R164). -/
def OfficeHead (s : State) : Prop :=
  ∀ w, s.officePort.sending = some w → s.officePort.link = .up
    ∧ s.officeQueue.frames.head?.map (officeWire s.nodeAddress) = some w

/-- An Office transmitter that sends nothing could send nothing. -/
def OfficeIdle (s : State) : Prop :=
  s.officePort.sending = none → s.rstnLow = true ∨ s.officePort.link = .down
    ∨ s.officePort.ready = false ∨ s.officeQueue.frames = []

theorem officeSound_iff (s : State) : officeSound s = true ↔ OfficeHead s ∧ OfficeIdle s := by
  unfold officeSound OfficeHead OfficeIdle
  cases s.officePort.sending with
  | none => simp [List.isEmpty_iff, or_assoc]
  | some w => simp

theorem transmitOffice_sound (h : OfficeHead s) : officeSound (transmitOffice s) = true := by
  rw [officeSound_iff]
  unfold transmitOffice
  split
  next f rest up ready free hf => exact ⟨fun w hw => by simp_all, fun none => by simp at none⟩
  next busy =>
    refine ⟨h, fun none => ?_⟩
    refine Classical.byContradiction fun waits => ?_
    simp only [not_or] at waits
    obtain ⟨_, notDown, notUnready, notEmpty⟩ := waits
    obtain ⟨f, rest, hf⟩ := List.exists_cons_of_ne_nil notEmpty
    refine busy f rest ?_ (by simpa using notUnready) none hf
    cases link : s.officePort.link
    · exact absurd link notDown
    · rfl

theorem OfficeHead.append (h : OfficeHead s) {t : State} (port : t.officePort = s.officePort)
    (node : t.nodeAddress = s.nodeAddress) {fs : List OfficeFrame}
    (frames : t.officeQueue.frames = s.officeQueue.frames ++ fs) : OfficeHead t := by
  intro w hw
  rw [port] at hw ⊢
  obtain ⟨up, head⟩ := h w hw
  obtain ⟨f, hf, wire⟩ := Option.map_eq_some_iff.mp head
  exact ⟨up, by rw [frames, node, head?_append_some hf, Option.map_some, wire]⟩

theorem officeSound_move {k : Scope} (move : Move k s0 s t) (h : officeSound s = true) : officeSound t = true := by
  have head := ((officeSound_iff s).mp h).1
  cases move with
  | work _ work => rw [work.frame]; exact h
  | frame f => exact transmitOffice_sound (head.append rfl rfl rfl)
  | ready b => exact transmitOffice_sound fun w hw => ⟨rfl, (head w hw).2⟩
  | loseOffice => simp [officeSound]
  | officeSent =>
    unfold officeSent
    split
    · exact transmitOffice_sound fun w hw => by cases hw
    · exact h
  | _ => simpa [officeSound] using h

end Sys2Proof.Machine

section

open Sys2Proof Sys2Proof.Machine

/-- Settles O57: a frame placed joins a queue behind its head, and every change that frees a transmitter or lets it send chooses anew. -/
theorem transmittersKept : Obligations.TransmittersKept := by
  refine kept_of_moves (fun _ _ h => h) (fun s _ => ⟨by simp [lineSound, dropRstn],
    by simp [officeSound, dropRstn]⟩) (fun _ _ => ⟨rfl, rfl⟩) fun _ s0 s t _ move h => ?_
  exact ⟨lineSound_move move h.1, officeSound_move move h.2⟩

end
end

