-- ==== Sys2Proof/Proofs/Counts.lean ====
section
/-! SUPPORT. The reference counts of the slots (R64, R67, R69, R142): each is the number of open journeys tagged with the slot, and the last closing of a Retiring slot's journeys frees it (O58). -/

namespace Sys2Proof.Machine

variable {k : Scope} {s0 s t : State}

/-! ### Journeys by tag -/

/-- The journeys of a list tagged with a slot. -/
def tagCount (x : SlotId) (l : List JourneyWay) : Nat :=
  (l.filter (fun w => w.journey.tag == x)).length

theorem tagged_eq (s : State) (x : SlotId) : tagged s x = tagCount x s.store.journeys := rfl

theorem tagCount_append (x : SlotId) (k l : List JourneyWay) :
    tagCount x (k ++ l) = tagCount x k + tagCount x l := by
  simp [tagCount]

theorem tagCount_cons (x : SlotId) (w : JourneyWay) (l : List JourneyWay) :
    tagCount x (w :: l) = (if w.journey.tag = x then 1 else 0) + tagCount x l := by
  by_cases h : w.journey.tag = x <;> simp [tagCount, h, Nat.add_comm]

/-- A way taken from a table whose slots are told apart takes one journey from its tag's count. -/
theorem tagCount_remove {l : List JourneyWay} {w : JourneyWay} (distinct : (l.map JourneyWay.slot).Nodup)
    (hw : w ∈ l) (x : SlotId) :
    tagCount x l
      = (if w.journey.tag = x then 1 else 0) + tagCount x (l.filter (fun v => v.slot != w.slot)) := by
  obtain ⟨before, after, rfl⟩ := List.append_of_mem hw
  have others : ∀ v ∈ before ++ after, (v.slot != w.slot) = true := by
    intro v hv
    have perm : (before ++ w :: after).Perm (w :: (before ++ after)) := List.perm_middle
    have := (perm.map JourneyWay.slot).nodup_iff.mp distinct
    simp only [List.map_cons, List.nodup_cons, List.mem_map, not_exists, not_and] at this
    simpa using this.1 v hv
  have left : (before ++ w :: after).filter (fun v => v.slot != w.slot) = before ++ after := by
    rw [List.filter_append, List.filter_cons_of_neg (by simp), ← List.filter_append]
    exact List.filter_eq_self.mpr others
  rw [left, tagCount_append, tagCount_append, tagCount_cons]
  omega

/-! ### The law, slot by slot -/

/-- A swap is due for a slot only while it waits for one (R141). -/
def SwapFor (s : State) (x : SlotId) : Prop :=
  s.tables.swapDue = some x → (slotOf s x).state = .validating ∨ (slotOf s x).state = .pending

theorem countsSound_iff (s : State) : CountsSound s ↔
    JourneysSound s ∧ ∀ x, SwapFor s x ∧ slotCounted s x := by
  constructor
  · rintro ⟨journeys, ⟨swapA, swapB⟩, a, b⟩
    refine ⟨journeys, fun x => ?_⟩
    cases x
    · exact ⟨swapA, a⟩
    · exact ⟨swapB, b⟩
  · rintro ⟨journeys, both⟩
    exact ⟨journeys, ⟨(both .a).1, (both .b).1⟩, (both .a).2, (both .b).2⟩

/-- A slot, its due swap and its journeys unchanged keep its part of the law. -/
theorem counted_of_same {x : SlotId} (h : SwapFor s x ∧ slotCounted s x) (slot : slotOf t x = slotOf s x)
    (due : t.tables.swapDue = some x → s.tables.swapDue = some x) (tags : tagged t x = tagged s x) :
    SwapFor t x ∧ slotCounted t x := by
  unfold SwapFor slotCounted
  rw [slot, tags]
  exact ⟨fun h' => h.1 (due h'), h.2⟩

theorem SlotCounted.idle {x : SlotId} (h : slotCounted s x) (notActive : (slotOf s x).state ≠ .active)
    (notRetiring : (slotOf s x).state ≠ .retiring) : tagged s x = 0 :=
  h.1 ▸ h.2.1 notActive notRetiring

/-- The law speaks of the journeys, the slots and the due swap only. -/
theorem countsSound_of_same (h : CountsSound s) (journeys : t.store.journeys = s.store.journeys)
    (slots : ∀ y, slotOf t y = slotOf s y) (due : t.tables.swapDue = s.tables.swapDue) :
    CountsSound t := by
  rw [countsSound_iff] at h ⊢
  obtain ⟨sound, both⟩ := h
  exact ⟨by simpa only [JourneysSound, journeys] using sound,
    fun y => counted_of_same (both y) (slots y) (by simp [due]) (by simp [tagged, journeys])⟩

/-! ### The journeys' law -/

theorem journeysSound_of_sublist {l : List JourneyWay} (h : JourneysSound s)
    (sub : l.Sublist s.store.journeys) (ht : t.store.journeys = l) : JourneysSound t := by
  obtain ⟨slots, tokens, inSet⟩ := h
  refine ⟨?_, ?_, ?_⟩ <;> rw [ht]
  · exact slots.sublist (sub.map _)
  · exact tokens.sublist (sub.map _)
  · exact fun w hw => inSet w (sub.subset hw)

theorem journeysSound_append {w : JourneyWay} (h : JourneysSound s) (fits : Admissible s w)
    (ht : t.store.journeys = s.store.journeys ++ [w]) : JourneysSound t := by
  obtain ⟨slots, tokens, inSet⟩ := h
  refine ⟨?_, ?_, ?_⟩ <;> rw [ht]
  · rw [List.map_append]
    exact nodup_concat slots (by simpa using fits.free)
  · rw [List.map_append]
    exact nodup_concat tokens (by simpa using fits.single)
  · intro v hv
    rcases List.mem_append.mp hv with hv | hv
    · exact inSet v hv
    · rw [List.mem_singleton.mp hv]
      exact fits.inSet

/-! ### Closings, admissions, swaps -/

/-- The slot a closing's count message leaves (R142). -/
theorem noteClosing_slot (x : SlotId) (s : State) : slotOf (noteClosing x s) x
    = (if (slotOf s x).state = .retiring ∧ (slotOf s x).refCount - 1 = 0 then Slot.freed
      else { slotOf s x with refCount := (slotOf s x).refCount - 1 }) := by
  unfold noteClosing
  dsimp only
  split <;> simp [slotOf]

theorem noteClosing_slot_ne {x y : SlotId} (h : y ≠ x) (s : State) :
    slotOf (noteClosing x s) y = slotOf s y := by
  unfold noteClosing
  dsimp only
  split <;> simp [slotOf, TableStore.slot_put_ne _ _ h]

/-- A journey leaves the table and its tag is told: the law of the counts holds again (R69, R142). -/
theorem noteClosing_counts {u : State} {w : JourneyWay} (h : CountsSound s) (hw : w ∈ s.store.journeys)
    (journeys : u.store.journeys = s.store.journeys.filter (fun v => v.slot != w.slot))
    (tables : u.tables = s.tables) : CountsSound (noteClosing w.journey.tag u) := by
  rw [countsSound_iff] at h ⊢
  obtain ⟨sound, both⟩ := h
  have slots (y : SlotId) : slotOf u y = slotOf s y := by rw [slotOf, slotOf, tables]
  have tags (y : SlotId) : tagged s y = (if w.journey.tag = y then 1 else 0)
      + tagged (noteClosing w.journey.tag u) y := by
    simp only [tagged_eq, noteClosing_frame, journeys]
    exact tagCount_remove sound.1 hw y
  refine ⟨journeysSound_of_sublist sound (l := s.store.journeys.filter (fun v => v.slot != w.slot))
    List.filter_sublist (by simp [journeys]), fun y => ?_⟩
  by_cases same : y = w.journey.tag
  · subst same
    obtain ⟨swap, count, idle, retiring⟩ := both w.journey.tag
    have tag := tags w.journey.tag
    rw [if_pos rfl] at tag
    unfold SwapFor slotCounted
    rw [noteClosing_slot, slots]
    split
    next last =>
      refine ⟨fun due => ?_, ?_, fun _ _ => rfl, fun free => by simp [Slot.freed] at free⟩
      · have := swap (by simpa [tables] using due)
        simp [last.1] at this
      · simp only [Slot.freed]
        omega
    next notLast =>
      refine ⟨fun due => swap (by simpa [tables] using due), ?_, fun a b => ?_, fun r => ?_⟩
      · dsimp only
        omega
      · have := idle a b
        dsimp only
        omega
      · exact fun zero => notLast ⟨r, zero⟩
  · refine counted_of_same (both y) ?_ (by simp [tables]) ?_
    · rw [noteClosing_slot_ne same, slots]
    · have := tags y
      rw [if_neg (fun h => same h.symm)] at this
      omega

theorem appendJourney_counts {w : JourneyWay} (h : CountsSound s) (fits : Admissible s w)
    (active : (slotOf s w.journey.tag).state = .active) : CountsSound (appendJourney w s) := by
  rw [countsSound_iff] at h ⊢
  obtain ⟨sound, both⟩ := h
  have tags (y : SlotId) : tagged (appendJourney w s) y
      = tagged s y + (if w.journey.tag = y then 1 else 0) := by
    simp only [tagged_eq, appendJourney_frame, tagCount_append, tagCount_cons]
    rfl
  refine ⟨journeysSound_append sound fits (by simp), fun y => ?_⟩
  by_cases same : y = w.journey.tag
  · subst same
    obtain ⟨swap, count, _, _⟩ := both w.journey.tag
    have slot : slotOf (appendJourney w s) w.journey.tag
        = { slotOf s w.journey.tag with refCount := (slotOf s w.journey.tag).refCount + 1 } := by
      simp [slotOf]
    unfold SwapFor slotCounted
    rw [slot, tags, if_pos rfl]
    refine ⟨fun due => swap (by simpa using due), by simp [count], fun notActive => ?_, fun r => ?_⟩
    · exact absurd active notActive
    · exact Nat.succ_ne_zero _
  · refine counted_of_same (both y) ?_ (by simp) ?_
    · simp [slotOf, TableStore.slot_put_ne _ _ same]
    · rw [tags, if_neg (fun h => same h.symm), Nat.add_zero]

@[simp] theorem makeSwap_swapDue (x : SlotId) (s : State) : (makeSwap x s).tables.swapDue = none := rfl

theorem settleSwap_counts (h : CountsSound s) : CountsSound (settleSwap s) := by
  unfold settleSwap
  split
  next x due =>
    split
    · exact h
    · rw [countsSound_iff] at h ⊢
      obtain ⟨sound, both⟩ := h
      have tags (y : SlotId) : tagged (makeSwap x s) y = tagged s y := by simp [tagged]
      have noSwap (y : SlotId) : SwapFor (makeSwap x s) y := fun due => by simp at due
      refine ⟨journeysSound_of_sublist sound (List.Sublist.refl _) (by simp), fun y => ⟨noSwap y, ?_⟩⟩
      by_cases same : y = x
      · subst same
        obtain ⟨_, count, _, _⟩ := both y
        unfold slotCounted
        rw [makeSwap_slot, tags]
        exact ⟨count, fun a => absurd rfl a, fun r => by simp at r⟩
      · replace same := SlotId.ne_iff.mp same
        subst same
        obtain ⟨_, count, idle, retiring⟩ := both x.other
        unfold slotCounted
        rw [makeSwap_other, tags]
        split
        · split
          next some => exact ⟨count, fun _ r => absurd rfl r, fun _ => Nat.ne_of_gt some⟩
          next none =>
            refine ⟨?_, fun _ _ => rfl, fun r => by simp [Slot.freed] at r⟩
            simp only [Slot.freed]
            omega
        · exact ⟨count, idle, retiring⟩
  next => exact h

theorem releaseStore_counts (h : CountsSound s) : CountsSound (releaseStore s) := by
  have vacated : CountsSound (onArbiter Arbiter.vacate s) := h
  have settled := settleSwap_counts vacated
  simpa only [CountsSound, JourneysSound, SwapSound, slotCounted, slotOf, tagged, releaseStore,
    arbitrate_frame] using settled

theorem changeSlot_counts {x : SlotId} {v : Slot} {due : Option SlotId} (h : CountsSound s)
    (change : SlotChange s x v due) : CountsSound (changeSlot x v due s) := by
  rw [countsSound_iff] at h ⊢
  obtain ⟨sound, both⟩ := h
  have here : slotOf (changeSlot x v due s) x = v := by cases x <;> rfl
  have there : slotOf (changeSlot x v due s) x.other = slotOf s x.other := by cases x <;> rfl
  have dueNow : (changeSlot x v due s).tables.swapDue = due := rfl
  refine ⟨sound, fun y => ?_⟩
  by_cases same : y = x
  · subst same
    obtain ⟨swap, count, idle, _⟩ := both y
    have none := idle change.before.1 change.before.2
    have zero : v.refCount = 0 := change.count.elim (fun h => h.trans none) id
    unfold SwapFor slotCounted
    rw [here, dueNow]
    refine ⟨fun isDue => ?_, ?_, fun _ _ => zero, fun r => absurd r change.after.2⟩
    · rcases change.due with noDue | ⟨_, waits⟩ | ⟨stands, waits⟩
      · simp [noDue] at isDue
      · exact waits
      · rcases waits isDue with ⟨notValidating, notPending⟩ | waits
        · rcases swap (stands ▸ isDue) with h | h
          · exact absurd h notValidating
          · exact absurd h notPending
        · exact waits
    · exact zero.trans (none.symm.trans count)
  · replace same := SlotId.ne_iff.mp same
    subst same
    refine counted_of_same (both x.other) there (fun isDue => ?_) rfl
    rw [dueNow] at isDue
    rcases change.due with noDue | ⟨dueX, _⟩ | ⟨stands, _⟩
    · simp [noDue] at isDue
    · rw [dueX] at isDue
      exact absurd (Option.some.inj isDue).symm (SlotId.other_ne x)
    · exact stands ▸ isDue

/-! ### The law is kept (O58) -/

theorem countsSound_move (sound0 : JourneysSound s0) (move : Move k s0 s t) (h : CountsSound s) :
    CountsSound t := by
  cases move with
  | work _ work =>
    cases work with
    | close w _ hw => exact noteClosing_counts h hw (by simp) (by simp)
    | giveWay w _ hw => exact noteClosing_counts h hw (by simp) (by simp)
    | join w _ active fits => exact appendJourney_counts h (fits sound0) active
    | _ => exact countsSound_of_same h (by simp) (fun y => by simp [slotOf]) (by simp)
  | settle => exact settleSwap_counts h
  | release => exact releaseStore_counts h
  | slot x v due _ _ change => exact changeSlot_counts h change
  | denyList => exact countsSound_of_same h rfl (fun _ => rfl) rfl
  | _ => exact countsSound_of_same h (by simp) (fun y => by simp [slotOf]) (by simp)

theorem countsSound_reset (straps : BitVec 4) (s : State) : CountsSound (resetWith straps s) := by
  simp [CountsSound, JourneysSound, SwapSound, slotCounted, slotOf, tagged, resetWith, State.reset,
    JourneyStore.reset, TableStore.reset, TableStore.slot, Slot.freed]

theorem countsSound_kept : Kept CountsSound :=
  kept_of_moves (fun _ _ h => h) (fun _ h => h) countsSound_reset
    fun _ _ _ _ h0 move h => countsSound_move h0.1 move h

end Sys2Proof.Machine
end

