-- ==== Sys2Proof/Proofs/GenerationFreed.lean ====
section
/-! SUPPORT. The last closing of a Retiring slot frees it with its event (R142, O58). -/

namespace Sys2Proof.Machine

variable {k : Scope} {s0 s t : State}

/-! ### The last closing of a Retiring slot's journeys (R142) -/

/-- Generation Freed waits in the list of events with a slot and a label. -/
def FreedRaised (x : SlotId) (label : Nat) (l : List PendingEvent) : Prop :=
  ∃ e ∈ l, e.kind = .generationFreed ∧ e.data = .generation x label

/-- An event of another kind raised leaves Generation Freed with its data (R165). -/
theorem freedRaised_raiseIn {x : SlotId} {label : Nat} {l : List PendingEvent} {kind : EventKind}
    (other : kind ≠ .generationFreed) (d : EventData) (sec ms : Nat) (h : FreedRaised x label l) :
    FreedRaised x label (raiseIn kind d sec ms l) := by
  induction l with
  | nil => obtain ⟨e, he, _⟩ := h; cases he
  | cons y rest ih =>
    obtain ⟨e, he, freed, data⟩ := h
    unfold raiseIn
    split
    next same =>
      rcases List.mem_cons.mp he with rfl | he
      · exact absurd (same ▸ freed) other
      · exact ⟨e, List.mem_cons_of_mem _ he, freed, data⟩
    next =>
      rcases List.mem_cons.mp he with rfl | he
      · exact ⟨e, List.mem_cons_self, freed, data⟩
      · obtain ⟨e', he', h'⟩ := ih ⟨e, he, freed, data⟩
        exact ⟨e', List.mem_cons_of_mem _ he', h'⟩

/-- Generation Freed raised stands in the list with its data (R165). -/
theorem freedRaised_raise (x : SlotId) (label : Nat) (sec ms : Nat) (l : List PendingEvent) :
    FreedRaised x label (raiseIn .generationFreed (.generation x label) sec ms l) := by
  induction l with
  | nil => exact ⟨_, List.mem_singleton_self _, rfl, rfl⟩
  | cons y rest ih =>
    unfold raiseIn
    split
    · exact ⟨_, List.mem_cons_self, rfl, rfl⟩
    · obtain ⟨e, he, h⟩ := ih
      exact ⟨e, List.mem_cons_of_mem _ he, h⟩

theorem freedRaised_compareMarks {x : SlotId} {label : Nat} (h : FreedRaised x label s.mgmt.events) :
    FreedRaised x label (compareMarks s).mgmt.events := by
  unfold compareMarks
  dsimp only
  split
  · split
    · exact freedRaised_raiseIn (by decide) _ _ _ h
    · exact h
  · split
    · exact freedRaised_raiseIn (by decide) _ _ _ h
    · exact h

theorem freedRaised_obtain {x : SlotId} {label : Nat} (token : Token) (day : Nat)
    (h : FreedRaised x label s.mgmt.events) :
    FreedRaised x label (obtainAccount token day s).1.mgmt.events := by
  unfold obtainAccount noteUntracked
  split
  · exact h
  · split
    · exact h
    · dsimp only
      split
      · exact h
      · exact freedRaised_raiseIn (by decide) _ _ _ h

/-- On the way of a command that closes journeys, a slot that was Retiring with a label is so still, or it is Free, emptied, and its event raised; the other slot is not Retiring. -/
structure RetiresOrFreed (x : SlotId) (label : Option Nat) (s : State) : Prop where
  other : (slotOf s x.other).state ≠ .retiring
  slot : (slotOf s x).state = .retiring ∧ (slotOf s x).label = label
    ∨ slotOf s x = Slot.freed ∧ FreedRaised x (label.getD 0) s.mgmt.events

section Retires
variable {x : SlotId} {label : Option Nat}

/-- A state with the same slots whose events keep Generation Freed. -/
theorem RetiresOrFreed.of_slots (h : RetiresOrFreed x label s) (slots : ∀ y, slotOf t y = slotOf s y)
    (events : ∀ n, FreedRaised x n s.mgmt.events → FreedRaised x n t.mgmt.events) :
    RetiresOrFreed x label t := by
  obtain ⟨other, slot⟩ := h
  exact ⟨by rw [slots]; exact other, by rw [slots]; exact slot.imp_right (And.imp_right (events _))⟩

theorem RetiresOrFreed.not_active (h : RetiresOrFreed x label s) :
    (slotOf s x).state ≠ .active := by
  rcases h.slot with ⟨retiring, _⟩ | ⟨freed, _⟩
  · simp [retiring]
  · simp [freed, Slot.freed]

theorem RetiresOrFreed.not_due (h : RetiresOrFreed x label s) (sound : CountsSound s) :
    s.tables.swapDue ≠ some x := by
  intro due
  have swap := (((countsSound_iff s).mp sound).2 x).1 due
  rcases h.slot with ⟨retiring, _⟩ | ⟨freed, _⟩
  · simp [retiring] at swap
  · simp [freed, Slot.freed] at swap

/-- A closing told to its tag frees the slot with its event when it was the last (R142). -/
theorem RetiresOrFreed.closing (h : RetiresOrFreed x label s) (y : SlotId) :
    RetiresOrFreed x label (noteClosing y s) := by
  obtain ⟨other, slot⟩ := h
  by_cases same : y = x
  · subst same
    refine ⟨by rw [noteClosing_slot_ne (SlotId.other_ne y)]; exact other, ?_⟩
    rw [noteClosing_slot]
    rcases slot with ⟨retiring, labelled⟩ | ⟨freed, raised⟩
    · split
      next last =>
        have freeing : noteClosing y s = freeWithEvent y s := if_pos last
        refine .inr ⟨rfl, ?_⟩
        rw [freeing, ← labelled]
        exact freedRaised_raise _ _ _ _ _
      next => exact .inl ⟨retiring, labelled⟩
    · have stays : noteClosing y s = putSlot y { slotOf s y with
          refCount := (slotOf s y).refCount - 1 } s := if_neg (by simp [freed, Slot.freed])
      refine .inr ⟨by simp [freed, Slot.freed], ?_⟩
      rw [stays]
      exact raised
  · have isOther : y = x.other := SlotId.ne_iff.mp same
    have stays : noteClosing y s = putSlot y { slotOf s y with
        refCount := (slotOf s y).refCount - 1 } s := if_neg (by simp [isOther, other])
    have here : slotOf (noteClosing y s) x = slotOf s x := noteClosing_slot_ne (fun h => same h.symm) s
    refine ⟨?_, ?_⟩
    · rw [stays, isOther]
      simpa [slotOf] using other
    · rw [here]
      refine slot.imp_right (And.imp_right fun raised => ?_)
      rw [stays]
      exact raised

/-- An admission bears an Active tag, so it counts in the other slot (R69). -/
theorem RetiresOrFreed.join (h : RetiresOrFreed x label s) {w : JourneyWay}
    (active : (slotOf s w.journey.tag).state = .active) : RetiresOrFreed x label (appendJourney w s) := by
  have isOther : w.journey.tag = x.other :=
    SlotId.ne_iff.mp fun same => h.not_active (same ▸ active)
  obtain ⟨other, slot⟩ := h
  have here : slotOf (appendJourney w s) x = slotOf s x := by
    simp [slotOf, isOther, TableStore.slot_put_ne _ _ (SlotId.other_ne x).symm]
  refine ⟨by simpa [slotOf, isOther] using other, ?_⟩
  rw [here]
  refine slot.imp_right (And.imp_right fun raised => ?_)
  exact freedRaised_compareMarks (s := { s with store := { s.store with
    journeys := s.store.journeys ++ [w] } }) raised

/-- A due swap is the other slot's: it leaves this one as it is (R141). -/
theorem RetiresOrFreed.swap (h : RetiresOrFreed x label s) (sound : CountsSound s) :
    RetiresOrFreed x label (settleSwap s) := by
  unfold settleSwap
  split
  next y due =>
    split
    · exact h
    · have isOther : y = x.other := SlotId.ne_iff.mp fun same => h.not_due sound (same ▸ due)
      subst isOther
      have back : x.other.other = x := by cases x <;> rfl
      have ne : x ≠ x.other := (SlotId.other_ne x).symm
      have here : slotOf (makeSwap x.other s) x = slotOf s x := by
        have := makeSwap_other x.other s
        rwa [back, if_neg h.not_active] at this
      refine ⟨by rw [makeSwap_slot]; simp, ?_⟩
      rw [here]
      refine h.slot.imp_right (And.imp_right fun raised => ?_)
      have idle : (slotOf (raise .generationActive (.generation x.other
          (((slotOf s x.other).label).getD 0))
          (putSlot x.other { slotOf s x.other with state := .active, effective := none } s)) x).state
          ≠ .active := by
        simpa [slotOf, TableStore.slot_put_ne _ _ ne] using h.not_active
      have events : (makeSwap x.other s).mgmt.events = raiseIn .generationActive
          (.generation x.other ((slotOf s x.other).label.getD 0)) s.clock.sec s.clock.ms s.mgmt.events := by
        simp only [makeSwap, back, retireSlot, if_neg idle]
        rfl
      rw [events]
      exact freedRaised_raiseIn (by decide) _ _ _ raised
  next => exact h

theorem RetiresOrFreed.move (h : RetiresOrFreed x label s) (sound : CountsSound s)
    (hc : k.closes = true) (move : Move k s0 s t) : RetiresOrFreed x label t := by
  cases move with
  | work _ work =>
    cases work with
    | obtain token day => exact h.of_slots (fun y => by simp [slotOf]) fun n => freedRaised_obtain token day
    | write | reference => exact h.of_slots (fun y => by simp [slotOf]) fun n raised => by simpa using raised
    | close w =>
      have removed : RetiresOrFreed x label (compareMarks (removeJourney w.slot s)) :=
        h.of_slots (fun y => by simp [slotOf])
          fun _ raised => freedRaised_compareMarks (s := removeJourney w.slot s) raised
      exact removed.closing w.journey.tag
    | giveWay w =>
      have removed : RetiresOrFreed x label (removeJourney w.slot s) :=
        h.of_slots (fun y => rfl) fun _ raised => raised
      exact removed.closing w.journey.tag
    | join w _ active => exact h.join active
  | settle => exact h.swap sound
  | release =>
    have vacated : RetiresOrFreed x label (onArbiter Arbiter.vacate s) := h.of_slots (fun _ => rfl) fun _ => id
    exact (vacated.swap sound).of_slots (fun y => by simp [slotOf, releaseStore])
      fun n raised => by simpa [releaseStore] using raised
  | slot _ _ _ _ none => simp [hc] at none
  | events _ _ none => simp [hc] at none
  | raise kind d _ other =>
    exact h.of_slots (fun _ => rfl) fun n raised => freedRaised_raiseIn other _ _ _ raised
  | marks => exact h.of_slots (fun _ => by simp [slotOf]) fun n raised => freedRaised_compareMarks raised
  | denyList => exact h.of_slots (fun _ => rfl) fun _ => id
  | _ => exact h.of_slots (fun _ => by simp [slotOf]) fun n raised => by simpa using raised

end Retires

/-- A command that closes no journey leaves the Journey Table. -/
theorem Move.journeys (hc : k.closes = false) (move : Move k s0 s t) :
    t.store.journeys = s.store.journeys := by
  cases move with
  | work some => simp [hc] at some
  | release => simp [releaseStore]
  | _ => simp

/-- A step that is not the pins' and leaves a Retiring slot no journey frees it and raises the event (R142). -/
theorem lastClosing_freed {x : SlotId} (sound : CountsSound s)
    (retiring : (slotOf s x).state = .retiring) (other : (slotOf s x.other).state ≠ .retiring)
    (noReset : ∀ straps, s.pending.head? ≠ some (.pinReset straps)) (stepped : step s = .next t)
    (none : tagged t x = 0) :
    slotOf t x = Slot.freed ∧ FreedRaised x (((slotOf s x).label).getD 0) t.mgmt.events := by
  have some : tagged s x ≠ 0 := by
    obtain ⟨_, count, _, retires⟩ := ((countsSound_iff s).mp sound).2 x
    exact count ▸ retires retiring
  have same_absurd (h : t.store.journeys = s.store.journeys) : False :=
    some (by rw [← none, tagged, tagged, h])
  unfold step at stepped
  split at stepped
  next c rest queued =>
    rw [exec_eq] at stepped
    injection stepped with ht
    split at ht
    · exact (same_absurd (by rw [← ht])).elim
    next =>
      cases noPin : isPin c with
      | true =>
        cases c <;> simp [isPin] at noPin
        · exact (same_absurd (by rw [← ht]; rfl)).elim
        · exact absurd (by rw [queued]; rfl) (noReset _)
      | false =>
        have run := moves_effect noPin { s with pending := rest }
        rw [ht] at run
        cases closes : (scope c).closes with
        | false =>
          exact (same_absurd (run.keeps (p := fun u => u.store.journeys = s.store.journeys)
            (fun _ _ move h => (move.journeys closes).trans h) rfl)).elim
        | true =>
          have sound' : CountsSound { s with pending := rest } := sound
          have ends := run.keeps (p := fun u => CountsSound u ∧ RetiresOrFreed x (slotOf s x).label u)
            (fun _ _ move h => ⟨countsSound_move sound'.1 move h.1, h.2.move h.1 closes move⟩)
            ⟨sound', other, .inl ⟨retiring, rfl⟩⟩
          obtain ⟨soundEnd, _, slot⟩ := ends
          rcases slot with ⟨still, _⟩ | freed
          · obtain ⟨_, count, _, retires⟩ := ((countsSound_iff t).mp soundEnd).2 x
            exact absurd (count.trans none) (retires still)
          · exact freed
  next =>
    injection stepped with ht
    exact (same_absurd (by rw [← ht])).elim

/-- The six groups of a token's bits, by division. -/
theorem journeySet_eq (token : Token) (k : Nat) (hk : k = token.toNat) : journeySet token
    = k % 2 ^ 12 ^^^ k / 2 ^ 12 % 2 ^ 12 ^^^ k / 2 ^ 24 % 2 ^ 12 ^^^ k / 2 ^ 36 % 2 ^ 12
      ^^^ k / 2 ^ 48 % 2 ^ 12 ^^^ k / 2 ^ 60 := by
  subst hk
  have last : token.toNat / 2 ^ 60 % 2 ^ 4 % 2 ^ 12 = token.toNat / 2 ^ 60 := by
    have := token.isLt
    omega
  simp only [journeySet, BitVec.toNat_xor, BitVec.extractLsb'_toNat, BitVec.toNat_setWidth,
    Nat.shiftRight_eq_div_pow, last, Nat.pow_zero, Nat.div_one]

end Sys2Proof.Machine

section
open Sys2Proof Sys2Proof.Machine

/-- Settles O58: every move keeps the counts, and along a command that closes journeys a Retiring slot stays so until its count ends, when it is freed with its event. -/
theorem referenceCountsKept : Obligations.ReferenceCountsKept :=
  ⟨journeySet_eq, countsSound_kept, fun _ _ _ sound retiring other noReset stepped none =>
    lastClosing_freed sound retiring other noReset stepped none⟩

end
end

