-- ==== Sys2Proof/Proofs/VerdictPlaces.lean ====
section
/-! SUPPORT. The verdict places (R2, R4): each command that accepts, takes or answers taps keeps one place reserved for each accepted tap not yet answered (O55). -/

namespace Sys2Proof.Machine

variable {k : Scope} {s0 s t : State}

/-! ### The places of the taps in hand -/

/-- One for an unanswered tap with the Reckoner. -/
def reckonerOwed (s : State) : Nat := (s.reckoner.map (fun t => t.entry.owed)).getD 0

/-- One for each unanswered tap of a list. -/
def owedBy (l : List TapEntry) : Nat := (l.map TapEntry.owed).sum

/-- The bounds of the two queues, and a place reserved for each unanswered tap of `l` and for `n` more (R2, R4). -/
structure Places (l : List TapEntry) (n : Nat) (s : State) : Prop where
  room : s.verdictQueue.frames.length + s.verdictQueue.reserved ≤ 128
  reserved : s.verdictQueue.reserved = owedBy l + n
  length : l.length ≤ 64

theorem tapPathSound_iff (s : State) : TapPathSound s ↔ Places s.tapQueue (reckonerOwed s) s :=
  ⟨fun ⟨room, reserved, length⟩ => ⟨room, reserved, length⟩,
    fun ⟨room, reserved, length⟩ => ⟨room, reserved, length⟩⟩

theorem Places.of_queue {l : List TapEntry} {n : Nat} (h : Places l n s)
    (queue : t.verdictQueue = s.verdictQueue) : Places l n t := by
  obtain ⟨room, reserved, length⟩ := h
  exact ⟨by rw [queue]; exact room, by rw [queue]; exact reserved, length⟩

theorem Places.sound {l : List TapEntry} {n : Nat} (h : Places l n s) (taps : t.tapQueue = l)
    (owed : reckonerOwed t = n) (queue : t.verdictQueue = s.verdictQueue) : TapPathSound t := by
  rw [tapPathSound_iff, taps, owed]
  exact h.of_queue queue

theorem owedBy_cons (e : TapEntry) (l : List TapEntry) : owedBy (e :: l) = e.owed + owedBy l := rfl

/-- A command that does not touch the taps leaves the law of the places (R2). -/
theorem tapPathSound_move (ha : k.answers = false) (move : Move k s0 s t) (h : TapPathSound s) :
    TapPathSound t := by
  cases move with
  | verdict _ _ some | reserve _ _ some | taps _ _ _ some => simp [ha] at some
  | work _ work => rw [work.frame]; exact h
  | lineSent =>
    obtain ⟨room, reserved, length⟩ := h
    refine ⟨?_, ?_, by simpa using length⟩
    · unfold lineSent leaveLineQueue
      split
      · split <;> simp_all [unanswered]
        omega
      · assumption
    · unfold lineSent leaveLineQueue
      split
      · split <;> simp_all [unanswered]
      · assumption
  | _ => simpa [TapPathSound, unanswered] using h

theorem tapPathSound_moves (ha : k.answers = false) (run : Moves k s0 s t) (h : TapPathSound s) :
    TapPathSound t :=
  run.keeps (fun _ _ move => tapPathSound_move ha move) h

/-! ### Answers (R6, R7) -/

/-- A verdict takes its tap's reserved place (R2). -/
theorem Places.filled {l : List TapEntry} {n : Nat} (h : Places l (n + 1) s) (v : Verdict) :
    Places l n (fillReserved v s) := by
  obtain ⟨room, reserved, length⟩ := h
  refine ⟨?_, ?_, length⟩ <;> simp <;> omega

/-- An answer gives up the place of a tap that has one (R6). -/
theorem Places.answered {l : List TapEntry} {n : Nat} {e : TapEntry} (h : Places l (e.owed + n) s)
    (clamped : Bool) (a : Answer) : Places l n (answerTap e clamped a s) := by
  unfold answerTap
  unfold TapEntry.owed at h
  split at h
  next late => simpa [late] using h
  next unanswered =>
    rw [if_neg unanswered]
    exact Places.filled (by rwa [Nat.add_comm]) _

/-- A transaction that ends gives up its tap's place (R7). -/
theorem tapPathSound_endTransaction {e : TapEntry} {c d : Bool} {h : Handled}
    (places : Places h.st.tapQueue e.owed h.st) : TapPathSound (endTransaction e c d h) := by
  rw [tapPathSound_iff]
  have answered : Places h.st.tapQueue 0 (answerTap e c h.answer h.st) := places.answered c h.answer
  have queue : (endTransaction e c d h).tapQueue = h.st.tapQueue := by simp
  have idle : reckonerOwed (endTransaction e c d h) = 0 := by simp [reckonerOwed]
  rw [queue, idle]
  exact answered.of_queue (by simp [endTransaction])

theorem TapEntry.owed_of_expired {e : TapEntry} (h : e.expired = true) : e.owed = 1 := by
  simp_all [TapEntry.expired, TapEntry.owed]

/-- The Fallback "late" of an unanswered tap takes its place (R6). -/
theorem Places.late {l : List TapEntry} {n : Nat} (h : Places l (n + 1) s) (e : TapEntry) :
    Places l n (lateVerdict e s) :=
  (h.filled _).of_queue rfl

theorem tapPathSound_expireReckoner (h : TapPathSound s) : TapPathSound (expireReckoner s) := by
  unfold expireReckoner
  split
  next tr held =>
    split
    next expired =>
      have owed : reckonerOwed s = 1 := by simp [reckonerOwed, held, TapEntry.owed_of_expired expired]
      have places := (tapPathSound_iff s).mp h
      rw [owed] at places
      have late := (places.of_queue (t := { s with
        reckoner := some { tr with entry := { tr.entry with answeredLate := true } } })
        rfl).late (n := 0) tr.entry
      rw [tapPathSound_iff]
      simpa [lateVerdict, reckonerOwed, TapEntry.owed] using late
    next => exact h
  next => exact h

theorem owedBy_late {l : List TapEntry} {i : Nat} {e : TapEntry} (held : l[i]? = some e)
    (expired : e.expired = true) : owedBy l = owedBy (l.set i { e with answeredLate := true }) + 1 := by
  obtain ⟨inside, he⟩ := List.getElem?_eq_some_iff.mp held
  have split : l = l.take i ++ e :: l.drop (i + 1) := by
    rw [← he, List.getElem_cons_drop, List.take_append_drop]
  rw [List.set_eq_take_append_cons_drop, if_pos inside]
  generalize l.take i = before at split
  generalize l.drop (i + 1) = after at split
  have one := TapEntry.owed_of_expired expired
  have zero : ({ e with answeredLate := true } : TapEntry).owed = 0 := rfl
  simp only [split, owedBy, List.map_append, List.map_cons, List.sum_append, List.sum_cons, one, zero]
  omega

theorem tapPathSound_expireQueued (i : Nat) (h : TapPathSound s) : TapPathSound (expireQueued i s) := by
  unfold expireQueued
  split
  next e held =>
    split
    next expired =>
      obtain ⟨room, reserved, length⟩ := (tapPathSound_iff s).mp h
      rw [owedBy_late held expired] at reserved
      have places : Places (s.tapQueue.set i { e with answeredLate := true }) (reckonerOwed s + 1)
          { s with tapQueue := s.tapQueue.set i { e with answeredLate := true } } :=
        ⟨room, by simp only [reserved]; omega, by simpa using length⟩
      rw [tapPathSound_iff]
      simpa [lateVerdict, reckonerOwed] using places.late e
    next => exact h
  next => exact h

/-! ### RESTART's flush (R18) -/

theorem places_flushTap {l : List TapEntry} {n : Nat} {e : TapEntry} (h : Places (e :: l) n s) :
    Places l n (flushTap s e) := by
  obtain ⟨room, reserved, length⟩ := h
  rw [owedBy_cons] at reserved
  have shorter : l.length ≤ 64 := Nat.le_of_succ_le length
  unfold flushTap
  unfold TapEntry.owed at reserved
  split
  next late =>
    rw [if_pos late, Nat.zero_add] at reserved
    exact ⟨room, reserved, shorter⟩
  next unanswered =>
    rw [if_neg unanswered] at reserved
    have places : Places l (n + 1) s := ⟨room, by omega, shorter⟩
    exact (places.filled _).of_queue rfl

theorem places_flush {l : List TapEntry} {n : Nat} (h : Places l n s) :
    Places [] n (l.foldl flushTap s) := by
  induction l generalizing s with
  | nil => exact h
  | cons e rest ih => exact ih (places_flushTap h)

theorem flush_reckoner (l : List TapEntry) (s : State) : (l.foldl flushTap s).reckoner = s.reckoner := by
  induction l generalizing s with
  | nil => rfl
  | cons e rest ih =>
    rw [List.foldl_cons, ih]
    unfold flushTap
    split <;> simp

theorem tapPathSound_flushTaps (h : TapPathSound s) : TapPathSound (flushTaps s) := by
  rw [tapPathSound_iff] at h ⊢
  have owed : reckonerOwed (flushTaps s) = reckonerOwed s := by
    simp [reckonerOwed, flushTaps, flush_reckoner]
  rw [owed]
  exact (places_flush h).of_queue rfl

theorem tapPathSound_restartNow (h : TapPathSound s) : TapPathSound (restartNow s) := by
  have flushed : TapPathSound (flushTaps (setService .halted (advanceTaken .underway s))) :=
    tapPathSound_flushTaps (by simpa [TapPathSound, unanswered] using h)
  refine tapPathSound_moves (k := ⟨false, false, true, false⟩)
    (s0 := flushTaps (setService .halted (advanceTaken .underway s))) rfl ?_ flushed
  have silent := Run.tail
    (.single (Move.emptyForward (k := ⟨false, false, true, false⟩)
      (s0 := flushTaps (setService .halted (advanceTaken .underway s)))
      (flushTaps (setService .halted (advanceTaken .underway s)))))
    (.events [] _ rfl (List.nil_sublist _))
  exact (((silent.trans (moves_restartSweep rfl _)).trans (moves_restartSlots rfl _)).tail
    (.drain _ _ rfl)).trans (moves_abortOperation rfl _)

/-! ### Arrivals and takings (R3, R8) -/

/-- A tap taken from the head of the Tap Queue is with the Reckoner, or answered (R8). -/
theorem tapPathSound_takeHead {e : TapEntry} {rest : List TapEntry} (idle : s.reckoner = none)
    (head : s.tapQueue = e :: rest) (h : TapPathSound s) : TapPathSound (takeHead e rest s) := by
  obtain ⟨room, reserved, length⟩ := (tapPathSound_iff s).mp h
  have none : reckonerOwed s = 0 := by simp [reckonerOwed, idle]
  rw [head, none, owedBy_cons] at reserved
  rw [head] at length
  have taken : Places rest e.owed (setAside 3 { settleSwap s with tapQueue := rest }) :=
    Places.of_queue (s := s) ⟨room, by omega, Nat.le_of_succ_le length⟩ (by simp [setAside])
  unfold takeHead
  dsimp only
  split
  · exact tapPathSound_endTransaction taken
  · exact taken.sound (by simp [setAside]) (by simp [reckonerOwed]) (by simp)

theorem tapPathSound_takeTap (h : TapPathSound s) : TapPathSound (takeTap s) := by
  unfold takeTap
  split
  next e rest idle head =>
    split
    · exact tapPathSound_takeHead idle head h
    · exact h
  next => exact h

theorem tapPathSound_reckonerWork (h : TapPathSound s) : TapPathSound (reckonerWork s) := by
  unfold reckonerWork
  split
  next tr held =>
    split
    · have places := (tapPathSound_iff s).mp h
      have owed : reckonerOwed s = tr.entry.owed := by simp [reckonerOwed, held]
      rw [owed] at places
      refine tapPathSound_move (k := ⟨false, false, true, false⟩) (s0 := s) rfl (.release _ rfl)
        (takeTaps_keeps (p := TapPathSound) (fun _ => tapPathSound_takeTap) ?_)
      split
      next x active =>
        have work := (handleTap_works tr active).frame
        refine tapPathSound_endTransaction ?_
        rw [work]
        exact places.of_queue rfl
      next => exact tapPathSound_endTransaction places
    · exact h
  next => exact h

/-- An accepted tap finds a free place (R2, R3). -/
theorem tapPathSound_dealTap (tap : Tap) (free : 1 ≤ verdictFree s) (h : TapPathSound s) :
    TapPathSound (dealTap tap s) := by
  obtain ⟨room, reserved, length⟩ := h
  simp only [verdictFree, Config.verdictPlaces] at free
  have answered (v : Verdict) : TapPathSound (placeVerdict v s) := by
    refine ⟨?_, by simpa [unanswered] using reserved, by simpa using length⟩
    simp
    omega
  unfold dealTap
  split
  · unfold tapHalted
    dsimp only
    split
    next room =>
      exact tapPathSound_moves (k := ⟨false, false, false, false⟩) (s0 := s) rfl
        (moves_placeRecord _ _ (.inr room)) (answered _)
    next => exact answered _
  split
  · exact answered _
  next notFull =>
    simp only [Config.tapQueueSize] at notFull
    unfold tapQueued
    refine ⟨?_, ?_, ?_⟩
    · simp [reservePlace]
      omega
    · simp [reservePlace, unanswered, reserved, TapEntry.owed]
      omega
    · simp
      omega

theorem tapPathSound_lineFrame (bytes : List Byte) (h : TapPathSound s) :
    TapPathSound (lineFrame bytes s) := by
  have raised : TapPathSound (raiseLineLink s) := by simpa [TapPathSound, unanswered] using h
  unfold lineFrame
  dsimp only
  split
  · unfold sortLineFrame
    split
    · split
      · unfold acceptTap
        split
        next free => exact tapPathSound_dealTap _ free raised
        next => exact raised
      · exact raised
    · unfold forwardToOffice
      split
      · simpa [TapPathSound, unanswered] using raised
      · exact raised
  · exact raised

/-- A tick leaves every tap answered or not (R5). -/
theorem tapPathSound_tick (h : TapPathSound s) : TapPathSound (tick s) := by
  have owed (n : Nat) (e : TapEntry) : (countDown n e).owed = e.owed := by
    unfold countDown
    split <;> simp [TapEntry.owed]
  have counted (n : Nat) : TapPathSound (countDownAll n { s with clock := tickClock s.clock }) := by
    have sums : (TapEntry.owed ∘ countDown n) = TapEntry.owed := funext (owed n)
    simpa [TapPathSound, unanswered, sums, Function.comp_def, owed] using h
  unfold tick
  dsimp only
  split
  · exact counted _
  · exact tapPathSound_moves (k := ⟨false, false, false, false⟩) (s0 := s) rfl
      ((moves_reckonDay _).trans (moves_fireActivation rfl _)) (counted _)

/-! ### The law is kept (O55) -/

theorem tapPathSound_effect {c : Instr} (noPin : isPin c = false) (h : TapPathSound s) :
    TapPathSound (effect c s) := by
  cases answers : (scope c).answers with
  | false => exact tapPathSound_moves answers (moves_effect noPin s) h
  | true =>
    cases c
    case lineFrameReceived => exact tapPathSound_lineFrame _ h
    case answerDeadlineExpiry place =>
      cases place with
      | queued i => exact tapPathSound_expireQueued i h
      | reckoner => exact tapPathSound_expireReckoner h
    case rawTick => exact tapPathSound_tick h
    case reckonerTakeTap => exact tapPathSound_takeTap h
    case reckonerGrant => exact tapPathSound_reckonerWork h
    case restart =>
      change TapPathSound (requestEffect .restart s)
      unfold requestEffect
      split
      next r taken =>
        split
        next row =>
          have isRestart : r.request = .restart := by
            cases hr : r.request <;> simp [requestRow, hr] at row ⊢
          rw [isRestart]
          change TapPathSound
            (if restartHeld s then answerTaken (Reply.refused .restartInProgress) s else restartNow s)
          split
          · simpa [TapPathSound, unanswered] using h
          · exact tapPathSound_restartNow h
        next => exact h
      next => exact h
    all_goals exact absurd answers Bool.false_ne_true

end Sys2Proof.Machine

section
open Sys2Proof Sys2Proof.Machine

/-- Settles O55: command by command, what it does to the taps and to the places reserved for them. -/
theorem verdictPlacesKept : Obligations.VerdictPlacesKept :=
  kept_of_effects (fun _ _ h => h) (fun _ h => h)
    (fun straps s => by simp [TapPathSound, unanswered, resetWith, State.reset])
    fun _ _ noPin _ h => tapPathSound_effect noPin h

end
end

