-- ==== Sys2Proof/Proofs/RequestBooks.lean ====
section
/-! SUPPORT. The books of the Office Queue's set-aside entries and of the requests for the Journey Store (R60, R162, R174, R176): the arbiter's part, the moves that leave them, and each command that writes in them (O56). -/

namespace Sys2Proof.Machine

variable {k : Scope} {s0 s t : State} {a : Arbiter}

/-! ### Requests at the arbiter (R60, R61, R63) -/

/-- A requester holds the store or waits for it. -/
def Asks (a : Arbiter) (r : Requester) : Prop := a.holder = some r ∨ a.waiting r = true

/-- No requester waits while it holds the store. -/
def Once (a : Arbiter) : Prop := ∀ r, ¬ (a.holder = some r ∧ a.waiting r = true)

theorem Once.not_waiting (once : Once a) {r : Requester} (holds : a.holder = some r) :
    ¬ a.waiting r = true := fun waits => once r ⟨holds, waits⟩

theorem asks_iff_waiting {r : Requester} (other : a.holder ≠ some r) :
    Asks a r ↔ a.waiting r = true := or_iff_right other

theorem asks_request (a : Arbiter) (r q : Requester) : Asks (a.request r) q ↔ q = r ∨ Asks a q := by
  cases h : a.holder with
  | none =>
    cases r <;> cases q <;>
      simp [Asks, Arbiter.request, h, Arbiter.grant, Arbiter.mark, Arbiter.passOver, Arbiter.waiting]
  | some x =>
    cases r <;> cases q <;> simp [Asks, Arbiter.request, h, Arbiter.mark, Arbiter.waiting]

theorem once_request {r : Requester} (once : Once a) (new : ¬ Asks a r) : Once (a.request r) := by
  intro q
  have held := once q
  cases h : a.holder with
  | none =>
    cases r <;> cases q <;>
      simp [Arbiter.request, h, Arbiter.grant, Arbiter.mark, Arbiter.passOver, Arbiter.waiting]
  | some x =>
    cases r <;> cases q <;>
      simp_all [Asks, Arbiter.request, Arbiter.mark, Arbiter.waiting]

/-- A request of the holder itself waits for its next turn (R61). -/
theorem request_of_held {x : Requester} (h : a.holder = some x) (r : Requester) :
    a.request r = a.mark true r := by simp [Arbiter.request, h]

theorem waiting_mark (a : Arbiter) (b : Bool) (r q : Requester) :
    (a.mark b r).waiting q = if q = r then b else a.waiting q := by
  cases r <;> cases q <;> rfl

@[simp] theorem holder_mark (a : Arbiter) (b : Bool) (r : Requester) :
    (a.mark b r).holder = a.holder := by cases r <;> rfl

theorem waiting_of_choose {spillMode : Bool} {r : Requester} (h : a.choose spillMode = some r) :
    a.waiting r = true := by
  unfold Arbiter.choose at h
  (repeat' split at h) <;> simp_all [Arbiter.waiting] <;> subst h <;> simp_all

theorem waiting_grant (a : Arbiter) (r q : Requester) :
    (a.grant r).waiting q = if q = r then false else a.waiting q := by
  cases r <;> cases q <;> rfl

/-- After a release every request that waited waits still or has been granted (R61, R62). -/
theorem asks_release (spillMode : Bool) (a : Arbiter) (q : Requester) :
    Asks (a.release spillMode) q ↔ a.waiting q = true := by
  unfold Arbiter.release
  dsimp only
  split
  next r chosen =>
    have waits : a.waiting r = true := waiting_of_choose chosen
    by_cases same : q = r
    · subst same
      simp [Asks, Arbiter.grant, waits]
    · have : ¬ r = q := fun h => same h.symm
      simp only [Asks, waiting_grant, if_neg same]
      simp [Arbiter.grant, this]
      rfl
  next => simp [Asks]; rfl

theorem once_release (spillMode : Bool) (a : Arbiter) : Once (a.release spillMode) := by
  intro q
  unfold Arbiter.release
  dsimp only
  split
  next r _ =>
    rintro ⟨holds, waits⟩
    have same : r = q := by simpa [Arbiter.grant] using holds
    simp [waiting_grant, same] at waits
  next => simp

/-- A request that waits is withdrawn (R63). -/
theorem asks_withdraw {r : Requester} (other : a.holder ≠ some r) (q : Requester) :
    Asks (a.withdraw r) q ↔ q ≠ r ∧ Asks a q := by
  unfold Arbiter.withdraw
  split
  · simp only [Asks, holder_mark, waiting_mark]
    split
    next same => subst same; simp [other]
    next => simp [*]
  next quiet =>
    refine ⟨fun asks => ⟨fun same => ?_, asks⟩, And.right⟩
    subst same
    exact asks.elim other quiet

theorem once_withdraw (once : Once a) (r : Requester) : Once (a.withdraw r) := by
  unfold Arbiter.withdraw
  split
  · rintro q ⟨holds, waits⟩
    rw [waiting_mark] at waits
    split at waits
    · cases waits
    · exact once q ⟨by simpa using holds, waits⟩
  · exact once

/-! ### The books -/

/-- The Office Queue keeps its 2,048 entries and has `m` of them set aside (R162). -/
structure Entries (m : Nat) (s : State) : Prop where
  bound : s.officeQueue.frames.length + s.officeQueue.setAside ≤ 2048
  aside : s.officeQueue.setAside = m

/-- Entries that held requests have set aside (R162). -/
def asideOf (l : List HeldRequest) : Nat := (l.map HeldRequest.aside).sum

/-- Operations presented to the store (R60). -/
def presentedOf (l : List HeldRequest) : Nat := (l.filter (fun r => r.phase == .presented)).length

/-- A RESTART is underway (R176). -/
def restarting (l : List HeldRequest) : Prop :=
  l.any (fun r => r.phase == .underway && r.request.isRestart) = true

/-- The law of the request slots and the drain (R60, R174, R176). -/
structure RequestLaw (l : List HeldRequest) (d : Drain) : Prop where
  two : l.length ≤ 2
  one : presentedOf l + (if d.presented then 1 else 0) ≤ 1
  drain : d.presented = true → d.inProgress = true
  restart : d.inProgress = true → restarting l

theorem officeSound_law_iff (s : State) :
    OfficeSound s ↔ Entries (asideHeld s) s ∧ RequestLaw s.mgmt.requests s.mgmt.drain :=
  ⟨fun ⟨bound, aside, two, one, drain, restart⟩ => ⟨⟨bound, aside⟩, ⟨two, one, drain, restart⟩⟩,
    fun ⟨⟨bound, aside⟩, ⟨two, one, drain, restart⟩⟩ => ⟨bound, aside, two, one, drain, restart⟩⟩

/-- The books: the Office Queue's law, and each requester's request while its work is outstanding (R60, R162). -/
structure Ledger (s : State) : Prop where
  office : OfficeSound s
  reckoner : s.reckoner.isSome = true ↔ Asks s.store.arbiter .reckoner
  management : 1 ≤ outstanding s ↔ Asks s.store.arbiter .management
  once : Once s.store.arbiter

theorem ledger_iff (s : State) : Ledger s ↔ OfficeSound s ∧ RequestersSound s := by
  constructor
  · rintro ⟨office, reckoner, management, once⟩
    exact ⟨office, reckoner, management, once .reckoner, once .management, once .sweep⟩
  · rintro ⟨office, reckoner, management, r, m, w⟩
    exact ⟨office, reckoner, management, fun q => by cases q <;> assumption⟩

theorem asideHeld_eq (s : State) : asideHeld s = (if s.reckoner.isSome then 3 else 0)
    + asideOf s.mgmt.requests + (if s.mgmt.drain.presented then 1 else 0) := rfl

theorem outstanding_eq (s : State) : outstanding s
    = presentedOf s.mgmt.requests + (if s.mgmt.drain.presented then 1 else 0) := rfl

/-! ### What leaves the books -/

theorem KeepsBooks.refl (l : List HeldRequest) : KeepsBooks l l := ⟨id, rfl, rfl, id⟩

theorem KeepsBooks.trans {l m n : List HeldRequest} (h : KeepsBooks l m) (h' : KeepsBooks m n) :
    KeepsBooks l n :=
  ⟨h'.length ∘ h.length, h'.aside.trans h.aside, h'.presented.trans h.presented, h'.restart ∘ h.restart⟩

/-- A change that neither sets aside nor asks: the queue stays within its bound, and nothing in the books changes. -/
structure KeepsLedger (s t : State) : Prop where
  bound : s.officeQueue.frames.length + s.officeQueue.setAside ≤ 2048 →
    t.officeQueue.frames.length + t.officeQueue.setAside ≤ 2048
  aside : t.officeQueue.setAside = s.officeQueue.setAside
  requests : KeepsBooks s.mgmt.requests t.mgmt.requests
  drain : t.mgmt.drain = s.mgmt.drain
  reckoner : t.reckoner.isSome = s.reckoner.isSome
  arbiter : t.store.arbiter = s.store.arbiter

theorem KeepsLedger.refl (s : State) : KeepsLedger s s := ⟨id, rfl, .refl _, rfl, rfl, rfl⟩

theorem KeepsLedger.trans {u : State} (h : KeepsLedger s t) (h' : KeepsLedger t u) : KeepsLedger s u :=
  ⟨h'.bound ∘ h.bound, h'.aside.trans h.aside, h.requests.trans h'.requests, h'.drain.trans h.drain,
    h'.reckoner.trans h.reckoner, h'.arbiter.trans h.arbiter⟩

/-- The same blocks are the same books. -/
theorem keepsLedger_of_eq (queue : t.officeQueue = s.officeQueue)
    (requests : t.mgmt.requests = s.mgmt.requests) (drain : t.mgmt.drain = s.mgmt.drain)
    (reckoner : t.reckoner = s.reckoner) (arbiter : t.store.arbiter = s.store.arbiter) :
    KeepsLedger s t :=
  ⟨by rw [queue]; exact id, by rw [queue], requests ▸ .refl _, drain, by rw [reckoner], arbiter⟩

theorem KeepsLedger.entries (h : KeepsLedger s t) {m : Nat} (entries : Entries m s) : Entries m t :=
  ⟨h.bound entries.bound, h.aside.trans entries.aside⟩

theorem KeepsLedger.asideHeld (h : KeepsLedger s t) : asideHeld t = asideHeld s := by
  simp only [asideHeld_eq, asideOf, h.requests.aside, h.drain, h.reckoner]

theorem KeepsLedger.outstanding (h : KeepsLedger s t) : outstanding t = outstanding s := by
  simp only [outstanding_eq, presentedOf, h.requests.presented, h.drain]

theorem KeepsLedger.law (h : KeepsLedger s t) (law : RequestLaw s.mgmt.requests s.mgmt.drain) :
    RequestLaw t.mgmt.requests t.mgmt.drain := by
  obtain ⟨two, one, drain, restart⟩ := law
  rw [h.drain]
  refine ⟨h.requests.length two, ?_, drain, fun running => h.requests.restart (restart running)⟩
  simpa only [presentedOf, h.requests.presented] using one

theorem KeepsLedger.office (h : KeepsLedger s t) (office : OfficeSound s) : OfficeSound t := by
  rw [officeSound_law_iff] at office ⊢
  exact ⟨h.asideHeld ▸ h.entries office.1, h.law office.2⟩

theorem KeepsLedger.ledger (h : KeepsLedger s t) (ledger : Ledger s) : Ledger t where
  office := h.office ledger.office
  reckoner := by rw [h.reckoner, h.arbiter]; exact ledger.reckoner
  management := by rw [h.outstanding, h.arbiter]; exact ledger.management
  once := h.arbiter ▸ ledger.once

/-- A swap answers an ACTIVATE underway (R141). -/
theorem keepsLedger_settleSwap (s : State) : KeepsLedger s (settleSwap s) := by
  refine ⟨by simp, by simp, ?_, by simp, by simp, by simp⟩
  unfold settleSwap
  split
  · split
    · exact .refl _
    · have answered := keepsBooks_modifyFirst (l := s.mgmt.requests)
        (test := fun r => r.phase == .underway && r.request.isActivate)
        (p := .replyDue (.done (.activated true)))
        (fun r hr => by
          simp only [Bool.and_eq_true, beq_iff_eq] at hr
          simp [HeldRequest.offBooks, hr.1, isRestart_of_isActivate _ hr.2]) (by simp)
      simpa [makeSwap] using answered
  · exact .refl _

/-- A frame placed in a free entry (R162). -/
theorem keepsLedger_placeFrame (f : OfficeFrame) (room : 1 ≤ officeFree s) :
    KeepsLedger s (placeFrame f s) := by
  refine ⟨fun _ => ?_, by simp, by simpa using .refl _, by simp, by simp, by simp⟩
  simp only [officeFree, Config.officeQueueSize] at room
  simp
  omega

theorem keepsLedger_officeSent (s : State) : KeepsLedger s (officeSent s) := by
  refine ⟨?_, ?_, by simpa using .refl _, by simp, by simp, by simp⟩ <;> unfold officeSent
  · split <;> simp
    omega
  · split <;> simp

/-- A command that does not write in the books leaves them. -/
theorem keepsLedger_move (hb : k.books = false) (move : Move k s0 s t) : KeepsLedger s t := by
  cases move with
  | work _ work => rw [work.frame]; exact keepsLedger_of_eq rfl rfl rfl rfl rfl
  | frame f _ room => exact keepsLedger_placeFrame f (room.resolve_left (by simp [hb]))
  | aside _ _ some | request _ _ some | release _ some | withdraw _ _ some | drain _ _ some =>
    simp [hb] at some
  | taps l r _ _ same =>
    exact ⟨id, rfl, .refl _, rfl, same.resolve_left (by simp [hb]), rfl⟩
  | requests f _ _ keeps =>
    exact ⟨id, rfl, keeps.resolve_left (by simp [hb]), rfl, rfl, rfl⟩
  | sequence => exact ⟨id, rfl, .refl _, rfl, rfl, rfl⟩
  | settle => exact keepsLedger_settleSwap s
  | officeSent => exact keepsLedger_officeSent s
  | _ => exact keepsLedger_of_eq (by simp) (by simp) (by simp) (by simp) (by simp)

theorem keepsLedger_moves (hb : k.books = false) (run : Moves k s0 s t) : KeepsLedger s t :=
  run.keeps (p := KeepsLedger s) (fun _ _ move h => h.trans (keepsLedger_move hb move)) (.refl s)

end Sys2Proof.Machine
end

