-- ==== Sys2Proof/Proofs/BookWriters.lean ====
section
/-! SUPPORT. The commands that set entries of the Office Queue aside or ask for the Journey Store, and those that undo these, keep the books (R60, R162; O56). -/

namespace Sys2Proof.Machine

variable {k : Scope} {s0 s t : State}

/-! ### Entries set aside and returned (R162) -/

theorem Entries.turnedOver {m : Nat} (h : Entries (m + 1) s) (r : Record) :
    Entries m (placeRecordAside r s) := by
  obtain ⟨bound, aside⟩ := h
  refine ⟨?_, ?_⟩ <;> simp <;> omega

theorem Entries.returned {m n : Nat} (h : Entries (m + n) s) : Entries m (returnAside n s) := by
  obtain ⟨bound, aside⟩ := h
  refine ⟨?_, ?_⟩ <;> simp <;> omega

theorem Entries.taken {m n : Nat} (h : Entries m s) (room : n ≤ officeFree s) :
    Entries (m + n) (setAside n s) := by
  obtain ⟨bound, aside⟩ := h
  simp only [officeFree, Config.officeQueueSize] at room
  refine ⟨?_, ?_⟩ <;> simp [setAside] <;> omega

theorem Entries.placed {m : Nat} (h : Entries m s) (f : OfficeFrame) (room : 1 ≤ officeFree s) :
    Entries m (placeFrame f s) := (keepsLedger_placeFrame f room).entries h

/-- An entry returned is free for the frame placed next (R162). -/
theorem Entries.replied {m : Nat} (h : Entries (m + 1) s) (f : OfficeFrame) :
    Entries m (placeFrame f (returnAside 1 s)) := by
  obtain ⟨bound, aside⟩ := h
  refine ⟨?_, ?_⟩ <;> simp <;> omega

theorem Entries.of_queue {m : Nat} (h : Entries m s) (queue : t.officeQueue = s.officeQueue) :
    Entries m t := ⟨queue ▸ h.bound, queue ▸ h.aside⟩

/-! ### Requests of a list -/

theorem asideOf_split (before after : List HeldRequest) (r : HeldRequest) :
    asideOf (before ++ r :: after) = r.aside + asideOf (before ++ after) := by
  simp [asideOf]
  omega

theorem presentedOf_split (before after : List HeldRequest) (r : HeldRequest) :
    presentedOf (before ++ r :: after)
      = (if r.phase = .presented then 1 else 0) + presentedOf (before ++ after) := by
  by_cases h : r.phase = .presented <;> simp [presentedOf, h]
  omega

theorem restarting_split {before after : List HeldRequest} {r : HeldRequest}
    (other : ¬ (r.phase = .underway ∧ r.request.isRestart = true)) :
    restarting (before ++ r :: after) ↔ restarting (before ++ after) := by
  simp only [restarting, List.any_append, List.any_cons, Bool.or_eq_true, Bool.and_eq_true,
    beq_iff_eq, or_iff_right other]

theorem asideHeld_add {n : Nat} (reckoner : t.reckoner.isSome = s.reckoner.isSome)
    (drain : t.mgmt.drain.presented = s.mgmt.drain.presented)
    (requests : asideOf t.mgmt.requests = asideOf s.mgmt.requests + n) :
    asideHeld t = asideHeld s + n := by
  rw [asideHeld_eq, asideHeld_eq, reckoner, drain, requests]
  omega

theorem outstanding_add {n : Nat} (drain : t.mgmt.drain.presented = s.mgmt.drain.presented)
    (requests : presentedOf t.mgmt.requests = presentedOf s.mgmt.requests + n) :
    outstanding t = outstanding s + n := by
  rw [outstanding_eq, outstanding_eq, drain, requests]
  omega

/-- A found request with those before it and after it. -/
theorem find?_parts {l : List HeldRequest} {test : HeldRequest → Bool} {r : HeldRequest}
    (found : l.find? test = some r) : ∃ before after, l = before ++ r :: after ∧ test r = true
      ∧ ∀ q ∈ before, test q = false := by
  obtain ⟨hr, before, after, split, none⟩ := List.find?_eq_some_iff_append.mp found
  exact ⟨before, after, split, hr, fun q hq => by simpa using none q hq⟩

/-! ### Operations presented to the store (R60, R163) -/

theorem outstanding_of_not {s : State} (h : managementOutstanding s = false) : outstanding s = 0 := by
  simp only [managementOutstanding, Bool.or_eq_false_iff, List.any_eq_false, beq_iff_eq] at h
  simp [outstanding, h.1, List.filter_eq_nil_iff]
  exact h.2

theorem Ledger.presentNext (h : Ledger s) : Ledger (presentNext s) := by
  unfold Machine.presentNext
  split
  · exact h
  next idle =>
    have none := outstanding_of_not (Bool.not_eq_true _ ▸ idle)
    split
    next r found =>
      split
      next ready =>
        obtain ⟨before, after, split, _, others⟩ := find?_parts found
        have changed : modifyFirst (fun r => r.phase == .ready) (fun r => { r with phase := .presented })
            s.mgmt.requests = before ++ { r with phase := .presented } :: after := by
          rw [split]
          refine modifyFirst_split (fun q hq => ?_) (by simp [ready])
          have := others q hq
          simp_all [HeldRequest.isWaitingOperation]
        obtain ⟨office, reckoner, management, once⟩ := h
        obtain ⟨entries, two, one, drain, restart⟩ := (officeSound_law_iff s).mp office
        have quiet : ¬ Asks s.store.arbiter .management := by rw [← management]; omega
        have aside : ({ r with phase := .presented } : HeldRequest).aside = r.aside := by
          simp [HeldRequest.aside, ready]
        rw [asideHeld_eq, split, asideOf_split] at entries
        rw [outstanding_eq, split, presentedOf_split, if_neg (by simp [ready])] at none
        rw [split] at two restart
        have now : outstanding (requestStore .management (onRequests (modifyFirst
            (fun r => r.phase == .ready) (fun r => { r with phase := .presented })) s)) = 1 := by
          simp [outstanding_eq, onRequests, changed, presentedOf_split]
          omega
        refine ⟨(officeSound_law_iff _).mpr ⟨?_, ?_⟩, ?_, ?_, ?_⟩
        · simp only [asideHeld_eq, requestStore_frame, onRequests, changed, asideOf_split, aside]
          exact entries.of_queue (by simp)
        · simp only [requestStore_frame, onRequests, changed]
          refine ⟨by simpa using two, ?_, drain, fun running => ?_⟩
          · rw [presentedOf_split]
            simp only [if_true]
            omega
          · rw [restarting_split (by simp)]
            rw [restarting_split (by simp [ready])] at restart
            exact restart running
        · simp [asks_request, reckoner, onRequests]
        · rw [now]
          simp [asks_request]
        · simpa [onRequests] using once_request once quiet
      next => exact h
    next => exact h

theorem ledger_setAsideOperation (i : Nat) (h : Ledger s) : Ledger (setAsideOperation i s) := by
  unfold setAsideOperation
  split
  next r held =>
    split
    next ready =>
      refine Ledger.presentNext ?_
      obtain ⟨waiting, room⟩ := ready
      obtain ⟨inside, hr⟩ := List.getElem?_eq_some_iff.mp held
      have split : s.mgmt.requests = s.mgmt.requests.take i ++ r :: s.mgmt.requests.drop (i + 1) := by
        rw [← hr, List.getElem_cons_drop, List.take_append_drop]
      have changed (q : HeldRequest) : s.mgmt.requests.set i q
          = s.mgmt.requests.take i ++ q :: s.mgmt.requests.drop (i + 1) := by
        rw [List.set_eq_take_append_cons_drop, if_pos inside]
      generalize s.mgmt.requests.take i = before at split changed
      generalize s.mgmt.requests.drop (i + 1) = after at split changed
      obtain ⟨office, reckoner, management, once⟩ := h
      obtain ⟨entries, two, one, drain, restart⟩ := (officeSound_law_iff s).mp office
      have none : r.aside = 0 := by simp [HeldRequest.aside, waiting]
      have some : ({ r with phase := .ready } : HeldRequest).aside = entriesNeeded r.request := by
        simp [HeldRequest.aside]
      rw [split] at two restart one
      rw [presentedOf_split, if_neg (by simp [waiting])] at one
      rw [restarting_split (by simp [waiting])] at restart
      have now : (setAside (entriesNeeded r.request)
          (onRequests (fun l => l.set i { r with phase := .ready }) s)).mgmt.requests
          = before ++ { r with phase := .ready } :: after := changed _
      have total : asideHeld (setAside (entriesNeeded r.request)
          (onRequests (fun l => l.set i { r with phase := .ready }) s))
          = asideHeld s + entriesNeeded r.request := by
        refine asideHeld_add rfl rfl ?_
        rw [now, split, asideOf_split, asideOf_split, none, some]
        omega
      have same : outstanding (setAside (entriesNeeded r.request)
          (onRequests (fun l => l.set i { r with phase := .ready }) s)) = outstanding s := by
        refine outstanding_add (n := 0) rfl ?_
        rw [now, split, presentedOf_split, presentedOf_split, if_neg (by simp), if_neg (by simp [waiting]),
          Nat.add_zero]
      refine ⟨(officeSound_law_iff _).mpr ⟨?_, ?_⟩, reckoner, ?_, once⟩
      · rw [total]
        exact Entries.taken (entries.of_queue rfl) room
      · rw [now]
        refine ⟨by simpa using two, ?_, drain, fun running => ?_⟩
        · rw [presentedOf_split, if_neg (by simp)]
          exact one
        · rw [restarting_split (by simp)]
          exact restart running
      · rw [same]
        exact management
    next => exact h
  next => exact h

/-! ### The release of the store (R60, R61) -/

/-- The holder of the store releases it: who waits then is served or waits still. -/
theorem ledger_releaseStore (office : OfficeSound s)
    (reckoner : s.reckoner.isSome = true ↔ s.store.arbiter.waiting .reckoner = true)
    (management : 1 ≤ outstanding s ↔ s.store.arbiter.waiting .management = true) :
    Ledger (releaseStore s) := by
  have swapped := keepsLedger_settleSwap (onArbiter Arbiter.vacate s)
  have arbiter : ∃ spill, (releaseStore s).store.arbiter = s.store.arbiter.vacate.release spill :=
    ⟨_, by simp [releaseStore]; rfl⟩
  have same : KeepsLedger s { releaseStore s with store := s.store } := by
    refine ⟨by simp, by simp, ?_, by simp, by simp, rfl⟩
    simpa [releaseStore] using swapped.requests
  have requests : outstanding (releaseStore s) = outstanding s := same.outstanding
  obtain ⟨spill, arbiter⟩ := arbiter
  refine ⟨same.office office, ?_, ?_, ?_⟩ <;> rw [arbiter]
  · simp only [releaseStore_frame, asks_release]
    exact reckoner
  · rw [requests, asks_release]
    exact management
  · exact once_release _ _

/-- What a granted operation leaves once its entries are used and its reply is placed (R60, R83). -/
theorem ledger_endOperation {u : State} {r : HeldRequest} (h : Ledger s)
    (granted : grantedOperation s = some r)
    (entries : ∃ m, Entries m u ∧ asideHeld s = m + entriesNeeded r.request)
    (requests : u.mgmt.requests = s.mgmt.requests) (drain : u.mgmt.drain = s.mgmt.drain)
    (reckoner : u.reckoner = s.reckoner) (arbiter : u.store.arbiter = s.store.arbiter) :
    Ledger (endOperation u) := by
  unfold grantedOperation at granted
  split at granted
  next conditions =>
    obtain ⟨holds, noStep⟩ := conditions
    obtain ⟨before, after, split, phase, others⟩ := find?_parts granted
    have presented : r.phase = .presented := by simpa using phase
    have erased : u.mgmt.requests.eraseP (fun r => r.phase == .presented) = before ++ after := by
      rw [requests, split]
      exact eraseP_split others phase
    obtain ⟨m, entries, total⟩ := entries
    obtain ⟨office, asksReckoner, _, once⟩ := h
    obtain ⟨_, two, one, inProgress, restart⟩ := (officeSound_law_iff s).mp office
    have used : r.aside = entriesNeeded r.request := by simp [HeldRequest.aside, presented]
    rw [asideHeld_eq, split, asideOf_split, used, noStep] at total
    rw [split] at two restart one
    rw [presentedOf_split, if_pos presented, noStep] at one
    rw [restarting_split (by simp [presented])] at restart
    have none : presentedOf (before ++ after) = 0 := by omega
    refine Ledger.presentNext (ledger_releaseStore ((officeSound_law_iff _).mpr ⟨?_, ?_⟩) ?_ ?_)
    · have held : asideHeld (onRequests (fun l => l.eraseP (fun r => r.phase == .presented)) u) = m := by
        simp only [asideHeld_eq, onRequests, erased, drain, reckoner, noStep]
        simp only [Bool.false_eq_true, if_false] at total ⊢
        omega
      rw [held]
      exact entries.of_queue rfl
    · simp only [onRequests, erased, drain]
      refine ⟨?_, by simp [none, noStep], inProgress, restart⟩
      simp only [List.length_append, List.length_cons] at two ⊢
      omega
    · simp only [onRequests, reckoner, arbiter]
      rw [asksReckoner, asks_iff_waiting]
      rw [show s.store.arbiter.holder = some .management from holds]
      decide
    · have quiet : ¬ s.store.arbiter.waiting .management = true := once.not_waiting holds
      simp [outstanding_eq, onRequests, erased, drain, noStep, none, arbiter, quiet]
  next => cases granted

/-! ### The grants of the journey operations (R81, R82, R100) -/

/-- An operation's reply, with its unused entries returned. -/
theorem ledger_replyAndEnd {u : State} {r : HeldRequest} {unused m : Nat} (h : Ledger s)
    (granted : grantedOperation s = some r) (keeps : u.mgmt.requests = s.mgmt.requests
      ∧ u.mgmt.drain = s.mgmt.drain ∧ u.reckoner = s.reckoner ∧ u.store.arbiter = s.store.arbiter)
    (entries : Entries (m + unused + 1) u) (total : asideHeld s = m + entriesNeeded r.request)
    (v : Reply) : Ledger (replyAndEnd r v unused u) := by
  obtain ⟨requests, drain, reckoner, arbiter⟩ := keeps
  have used : Entries m (returnAside unused (placeReply r v (returnAside 1 u))) :=
    (entries.replied _).returned
  refine ledger_endOperation h granted ⟨m, used, total⟩ ?_ ?_ ?_ ?_ <;> simpa [placeReply]

/-- A presented operation's entries are among those set aside (R162). -/
theorem asideHeld_granted {r : HeldRequest} (granted : grantedOperation s = some r) :
    ∃ m, asideHeld s = m + entriesNeeded r.request := by
  unfold grantedOperation at granted
  split at granted
  · obtain ⟨before, after, split, phase, _⟩ := find?_parts granted
    have used : r.aside = entriesNeeded r.request := by
      have presented : r.phase = .presented := by simpa using phase
      simp [HeldRequest.aside, presented]
    rw [asideHeld_eq, split, asideOf_split, used]
    exact ⟨(if s.reckoner.isSome then 3 else 0) + asideOf (before ++ after)
      + (if s.mgmt.drain.presented then 1 else 0), by omega⟩
  · cases granted

theorem ledger_closeGranted {r : HeldRequest} {token : Token} {x time : Option Nat} (h : Ledger s)
    (granted : grantedOperation s = some r) (close : r.request = .journeyClose token x time)
    (t : Token) (exitStation exitTime : Option Nat) :
    Ledger (closeGranted r t exitStation exitTime s) := by
  obtain ⟨m, total⟩ := asideHeld_granted granted
  have entries := ((officeSound_law_iff s).mp h.office).1
  have needed : entriesNeeded r.request = 2 := by rw [close]; rfl
  rw [total, needed] at entries
  have refused (reason : ReplyReason) : Ledger (forcedRefused r reason s) :=
    ledger_replyAndEnd (m := m) h granted ⟨rfl, rfl, rfl, rfl⟩ entries total _
  have done {w : JourneyWay} {c : Closed} (works : StoreWorks s s c.st) : Ledger (forcedDone r w c) := by
    have same := works.frame
    have placed : Entries (m + 0 + 1) (placeRecordAside c.record c.st) :=
      Entries.turnedOver (by rw [same]; exact entries.of_queue rfl) _
    refine ledger_replyAndEnd (m := m) (unused := 0) h granted ?_ placed total _
    rw [same]
    simp [State.storeAs]
  unfold closeGranted
  split
  · exact refused _
  next w found =>
    have held := (findJourney_mem found).1
    split
    · unfold forceCompleted
      dsimp only
      split
      · exact refused _
      split
      · exact refused _
      split
      next s1 slot p priced =>
        have hs1 : s1 = (obtainAccount w.journey.token (journeyDay s w.journey) s).1 := by
          rw [priceJourney_state priced]
        subst hs1
        exact done (.trans (.single (.obtain _ _ s)) (closeCompleted_works _ _ _ _ (by simpa using held)))
      · exact refused _
    · exact done (closeIncomplete_works _ held)

theorem ledger_grantEffect (c : Instr) (h : Ledger s) : Ledger (grantEffect c s) := by
  unfold grantEffect
  split
  next r granted =>
    obtain ⟨m, total⟩ := asideHeld_granted granted
    have entries := ((officeSound_law_iff s).mp h.office).1
    have replied (one : entriesNeeded r.request = 1) (v : Reply) : Ledger (replyAndEnd r v 0 s) :=
      ledger_replyAndEnd (m := m) h granted ⟨rfl, rfl, rfl, rfl⟩ (by rwa [total, one] at entries) total v
    split
    next query => exact replied (by rw [query]; rfl) _
    next close => exact ledger_closeGranted h granted close _ _ _
    next query => exact replied (by rw [query]; rfl) _
    next => exact h
  next => exact h

/-! ### The drain (R83) -/

theorem ledger_drainSetAside (h : Ledger s) : Ledger (drainSetAside s) := by
  unfold drainSetAside
  split
  next conditions =>
    obtain ⟨inProgress, idle, room⟩ := conditions
    have none := outstanding_of_not idle
    obtain ⟨office, reckoner, management, once⟩ := h
    obtain ⟨entries, two, one, drain, restart⟩ := (officeSound_law_iff s).mp office
    have quiet : ¬ Asks s.store.arbiter .management := by rw [← management]; omega
    have noStep : s.mgmt.drain.presented = false := (Bool.or_eq_false_iff.mp idle).1
    rw [outstanding_eq, noStep] at none
    have empty : presentedOf s.mgmt.requests = 0 := by omega
    refine ⟨(officeSound_law_iff _).mpr ⟨?_, ?_⟩, ?_, ?_, ?_⟩
    · have total : asideHeld (requestStore .management
          (onDrain (fun d => { d with presented := true }) (setAside 1 s))) = asideHeld s + 1 := by
        simp [asideHeld_eq, onDrain, setAside, noStep]
      rw [total]
      exact (entries.taken room).of_queue (by simp [onDrain])
    · simp only [requestStore_frame, onDrain, setAside]
      exact ⟨two, by simp [empty], fun _ => inProgress, restart⟩
    · simp [asks_request, reckoner, onDrain, setAside]
    · simp [outstanding_eq, asks_request, onDrain, setAside]
    · simpa [onDrain, setAside] using once_request once quiet
  next => exact h

/-- A drain step ended, with its entry used or returned (R83). -/
theorem ledger_drainStepped {u : State} (h : Ledger s) (holds : holder s = some .management)
    (step : s.mgmt.drain.presented = true) (entries : ∀ m, Entries (m + 1) s → Entries m u)
    (requests : u.mgmt.requests = s.mgmt.requests) (ended : u.mgmt.drain.presented = false)
    (reckoner : u.reckoner = s.reckoner) (arbiter : u.store.arbiter = s.store.arbiter)
    (running : u.mgmt.drain.inProgress = true → s.mgmt.drain.inProgress = true) :
    Ledger (presentNext (releaseStore u)) := by
  obtain ⟨office, asksReckoner, management, once⟩ := h
  obtain ⟨held, two, one, drain, restart⟩ := (officeSound_law_iff s).mp office
  rw [step] at one
  have none : presentedOf s.mgmt.requests = 0 := by simpa using one
  have total : asideHeld s = asideHeld u + 1 := by
    simp [asideHeld_eq, requests, reckoner, ended, step]
  refine Ledger.presentNext (ledger_releaseStore ((officeSound_law_iff u).mpr ⟨?_, ?_⟩) ?_ ?_)
  · exact entries _ (total ▸ held)
  · rw [requests]
    exact ⟨two, by simp [none, ended], by simp [ended], restart ∘ running⟩
  · rw [reckoner, arbiter, asksReckoner, asks_iff_waiting]
    rw [show s.store.arbiter.holder = some .management from holds]
    decide
  · have quiet : ¬ s.store.arbiter.waiting .management = true := once.not_waiting holds
    simp [outstanding_eq, requests, none, ended, arbiter, quiet]

theorem ledger_drainWork (h : Ledger s) : Ledger (drainWork s) := by
  unfold drainWork
  split
  next conditions =>
    obtain ⟨holds, step⟩ := conditions
    split
    next w rest journeys =>
      refine ledger_drainStepped h holds step (fun m entries => ?_) ?_ ?_ ?_ ?_ ?_
      · have spilled : Entries (m + 1) (closeSpill w s).st := entries.of_queue (by simp [closeSpill])
        exact (spilled.turnedOver (closeSpill w s).record).of_queue rfl
      all_goals simp [drainSpill, onDrain, closeSpill]
    next =>
      refine ledger_drainStepped h holds step (fun m entries => ?_) ?_ ?_ ?_ ?_ ?_
      · have emptied : Entries (m + 1) { s with store :=
            { s.store with accounts := [], accountFullDay := none } } := entries.of_queue rfl
        exact emptied.returned.of_queue rfl
      all_goals simp [drainEnd, onDrain]
  next => exact h

end Sys2Proof.Machine
end

