-- ==== Sys2Proof/Proofs/SetAsideEntries.lean ====
section
/-! SUPPORT. The Reckoner, the Sweep and RESTART keep the books, and with them every command (R8, R60, R120, R162, R176; O56). -/

namespace Sys2Proof.Machine

variable {k : Scope} {s0 s t : State}

/-! ### The records of a tap transaction (R7) -/

theorem makeRoom_records (set : Nat) (s : State) : (makeRoom set s).2.1.length ≤ 1 := by
  unfold makeRoom
  dsimp only
  split <;> simp

theorem admitEntry_records (e : EntryWork) {before : List Record} (h : before.length ≤ 1) (s : State) :
    (admitEntry e before s).records.length ≤ 3 := by
  have spilled := makeRoom_records (journeySet e.tap.token) s
  simp only [admitEntry, List.length_append, List.length_singleton]
  exact Nat.succ_le_succ (Nat.add_le_add h spilled)

theorem closeNewEntry_records (cancelled : Bool) (e : EntryWork) (s : State) :
    (closeNewEntry cancelled e s).records.length ≤ 3 := by
  cases cancelled <;> simp [closeNewEntry]

theorem handleEntry_records (e : EntryWork) (s : State) : (handleEntry e s).records.length ≤ 3 := by
  unfold handleEntry
  split
  · exact admitEntry_records e (Nat.zero_le _) s
  · dsimp only
    split
    · simp
    · split
      · exact admitEntry_records e (Nat.le_refl _) _
      · exact closeNewEntry_records _ e s
    · split
      · exact admitEntry_records e (Nat.le_refl _) _
      · exact closeNewEntry_records _ e s

theorem liveEntry_records (e : EntryWork) (s : State) : (liveEntry e s).records.length ≤ 3 := by
  unfold liveEntry
  dsimp only
  split
  · simp [entryTurnedAway]
  split
  · simp [entryTurnedAway]
  split
  · simp [entryTurnedAway]
  · exact handleEntry_records e s

theorem deferredEntry_records (e : EntryWork) (s : State) : (deferredEntry e s).records.length ≤ 3 := by
  unfold deferredEntry
  split
  · simp [entryTurnedAway]
  split
  next h repaired =>
    obtain ⟨r, _, hr⟩ := Option.bind_eq_some_iff.mp repaired
    unfold repairEntry at hr
    obtain ⟨p, _, rfl⟩ := Option.map_eq_some_iff.mp hr
    simp
  next => exact handleEntry_records e s

theorem matchedExit_records (w : JourneyWay) (tap : Tap) (tapTime : Nat) (s : State) :
    (matchedExit w tap tapTime s).records.length ≤ 3 := by
  unfold matchedExit
  dsimp only
  split
  · simp [exitStationUnknown]
  split
  · simp [exitOverstay]
  split
  · split
    · simp [exitCancelled]
    · simp [exitSameStation]
  · unfold exitFull
    split
    · simp
    · simp [exitStationUnknown]

theorem exitWithoutJourney_records (x : SlotId) (tap : Tap) (tapTime : Nat) (s : State) :
    (exitWithoutJourney x tap tapTime s).records.length ≤ 3 := by
  unfold exitWithoutJourney correctOrUnmatched
  split
  · simp
  split
  · split
    · simp [correctExit]
    · simp [exitUnmatched]
  · simp [exitUnmatched]

/-- No handling makes more records than a transaction has set entries aside for (R7, R8). -/
theorem handleTap_records (x : SlotId) (tr : TapTransaction) (s : State) :
    (handleTap x tr s).records.length ≤ 3 := by
  unfold handleTap
  dsimp only
  split
  · split
    · exact deferredEntry_records _ s
    · exact liveEntry_records _ s
  · unfold handleExit
    split
    · split
      · exact matchedExit_records _ tr.entry.tap tr.tapTime s
      · exact exitWithoutJourney_records x _ _ s
    · exact exitWithoutJourney_records x _ _ s

/-! ### The end of a transaction and the next taking (R7, R8) -/

theorem Entries.all {m : Nat} (l : List Record) (h : Entries (m + l.length) s) : Entries m (placeAll l s) := by
  induction l generalizing s with
  | nil => exact h
  | cons r rest ih => exact ih (Entries.turnedOver (m := m + rest.length) h r)

theorem Entries.transactionEnded {m : Nat} {h : Handled} (entries : Entries (m + 3) h.st)
    (few : h.records.length ≤ 3) (e : TapEntry) (c d : Bool) : Entries m (endTransaction e c d h) := by
  have answered : Entries (m + 3) (answerTap e c h.answer h.st) := entries.of_queue (by simp)
  have placed : Entries (m + (3 - h.records.length)) (placeAll (h.records.map
      (decorate e.tap e.answeredLate c d)) (answerTap e c h.answer h.st)) := by
    refine Entries.all _ ?_
    have total : m + (3 - h.records.length) + (h.records.map
        (decorate e.tap e.answeredLate c d)).length = m + 3 := by
      rw [List.length_map]
      omega
    rwa [total]
  exact placed.returned.of_queue rfl

/-- What a tap transaction's end leaves of the books: its three entries and the Reckoner are free again. -/
theorem office_endTransaction {h : Handled} (law : RequestLaw h.st.mgmt.requests h.st.mgmt.drain)
    (entries : Entries (asideHeld { h.st with reckoner := none } + 3) h.st)
    (few : h.records.length ≤ 3) (e : TapEntry) (c d : Bool) :
    OfficeSound (endTransaction e c d h) ∧ outstanding (endTransaction e c d h) = outstanding h.st := by
  have held : asideHeld (endTransaction e c d h) = asideHeld { h.st with reckoner := none } := by
    simp [asideHeld_eq]
  refine ⟨(officeSound_law_iff _).mpr ⟨?_, by simpa using law⟩, by simp [outstanding_eq]⟩
  rw [held]
  exact entries.transactionEnded few e c d

/-- The Reckoner's part in the books after a taking: nothing, or a new request for the store (R8). -/
def TakesOrNot (s t : State) : Prop :=
  t.reckoner.isSome = s.reckoner.isSome ∧ t.store.arbiter = s.store.arbiter
    ∨ s.reckoner = none ∧ t.reckoner.isSome = true
      ∧ t.store.arbiter = s.store.arbiter.request .reckoner

/-- The Reckoner takes nothing, takes a tap that screening ends, or takes one and asks for the store (R8). -/
theorem takeTap_books (office : OfficeSound s) : OfficeSound (takeTap s)
    ∧ outstanding (takeTap s) = outstanding s ∧ TakesOrNot s (takeTap s) := by
  have unable : OfficeSound s ∧ outstanding s = outstanding s ∧ TakesOrNot s s :=
    ⟨office, rfl, .inl ⟨rfl, rfl⟩⟩
  unfold takeTap
  split
  next e rest idle _ =>
    split
    next room =>
      have swapped := keepsLedger_settleSwap s
      have law := swapped.law ((officeSound_law_iff s).mp office).2
      have swappedIdle : (settleSwap s).reckoner = none := by simp [idle]
      have taken : Entries (asideHeld s + 3) (setAside 3 { settleSwap s with tapQueue := rest }) :=
        Entries.taken ((swapped.entries ((officeSound_law_iff s).mp office).1).of_queue rfl)
          (by simpa [officeFree] using room)
      have held : asideHeld { setAside 3 { settleSwap s with tapQueue := rest } with reckoner := none }
          = asideHeld s := by
        rw [← swapped.asideHeld, asideHeld_eq, asideHeld_eq, swappedIdle]
        rfl
      unfold takeHead
      dsimp only
      split
      · have ended (r : Record) (a : Answer) := office_endTransaction
          (h := ⟨setAside 3 { settleSwap s with tapQueue := rest }, [r], a⟩) law (by rwa [held])
          (by simp) e false false
        refine ⟨(ended _ _).1, (ended _ _).2.trans swapped.outstanding, .inl ⟨by simp [screenedOut, idle], ?_⟩⟩
        simp [screenedOut, setAside]
      · refine ⟨(officeSound_law_iff _).mpr ⟨?_, ?_⟩, ?_, .inr ⟨idle, by simp, by simp [setAside]⟩⟩
        · have total : asideHeld (settleSwap s) = asideHeld s := swapped.asideHeld
          rw [asideHeld_eq, swappedIdle] at total
          simp only [asideHeld_eq, requestStore_frame, setAside, Option.isSome_some, if_true]
          refine Entries.of_queue (s := setAside 3 { settleSwap s with tapQueue := rest }) ?_ (by simp [setAside])
          simp only [Option.isSome_none, Bool.false_eq_true, if_false, Nat.zero_add] at total
          rwa [Nat.add_assoc, Nat.add_comm 3, total]
        · simpa [setAside] using law
        · rw [← swapped.outstanding]
          simp [outstanding_eq, setAside]
    next => exact unable
  next => exact unable

theorem ledger_takeTap (h : Ledger s) : Ledger (takeTap s) := by
  obtain ⟨office, reckoner, management, once⟩ := h
  obtain ⟨office', same, kept | ⟨idle, busy, asked⟩⟩ := takeTap_books office
  · obtain ⟨reckoner', arbiter'⟩ := kept
    exact ⟨office', by rw [reckoner', arbiter']; exact reckoner, by rw [same, arbiter']; exact management,
      arbiter' ▸ once⟩
  · have quiet : ¬ Asks s.store.arbiter .reckoner := by rw [← reckoner, idle]; simp
    refine ⟨office', ?_, ?_, ?_⟩ <;> rw [asked]
    · simp [busy, asks_request]
    · rw [same, management]
      simp [asks_request]
    · exact once_request once quiet

/-- The books while the Reckoner, its transaction ended, still holds the store: a tap it has taken waits with it for the next grant (R7, R62). -/
structure LedgerAtEnd (s : State) : Prop where
  office : OfficeSound s
  holds : s.store.arbiter.holder = some .reckoner
  reckoner : s.reckoner.isSome = true ↔ s.store.arbiter.waiting .reckoner = true
  management : 1 ≤ outstanding s ↔ s.store.arbiter.waiting .management = true

theorem LedgerAtEnd.takeTap (h : LedgerAtEnd s) : LedgerAtEnd (takeTap s) := by
  obtain ⟨office, holds, reckoner, management⟩ := h
  obtain ⟨office', same, kept | ⟨idle, busy, asked⟩⟩ := takeTap_books office
  · obtain ⟨reckoner', arbiter'⟩ := kept
    exact ⟨office', by rw [arbiter']; exact holds, by rw [reckoner', arbiter']; exact reckoner,
      by rw [same, arbiter']; exact management⟩
  · rw [request_of_held holds] at asked
    refine ⟨office', ?_, ?_, ?_⟩ <;> rw [asked]
    · simpa using holds
    · simp [busy, waiting_mark]
    · rw [same, management]
      simp [waiting_mark]

theorem LedgerAtEnd.released (h : LedgerAtEnd s) : Ledger (releaseStore s) :=
  ledger_releaseStore h.office h.reckoner h.management

theorem ledger_reckonerWork (h : Ledger s) : Ledger (reckonerWork s) := by
  unfold reckonerWork
  split
  next tr held =>
    split
    next holds =>
      obtain ⟨office, reckoner, management, once⟩ := h
      obtain ⟨entries, law⟩ := (officeSound_law_iff s).mp office
      have holder : s.store.arbiter.holder = some .reckoner := holds
      have total : asideHeld s = asideHeld { s with reckoner := none } + 3 := by
        simp [asideHeld_eq, held]
        omega
      rw [total] at entries
      have ended {h : Handled} (works : h.st = s.storeAs h.st) (few : h.records.length ≤ 3) (c d : Bool) :
          LedgerAtEnd (endTransaction tr.entry c d h) := by
        have transaction := office_endTransaction (h := h) (by rw [works]; exact law)
          (by rw [works]; exact entries.of_queue rfl) few tr.entry c d
        have arbiter : (endTransaction tr.entry c d h).store.arbiter = s.store.arbiter := by
          rw [endTransaction_frame .. |>.2.2.2.2.2.2.1, works]
          rfl
        have same : outstanding h.st = outstanding s := by
          rw [works]
          rfl
        refine ⟨transaction.1, ?_, ?_, ?_⟩ <;> rw [arbiter]
        · exact holder
        · simpa using once.not_waiting holder
        · rw [transaction.2, same, management, asks_iff_waiting]
          rw [holder]
          decide
      refine LedgerAtEnd.released (takeTaps_keeps (p := LedgerAtEnd) (fun _ => LedgerAtEnd.takeTap) ?_)
      split
      next x active => exact ended (handleTap_works tr active).frame (handleTap_records x tr s) _ _
      next => exact ended (h := ⟨s, [_], _⟩) rfl (Nat.le_of_ble_eq_true rfl) false false
    next => exact h
  next => exact h

/-! ### The Sweep (R120, R121) -/

theorem ledger_requestAgain (h : Ledger s) (quiet : ¬ Asks s.store.arbiter .sweep) :
    Ledger (requestAgain s) := by
  unfold requestAgain
  split
  · obtain ⟨office, reckoner, management, once⟩ := h
    refine ⟨?_, ?_, ?_, ?_⟩
    · simpa [OfficeSound, asideHeld, outstanding] using office
    · simp [asks_request, reckoner]
    · simpa [outstanding, asks_request] using management
    · simpa using once_request once quiet
  · exact h

theorem ledger_askForStore (h : Ledger s) : Ledger (askForStore s) := by
  unfold askForStore
  split
  · exact h
  next idle =>
    refine ledger_requestAgain h ?_
    simpa [Asks, sweepRequested, holder, Arbiter.waiting, and_comm, or_comm] using idle

theorem ledger_sweepGrant (h : Ledger s) : Ledger (sweepGrant s) := by
  unfold sweepGrant
  split
  next holds =>
    have visited : KeepsLedger s (resetAtRelease (sweepVisit s)) := by
      refine (keepsLedger_moves (k := ⟨true, false, false, false⟩) (s0 := s) rfl (moves_sweepVisit rfl s)).trans ?_
      unfold resetAtRelease
      split <;> exact keepsLedger_of_eq rfl rfl rfl rfl rfl
    have ledger := visited.ledger h
    have holder : (resetAtRelease (sweepVisit s)).store.arbiter.holder = some .sweep := by
      rw [visited.arbiter]
      exact holds
    generalize resetAtRelease (sweepVisit s) = u at ledger holder
    obtain ⟨office, reckoner, management, _⟩ := ledger
    rw [asks_iff_waiting (by rw [holder]; decide)] at reckoner management
    unfold requestAgain
    split
    · refine ledger_releaseStore ?_ ?_ ?_
      · simpa [OfficeSound, asideHeld, outstanding] using office
      · simpa [request_of_held holder, waiting_mark] using reckoner
      · simpa [outstanding, request_of_held holder, waiting_mark] using management
    · exact ledger_releaseStore office reckoner management
  next => exact h

/-! ### RESTART (R18, R63, R83, R176) -/

theorem ledger_restartSweep (h : Ledger s) : Ledger (restartSweep s) := by
  unfold restartSweep
  split
  · have kept : KeepsLedger s (onSweep (fun w => { w with resetAtRelease := true }) s) :=
      keepsLedger_of_eq rfl rfl rfl rfl rfl
    exact kept.ledger h
  next other =>
    obtain ⟨office, reckoner, management, once⟩ := h
    refine ⟨office, ?_, ?_, once_withdraw once _⟩
    · simpa [onArbiter, asks_withdraw other] using reckoner
    · refine management.trans ?_
      simp [onArbiter, asks_withdraw other]

theorem Entries.aborted {m n : Nat} (h : Entries (m + n) s) (some : 1 ≤ n) (f : OfficeFrame) :
    Entries m (placeFrame f (returnAside n s)) := by
  obtain ⟨bound, aside⟩ := h
  refine ⟨?_, ?_⟩ <;> simp <;> omega

theorem one_le_entriesNeeded (q : Request) : 1 ≤ entriesNeeded q := by
  cases q <;> simp [entriesNeeded]

/-- A waiting, ready or presented operation leaves its slot, its entries and its request (R83). -/
theorem ledger_abortOperation (h : Ledger s) : Ledger (abortOperation s) := by
  unfold abortOperation
  split
  next r found =>
    split
    next waiting =>
      refine KeepsLedger.ledger (s := s) ⟨id, rfl, ?_, rfl, rfl, rfl⟩ h
      exact keepsBooks_modifyFirst (fun q hq => by simp_all [HeldRequest.offBooks]) (by simp)
    split
    · exact h
    next notWaiting notGranted =>
      obtain ⟨before, after, split, test, others⟩ := find?_parts found
      obtain ⟨office, reckoner, management, once⟩ := h
      obtain ⟨entries, two, one, drain, restart⟩ := (officeSound_law_iff s).mp office
      have phase : r.phase = .ready ∨ r.phase = .presented := by
        simp_all [HeldRequest.isWaitingOperation]
      have aside : r.aside = entriesNeeded r.request := by simp [HeldRequest.aside, phase]
      have notUnderway : ¬ (r.phase = .underway ∧ r.request.isRestart = true) := by
        rcases phase with p | p <;> simp [p]
      have law : RequestLaw (before ++ after) s.mgmt.drain := by
        rw [split] at two one restart
        rw [presentedOf_split] at one
        rw [restarting_split notUnderway] at restart
        refine ⟨?_, by omega, drain, restart⟩
        simp only [List.length_append, List.length_cons] at two ⊢
        omega
      have aborted {u : State} (queue : u.officeQueue = s.officeQueue) (mgmt : u.mgmt = s.mgmt)
          (busy : u.reckoner = s.reckoner) (once : Once u.store.arbiter)
          (asks : s.reckoner.isSome = true ↔ Asks u.store.arbiter .reckoner)
          (waits : 1 ≤ presentedOf (before ++ after) + (if s.mgmt.drain.presented then 1 else 0)
            ↔ Asks u.store.arbiter .management) :
          Ledger (placeReply r Reply.aborted (returnAside (entriesNeeded r.request) (onRequests
            (fun l => l.eraseP (fun q => q.isWaitingOperation || q.phase == .presented)) u))) := by
        have erased : (onRequests (fun l => l.eraseP (fun q => q.isWaitingOperation
            || q.phase == .presented)) u).mgmt.requests = before ++ after := by
          simp only [onRequests, mgmt, split]
          exact eraseP_split others test
        have total : asideHeld s = asideHeld (onRequests (fun l => l.eraseP
            (fun q => q.isWaitingOperation || q.phase == .presented)) u) + entriesNeeded r.request := by
          rw [← aside]
          refine asideHeld_add (by simp [onRequests, busy]) (by simp [onRequests, mgmt]) ?_
          rw [erased, split, asideOf_split]
          omega
        rw [total] at entries
        have replied := Entries.aborted (entries.of_queue (t := onRequests (fun l => l.eraseP
          (fun q => q.isWaitingOperation || q.phase == .presented)) u) queue)
          (one_le_entriesNeeded r.request) (.reply r.sequence r.number r.code Reply.aborted)
        have drained : (onRequests (fun l => l.eraseP
            (fun q => q.isWaitingOperation || q.phase == .presented)) u).mgmt.drain = s.mgmt.drain := by
          simp [onRequests, mgmt]
        refine ⟨(officeSound_law_iff _).mpr ⟨?_, ?_⟩, ?_, ?_, ?_⟩
        · rw [asideHeld_add (n := 0) (s := onRequests (fun l => l.eraseP
            (fun q => q.isWaitingOperation || q.phase == .presented)) u) (by simp [placeReply])
            (by simp [placeReply]) (by simp [placeReply])]
          exact replied
        · simp only [placeReply, placeFrame_frame, returnAside_frame, erased, drained]
          exact law
        · simpa [placeReply, onRequests, busy] using asks
        · rw [outstanding_eq]
          simp only [placeReply, placeFrame_frame, returnAside_frame, erased, drained]
          exact waits
        · simpa [placeReply, onRequests] using once
      split
      next presented =>
        have other : s.store.arbiter.holder ≠ some .management := fun holds => notGranted ⟨presented, holds⟩
        rw [split, presentedOf_split, if_pos presented] at one
        refine aborted rfl rfl rfl (once_withdraw once _) ?_ ?_
        · simpa [onArbiter, asks_withdraw other] using reckoner
        · refine iff_of_false (by omega) ?_
          simp [onArbiter, asks_withdraw other]
      next notPresented =>
        refine aborted rfl rfl rfl once reckoner ?_
        rw [← management, outstanding_eq, split, presentedOf_split, if_neg notPresented, Nat.zero_add]
  next => exact h

/-- A taken RESTART is underway (R176). -/
theorem restarting_advanceTaken {r : HeldRequest} (taken : nextTaken s = some r)
    (isRestart : r.request.isRestart = true) :
    restarting (advanceTaken .underway s).mgmt.requests := by
  obtain ⟨before, after, split, test, others⟩ := find?_parts taken
  have changed : (advanceTaken .underway s).mgmt.requests
      = before ++ { r with phase := .underway } :: after := by
    unfold advanceTaken onRequests
    rw [split]
    exact modifyFirst_split others test
  rw [changed]
  simp [restarting, isRestart]

theorem ledger_beginDrain (n : Nat) (h : Ledger s) (running : restarting s.mgmt.requests)
    (noStep : s.mgmt.drain.presented = false) : Ledger (beginDrain n s) := by
  obtain ⟨office, reckoner, management, once⟩ := h
  obtain ⟨entries, two, one, _, _⟩ := (officeSound_law_iff s).mp office
  have held : asideHeld (beginDrain n s) = asideHeld s := asideHeld_add (n := 0) rfl noStep.symm rfl
  have same : outstanding (beginDrain n s) = outstanding s := outstanding_add (n := 0) noStep.symm rfl
  rw [noStep] at one
  refine ⟨(officeSound_law_iff _).mpr ⟨?_, ⟨two, one, (nomatch ·), fun _ => running⟩⟩,
    reckoner, by rw [same]; exact management, once⟩
  rw [held]
  exact entries.of_queue rfl

theorem not_restarting (h : restartHeld s = false) : ¬ restarting s.mgmt.requests := by
  intro running
  obtain ⟨r, hr, phase⟩ := List.any_eq_true.mp running
  simp only [Bool.and_eq_true, beq_iff_eq] at phase
  have := List.any_eq_false.mp h r hr
  simp [phase.1, phase.2] at this

theorem ledger_restartNow {r : HeldRequest} (taken : nextTaken s = some r)
    (isRestart : r.request.isRestart = true) (free : restartHeld s = false) (h : Ledger s) :
    Ledger (restartNow s) := by
  have begun := restarting_advanceTaken taken isRestart
  have advanced : KeepsLedger s (setService .halted (advanceTaken .underway s)) :=
    keepsLedger_moves (k := ⟨false, false, false, false⟩) (s0 := s) rfl
      (.tail (.single (move_advanceTaken (by simp) s)) (.service _ _))
  have flushed : KeepsLedger (setService .halted (advanceTaken .underway s))
      (emptyForward (flushTaps (setService .halted (advanceTaken .underway s)))) :=
    keepsLedger_moves (k := ⟨false, true, false, false⟩) (s0 := s) rfl
      (.tail (moves_flushTaps rfl _) (.emptyForward _))
  have noStep : s.mgmt.drain.presented = false := by
    obtain ⟨_, _, _, drain, restart⟩ := (officeSound_law_iff s).mp h.office
    refine Classical.byContradiction fun step => ?_
    exact not_restarting free (restart (drain (by simpa using step)))
  unfold restartNow
  dsimp only
  have silent : KeepsLedger s { emptyForward (flushTaps (setService .halted (advanceTaken .underway s))) with
      mgmt := { (emptyForward (flushTaps (setService .halted (advanceTaken .underway s)))).mgmt with
        events := [] } } :=
    (advanced.trans flushed).trans (keepsLedger_of_eq rfl rfl rfl rfl rfl)
  have swept := ledger_restartSweep (silent.ledger h)
  have mgmt (v : State) : (restartSweep v).mgmt = v.mgmt := by
    unfold restartSweep
    split <;> rfl
  generalize emptyForward (flushTaps (setService .halted (advanceTaken .underway s))) = u
    at flushed silent swept
  have slots (v : State) : KeepsLedger v (restartSlots v) :=
    keepsLedger_moves (k := ⟨false, false, false, false⟩) (s0 := s) rfl (moves_restartSlots rfl v)
  refine ledger_abortOperation (ledger_beginDrain _ ((slots _).ledger swept) ?_ ?_)
  · refine (slots _).requests.restart ?_
    rw [mgmt]
    exact flushed.requests.restart begun
  · rw [(slots _).drain, mgmt, silent.drain]
    exact noStep

/-! ### RESTART's completion (R176) -/

theorem ledger_completeRestart (h : Ledger s) : Ledger (completeRestart s) := by
  unfold completeRestart
  split
  next r found =>
    split
    next ready =>
      obtain ⟨ended, _, room⟩ := ready
      obtain ⟨before, after, split, test, others⟩ := find?_parts found
      obtain ⟨underway, _⟩ : r.phase = .underway ∧ r.request.isRestart = true := by simpa using test
      obtain ⟨office, reckoner, management, once⟩ := h
      obtain ⟨entries, two, one, drain, _⟩ := (officeSound_law_iff s).mp office
      have noStep : s.mgmt.drain.presented = false := by
        refine Classical.byContradiction fun step => ?_
        exact absurd (drain (by simpa using step)) (by simp [ended])
      have aside : asideOf s.mgmt.requests = asideOf (before ++ after) := by
        rw [split, asideOf_split]
        simp [HeldRequest.aside, underway]
      have presented : presentedOf s.mgmt.requests = presentedOf (before ++ after) := by
        rw [split, presentedOf_split, if_neg (by simp [underway]), Nat.zero_add]
      have erased : s.mgmt.requests.eraseP (fun q => q.phase == .underway && q.request.isRestart)
          = before ++ after := by
        rw [split]
        exact eraseP_split others test
      have closed {u : State} (requests : u.mgmt.requests = before ++ after)
          (gone : u.mgmt.drain = ⟨false, false, 0, 0⟩) (queue : u.officeQueue = s.officeQueue)
          (busy : u.reckoner = s.reckoner) (arbiter : u.store.arbiter = s.store.arbiter) : Ledger u := by
        have step : u.mgmt.drain.presented = s.mgmt.drain.presented := by rw [gone, noStep]
        refine ⟨(officeSound_law_iff _).mpr ⟨?_, ?_⟩, by rw [busy, arbiter]; exact reckoner, ?_,
          arbiter ▸ once⟩
        · rw [asideHeld_add (n := 0) (by rw [busy]) step (by rw [requests, aside, Nat.add_zero])]
          exact entries.of_queue queue
        · rw [requests, gone]
          rw [presented, noStep] at one
          rw [split] at two
          refine ⟨?_, one, (nomatch ·), (nomatch ·)⟩
          simp only [List.length_append, List.length_cons] at two ⊢
          omega
        · rw [arbiter, outstanding_add (n := 0) step (by rw [requests, presented, Nat.add_zero])]
          exact management
      refine KeepsLedger.ledger (keepsLedger_placeFrame _ ?_) (closed ?_ rfl rfl rfl rfl)
      · exact room
      · exact erased
    next => exact h
  next => exact h

/-! ### The law is kept (O56) -/

theorem ledger_effect {c : Instr} (noPin : isPin c = false) (h : Ledger s) : Ledger (effect c s) := by
  cases books : (scope c).books with
  | false => exact (keepsLedger_moves books (moves_effect noPin s)).ledger h
  | true =>
    cases c
    case drainStepSetAside => exact ledger_drainSetAside h
    case drainStep => exact ledger_drainWork h
    case restartComplete => exact ledger_completeRestart h
    case journeyOperationSetAside => exact ledger_setAsideOperation _ h
    case journeyQueryGrant | journeyCloseGrant | accountQueryGrant => exact ledger_grantEffect _ h
    case reckonerTakeTap => exact ledger_takeTap h
    case reckonerGrant => exact ledger_reckonerWork h
    case sweepRequest => exact ledger_askForStore h
    case sweepGrant => exact ledger_sweepGrant h
    case restart =>
      change Ledger (requestEffect .restart s)
      unfold requestEffect
      split
      next r taken =>
        split
        next row =>
          have isRestart : r.request = .restart := by
            cases hr : r.request <;> simp [requestRow, hr] at row ⊢
          rw [isRestart]
          change Ledger
            (if restartHeld s then answerTaken (Reply.refused .restartInProgress) s else restartNow s)
          split
          · exact (keepsLedger_move (k := ⟨false, false, false, false⟩) (s0 := s) rfl (move_answerTaken _ s)).ledger h
          next free => exact ledger_restartNow taken (by rw [isRestart]; rfl) (by simpa using free) h
        next => exact h
      next => exact h
    all_goals exact absurd books Bool.false_ne_true

end Sys2Proof.Machine

section
open Sys2Proof Sys2Proof.Machine

/-- Settles O56: the moves of most commands leave the books, and each command that writes in them is followed through. -/
theorem setAsideEntriesKept : Obligations.SetAsideEntriesKept := by
  refine kept_of_effects (fun _ _ h => h) (fun _ h => h) (fun straps s => ?_)
    fun c s noPin _ h => (ledger_iff _).mp (ledger_effect noPin ((ledger_iff s).mpr h))
  simp [OfficeSound, RequestersSound, asideHeld, outstanding, resetWith, State.reset, JourneyStore.reset,
    Arbiter.reset, holder, Management.reset]

end

end

