-- ==== Sys2Proof/Proofs/StepsAndPins.lean ====
section
/-! SUPPORT. Steps and the pins (R171, R178): O1 to O5. -/

namespace Sys2Proof.Machine

variable {k : Scope} {s0 s t : State}

/-! ### The queue of commands -/

theorem Move.pending (move : Move k s0 s t) : t.pending = s.pending := by
  cases move with
  | work _ work => rw [work.frame]; rfl
  | _ => simp

/-- A command leaves the queue of commands (log 3). -/
theorem effect_pending (c : Instr) (s : State) : (effect c s).pending = s.pending := by
  cases noPin : isPin c with
  | false =>
    exact (moves_effect noPin s).keeps (p := fun u => u.pending = s.pending)
      (fun _ _ move h => move.pending.trans h) rfl
  | true =>
    cases c with
    | rstnLow | pinReset straps => rfl
    | _ => exact absurd noPin Bool.false_ne_true

/-- A request's row does nothing while no taken request waits (log 5). -/
theorem exec_request_of_none {c : Instr} (row : effect c s = requestEffect c s)
    (none : nextTaken s = none) : exec c s = .next s := by
  simp [exec_eq, row, requestEffect, none]

end Sys2Proof.Machine

section
open Sys2Proof Sys2Proof.Machine

/-- Settles O1: the two equations of the step. -/
theorem stepRunsFrontCommand : Obligations.StepRunsFrontCommand :=
  ⟨fun _ _ => rfl, fun s empty => by simp [step, empty]⟩

/-- Settles O2: every command is its effect or nothing, and no effect touches the queue. -/
theorem everyCommandCompletes : Obligations.EveryCommandCompletes := by
  refine ⟨fun c s => ⟨_, exec_eq c s, ?_⟩, fun s none c request _ => ?_⟩
  · split
    · rfl
    · exact effect_pending c s
  · refine exec_request_of_none ?_ none
    simp only [List.mem_cons, List.not_mem_nil, or_false] at request
    rcases request with rfl | rfl | rfl | rfl | rfl | rfl | rfl | rfl | rfl | rfl | rfl | rfl | rfl
      | rfl | rfl | rfl | rfl | rfl | rfl | rfl <;> rfl

/-- Settles O3: the effect of RSTN_LOW, and what RSTN's low level stops. -/
theorem rstnLowStopsThePorts : Obligations.RstnLowStopsThePorts := by
  refine ⟨fun s => rfl, fun c s low notLow notReset => ?_⟩
  have noPin : isPin c = false := by
    cases c with
    | rstnLow => exact absurd rfl notLow
    | pinReset straps => exact absurd rfl (notReset straps)
    | _ => rfl
  simp [exec_eq, low, noPin]

/-- Settles O4: the reset values, block by block, are those of `resetWith`. -/
theorem pinResetGivesResetValues : Obligations.PinResetGivesResetValues := fun _ _ => rfl

/-- Settles O5: each law at reset, by evaluation. -/
theorem soundAtReset : Obligations.SoundAtReset := by
  refine ⟨rfl, ?_, ?_, ?_, ?_, ?_, ?_, ?_, ?_, ?_, ?_, ?_, ?_, ?_, ?_, ?_, ?_⟩ <;> decide

end
end

