-- ==== Sys2Proof/Proofs/Arrivals.lean ====
section
/-! SUPPORT. Frames at the ports (R1 to R5, R17, R169 to R174): O8, O9, O10, O12. -/

namespace Sys2Proof.Machine

variable {s : State} {bytes : List Byte} {f : ReceivedFrame} {tap : Tap}

/-! ### Frames at the Line port -/

/-- A frame that passes the checks is sorted once it has raised its link (R1, R172, log 26). -/
theorem exec_lineFrameReceived_of (high : s.rstnLow = false) (passes : checkFrame bytes = some f) :
    exec (.lineFrameReceived bytes) s = .next (sortLineFrame bytes f (raiseLineLink s)) := by
  change execLineFrameReceived bytes s = _
  rw [execLineFrameReceived, awake_high high, lineFrame, passes]

/-- A tap for the engine is accepted or not once it has raised the link (R1, R2). -/
theorem exec_lineFrameReceived_tap (arrives : TapArrives s bytes tap) :
    exec (.lineFrameReceived bytes) s = .next (acceptTap tap (raiseLineLink s)) := by
  obtain ⟨high, f, passes, kind, here, read⟩ := arrives
  rw [exec_lineFrameReceived_of high passes, sortLineFrame, if_pos ⟨kind, by simpa using here⟩]
  simp only [read]

@[simp] theorem verdictFree_raiseLineLink (s : State) : verdictFree (raiseLineLink s) = verdictFree s := by
  simp [verdictFree]

theorem parseTap_of_length (no19 : f.body.length ≠ 19) (no23 : f.body.length ≠ 23) :
    parseTap f = none := by simp [parseTap, no19, no23]

/-- An accepted tap is counted and dealt with (R2, R3). -/
theorem acceptTap_of_free (free : 1 ≤ verdictFree s) : acceptTap tap (raiseLineLink s)
    = dealTap tap (count (fun c => { c with tapsAccepted := bump c.tapsAccepted }) (raiseLineLink s)) :=
  if_pos (by simpa using free)

theorem acceptTap_of_full (full : verdictFree s = 0) :
    acceptTap tap (raiseLineLink s) = tapNotAccepted (raiseLineLink s) :=
  if_neg (by simp [full])

/-- A tap that a Halted engine accepts (R3, R17). -/
theorem dealTap_of_halted (halted : s.mgmt.service = .halted) : dealTap tap s = tapHalted tap s :=
  if_pos halted

theorem dealTap_of_room (running : s.mgmt.service = .running) (room : s.tapQueue.length < 64) :
    dealTap tap s = tapQueued tap s := by
  rw [dealTap, if_neg (by simp [running]),
    if_neg (by simpa [Config.tapQueueSize] using room)]

theorem dealTap_of_full (running : s.mgmt.service = .running) (full : 64 ≤ s.tapQueue.length) :
    dealTap tap s = tapQueueFull tap s := by
  rw [dealTap, if_neg (by simp [running]), if_pos (by simpa [Config.tapQueueSize] using full)]

@[simp] theorem officeFree_placeVerdict (v : Verdict) (s : State) :
    officeFree (placeVerdict v s) = officeFree s := by simp [officeFree]

@[simp] theorem officeFree_count (c : Counters → Counters) (s : State) :
    officeFree (count c s) = officeFree s := rfl

theorem tapHalted_of_full (full : officeFree s = 0) : tapHalted tap s
    = placeVerdict (verdictFor tap (Answer.plain .outOfService .none)) s :=
  if_neg (by simp [full])

theorem tapHalted_of_room (room : 1 ≤ officeFree s) : tapHalted tap s
    = placeRecord (haltedRecord tap (placeVerdict (verdictFor tap (Answer.plain .outOfService .none)) s))
      (placeVerdict (verdictFor tap (Answer.plain .outOfService .none)) s) :=
  if_pos (by simpa using room)

/-! ### Frames at the Office port -/

/-- A frame that fails the checks is counted once it has raised its link (R170, R172). -/
theorem exec_officeFrameReceived_bad (high : s.rstnLow = false) (bad : checkFrame bytes = none) :
    exec (.officeFrameReceived bytes) s = .next (count
      (fun c => { c with crcErrorsOffice := bump c.crcErrorsOffice }) (raiseOfficeLink s)) := by
  change execOfficeFrameReceived bytes s = _
  rw [execOfficeFrameReceived, awake_high high, officeFrame, bad]

/-- A frame for the engine goes to its request slots, any other to the Forward Queue (R169, R171). -/
theorem exec_officeFrameReceived_of (high : s.rstnLow = false) (passes : checkFrame bytes = some f) :
    exec (.officeFrameReceived bytes) s = .next (if f.destination = s.nodeAddress
      then takeRequest f (raiseOfficeLink s) else forwardToLine bytes (raiseOfficeLink s)) := by
  change execOfficeFrameReceived bytes s = _
  rw [execOfficeFrameReceived, awake_high high, officeFrame, passes]

@[simp] theorem officeFree_raiseOfficeLink (s : State) : officeFree (raiseOfficeLink s) = officeFree s := by
  simp [officeFree]

/-- The Office link raised changes the Office Port only (R172). -/
theorem raiseOfficeLink_eq (s : State) :
    raiseOfficeLink s = { s with officePort := (raiseOfficeLink s).officePort } := by
  apply State.eq_of_fields <;> simp

end Sys2Proof.Machine

section
open Sys2Proof Sys2Proof.Machine

/-- Settles O8: each discarded frame is a count behind its raised link. -/
theorem discardedFramesAreCounted : Obligations.DiscardedFramesAreCounted := by
  refine ⟨fun s bytes high bad => ⟨?_, ?_⟩, fun s bytes tap arrives full => ?_,
    fun s bytes f high passes kind here no19 no23 => ?_⟩
  · change execLineFrameReceived bytes s = _
    rw [execLineFrameReceived, awake_high high, lineFrame, bad]
    exact congrArg _ (count_raiseLineLink _ s)
  · rw [exec_officeFrameReceived_bad high bad]
    congr 1
    apply State.eq_of_fields <;> simp
  · rw [exec_lineFrameReceived_tap arrives, acceptTap_of_full full]
    exact congrArg _ (count_raiseLineLink _ s)
  · rw [exec_lineFrameReceived_of high passes, sortLineFrame, if_pos ⟨kind, by simpa using here⟩]
    simp only [parseTap_of_length no19 no23]
    exact congrArg _ (count_raiseLineLink _ s)

/-- Settles O9: an accepted tap of a Running engine whose Tap Queue has room. -/
theorem tapQueuedAtArrival : Obligations.TapQueuedAtArrival := by
  intro s bytes tap arrives free running room
  rw [exec_lineFrameReceived_tap arrives, acceptTap_of_free free]
  rw [dealTap_of_room (by simpa using running) (by simpa using room)]
  congr 1
  apply State.eq_of_fields <;> simp [tapQueued, reservePlace]

/-- Settles O10: an accepted tap that finds the Tap Queue full or the engine Halted. -/
theorem tapAnsweredAtArrival : Obligations.TapAnsweredAtArrival := by
  intro s bytes tap arrives free
  have dealt := exec_lineFrameReceived_tap arrives
  rw [acceptTap_of_free free] at dealt
  refine ⟨fun running full => ⟨_, dealt, ?_⟩, fun halted full => ⟨_, dealt, ?_⟩,
    fun halted room => ⟨_, dealt, ?_⟩⟩
  · rw [dealTap_of_full (by simpa using running) (by simpa using full)]
    apply State.eq_of_fields <;> simp [tapQueueFull, plainVerdict, verdictFor, Answer.plain]
  · rw [dealTap_of_halted (by simpa using halted),
      tapHalted_of_full (by simpa [officeFree_raiseLineLink] using full)]
    apply State.eq_of_fields <;> simp [plainVerdict, verdictFor, Answer.plain]
  · rw [dealTap_of_halted (by simpa using halted),
      tapHalted_of_room (by simpa [officeFree_raiseLineLink] using room)]
    apply State.eq_of_fields <;>
      simp [plainVerdict, verdictFor, Answer.plain, haltedRecord, newRecord, Tap.received,
        Counters.record]

/-- Settles O12: the request slots, the Busy reply and the Forward Queue. -/
theorem officeFrameRouted : Obligations.OfficeFrameRouted := by
  refine ⟨fun s bytes f high passes here => ?_, fun s bytes f high passes other => ?_⟩
  · have routed := exec_officeFrameReceived_of high passes
    rw [if_pos here] at routed
    rw [takeRequest] at routed
    refine ⟨fun room => ?_, fun held free => ⟨_, routed, ?_⟩, fun held full => ?_⟩
    · rw [routed, if_pos (by simpa using room)]
      congr 1
      apply State.eq_of_fields <;> simp [onRequests]
      rfl
    · rw [if_neg (Nat.not_lt.mpr (by simpa using held)), if_pos (by simpa using free)]
      apply State.eq_of_fields <;> simp [placeReply]
      exact ⟨rfl, rfl, rfl, rfl⟩
    · rw [routed, if_neg (Nat.not_lt.mpr (by simpa using held)), if_neg (by simp [full])]
      congr 1
      apply State.eq_of_fields <;> simp
  · have routed := exec_officeFrameReceived_of high passes
    rw [if_neg other, forwardToLine] at routed
    refine ⟨fun room => ⟨_, routed, ?_⟩, fun full => ?_⟩
    · rw [if_pos (by simpa [Config.forwardQueueSize] using room)]
      apply State.eq_of_fields <;> simp
    · rw [routed, if_neg (Nat.not_lt.mpr (by simpa [Config.forwardQueueSize] using full))]
      congr 1
      apply State.eq_of_fields <;> simp

end
end

