-- ==== Sys2Proof/Proofs/PortRules.lean ====
section
/-! SUPPORT. Transmission, links and the bodies that have marks (R15, R164, R168 to R173): O13, O14. -/

namespace Sys2Proof.Machine

/-! ### Marks with unassigned bits (R173, log 13) -/

theorem bitsToNat_lt (bits : List Bool) : bitsToNat bits < 2 ^ bits.length := by
  induction bits with
  | nil => simp [bitsToNat]
  | cons b rest ih =>
    simp only [bitsToNat, List.length_cons, Nat.pow_succ]
    split <;> omega

theorem bitsToNat_testBit (bits : List Bool) (i : Nat) (h : i < bits.length) :
    (bitsToNat bits).testBit i = bits[i] := by
  induction bits generalizing i with
  | nil => simp at h
  | cons b rest ih =>
    cases i with
    | zero => cases b <;> simp [bitsToNat, Nat.testBit_zero, Nat.add_mod]
    | succ i =>
      have half : bitsToNat (b :: rest) / 2 = bitsToNat rest := by
        simp only [bitsToNat]
        split <;> omega
      rw [Nat.testBit_succ, half]
      exact ih i (by simpa using h)

/-- The assigned bits of a field are the marks, whatever the unassigned ones are. -/
theorem withSpare_bits (which : Config.SpareField) (bits : List Bool) {width : Nat}
    (fits : bits.length ≤ width) :
    (List.range bits.length).map
      (BitVec.ofNat width (withSpare which bits.length width (bitsToNat bits))).getLsbD = bits := by
  refine List.ext_getElem (by simp) fun i _ h => ?_
  have inside : i < width := Nat.lt_of_lt_of_le h fits
  simp only [List.getElem_map, List.getElem_range, BitVec.getLsbD_ofNat, inside, decide_true,
    Bool.true_and, withSpare]
  rw [Nat.add_comm, Nat.testBit_two_pow_mul_add _ (bitsToNat_lt bits), if_pos h]
  exact bitsToNat_testBit bits i h

theorem beBytes_one (n : Nat) : beBytes 1 n = [BitVec.ofNat 8 n] := by simp [beBytes]

/-- A field of two bytes holds a value's low 16 bits (R170). -/
theorem beBytes_two_toNat (n : Nat) : beBytes 2 (BitVec.ofNat 16 n).toNat = beBytes 2 n := by
  simp only [beBytes, BitVec.toNat_ofNat, List.cons.injEq, and_true]
  refine ⟨BitVec.eq_of_toNat_eq ?_, BitVec.eq_of_toNat_eq ?_⟩
  · simp
    omega
  · simp

/-- The byte of a yes is not that of a no (R173, log 12). -/
theorem yesByte_ne_zero : Config.yesByte ≠ 0#8 := by
  intro h
  have value := congrArg BitVec.toNat h
  have bound := Config.yesIndex.isLt
  simp only [Config.yesByte, BitVec.toNat_ofNat] at value
  omega

/-! ### Wires -/

/-- A verdict's body with its presence bits and its flags (R14, R173). -/
theorem verdictWire_laidOut (node : Byte) (v : Verdict) : ∃ presence flags : Byte,
    verdictWire node v = buildFrame v.destination node 0x02#8 v.sequence
      (beBytes 1 v.gate ++ beBytes 2 v.tapNumber ++ beBytes 1 v.answer.kind.code
        ++ beBytes 1 v.answer.reason.code ++ [presence, flags]
        ++ beBytes 2 (v.answer.charge.getD 0) ++ beBytes 4 (v.answer.reference.getD 0))
    ∧ (List.range 2).map presence.getLsbD = [v.answer.charge.isSome, v.answer.reference.isSome]
    ∧ (List.range 3).map flags.getLsbD
      = [v.answer.capReached, v.answer.continued, v.answer.timeClamped] := by
  refine ⟨_, _, ?_, withSpare_bits .verdictPresence [_, _] (by simp),
    withSpare_bits .verdictFlags [_, _, _] (by simp)⟩
  simp [verdictWire, verdictBody, beBytes_one, kindVerdict]

theorem recordWire_laidOut (node : Byte) (n : Nat) (r : Record) : ∃ presence flags : BitVec 16,
    officeWire node (.record n r) = buildFrame 0x00#8 node 0x11#8 (BitVec.ofNat 8 n)
      (beBytes 1 r.kind.code ++ beBytes 1 r.reason.code ++ beBytes 2 presence.toNat
        ++ beBytes 2 flags.toNat ++ beBytes 4 r.madeSec ++ beBytes 2 r.madeMs
        ++ beBytes 8 r.token.toNat ++ beBytes 1 r.fareClass
        ++ (r.reference.map (beBytes 4)).getD [] ++ (r.label.map (beBytes 2)).getD []
        ++ (r.entry.map stationTimeBytes).getD [] ++ (r.exit.map stationTimeBytes).getD []
        ++ (r.priced.map pricedBytes).getD []
        ++ (r.originalCharge.map (beBytes 2)).getD [] ++ (r.related.map (beBytes 4)).getD []
        ++ (r.origin.map stationTimeBytes).getD [] ++ (r.openJourney.map journeyBytes).getD []
        ++ (r.tap.map tapReceivedBytes).getD [])
    ∧ (List.range 10).map presence.getLsbD = [r.reference.isSome, r.label.isSome, r.entry.isSome,
      r.exit.isSome, r.priced.isSome, r.originalCharge.isSome, r.related.isSome, r.origin.isSome,
      r.openJourney.isSome, r.tap.isSome]
    ∧ (List.range 14).map flags.getLsbD = r.flags.bits := by
  refine ⟨_, _, ?_, withSpare_bits .recordPresence [_, _, _, _, _, _, _, _, _, _] (by simp),
    withSpare_bits .recordFlags r.flags.bits (by simp [RecordFlags.bits])⟩
  simp only [beBytes_two_toNat]
  rfl

theorem journeyBytes_laidOut (j : Journey) : ∃ marks : Byte, journeyBytes j = beBytes 8 j.token.toNat
      ++ beBytes 4 j.reference ++ beBytes 1 j.fareClass ++ beBytes 1 j.entryStation
      ++ beBytes 4 j.entryTime ++ [j.tag.byte] ++ beBytes 4 j.admissionTime
      ++ beBytes 4 j.deadline ++ [marks] ++ (j.pass.map passBytes).getD []
      ++ (j.continuation.map continuationBytes).getD []
    ∧ (List.range 4).map marks.getLsbD
      = [j.deferred, j.entryClamped, j.pass.isSome, j.continuation.isSome] := by
  refine ⟨_, ?_, withSpare_bits .journeyMarks [_, _, _, _] (by simp)⟩
  have tag : beBytes 1 j.tag.code = [j.tag.byte] := by cases j.tag <;> rfl
  simp only [journeyBytes, tag, beBytes_one, List.length_cons, List.length_nil]

end Sys2Proof.Machine

section
open Sys2Proof Sys2Proof.Machine

/-- Settles O13: the choices of the two transmitters, the frames sent, and the bytes of each body. -/
theorem framesAreSent : Obligations.FramesAreSent := by
  refine ⟨⟨?_, ?_, ?_, ?_, ?_⟩, ⟨?_, ?_, ?_, ?_, ?_, ?_⟩, ?_, ?_, ?_, fun _ _ => rfl, rfl, yesByte_ne_zero,
    rfl, rfl, rfl⟩
  · intro s v rest port queue
    simp [transmitLine, port, queue]
  · intro s b rest port verdicts queue
    simp [transmitLine, port, verdicts, queue]
  · rintro s (down | busy | ⟨verdicts, queue⟩)
    · simp [transmitLine, down]
    · obtain ⟨f, sending⟩ := Option.isSome_iff_exists.mp busy
      simp [transmitLine, sending]
    · unfold transmitLine
      simp only [verdicts, queue]
      split <;> rfl
  · intro s f rest port queue
    simp [transmitOffice, port, queue]
  · rintro s (down | notReady | busy | empty)
    · simp [transmitOffice, down]
    · simp [transmitOffice, notReady]
    · obtain ⟨w, sending⟩ := Option.isSome_iff_exists.mp busy
      simp [transmitOffice, sending]
    · simp [transmitOffice, empty]
  · intro s w v rest high sending queue
    rw [exec_high high]
    simp [effect, lineSent, sending, leaveLineQueue, queue]
  · intro s w b rest high sending queue
    rw [exec_high high]
    simp [effect, lineSent, sending, leaveLineQueue, queue]
  · intro s w high sending
    rw [exec_high high]
    simp [effect, lineSent, sending, leaveLineQueue]
  · intro s w f rest high sending queue
    rw [exec_high high]
    simp [effect, officeSent, sending, queue]
  · intro s idle
    simp [exec_eq, effect, lineSent, idle]
  · intro s idle
    simp [exec_eq, effect, officeSent, idle]
  · intro node v
    obtain ⟨presence, flags, wire, present, flagged⟩ := verdictWire_laidOut node v
    refine ⟨presence, flags, wire, ?_⟩
    simpa [List.range_succ, and_assoc] using And.intro present flagged
  · exact recordWire_laidOut
  · exact journeyBytes_laidOut

/-- Settles O14: each change of a link, by its effect. -/
theorem linkStatesChange : Obligations.LinkStatesChange := by
  refine ⟨fun s high => ⟨?_, ?_⟩, fun s ready high => ?_, fun s midFrame high up => ?_,
    fun s midFrame high up => ?_, fun s midFrame => ⟨fun down => ?_, fun down => ?_⟩⟩
  · rw [exec_high high]
    rfl
  · rw [exec_high high]
    rfl
  · rw [exec_high high]
    rfl
  · rw [exec_high high]
    simp [effect, loseLineLink, up, count]
  · rw [exec_high high]
    simp [effect, loseOfficeLink, up, count]
  · simp [exec_eq, effect, loseLineLink, down]
  · simp [exec_eq, effect, loseOfficeLink, down]

end
end

