-- ==== Sys2Proof/Proofs/ClockRules.lean ====
section
/-! SUPPORT. The Line Clock's rows (R148 to R157, R177): what each shared operation makes of the blocks it changes, and O16, O17, O18, O48, O49, O50. -/

namespace Sys2Proof.Machine

variable {k : Scope} {s0 s t : State}

/-! ### The service day, the activation, the clock's state (R150, R153, R156, R157) -/

theorem reckonDay_sweep (s : State) : (reckonDay s).sweep
    = if s.clock.serviceDay < dayOf s s.clock.sec then
        { s.sweep with purgePending := true, accountCursor := 0, turn := .account }
      else s.sweep := by
  unfold reckonDay
  dsimp only
  split <;> rfl

theorem reckonDay_events (s : State) : (reckonDay s).mgmt.events
    = if s.clock.serviceDay < dayOf s s.clock.sec then
        raiseIn .dayRollover (.day (dayOf s s.clock.sec)) s.clock.sec s.clock.ms s.mgmt.events
      else s.mgmt.events := by
  unfold reckonDay
  dsimp only
  split <;> rfl

theorem fireActivation_swapDue (s : State) :
    (fireActivation s).tables.swapDue = swapDueAt s s.clock.sec := by
  unfold fireActivation swapDueAt watchedTime
  cases pending : slotIn (· == .pending) s with
  | none => simp
  | some x =>
    cases due : s.tables.swapDue with
    | some y => simp [due]
    | none =>
      cases effective : (slotOf s x).effective with
      | none => simp [due, effective, Option.filter]
      | some n =>
        simp only [Option.none_or, Option.bind_some, effective, Option.any_some,
          Option.filter_some, decide_eq_true_eq]
        split <;> simp [due]

theorem becomeLocked_events (s : State) : (becomeLocked s).mgmt.events
    = if s.clock.state = .locked then s.mgmt.events
      else raiseIn .clockLocked .nothing s.clock.sec s.clock.ms s.mgmt.events := by
  unfold becomeLocked
  split <;> rfl

/-- The holdover count of a Locked or Slewing clock has reached the setting (R153). -/
abbrev HoldoverOver (s : State) : Prop :=
  (s.clock.state = .locked ∨ s.clock.state = .slewing)
    ∧ s.mgmt.settings.holdover * 1000 ≤ s.clock.holdover

theorem checkHoldover_of_over (expired : HoldoverOver s) :
    checkHoldover s = raise .clockFreeRunning .nothing (onClock (fun c => { c with state := .freeRunning }) s) :=
  if_pos expired

theorem checkHoldover_of_not (short : ¬ HoldoverOver s) : checkHoldover s = s := if_neg short

theorem checkHoldover_clock (s : State) : (checkHoldover s).clock
    = { s.clock with state := if HoldoverOver s then .freeRunning else s.clock.state } := by
  unfold checkHoldover
  split <;> rfl

theorem checkHoldover_events (s : State) : (checkHoldover s).mgmt.events
    = if HoldoverOver s then raiseIn .clockFreeRunning .nothing s.clock.sec s.clock.ms s.mgmt.events
      else s.mgmt.events := by
  unfold checkHoldover
  split <;> rfl

/-! ### The marks (R124) -/

theorem compareMarks_spillMode (s : State) :
    (compareMarks s).sweep.spillMode = spillModeAt s s.store.journeys.length := by
  unfold compareMarks spillModeAt
  dsimp only
  split
  next on => split <;> simp_all
  next off => split <;> simp_all

theorem compareMarks_events (s : State) :
    (compareMarks s).mgmt.events = pressureAt s s.store.journeys.length s.mgmt.events := by
  unfold compareMarks pressureAt spillModeAt
  dsimp only
  split
  next on =>
    split
    next low => simp [raise, on, Nat.not_lt.mpr low]
    next high => simp [on, Nat.not_le.mp high]
  next off => split <;> simp_all [raise]

@[simp] theorem reckonDay_spillMode (s : State) : (reckonDay s).sweep.spillMode = s.sweep.spillMode := by
  rw [reckonDay_sweep]
  split <;> rfl

/-- The comparison with the marks, by the three blocks it changes (R124). -/
theorem compareMarks_eq (s : State) : compareMarks s = { s with
    sweep := { s.sweep with spillMode := spillModeAt s s.store.journeys.length }
    mgmt := { s.mgmt with events := pressureAt s s.store.journeys.length s.mgmt.events } } := by
  apply State.eq_of_fields <;> simp
  · rw [compareMarks_sweep, compareMarks_spillMode]
  · apply Management.eq_of_fields <;> simp [compareMarks_events]

/-! ### The settings taken (R177) -/

section Settings
variable (v : RunSettings) (s : State)

/-- The state with new settings, before they are compared with anything. -/
abbrev State.withSettings : State := { s with mgmt := { s.mgmt with settings := v } }

theorem applySettings_clock : (applySettings v s).clock = { s.clock with
    state := if HoldoverOver (s.withSettings v) then .freeRunning else s.clock.state
    serviceDay := serviceDay v.rolloverMinute s.clock.sec } := by
  simp [applySettings, checkHoldover_clock, dayOf, HoldoverOver]

theorem applySettings_sweep : (applySettings v s).sweep
    = if s.clock.serviceDay < serviceDay v.rolloverMinute s.clock.sec then
        { s.sweep with
          spillMode := spillModeAt (s.withSettings v) s.store.journeys.length
          purgePending := true, accountCursor := 0, turn := .account }
      else { s.sweep with spillMode := spillModeAt (s.withSettings v) s.store.journeys.length } := by
  simp [applySettings, reckonDay_sweep, checkHoldover_clock, dayOf, compareMarks_eq]

theorem applySettings_events {pressed freed : List PendingEvent}
    (hp : pressed = pressureAt (s.withSettings v) s.store.journeys.length s.mgmt.events)
    (hf : freed = if HoldoverOver (s.withSettings v) then
      raiseIn .clockFreeRunning .nothing s.clock.sec s.clock.ms pressed else pressed) :
    (applySettings v s).mgmt.events = if s.clock.serviceDay < serviceDay v.rolloverMinute s.clock.sec
      then raiseIn .dayRollover (.day (serviceDay v.rolloverMinute s.clock.sec)) s.clock.sec s.clock.ms freed
      else freed := by
  subst hp hf
  simp [applySettings, reckonDay_events, checkHoldover_clock, checkHoldover_events, dayOf, compareMarks_events,
    HoldoverOver]

end Settings

/-! ### Line time (R148, R151) -/

/-- A command that does not move line time leaves it. -/
theorem Move.lineTime (ht : k.times = false) (move : Move k s0 s t) :
    t.clock.sec = s.clock.sec ∧ t.clock.ms = s.clock.ms := by
  cases move with
  | work _ work => rw [work.frame]; exact ⟨rfl, rfl⟩
  | clock _ _ _ keeps => exact keeps.resolve_left (by simp [ht])
  | _ => simp

theorem eq_of_times {c : Instr} (h : (scope c).times = true) : c = .rawTick ∨ c = .timeMark := by
  cases c <;> simp_all [scope]

theorem eq_of_isPin {c : Instr} (h : isPin c = true) : c = .rstnLow ∨ ∃ straps, c = .pinReset straps := by
  cases c <;> simp_all [isPin]

theorem lineMs_le_lineMsAfter (c : LineClock) : c.lineMs ≤ lineMsAfter c := by
  unfold lineMsAfter
  split
  · exact Nat.le_refl _
  next before =>
    have : c.lineMs < Config.lastLineMs := by simpa [atLastMoment] using before
    exact Nat.le_min.mpr ⟨Nat.le_add_right _ _, Nat.le_of_lt this⟩

theorem lineMs_tickClock (c : LineClock) : (tickClock c).lineMs = lineMsAfter c := by
  simp only [LineClock.lineMs, tickClock]
  omega

/-- A tick's clock is the counters' own, but for the service day (R148, R156). -/
theorem tick_clock (s : State) : (tick s).clock = { tickClock s.clock with
    serviceDay := if (tickClock s.clock).sec = s.clock.sec then s.clock.serviceDay
      else serviceDay s.mgmt.settings.rolloverMinute (tickClock s.clock).sec } := by
  unfold tick
  dsimp only
  split
  next same => simp only [countDownAll_frame]; rfl
  next => simp [dayOf]

/-! ### Time Marks (R150, R151, R154) -/

theorem swapDueAt_of_tables {n : Nat} (h : t.tables = s.tables) : swapDueAt t n = swapDueAt s n := by
  simp only [swapDueAt, slotIn, slotOf, h]

/-- A stepped mark, block by block (R151, R156, R157). -/
theorem stepMark_eq (sec ms : Nat) (s : State) {e : Int} {day : Nat} {stepped locked : List PendingEvent}
    (he : e = markError s (sec * 1000 + ms))
    (hday : day = serviceDay s.mgmt.settings.rolloverMinute sec)
    (hstepped : stepped = raiseIn .clockStepped (.error e) sec ms s.mgmt.events)
    (hlocked : locked = if s.clock.state = .locked then stepped
      else raiseIn .clockLocked .nothing sec ms stepped) :
    stepMark sec ms s = { s with
      clock := { s.clock with
        sec := sec
        ms := ms
        state := .locked
        slew := 0
        slewDue := false
        rate := some ⟨sec * 1000 + ms, 0, 0⟩
        holdover := 0
        serviceDay := day }
      sweep := if s.clock.serviceDay < day
        then { s.sweep with purgePending := true, accountCursor := 0, turn := .account }
        else s.sweep
      tables := { s.tables with swapDue := swapDueAt s sec }
      mgmt := { s.mgmt with
        events := if s.clock.serviceDay < day
          then raiseIn .dayRollover (.day day) sec ms locked else locked } } := by
  subst hday hlocked hstepped he
  unfold stepMark
  apply State.eq_of_fields
  case h11 => simp [reckonDay_sweep, onClock, dayOf]
  case h12 =>
    apply TableStore.eq_of_fields <;> simp [fireActivation_swapDue, onClock]
    exact swapDueAt_of_tables (by simp)
  case h14 =>
    apply Management.eq_of_fields <;>
      simp [reckonDay_events, becomeLocked_events, onClock, dayOf, raise]
  all_goals simp [onClock, dayOf]

/-- The clock after a slewed mark: the measurement's own trim and rate (R150, R151, R154). -/
theorem slewMark_eq (sec ms : Nat) (s : State) {e : Int} {m : LineClock}
    (he : e = markError s (sec * 1000 + ms))
    (hm : m = measureRate s.mgmt.settings.measurementSpan (sec * 1000 + ms) s.clock) :
    slewMark sec ms s = { s with
      clock := { s.clock with
        state := if e = 0 then .locked else .slewing
        slew := e
        holdover := 0
        trim := m.trim
        rate := m.rate }
      mgmt := { s.mgmt with
        events := if e = 0 ∧ s.clock.state ≠ .locked
          then raiseIn .clockLocked .nothing s.clock.sec s.clock.ms s.mgmt.events
          else s.mgmt.events } } := by
  have measured : measureRate s.mgmt.settings.measurementSpan (sec * 1000 + ms)
      { s.clock with slew := e, holdover := 0 }
      = { s.clock with slew := e, holdover := 0, trim := m.trim, rate := m.rate } := by
    subst hm
    unfold measureRate
    cases rate : s.clock.rate with
    | none => simp
    | some r =>
      dsimp only
      split
      · rfl
      · split <;> rfl
  unfold slewMark
  dsimp only
  rw [← he, show onClock (fun c => measureRate s.mgmt.settings.measurementSpan (sec * 1000 + ms)
    { c with slew := e, holdover := 0 }) s = _ from congrArg (fun c => { s with clock := c }) measured]
  split
  next zero =>
    apply State.eq_of_fields
    case h13 => simp [zero]
    case h14 => apply Management.eq_of_fields <;> simp [becomeLocked_events, zero]
    all_goals simp
  next apart => simp [onClock, apart]

/-! ### The raw tick (R148, R149, R152) -/

/-- What the trim adds to this tick's advance, -1, 0 or 1 ms (R149). -/
def trimStep (c : LineClock) : Int :=
  if 1000000 ≤ c.accumulator + c.trim then 1 else if c.accumulator + c.trim ≤ -1000000 then -1 else 0

theorem trim_parts (c : LineClock) : trimWork c = .insert ∧ trimStep c = 1
    ∨ trimWork c = .hold ∧ trimStep c = -1 ∨ trimWork c = .ordinary ∧ trimStep c = 0 := by
  unfold trimWork trimStep
  split
  · exact .inl ⟨rfl, rfl⟩
  split
  · exact .inr (.inl ⟨rfl, rfl⟩)
  · exact .inr (.inr ⟨rfl, rfl⟩)

theorem trimStep_eq (c : LineClock) :
    trimStep c = ((trimWork c).inserted : Int) - ((trimWork c).held : Int) := by
  rcases trim_parts c with ⟨work, step⟩ | ⟨work, step⟩ | ⟨work, step⟩ <;> rw [work, step] <;> rfl

theorem trimAccumulator_eq (c : LineClock) :
    trimAccumulator c = c.accumulator + c.trim - trimStep c * 1000000 := by
  unfold trimAccumulator
  rcases trim_parts c with ⟨work, step⟩ | ⟨work, step⟩ | ⟨work, step⟩ <;> rw [work, step] <;>
    dsimp only <;> omega

theorem held_iff (c : LineClock) : trimWork c = .hold ↔ trimStep c = -1 := by
  rcases trim_parts c with ⟨work, step⟩ | ⟨work, step⟩ | ⟨work, step⟩ <;> simp [work, step]

/-- What the slew adds to this tick's advance: the sign of its remainder when its work is due and not carried (R148, R152). -/
theorem slewWork_eq (c : LineClock) : ((slewWork c).inserted : Int) - ((slewWork c).held : Int)
    = if c.slewDue = false ∨ slewCarried c = true then 0 else c.slew.sign := by
  unfold slewWork slewCarried
  cases due : c.slewDue with
  | false => simp [TickWork.inserted, TickWork.held]
  | true =>
    rcases Int.lt_trichotomy c.slew 0 with negative | zero | positive
    · by_cases held : trimWork c = .hold
      · simp [negative, held, TickWork.inserted, TickWork.held, Int.not_lt.mpr (Int.le_of_lt negative)]
      · simp [negative, held, TickWork.inserted, TickWork.held, Int.not_lt.mpr (Int.le_of_lt negative),
          Int.sign_eq_neg_one_of_neg negative]
    · simp [zero, TickWork.inserted, TickWork.held]
    · simp [positive, TickWork.inserted, TickWork.held, Int.not_lt.mpr (Int.le_of_lt positive),
        Int.sign_eq_one_of_pos positive]

theorem slewAfter_eq (c : LineClock) :
    slewAfter c = c.slew - (((slewWork c).inserted : Int) - ((slewWork c).held : Int)) := by
  unfold slewAfter
  cases slewWork c <;> simp [TickWork.inserted, TickWork.held]

/-- A tick advances line time by 1 ms and what the trim and the slew add (R148). -/
theorem tickAdvance_eq (c : LineClock) : (tickAdvance c : Int) = 1 + trimStep c
    + (if c.slewDue = false ∨ slewCarried c = true then 0 else c.slew.sign) := by
  rw [trimStep_eq, ← slewWork_eq]
  have notBoth : ¬ (trimWork c = .hold ∧ slewWork c = .hold) := by
    rintro ⟨trim, slew⟩
    rw [slewWork, if_neg (fun h : c.slew < 0 ∧ trimWork c ≠ .hold => h.2 trim)] at slew
    (repeat' split at slew) <;> cases slew
  unfold tickAdvance
  cases trim : trimWork c <;> cases slew : slewWork c <;>
    simp_all [TickWork.inserted, TickWork.held]

/-- What the slew adds to a tick that is not at the last moment (R148, R152). -/
def slewStep (c : LineClock) : Int :=
  if c.slewDue = false ∨ slewCarried c = true then 0 else c.slew.sign

theorem lineMsAfter_eq (c : LineClock) : (lineMsAfter c : Int) = if atLastMoment c then (c.lineMs : Int)
    else min ((c.lineMs : Int) + 1 + trimStep c + slewStep c) 4294967295999 := by
  have advance := tickAdvance_eq c
  unfold lineMsAfter
  split
  · rfl
  · simp only [slewStep, Config.lastLineMs] at advance ⊢
    omega

theorem localAfter_eq (c : LineClock) (n : Nat) : (localAfter c n : Int)
    = (n : Int) + 1 + (if atLastMoment c then min (trimStep c) 0 else trimStep c) := by
  have step := trimStep_eq c
  unfold localAfter
  cases h : trimWork c <;> simp only [h, TickWork.inserted, TickWork.held] at step ⊢ <;>
    split <;> omega

/-- The state after a tick: the clock, the deadlines and, at a second boundary, the service day and the watched effective time (R5, R148, R156, R157). -/
theorem tick_eq (s : State) : tick s = { s with
    clock := (tick s).clock
    tapQueue := s.tapQueue.map (countDown (lineMsAfter s.clock - s.clock.lineMs))
    reckoner := s.reckoner.map (fun r =>
      { r with entry := countDown (lineMsAfter s.clock - s.clock.lineMs) r.entry })
    sweep := (tick s).sweep
    tables := { s.tables with
      swapDue := if (tickClock s.clock).sec ≠ s.clock.sec then swapDueAt s (tickClock s.clock).sec
        else s.tables.swapDue }
    mgmt := { s.mgmt with events := (tick s).mgmt.events } } := by
  rw [← lineMs_tickClock]
  unfold tick
  dsimp only
  split
  next same => simp [same, countDownAll]
  next moved =>
    apply State.eq_of_fields
    case h12 =>
      apply TableStore.eq_of_fields <;> simp [fireActivation_swapDue]
      exact swapDueAt_of_tables (by simp)
    case h14 => apply Management.eq_of_fields <;> simp
    all_goals simp

/-- At a second boundary the service day is reckoned anew, with its purge pass and its event (R126, R156). -/
theorem tick_day (s : State) (moved : (tickClock s.clock).sec ≠ s.clock.sec) {day : Nat}
    (hday : day = serviceDay s.mgmt.settings.rolloverMinute (tickClock s.clock).sec) :
    (tick s).sweep = (if s.clock.serviceDay < day
        then { s.sweep with purgePending := true, accountCursor := 0, turn := .account } else s.sweep)
    ∧ (tick s).mgmt.events = (if s.clock.serviceDay < day
        then raiseIn .dayRollover (.day day) (tickClock s.clock).sec (tickClock s.clock).ms s.mgmt.events
        else s.mgmt.events) := by
  have same : (tickClock s.clock).serviceDay = s.clock.serviceDay := rfl
  subst hday
  unfold tick
  dsimp only
  rw [if_neg moved]
  simp [reckonDay_sweep, reckonDay_events, dayOf, same]

theorem tick_within (s : State) (same : (tickClock s.clock).sec = s.clock.sec) :
    (tick s).sweep = s.sweep ∧ (tick s).mgmt.events = s.mgmt.events := by
  simp [tick, same]

end Sys2Proof.Machine

section
open Sys2Proof Sys2Proof.Machine

/-- Settles O16: the three comparisons in their order, each by what it makes of its blocks. -/
theorem settingsTaken : Obligations.SettingsTaken := by
  intro s before after r v taken raised next request hraised htaken
  have clamped : clampSettings v = taken := htaken.symm
  have run := exec_request_of next (c := .setRunSettings) (by rw [request]; rfl)
  rw [request] at run
  change exec _ s = .next (answerTaken (Reply.done (.settings (clampSettings v)))
    (applySettings (clampSettings v) s)) at run
  rw [answerTaken_of next (by simp [applySettings]), clamped] at run
  obtain ⟨_, queue, _, _⟩ := next
  have fields : (applySettings taken s).answered before r after ⟨.done, .none, .settings taken⟩
      = { s with
          clock := (applySettings taken s).clock
          sweep := (applySettings taken s).sweep
          mgmt := { s.mgmt with
            settings := taken
            events := (applySettings taken s).mgmt.events
            requests := before ++ { r with phase := .replyDue ⟨.done, .none, .settings taken⟩ } :: after } } := by
    apply State.eq_of_fields
    case h11 | h13 => rfl
    case h14 => apply Management.eq_of_fields <;> simp [applySettings, State.answered]
    all_goals simp [applySettings, State.answered]
  have freed_iff : HoldoverOver (s.withSettings taken) → ClockState.freeRunning ≠ s.clock.state := by
    rintro ⟨running, _⟩ same
    rw [show s.clock.state = .freeRunning from same.symm] at running
    exact absurd running (by decide)
  refine ⟨_, run.trans (congrArg _ fields), ?_, ?_, ?_, ?_, ?_, ?_, ?_⟩
  · rw [applySettings_clock]
  · rw [show (applySettings taken s).sweep = _ from applySettings_sweep taken s]
    split <;> rfl
  · rw [applySettings_clock]
  · rw [applySettings_clock]
  · rw [applySettings_clock, applySettings_sweep]
    intro later
    rw [if_pos later]
    exact ⟨rfl, rfl, rfl⟩
  · rw [applySettings_clock, applySettings_sweep]
    intro notLater
    rw [if_neg (Nat.not_lt.mpr notLater)]
  · intro pressed freed hp hf
    have spill : (applySettings taken s).sweep.spillMode
        = spillModeAt (s.withSettings taken) s.store.journeys.length := by
      rw [applySettings_sweep]
      split <;> rfl
    rw [spill] at hp
    rw [applySettings_clock] at hf ⊢
    rw [applySettings_events taken s (pressed := pressed) (freed := freed)]
    · simp only [hraised]
    · simp only [hp, hraised]
      rfl
    · rw [hf, hraised]
      by_cases expired : HoldoverOver (s.withSettings taken)
      · simp only [if_pos expired, if_neg (freed_iff expired)]
      · simp only [if_neg expired, if_true]

/-- Settles O50: the two rows by their conditions. -/
theorem clockStateChanges : Obligations.ClockStateChanges := by
  refine ⟨fun s high slewing zero => ?_, fun s other => ?_, fun s high running expired => ?_,
    fun s other => ?_⟩
  · rw [exec_high high]
    simp [effect, completeSlew, becomeLocked, slewing, zero, raise, onClock]
  · have idle : completeSlew s = s := if_neg (by rintro ⟨slewing, zero⟩; simp [slewing, zero] at other)
    simp [exec_eq, effect, idle]
  · rw [exec_high high]
    change Host.Outcome.next (checkHoldover s) = _
    rw [checkHoldover_of_over ⟨running, expired⟩]
    rfl
  · have short : ¬ HoldoverOver s := by
      rintro ⟨running, expired⟩
      rcases other with other | other | other
      · simp [other] at running
      · simp [other] at running
      · omega
    simp [exec_eq, effect, checkHoldover_of_not short]


/-- Settles O49: the moves of a command other than the tick and a Time Mark leave line time, and a tick's new time is no earlier. -/
theorem lineTimeNeverRunsBack : Obligations.LineTimeNeverRunsBack := by
  intro c s t run notMark notReset
  rw [exec_eq] at run
  injection run with ht
  subst ht
  split
  · exact ⟨Nat.le_refl _, fun _ => ⟨rfl, rfl⟩⟩
  next stops =>
    cases times : (scope c).times with
    | true =>
      obtain rfl := (eq_of_times times).resolve_right notMark
      refine ⟨?_, fun notTick => absurd rfl notTick⟩
      change s.clock.lineMs ≤ (tick s).clock.lineMs
      rw [tick_clock]
      exact Nat.le_trans (lineMs_le_lineMsAfter s.clock) (Nat.le_of_eq (lineMs_tickClock s.clock).symm)
    | false =>
      have same : (effect c s).clock.sec = s.clock.sec ∧ (effect c s).clock.ms = s.clock.ms := by
        cases pin : isPin c with
        | false =>
          exact (moves_effect pin s).keeps
            (p := fun u => u.clock.sec = s.clock.sec ∧ u.clock.ms = s.clock.ms)
            (fun _ _ move h => ⟨(move.lineTime times).1.trans h.1, (move.lineTime times).2.trans h.2⟩)
            ⟨rfl, rfl⟩
        | true =>
          rcases eq_of_isPin pin with rfl | ⟨straps, rfl⟩
          · exact ⟨rfl, rfl⟩
          · exact absurd rfl (notReset straps)
      refine ⟨Nat.le_of_eq ?_, fun _ => same⟩
      rw [LineClock.lineMs, LineClock.lineMs, same.1, same.2]

/-- Settles O17: a mark beyond the range, and a stepped mark. -/
theorem timeMarkStepped : Obligations.TimeMarkStepped := by
  intro s before after r sec ms next request
  have run := exec_request_of next (c := .timeMark) (by rw [request]; rfl)
  rw [request] at run
  change exec _ s = .next (timeMark sec ms s) at run
  refine ⟨fun late => ?_, fun e day stepped locked inRange he steps hday hstepped hlocked => ?_⟩
  · rw [run, timeMark, if_pos late, answerTaken_of next rfl]
    rfl
  · have isStepped : markStepped s (sec * 1000 + ms) = true := by
      simp only [markStepped, Bool.or_eq_true, beq_iff_eq, decide_eq_true_eq]
      exact steps.imp_right fun far => by rw [he] at far; exact far
    have mark := stepMark_eq sec ms s he hday hstepped hlocked
    rw [run, timeMark, if_neg (Nat.not_lt.mpr inRange), takeMark, if_pos isStepped, mark]
    dsimp only
    rw [answerTaken_of next (by rfl), isStepped, show markError s (sec * 1000 + ms) = e from he.symm]
    rfl

/-- Settles O18: a slewed mark, and the three cases of the measurement. -/
theorem timeMarkSlewed : Obligations.TimeMarkSlewed := by
  intro s before after r sec ms office e next request inRange hoffice he set near
  subst hoffice
  have run := exec_request_of next (c := .timeMark) (by rw [request]; rfl)
  rw [request] at run
  change exec _ s = .next (timeMark sec ms s) at run
  have notStepped : markStepped s (sec * 1000 + ms) = false := by
    simp only [markStepped, Bool.or_eq_false_iff, beq_eq_false_iff_ne, decide_eq_false_iff_not]
    exact ⟨set, Nat.not_lt.mpr (by rw [he] at near; exact near)⟩
  rw [timeMark, if_neg (Nat.not_lt.mpr inRange), takeMark, notStepped] at run
  rw [if_neg Bool.false_ne_true, slewMark_eq sec ms s he rfl] at run
  dsimp only at run
  rw [answerTaken_of next (by rfl)] at run
  rw [show markError s (sec * 1000 + ms) = e from he.symm] at run
  refine ⟨_, run, rfl, fun none => ?_, fun m some => ⟨fun early => ?_, fun late short => ?_,
    fun late long => ?_⟩⟩
  · change (measureRate _ _ s.clock).trim = _ ∧ (measureRate _ _ s.clock).rate = _
    simp [measureRate, none]
  · change (measureRate _ _ s.clock).trim = _ ∧ (measureRate _ _ s.clock).rate = _
    simp [measureRate, some, early]
  · change (measureRate _ _ s.clock).trim = _ ∧ (measureRate _ _ s.clock).rate = _
    simp [measureRate, some, Nat.not_lt.mpr late, short]
  · change (measureRate _ _ s.clock).rate = _ ∧ (measureRate _ _ s.clock).trim = _
    simp [measureRate, some, Nat.not_lt.mpr late, Nat.not_lt.mpr long, trimUpdate]

/-- Settles O48: the tick's clock counter by counter, and what a second boundary brings. -/
theorem rawTickAdvancesLineTime : Obligations.RawTickAdvancesLineTime := by
  intro s sum trim slew work slewLeft now after last hold high _ hsum hnow hlast htrim hhold hwork hslew
    hleft hafter
  have isLast : atLastMoment s.clock = last := by
    rw [hlast, hnow]
    rfl
  have isTrim : trim = trimStep s.clock := by rw [htrim, hsum]; rfl
  have isHold : hold = slewCarried s.clock := by
    have : decide (trim = -1) = (trimWork s.clock == .hold) := by
      rw [isTrim, ← decide_eq_decide.mpr (held_iff s.clock)]
      rfl
    rw [hhold, this]
    rfl
  have isWork : work = slewStep s.clock := by rw [hwork, isHold]; rfl
  have isAfter : after = lineMsAfter s.clock := by
    have eq := lineMsAfter_eq s.clock
    rw [isLast] at eq
    rw [hnow] at hafter
    cases last with
    | true => exact Int.ofNat_inj.mp (hafter.trans eq.symm)
    | false =>
      rw [hslew, isWork, isTrim] at hafter
      exact Int.ofNat_inj.mp (hafter.trans eq.symm)
  have isLeft : slewLeft = if atLastMoment s.clock then s.clock.slew else slewAfter s.clock := by
    rw [hleft, hslew, isLast, slewAfter_eq, slewWork_eq]
    cases last with
    | true => exact Int.sub_zero _
    | false => rw [isWork]; rfl
  have sec : (tickClock s.clock).sec = after / 1000 := by rw [isAfter]; rfl
  have ms : (tickClock s.clock).ms = after % 1000 := by rw [isAfter]; rfl
  have clock := tick_clock s
  rw [sec] at clock
  have elapsed : s.clock.lineMs = now := hnow.symm
  refine ⟨tick s, by rw [exec_high high]; rfl, ?_, fun m some => ?_, fun none => ?_, fun same => ?_,
    fun moved => ?_⟩
  · have eq := tick_eq s
    rw [elapsed, ← isAfter, sec] at eq
    rw [eq]
    refine State.eq_of_fields rfl rfl rfl rfl rfl rfl rfl rfl rfl rfl rfl rfl ?_ rfl rfl rfl
    rw [clock, isHold, hsum, isTrim, ← trimAccumulator_eq]
    rw [isLast] at isLeft
    simp only [tickClock, ← isAfter, isLast, ← isLeft, LineClock.mk.injEq, true_and, and_true]
    by_cases moved : after / 1000 = s.clock.sec
    · simp [moved]
    · by_cases zero : slewLeft = 0 <;> simp [moved, zero]
  · rw [clock]
    refine ⟨localAfter s.clock m.localElapsed, by simp [tickClock, some], ?_⟩
    rw [localAfter_eq, isLast, isTrim]
  · rw [clock]
    simp [tickClock, none]
  · rw [clock, if_pos same]
    exact ⟨rfl, tick_within s (sec.trans same)⟩
  · have day := tick_day s (by rw [sec]; exact moved) rfl
    rw [sec, ms] at day
    rw [clock, if_neg moved]
    refine ⟨rfl, fun later => ?_, fun notLater => ?_⟩
    · rwa [if_pos later, if_pos later] at day
    · rwa [if_neg (Nat.not_lt.mpr notLater), if_neg (Nat.not_lt.mpr notLater)] at day

end
end

