-- ==== Sys2Proof/Proofs/Requests.lean ====
section
/-! SUPPORT. Requests that are carried out at once: the service requests, the generation slots' requests and the swap, and O15, O20, O21, O22, O24. -/

namespace Sys2Proof.Machine

variable {s t : State} {before after : List HeldRequest} {r : HeldRequest} {c : Instr}

/-! ### How a request ends at its row (R174, log 5) -/

/-- A row that answers its request: nothing else of the request slots changes. -/
theorem exec_answers {reply : Reply} (next : NextRequest s before r after)
    (row : requestRow r.request = some c) (out : carryOut r.request s = answerTaken reply t)
    (kept : t.mgmt.requests = s.mgmt.requests) :
    exec c s = .next (t.answered before r after reply) := by
  rw [exec_request_of next row, out, answerTaken_of next kept]

/-- A row that brings its request to a phase. -/
theorem exec_advances {p : Phase} (next : NextRequest s before r after)
    (row : requestRow r.request = some c) (out : carryOut r.request s = advanceTaken p t)
    (kept : t.mgmt.requests = s.mgmt.requests) :
    exec c s = .next (t.withPhase before r after p) := by
  rw [exec_request_of next row, out, advanceTaken_of next kept]

/-- The parts of the held requests around the one a row acts on. -/
theorem nextRequest_of_nextTaken (high : s.rstnLow = false) (taken : nextTaken s = some r) :
    ∃ before after, NextRequest s before r after := by
  obtain ⟨before, after, parts, isTaken, others⟩ := find?_parts taken
  exact ⟨before, after, high, parts, fun q hq => by simpa using others q hq, by simpa using isTaken⟩

/-- A change of elements that fail a test, to elements that fail it, leaves the first that passes it. -/
theorem find?_modifyFirst {α : Type} {p test : α → Bool} {f : α → α}
    (aside : ∀ x, test x = true → p x = false ∧ p (f x) = false) (l : List α) :
    (modifyFirst test f l).find? p = l.find? p := by
  induction l with
  | nil => rfl
  | cons x xs ih =>
    cases passes : test x with
    | false => simp [modifyFirst, passes, List.find?_cons, ih]
    | true =>
      obtain ⟨old, new⟩ := aside x passes
      simp [modifyFirst, passes, old, new]

/-! ### The swap (R141) -/

theorem makeSwap_requests (x : SlotId) (s : State) : (makeSwap x s).mgmt.requests
    = modifyFirst (fun r => r.phase == .underway && r.request.isActivate)
        (fun r => { r with phase := .replyDue ⟨.done, .none, .activated true⟩ }) s.mgmt.requests := by
  unfold makeSwap retireSlot
  dsimp only
  split
  · split <;> rfl
  · rfl

/-- The events of a swap: Generation Active, then Generation Freed where the other slot is freed. -/
theorem makeSwap_events (x : SlotId) (s : State) : (makeSwap x s).mgmt.events
    = if (slotOf s x.other).state = .active ∧ (slotOf s x.other).refCount = 0 then
        raiseIn .generationFreed (.generation x.other (((slotOf s x.other).label).getD 0))
          s.clock.sec s.clock.ms
          (raiseIn .generationActive (.generation x (((slotOf s x).label).getD 0)) s.clock.sec
            s.clock.ms s.mgmt.events)
      else raiseIn .generationActive (.generation x (((slotOf s x).label).getD 0)) s.clock.sec
        s.clock.ms s.mgmt.events := by
  have other : ∀ v : Slot, slotOf (putSlot x v s) x.other = slotOf s x.other := fun v =>
    TableStore.slot_put_ne _ _ x.other_ne
  unfold makeSwap retireSlot
  dsimp only
  rw [show ∀ (kind) (data) (u : State), slotOf (raise kind data u) x.other = slotOf u x.other from
    fun _ _ _ => rfl, other]
  by_cases active : (slotOf s x.other).state = .active
  · by_cases tagged : 0 < (slotOf s x.other).refCount
    · rw [if_pos active, if_pos tagged, if_neg (by omega)]
      rfl
    · rw [if_pos active, if_neg tagged, if_pos ⟨active, by omega⟩]
      unfold freeWithEvent
      rw [show ∀ (kind) (data) (u : State), slotOf (raise kind data u) x.other = slotOf u x.other from
        fun _ _ _ => rfl, other]
      rfl
  · rw [if_neg active, if_neg fun h => active h.1]
    rfl

theorem makeSwap_denyList (x : SlotId) (s : State) :
    (makeSwap x s).tables.denyList = s.tables.denyList := by
  simp [makeSwap]

theorem settleSwap_of_due {x : SlotId} (due : s.tables.swapDue = some x)
    (free : holder s ≠ some .reckoner) : settleSwap s = makeSwap x s := by
  simp [settleSwap, due, free]

theorem settleSwap_of_not (h : s.tables.swapDue = none ∨ holder s = some .reckoner) :
    settleSwap s = s := by
  unfold settleSwap
  split
  next x due => exact if_pos (h.resolve_left (by simp [due]))
  · rfl

/-- A swap answers no request that a row may act on. -/
theorem nextTaken_makeSwap (x : SlotId) (s : State) : nextTaken (makeSwap x s) = nextTaken s := by
  unfold nextTaken
  rw [makeSwap_requests]
  refine find?_modifyFirst (fun q hq => ?_) _
  rw [Bool.and_eq_true, beq_iff_eq] at hq
  exact ⟨by rw [hq.1]; rfl, rfl⟩

/-- A request that first makes a due swap is carried out as if the swap had been made before it. -/
theorem exec_after_swap {x : SlotId} (next : NextRequest s before r after)
    (row : requestRow r.request = some c) {f : State → State}
    (out : ∀ u, carryOut r.request u = f (settleSwap u)) (due : s.tables.swapDue = some x)
    (free : holder s ≠ some .reckoner) : exec c s = exec c (makeSwap x s) := by
  have high : (makeSwap x s).rstnLow = false := by simpa using next.1
  obtain ⟨before', after', swapped⟩ :=
    nextRequest_of_nextTaken high ((nextTaken_makeSwap x s).trans (nextTaken_of next))
  rw [exec_request_of next row, exec_request_of swapped row, out, out, settleSwap_of_due due free,
    settleSwap_of_not (.inl (makeSwap_swapDue x s))]

/-! ### Table windows and the bytes of a TABLE READ (R134, R135) -/

theorem tableWindow_none (table first n : Nat) : tableWindow table first n = none ↔
    tableEntries table = none ∨ n = 0 ∨ ∃ e, tableEntries table = some e ∧ e < first + n := by
  have both : tableEntries table = none ∧ entrySize table = none
      ∨ ∃ e size, tableEntries table = some e ∧ entrySize table = some size := by
    unfold tableEntries entrySize
    split <;> simp
  rcases both with ⟨noEntries, noSize⟩ | ⟨e, size, entries, sized⟩
  · simp [tableWindow, noEntries]
  · have malformed : tableWindow table first n = none ↔ n = 0 ∨ e < first + n := by
      simp only [tableWindow, entries, sized]
      split <;> simp_all
    simp [malformed, entries]

/-- The entries between two parts of a table. -/
theorem window_of_parts {α : Type} (a l b : List α) :
    ((a ++ l ++ b).drop a.length).take l.length = l := by
  simp [List.append_assoc]

/-! ### A dropped swap (R140) -/

theorem dropSwap_putSlot (x : SlotId) (v : Slot) (s : State) : dropSwap x (putSlot x v s)
    = { s with tables := { s.tables.put x v with
        swapDue := if s.tables.swapDue = some x then none else s.tables.swapDue } } := by
  have due : (s.tables.put x v).swapDue = s.tables.swapDue := by cases x <;> rfl
  unfold dropSwap putSlot
  dsimp only
  rw [due]
  split
  · rfl
  · rw [← due]

end Sys2Proof.Machine

section
open Sys2Proof Sys2Proof.Machine

/-- Settles O15: the rows of IDENTIFY, COUNTERS, START and HALT. -/
theorem serviceRequestsAnswered : Obligations.ServiceRequestsAnswered := by
  refine ⟨⟨fun s before after r next request => ?_, fun s before after r clear next request => ?_⟩,
    fun s before after r next => ⟨fun request => ?_, fun request => ?_⟩⟩
  · exact exec_answers (t := s) next (by rw [request]; rfl) (by rw [request]; rfl) rfl
  · have row : requestRow r.request = some .counters := by rw [request]; rfl
    cases clear
    · exact exec_answers (t := s) next row (by rw [request]; rfl) rfl
    · exact exec_answers (t := count (fun _ => {}) s) next row (by rw [request]; rfl) rfl
  · have refusal (reason : ReplyReason) (refused : startRefusal s = some reason) :
        exec .start s = .next (s.answered before r after ⟨.refused, reason, .nothing⟩) :=
      exec_answers (t := s) next (by rw [request]; rfl)
        (by rw [request]; simp only [carryOut, startService, refused]; rfl) rfl
    refine ⟨fun drains => refusal _ ?_, fun still none => refusal _ ?_,
      fun still live unset => refusal _ ?_, fun still live set => ?_⟩
    · simp [startRefusal, drains]
    · simp [startRefusal, still, none]
    · simp [startRefusal, still, live, unset]
    · have accepted : startRefusal s = none := by simp [startRefusal, still, live, set]
      exact exec_answers (t := setService .running s) next (by rw [request]; rfl)
        (by rw [request]; simp only [carryOut, startService, accepted]; rfl) rfl
  · exact exec_answers (t := setService .halted s) next (by rw [request]; rfl)
      (by rw [request]; rfl) rfl

/-- Settles O20: the window, the bytes of each table, and the reply by the slot's state. -/
theorem tableReadReplies : Obligations.TableReadReplies := by
  refine ⟨tableWindow_none, fun t => ⟨?_, ?_, ?_, ?_, ?_, ?_, ?_, ?_⟩,
    fun s before after r x table first n next request => ?_⟩
  case refine_1 | refine_2 | refine_3 | refine_4 | refine_5 | refine_6 | refine_7 =>
    intro a l b parts
    simp only [readEntries, parts, window_of_parts]
  case refine_8 => intro p policy; simp [readEntries, policy]
  have row : requestRow r.request = some .tableRead := by rw [request]; rfl
  refine ⟨fun malformed => exec_answers (t := s) next row ?_ rfl, fun formed => ?_⟩
  · simp only [request, carryOut, tableRead, malformed]; rfl
  obtain ⟨size, window⟩ := Option.ne_none_iff_exists'.mp formed
  have replied : exec .tableRead s
      = .next (s.answered before r after (readReply table first n (slotOf s x))) :=
    exec_answers (t := s) next row (by simp only [request, carryOut, tableRead, window]) rfl
  refine ⟨fun free => ?_, fun copying => ?_, fun notFree notCopying => ?_⟩
  · rw [replied, readReply, free]; rfl
  · rw [replied, readReply, copying]; rfl
  · have held : readReply table first n (slotOf s x)
        = Reply.done (readResult table first n (slotOf s x).tables) := by
      unfold readReply
      cases state : (slotOf s x).state
      case free => exact absurd state notFree
      case copying => exact absurd state notCopying
      all_goals rfl
    rw [replied, held, readResult]
    simp only [Option.isNone_iff_eq_none]
    rfl

/-- Settles O21: the refusals of COPY ACTIVE by the target's state, and the completion. -/
theorem copyActiveAndComplete : Obligations.CopyActiveAndComplete := by
  refine ⟨fun s before after r x next request => ?_,
    fun s before after r x live high copying active held earlier underway request => ?_⟩
  · have row : requestRow r.request = some .copyActive := by rw [request]; rfl
    refine ⟨fun live target => ?_, fun reason refused => ?_⟩
    · have accepted : copyRefusal s x = none := by
        obtain ⟨y, active⟩ := Option.ne_none_iff_exists'.mp live
        rcases target with h | h <;> simp [copyRefusal, h, active]
      exact exec_advances next row (by simp only [request, carryOut, copyActive, accepted]) rfl
    · have refusal : copyRefusal s x = some reason := by
        unfold copyRefusal
        rcases refused with ⟨state, rfl⟩ | ⟨state, none, rfl⟩ | ⟨live, states⟩
        · rw [state]
        · rw [none]
          cases h : (slotOf s x).state with
          | validating => exact absurd h state
          | _ => rfl
        · obtain ⟨y, active⟩ := Option.ne_none_iff_exists'.mp live
          rcases states with ⟨state, rfl⟩ | ⟨state, rfl⟩ | ⟨state, rfl⟩ | ⟨state, rfl⟩ <;>
            rw [state, active]
      exact exec_answers (t := s) next row (by simp only [request, carryOut, copyActive, refusal]; rfl) rfl
  · rw [exec_high high]
    change Host.Outcome.next (copyComplete s) = _
    simp only [copyComplete, copying, active]
    rw [answerUnderway_of (s := putSlot x _ s) (kind := Request.isCopy) held earlier underway
      (by rw [request]; rfl)]
    rfl

/-- Settles O22: a due swap first, then DISCARD and CANCEL by the slot's state. -/
theorem discardAndCancel : Obligations.DiscardAndCancel := by
  refine ⟨fun s before after r x y next due free => ⟨fun request => ?_, fun request => ?_⟩,
    fun s before after r x next settled => ⟨fun request => ?_, fun request => ?_⟩⟩
  · exact exec_after_swap (f := Machine.discard x) next (by rw [request]; rfl)
      (fun u => by rw [request]; rfl) due free
  · exact exec_after_swap (f := cancel x) next (by rw [request]; rfl)
      (fun u => by rw [request]; rfl) due free
  · have row : requestRow r.request = some .discard := by rw [request]; rfl
    have out : carryOut r.request s = Machine.discard x s := by
      rw [request]; change Machine.discard x (settleSwap s) = _; rw [settleSwap_of_not settled]
    refine ⟨fun staging => ?_, fun pending => ?_,
      fun earlier later c copying parts underway isCopy first => ?_, fun reason refused => ?_⟩
    · exact exec_answers next row (by simp only [out, Machine.discard, staging]; rfl) rfl
    · exact exec_answers next row (by simp only [out, Machine.discard, pending, dropSwap_putSlot]; rfl) rfl
    · subst parts
      obtain ⟨high, held, notTaken, taken⟩ := next
      have aborted : answerUnderway Request.isCopy Reply.aborted (putSlot x Slot.freed s)
          = (putSlot x Slot.freed s).answered earlier c (later ++ r :: after) Reply.aborted :=
        answerUnderway_of (s := putSlot x Slot.freed s) (kind := Request.isCopy)
          (by simpa [putSlot] using held) first underway isCopy _
      have now : NextRequest ((putSlot x Slot.freed s).answered earlier c (later ++ r :: after)
          Reply.aborted) (earlier ++ { c with phase := .replyDue Reply.aborted } :: later) r after := by
        refine ⟨high, by simp [State.answered, State.withPhase], fun q hq => ?_, taken⟩
        rcases List.mem_append.mp hq with old | new
        · exact notTaken q (by simp [old])
        · rcases List.mem_cons.mp new with rfl | old
          · simp
          · exact notTaken q (by simp [old])
      rw [exec_request_of ⟨high, held, notTaken, taken⟩ row, out]
      simp only [Machine.discard, copying]
      rw [aborted, answerTaken_of now rfl]
      rfl
    · refine exec_answers (t := s) next row ?_ rfl
      rw [out]
      unfold Machine.discard
      rcases refused with ⟨state, rfl⟩ | ⟨state, rfl⟩ | ⟨state, rfl⟩ | ⟨state, rfl⟩ <;> rw [state] <;> rfl
  · have row : requestRow r.request = some .cancel := by rw [request]; rfl
    have out : carryOut r.request s = cancel x s := by
      rw [request]; change cancel x (settleSwap s) = _; rw [settleSwap_of_not settled]
    refine ⟨fun pending => ?_, fun validating => ?_, fun notPending notValidating => ?_⟩
    · exact exec_answers next row (by simp only [out, cancel, pending, dropSwap_putSlot]; rfl) rfl
    · exact exec_answers (t := s) next row (by simp only [out, cancel, validating]; rfl) rfl
    · refine exec_answers (t := s) next row ?_ rfl
      rw [out]
      unfold cancel
      cases state : (slotOf s x).state
      case pending => exact absurd state notPending
      case validating => exact absurd state notValidating
      all_goals rfl

/-- Settles O24: the activation that fires, the swap that waits, and the swap that is made. -/
theorem swapChangesTheActiveSlot : Obligations.SwapChangesTheActiveSlot := by
  refine ⟨fun s x e high pending effective idle => ?_, fun s x due held => ?_,
    fun s x raised high due free events => ?_⟩
  · have run : exec .activationFiring s = .next (fireActivation s) := exec_high high _
    have watched : watchedTime s = some e := by
      rw [watchedTime, pending, Option.bind_some, effective]
    refine ⟨fun reached => ?_, fun later => ?_⟩
    · rw [run]; simp [fireActivation, pending, watched, idle, reached]
    · rw [run]; simp [fireActivation, pending, watched, idle, Nat.not_le.mpr later]
  · rw [exec_eq]
    change Host.Outcome.next (if _ then s else settleSwap s) = _
    rw [settleSwap_of_not (.inr held), ite_self]
  · refine ⟨makeSwap x s, ?_, ?_, makeSwap_swapDue x s, makeSwap_denyList x s, makeSwap_slot x s,
      makeSwap_other x s⟩
    · rw [exec_high high]
      change Host.Outcome.next (settleSwap s) = _
      rw [settleSwap_of_due due free]
    · have frame := makeSwap_frame x s
      subst events
      refine State.eq_of_fields ?h1 ?h2 ?h3 ?h4 ?h5 ?h6 ?h7 ?h8 ?h9 ?h10 ?h11 ?h12 ?h13 ?h14 ?h15 ?h16
      case h12 => rfl
      case h14 =>
        refine Management.eq_of_fields ?_ (makeSwap_requests x s) ?_ ?_ (makeSwap_events x s) ?_ ?_
          <;> simp
      all_goals simp

end
end

