-- ==== Sys2Proof/Proofs/Operations.lean ====
section
/-! SUPPORT. The Management Unit's journey operations at the store: the arbiter's order, the release, the entries set aside, the queries answered, and O27, O28, O29, O30. -/

namespace Sys2Proof.Machine

variable {s t : State} {before after : List HeldRequest} {r : HeldRequest}

/-! ### The arbiter's order and what a grant reads (R12, R61, R62, R121) -/

theorem Arbiter.choose_eq (spill : Bool) (b : Arbiter) : b.choose spill =
    (if b.managementWaiting = true ∧ 4 ≤ b.managementWait then some .management
    else if b.sweepWaiting = true ∧ (16 ≤ b.sweepWait ∨ (spill = true ∧ 4 ≤ b.sweepWait))
      then some .sweep
    else if b.reckonerWaiting = true then some .reckoner
    else if b.managementWaiting = true then some .management
    else if b.sweepWaiting = true then some .sweep
    else none) := by
  have due : ((if spill then 4 else 16) ≤ b.sweepWait)
      ↔ (16 ≤ b.sweepWait ∨ (spill = true ∧ 4 ≤ b.sweepWait)) := by
    cases spill <;> simp; omega
  simp only [Arbiter.choose, Bool.and_eq_true, decide_eq_true_eq, due]

theorem Arbiter.request_of_free {b : Arbiter} (free : b.holder = none) (r : Requester) :
    b.request r = b.grant r := by
  simp [Arbiter.request, free]

theorem Arbiter.release_of_none {spill : Bool} {b : Arbiter} (none : b.choose spill = none) :
    b.release spill = { b with holder := .none } := by
  have same : ({ b with holder := .none } : Arbiter).choose spill = .none := none
  simp [Arbiter.release, same]

theorem Arbiter.release_of_some {spill : Bool} {b : Arbiter} {r : Requester}
    (chosen : b.choose spill = some r) :
    b.release spill = ({ b with holder := none } : Arbiter).grant r := by
  have same : ({ b with holder := none } : Arbiter).choose spill = some r := chosen
  simp [Arbiter.release, same]

/-- A grant that is read at once is the granted state of the statements (log 8). -/
theorem readGrant_eq (f : Arbiter → Arbiter) (s : State) :
    readGrant (onArbiter f s) = s.granted (f s.store.arbiter) := by
  have denied : (grantReading (onArbiter f s)).denied
      = (s.granted (f s.store.arbiter)).store.grant.denied := by
    change (s.reckoner.map (fun t => s.tables.denyList.contains t.entry.tap.token)).getD false
      = (s.granted (f s.store.arbiter)).store.grant.denied
    cases h : s.reckoner <;> simp [State.granted, h]
  refine State.eq_of_fields rfl rfl rfl rfl rfl rfl rfl rfl rfl ?_ ?_ rfl rfl rfl rfl rfl
  · refine JourneyStore.eq_of_fields rfl rfl rfl rfl rfl ?_
    change (⟨s.clock.sec, s.clock.serviceDay, (grantReading (onArbiter f s)).denied, s.sweep.visit⟩
      : GrantReading) = _
    rw [denied]
    rfl
  · unfold readGrant passTurn State.granted
    dsimp only
    split
    · cases turn : s.sweep.turn <;> simp_all [onArbiter, Turn.other, holder]
    · simp_all [onArbiter, holder]

theorem requestStore_of_free (free : holder s = none) (r : Requester) :
    requestStore r s = s.granted (s.store.arbiter.grant r) := by
  have now := Arbiter.request_of_free free r
  unfold requestStore
  rw [arbitrate_of_grant free (by rw [now]; simp), readGrant_eq, now]

theorem requestStore_of_held (held : holder s ≠ none) (r : Requester) :
    requestStore r s = { s with store := { s.store with arbiter := s.store.arbiter.request r } } :=
  arbitrate_of_no_grant (.inl held)

/-- A request for the store neither reads nor changes the request slots. -/
theorem requestStore_withPhase (q : Requester) (s : State) (p : Phase) :
    requestStore q (s.withPhase before r after p) = (requestStore q s).withPhase before r after p := by
  unfold requestStore arbitrate
  by_cases grants : holder s = none ∧ holder (onArbiter (fun a => a.request q) s) ≠ none
  · rw [if_pos grants]
    exact if_pos grants
  · rw [if_neg grants]
    exact if_neg grants

/-! ### The release of the store (R61, R141) -/

theorem Arbiter.vacate_of_free {a : Arbiter} (free : a.holder = none) : a.vacate = a := by
  cases a
  simp_all [Arbiter.vacate]

theorem onArbiter_vacate (free : holder s = none) : onArbiter Arbiter.vacate s = s := by
  have same : s.store.arbiter.vacate = s.store.arbiter := Arbiter.vacate_of_free free
  unfold onArbiter
  rw [same]

theorem releaseStore_of_due {x : SlotId} (due : s.tables.swapDue = some x) :
    releaseStore s = releaseStore (makeSwap x (onArbiter Arbiter.vacate s)) := by
  have free : holder (onArbiter Arbiter.vacate s) ≠ some .reckoner := by
    simp [holder, onArbiter, Arbiter.vacate]
  have swapped : holder (makeSwap x (onArbiter Arbiter.vacate s)) = none := by
    simp [holder, onArbiter, Arbiter.vacate]
  unfold releaseStore
  rw [onArbiter_vacate swapped, settleSwap_of_due (s := onArbiter Arbiter.vacate s) (x := x) due free,
    settleSwap_of_not (s := makeSwap x _) (.inl (makeSwap_swapDue _ _))]

theorem releaseStore_of_none (settled : s.tables.swapDue = none) : releaseStore s
    = arbitrate (Arbiter.release s.sweep.spillMode) (onArbiter Arbiter.vacate s) := by
  unfold releaseStore
  rw [settleSwap_of_not (s := onArbiter Arbiter.vacate s) (.inl settled)]
  rfl

/-! ### The operation presented (R60, R83, log 23) -/

theorem managementOutstanding_iff (s : State) : managementOutstanding s = false ↔ outstanding s = 0 := by
  refine ⟨outstanding_of_not, fun none => ?_⟩
  simp only [outstanding, Nat.add_eq_zero_iff, List.length_eq_zero_iff, List.filter_eq_nil_iff,
    ite_eq_right_iff, Nat.one_ne_zero, imp_false, Bool.not_eq_true] at none
  simp only [managementOutstanding, none.2, Bool.false_or, List.any_eq_false]
  simpa using none.1

theorem presentNext_of_outstanding (busy : outstanding s ≠ 0) : presentNext s = s := by
  have waits : managementOutstanding s = true := by
    rw [← Bool.not_eq_false, managementOutstanding_iff]; exact busy
  unfold presentNext
  rw [if_pos waits]

theorem isWaitingOperation_eq_false (q : HeldRequest) :
    q.isWaitingOperation = false ↔ q.phase ≠ .waitingEntries ∧ q.phase ≠ .ready := by
  simp [HeldRequest.isWaitingOperation]

theorem presentNext_of_none (none : ∀ q ∈ s.mgmt.requests, q.phase ≠ .waitingEntries ∧ q.phase ≠ .ready) :
    presentNext s = s := by
  have nothing : s.mgmt.requests.find? HeldRequest.isWaitingOperation = .none :=
    List.find?_eq_none.mpr fun q hq => by
      simpa [isWaitingOperation_eq_false] using (isWaitingOperation_eq_false q).mpr (none q hq)
  unfold presentNext
  split
  · rfl
  · rw [nothing]

/-- What is presented when nothing is outstanding, by the earliest operation that waits. -/
theorem presentNext_of (idle : outstanding s = 0) (parts : s.mgmt.requests = before ++ r :: after)
    (first : ∀ q ∈ before, q.phase ≠ .waitingEntries ∧ q.phase ≠ .ready) :
    (r.phase = .waitingEntries → presentNext s = s)
    ∧ (r.phase = .ready →
      presentNext s = (requestStore .management s).withPhase before r after .presented) := by
  have others : ∀ q ∈ before, q.isWaitingOperation = false := fun q hq =>
    (isWaitingOperation_eq_false q).mpr (first q hq)
  have quiet := (managementOutstanding_iff s).mpr idle
  refine ⟨fun waiting => ?_, fun ready => ?_⟩
  · have found : s.mgmt.requests.find? HeldRequest.isWaitingOperation = some r := by
      rw [parts]; exact find?_split others (by simp [HeldRequest.isWaitingOperation, waiting])
    simp [presentNext, quiet, found, waiting]
  · have found : s.mgmt.requests.find? HeldRequest.isWaitingOperation = some r := by
      rw [parts]; exact find?_split others (by simp [HeldRequest.isWaitingOperation, ready])
    have presented : onRequests (modifyFirst (fun r => r.phase == .ready)
        (fun r => { r with phase := .presented })) s = s.withPhase before r after .presented := by
      unfold onRequests State.withPhase
      rw [parts, modifyFirst_split (fun q hq => by simpa using (first q hq).2) (by simp [ready])]
    rw [← requestStore_withPhase, ← presented]
    simp [presentNext, quiet, found, ready]

/-! ### The entries set aside (R163) -/

theorem setAsideOperation_of {which : Held} (parts : s.mgmt.requests = before ++ r :: after)
    (place : before.length = heldIndex which) (waiting : r.phase = .waitingEntries) :
    setAsideOperation (heldIndex which) s = if entriesNeeded r.request ≤ officeFree s then
      presentNext ((setAside (entriesNeeded r.request) s).withPhase before r after .ready) else s := by
  have found : s.mgmt.requests[heldIndex which]? = some r := by rw [parts, ← place]; simp
  have changed : onRequests (fun l => l.set (heldIndex which) { r with phase := .ready }) s
      = s.withPhase before r after .ready := by
    unfold onRequests State.withPhase
    dsimp only
    rw [parts, ← place]
    simp
  unfold setAsideOperation
  rw [found]
  dsimp only
  rw [changed]
  simp only [waiting, true_and]
  rfl

/-- An operation that becomes ready is not yet outstanding. -/
theorem outstanding_ready (parts : s.mgmt.requests = before ++ r :: after)
    (waiting : r.phase = .waitingEntries) :
    outstanding (s.withPhase before r after .ready) = outstanding s := by
  refine outstanding_add (n := 0) rfl ?_
  rw [parts]
  simp [State.withPhase, presentedOf_split, waiting]

/-! ### The end of an operation (R7, R60, R81, R100) -/

theorem transmitOffice_withAside (n : Nat) (m : Management) (s : State) :
    transmitOffice { s with officeQueue := { s.officeQueue with setAside := n }, mgmt := m }
      = { transmitOffice s with
          officeQueue := { (transmitOffice s).officeQueue with setAside := n }, mgmt := m } := by
  unfold transmitOffice
  split <;> simp_all

/-- An operation's reply takes its entry; what is left is returned, its slot freed, the store released. -/
theorem replyAndEnd_of {reply : Reply} (unused : Nat) (parts : s.mgmt.requests = before ++ r :: after)
    (others : ∀ q ∈ before, q.phase ≠ .presented) (presented : r.phase = .presented) :
    replyAndEnd r reply unused s = presentNext (releaseStore
      (placeFrame (.reply r.sequence r.number r.code reply) { s with
        officeQueue := { s.officeQueue with setAside := s.officeQueue.setAside - 1 - unused }
        mgmt := { s.mgmt with requests := before ++ after } })) := by
  have erased : s.mgmt.requests.eraseP (fun r => r.phase == .presented) = before ++ after := by
    rw [parts]
    exact eraseP_split (fun q hq => by simpa using others q hq) (by simp [presented])
  unfold replyAndEnd endOperation
  congr 2
  unfold placeReply placeFrame
  have moved := transmitOffice_withAside (s.officeQueue.setAside - 1 - unused)
    { s.mgmt with requests := before ++ after }
    { returnAside 1 s with officeQueue := { (returnAside 1 s).officeQueue with
        frames := (returnAside 1 s).officeQueue.frames
          ++ [.reply r.sequence r.number r.code reply] } }
  refine Eq.trans ?_ moved.symm
  simp only [onRequests, returnAside, transmitOffice_frame, erased]

theorem grantedOperation_of (granted : GrantedOperation s before r after) :
    grantedOperation s = some r := by
  obtain ⟨_, held, still, parts, others, presented⟩ := granted
  unfold grantedOperation presentedOperation
  rw [if_pos ⟨held, still⟩, parts]
  exact find?_split (fun q hq => by simpa using others q hq) (by simp [presented])

/-! ### The accounts of a token (R100) -/

theorem mem_insertByDay {w v : AccountWay} (l : List AccountWay) :
    v ∈ insertByDay w l ↔ v = w ∨ v ∈ l := by
  induction l with
  | nil => simp [insertByDay]
  | cons x xs ih =>
    unfold insertByDay
    split
    · simp
    · simp only [List.mem_cons, ih]
      exact or_left_comm

theorem insertByDay_ascending {w : AccountWay} {l : List AccountWay}
    (h : (l.map (fun w => w.account.day)).Pairwise (· ≤ ·)) :
    ((insertByDay w l).map (fun w => w.account.day)).Pairwise (· ≤ ·) := by
  induction l with
  | nil => simp [insertByDay]
  | cons x xs ih =>
    simp only [List.map_cons, List.pairwise_cons, List.mem_map, forall_exists_index, and_imp,
      forall_apply_eq_imp_iff₂] at h
    obtain ⟨head, tail⟩ := h
    unfold insertByDay
    split
    next le =>
      simp only [List.map_cons, List.pairwise_cons, List.mem_cons, List.mem_map,
        forall_eq_or_imp, forall_exists_index, and_imp, forall_apply_eq_imp_iff₂]
      exact ⟨⟨le, fun v hv => Nat.le_trans le (head v hv)⟩, head, tail⟩
    next gt =>
      simp only [List.map_cons, List.pairwise_cons, List.mem_map, forall_exists_index, and_imp,
        forall_apply_eq_imp_iff₂, mem_insertByDay]
      refine ⟨fun v hv => ?_, ih tail⟩
      rcases hv with rfl | hv
      · omega
      · exact head v hv

theorem mem_foldr_insertByDay {v : AccountWay} (l : List AccountWay) :
    v ∈ l.foldr insertByDay [] ↔ v ∈ l := by
  induction l with
  | nil => simp
  | cons x xs ih => simp [mem_insertByDay, ih]

theorem foldr_insertByDay_ascending (l : List AccountWay) :
    ((l.foldr insertByDay []).map (fun w => w.account.day)).Pairwise (· ≤ ·) := by
  induction l with
  | nil => simp
  | cons x xs ih => exact insertByDay_ascending ih

theorem mem_accountsOf {v : AccountWay} {token : Token} (sound : AccountTable s.store.accounts) :
    v ∈ accountsOf s token ↔ v ∈ s.store.accounts ∧ v.account.token = token := by
  unfold accountsOf
  rw [mem_foldr_insertByDay]
  simp only [List.mem_filter, Bool.and_eq_true, beq_iff_eq]
  refine ⟨fun ⟨held, _, same⟩ => ⟨held, same⟩, fun ⟨held, same⟩ => ⟨held, ?_, same⟩⟩
  rw [sound.inSet v held, same]

theorem mem_findAccount {v : AccountWay} {token : Token} {day : Nat}
    (sound : AccountTable s.store.accounts) : v ∈ (findAccount s token day).toList ↔
      v ∈ s.store.accounts ∧ v.account.token = token ∧ v.account.day = day := by
  rw [Option.mem_toList]
  refine ⟨fun found => ?_, fun ⟨held, token, day⟩ => ?_⟩
  · have matched := List.find?_some found
    simp only [Bool.and_eq_true, beq_iff_eq] at matched
    exact ⟨List.mem_of_find?_eq_some found, matched.1.2, matched.2⟩
  · rw [← token, ← day]
    exact findAccount_eq sound held

end Sys2Proof.Machine

section
open Sys2Proof Sys2Proof.Machine

/-- Settles O30: the order, the requests and grants at the arbiter, and a request at the store. -/
theorem arbiterGrantsInOrder : Obligations.ArbiterGrantsInOrder := by
  refine ⟨Arbiter.choose_eq, fun b r => ⟨fun free => Arbiter.request_of_free free r, fun held => ?_,
    rfl, ?_⟩, fun s r => ⟨fun free => requestStore_of_free free r, fun held => requestStore_of_held held r⟩⟩
  · obtain ⟨q, holds⟩ := Option.ne_none_iff_exists'.mp held
    have marked : b.request r = b.mark true r := by simp [Arbiter.request, holds]
    rw [marked]
    refine ⟨by cases r <;> rfl, by cases r <;> rfl, fun q other => ?_, by cases r <;> rfl,
      by cases r <;> rfl⟩
    exact (waiting_mark b true r q).trans (if_neg other)
  · refine ⟨by cases r <;> rfl, fun q other => ?_, ?_, ?_⟩
    · exact (waiting_grant b r q).trans (if_neg other)
    · cases r <;> simp [Arbiter.grant, Arbiter.passOver, Arbiter.mark] <;> rfl
    · cases r <;> simp [Arbiter.grant, Arbiter.passOver, Arbiter.mark] <;> rfl

/-- Settles O29: the swap before the release, the arbiter's grant, and the operation presented next. -/
theorem storeReleasedAndHandedOn : Obligations.StoreReleasedAndHandedOn := by
  refine ⟨⟨fun s b settled leaves => ?_, fun s x due => releaseStore_of_due due,
    fun spill b => ⟨Arbiter.release_of_none, fun r => Arbiter.release_of_some⟩⟩,
    fun s => presentNext_of_outstanding, fun s => presentNext_of_none,
    fun s before after r => presentNext_of⟩
  have free : holder (onArbiter Arbiter.vacate s) = none := rfl
  subst leaves
  refine ⟨fun none => ?_, fun granted => ?_⟩
  · rw [releaseStore_of_none settled, arbitrate_of_no_grant (.inr none)]
    rfl
  · rw [releaseStore_of_none settled, arbitrate_of_grant free granted, readGrant_eq]
    rfl

/-- Settles O27: the operations taken, and the entries set aside in each order of the two slots. -/
theorem journeyOperationsWaitForEntries : Obligations.JourneyOperationsWaitForEntries := by
  refine ⟨fun s before after r token next => ⟨fun request => ?_, fun day request => ?_,
    fun request => ?_, fun station time request => ⟨fun valid => ?_, fun invalid => ?_⟩,
    fun v request => ?_⟩, fun s u before after r which n high parts place waiting needed aside => ?_⟩
  · exact exec_advances (t := s) next (by rw [request]; rfl) (by rw [request]; rfl) rfl
  · exact exec_advances (t := s) next (by rw [request]; rfl) (by rw [request]; rfl) rfl
  · exact exec_advances (t := s) next (by rw [request]; rfl) (by rw [request]; rfl) rfl
  · exact exec_advances (t := s) next (by rw [request]; rfl)
      (by rw [request]; simp [carryOut, closeFormValid, valid]) rfl
  · exact exec_answers (t := s) (reply := Reply.malformed) next (by rw [request]; rfl)
      (by rw [request]; simp [carryOut, closeFormValid, Nat.not_le.mpr invalid]) rfl
  · rcases request with request | request <;>
      exact exec_answers (t := s) (reply := Reply.malformed) next (by rw [request]; rfl)
        (by rw [request]; rfl) rfl
  · have entries : n = entriesNeeded r.request := by
      rw [needed]; cases r.request <;> rfl
    have run : exec (.journeyOperationSetAside which) s = .next (if n ≤ officeFree s then
        presentNext (u.withPhase before r after .ready) else s) := by
      rw [exec_high high, aside, entries]
      exact congrArg _ (setAsideOperation_of parts place waiting)
    have held : (u.withPhase before r after .ready).mgmt.requests
        = before ++ { r with phase := .ready } :: after := rfl
    have books : outstanding (u.withPhase before r after .ready) = outstanding s := by
      subst aside
      exact outstanding_ready parts waiting
    rw [run]
    refine ⟨fun short => by rw [if_neg (by omega)], fun room idle first => ?_,
      fun room idle early late q split first => ?_, fun room busy => ?_⟩
    · rw [if_pos room, (presentNext_of (books.trans idle) held first).2 rfl, requestStore_withPhase]
      rfl
    · have regrouped : (u.withPhase before r after .ready).mgmt.requests
          = early ++ q :: (late ++ { r with phase := .ready } :: after) := by
        rw [held, split]; simp
      obtain ⟨waits, ready⟩ := presentNext_of (books.trans idle) regrouped first
      refine ⟨fun phase => by rw [if_pos room, waits phase], fun phase => ?_⟩
      rw [if_pos room, ready phase, requestStore_withPhase]
      simp [State.withPhase]
    · rw [if_pos room, presentNext_of_outstanding (by rwa [books])]

/-- Settles O28: the reply in its set-aside entry, and the accounts a reply holds. -/
theorem queriesAnswered : Obligations.QueriesAnswered := by
  intro s before after r token granted
  have operation := grantedOperation_of granted
  obtain ⟨high, _, _, parts, others, presented⟩ := granted
  refine ⟨fun request result known => ?_, fun day request sound => ?_⟩
  · have reply : queryReply token s = ⟨.done, .none, result⟩ := by
      rcases known with ⟨none, rfl⟩ | ⟨w, found, rfl⟩
      · simp [queryReply, none, Reply.done]
      · simp [queryReply, found, Reply.done]
    have run : exec .journeyQueryGrant s = .next (replyAndEnd r (queryReply token s) 0 s) := by
      rw [exec_high high]
      simp [effect, grantEffect, operation, request]
    rw [run, reply, replyAndEnd_of 0 parts others presented]
    rfl
  · have table := (accountsSound_iff s).mp sound
    have run : exec .accountQueryGrant s = .next (replyAndEnd r (accountReply token day s) 0 s) := by
      rw [exec_high high]
      simp [effect, grantEffect, operation, request]
    rw [run, replyAndEnd_of 0 parts others presented]
    cases day with
    | none =>
      refine ⟨accountsOf s token, rfl, foldr_insertByDay_ascending _, fun w => ?_⟩
      simp [mem_accountsOf table]
    | some d =>
      refine ⟨(findAccount s token d).toList, rfl, ?_, fun w => ?_⟩
      · cases findAccount s token d <;> simp
      · rw [mem_findAccount table]
        simp [eq_comm]

end
end

