-- ==== Sys2Proof/Proofs/Screening.lean ====
section
/-! SUPPORT. The Reckoner's taking and screening of taps, what a transaction with one record leaves, the answer deadlines, and O36, O37, O38, O46. -/

namespace Sys2Proof.Machine

variable {s t : State}

/-! ### Frames to the gates and to the office -/

theorem transmitLine_eq (s : State) :
    transmitLine s = { s with linePort := (transmitLine s).linePort } := by
  unfold transmitLine
  split
  · split <;> rfl
  · rfl

theorem transmitOffice_eq (s : State) :
    transmitOffice s = { s with officePort := (transmitOffice s).officePort } := by
  unfold transmitOffice
  split <;> rfl

/-- A verdict in its reserved place touches the Line Port and the Verdict Queue (R2). -/
theorem fillReserved_eq (v : Verdict) (s : State) : fillReserved v s = { s with
    linePort := (fillReserved v s).linePort
    verdictQueue := {
      frames := s.verdictQueue.frames ++ [v]
      reserved := s.verdictQueue.reserved - 1 } } :=
  transmitLine_eq _

/-- The Fallback "late" takes the reserved place and is counted (R6). -/
theorem lateVerdict_eq (e : TapEntry) (s : State) : lateVerdict e s = { s with
    linePort := (lateVerdict e s).linePort
    verdictQueue := {
      frames := s.verdictQueue.frames ++ [plainVerdict e.tap .fallback .late]
      reserved := s.verdictQueue.reserved - 1 }
    mgmt := { s.mgmt with counters := { s.mgmt.counters with
      fallbacksLate := bump s.mgmt.counters.fallbacksLate } } } := by
  unfold lateVerdict
  rw [fillReserved_eq]
  rfl

/-- A transaction with one record: the record, the answer, the Reckoner Idle (R6, R7). -/
theorem endTransaction_one_eq (e : TapEntry) (c d : Bool) (s : State) (a : Answer) (r : Record) :
    endTransaction e c d ⟨s, [r], a⟩ = { s with
      linePort := (endTransaction e c d ⟨s, [r], a⟩).linePort
      officePort := (endTransaction e c d ⟨s, [r], a⟩).officePort
      verdictQueue := if e.answeredLate then s.verdictQueue else {
        frames := s.verdictQueue.frames ++ [verdictFor e.tap (toGate e.tap c a)]
        reserved := s.verdictQueue.reserved - 1 }
      officeQueue := {
        frames := s.officeQueue.frames
          ++ [.record s.officeQueue.sequence (decorate e.tap e.answeredLate c d r)]
        setAside := s.officeQueue.setAside - 3
        sequence := (s.officeQueue.sequence + 1) % 256 }
      reckoner := none
      mgmt := { s.mgmt with counters := Counters.record r.kind s.mgmt.counters } } := by
  obtain ⟨h1, h2, h5, h6, h7, h9, h10, h11, h12, h13, h15, h16, h14⟩ :=
    endTransaction_frame e c d ⟨s, [r], a⟩
  exact State.eq_of_fields h1 h2 rfl rfl h5 h6 h7 (endTransaction_one e c d s a r) h9 h10 h11 h12 h13
    h14 h15 h16

/-- A live tap's answer with no "time clamped" to carry is told as it is (R14). -/
theorem toGate_plain_live {tap : Tap} (live : tap.deferred = false) {clamped : Bool}
    {kind : VerdictKind} {reason : Reason}
    (bare : clamped = false ∨ (kind ≠ .go ∧ kind ≠ .goPending)) :
    verdictFor tap (toGate tap clamped (Answer.plain kind reason)) = plainVerdict tap kind reason := by
  have carried : (clamped && (kind == .go || kind == .goPending)) = false := by
    rcases bare with rfl | ⟨notGo, notPending⟩ <;> simp [*]
  simp [verdictFor, toGate, plainVerdict, Answer.plain, live, carried]

/-- A deferred tap is told Recorded (R13, R104). -/
theorem toGate_plain_deferred {tap : Tap} (deferred : tap.deferred = true) {kind : VerdictKind}
    {reason : Reason} :
    verdictFor tap (toGate tap false (Answer.plain kind reason))
      = plainVerdict tap .recorded .none := by
  simp [verdictFor, toGate, plainVerdict, Answer.plain, deferred]

/-! ### Screening (R9 to R11, R102, R103) -/

theorem fieldsValid_iff (tap : Tap) : fieldsValid tap = true ↔ tap.station ≤ 63 ∧ tap.fareClass ≤ 7
    ∧ (tap.direction = 1 ∨ tap.direction = 2)
    ∧ ∀ p, tap.pass = some p → p.fromStation ≤ 63 ∧ p.toStation ≤ 63 := by
  unfold fieldsValid Tap.isEntry Tap.isExit
  cases tap.pass <;> simp [and_assoc]

theorem screen_of_invalid {tables : Bool} {settings : RunSettings} {e : TapEntry}
    (invalid : fieldsValid e.tap = false) : screen tables settings e = malformedEnd e.tap := by
  simp [screen, invalid]

theorem screen_of_valid {settings : RunSettings} {e : TapEntry} (valid : fieldsValid e.tap = true) :
    screen true settings e
      = if e.tap.deferred then screenDeferred settings e else screenLive settings e := by
  simp [screen, valid]

theorem screen_without_tables {settings : RunSettings} {e : TapEntry}
    (valid : fieldsValid e.tap = true) :
    screen false settings e = .ended .unpriced .noTables (Answer.plain .outOfService .none) := by
  simp [screen, valid]

/-! ### The tap taken (R8) -/

theorem takeTap_of_head {e : TapEntry} {rest : List TapEntry} (idle : s.reckoner = none)
    (head : s.tapQueue = e :: rest) (room : 3 ≤ officeFree s) : takeTap s = takeHead e rest s := by
  simp [takeTap, idle, head, room]

/-- What the Reckoner screens and goes on with: the swap made, the tap out of the queue, 3 entries set aside. -/
abbrev takenState (rest : List TapEntry) (s : State) : State :=
  setAside 3 { settleSwap s with tapQueue := rest }

theorem takeHead_of_ended {e : TapEntry} {rest : List TapEntry} {kind : RecordKind} {reason : Reason}
    {a : Answer} (ended : screen (activeSlot (settleSwap s)).isSome (settleSwap s).mgmt.settings e
      = .ended kind reason a) :
    takeHead e rest s = screenedOut kind reason a e (takenState rest s) := by
  have same : screen (activeSlot (takenState rest s)).isSome (takenState rest s).mgmt.settings e
      = .ended kind reason a := ended
  unfold takeHead
  simp only [same]

theorem takeHead_of_passed {e : TapEntry} {rest : List TapEntry} {time : Nat} {clamped : Bool}
    (passed : screen (activeSlot (settleSwap s)).isSome (settleSwap s).mgmt.settings e
      = .passed time clamped) :
    takeHead e rest s
      = requestStore .reckoner { takenState rest s with reckoner := some ⟨e, time, clamped⟩ } := by
  have same : screen (activeSlot (takenState rest s)).isSome (takenState rest s).mgmt.settings e
      = .passed time clamped := passed
  unfold takeHead
  simp only [same]

/-- A tap that screening ends: its record and its answer, the entries given back (R7, R9, R10, R103). -/
theorem screenedOut_eq (kind : RecordKind) (reason : Reason) (a : Answer) (e : TapEntry)
    (rest : List TapEntry) (s : State) : ∃ t, screenedOut kind reason a e (takenState rest s) = t
      ∧ t = { settleSwap s with
        linePort := t.linePort
        officePort := t.officePort
        tapQueue := rest
        verdictQueue := if e.answeredLate then s.verdictQueue else {
          frames := s.verdictQueue.frames ++ [verdictFor e.tap (toGate e.tap false a)]
          reserved := s.verdictQueue.reserved - 1 }
        officeQueue := { s.officeQueue with
          frames := s.officeQueue.frames ++ [.record s.officeQueue.sequence
            (decorate e.tap e.answeredLate false false
              { newRecord s kind e.tap.token e.tap.fareClass with reason := reason })]
          sequence := (s.officeQueue.sequence + 1) % 256 }
        reckoner := none
        mgmt := { (settleSwap s).mgmt with
          counters := Counters.record kind (settleSwap s).mgmt.counters } } := by
  refine ⟨_, rfl, (endTransaction_one_eq ..).trans ?_⟩
  refine State.eq_of_fields rfl rfl rfl rfl rfl ?_ rfl ?_ rfl rfl rfl rfl rfl rfl rfl rfl
  · simp [setAside]
  · simp [setAside, newRecord]

end Sys2Proof.Machine

section
open Sys2Proof Sys2Proof.Machine

/-- Settles O36: the Reckoner that cannot take, the takings in a row, and the tap that passes. -/
theorem tapTaken : Obligations.TapTaken := by
  refine ⟨fun s unable => ⟨?_, takeUpTo_of_unable unable _⟩, fun s u high taken => ?_,
    fun s u e rest time clamped high idle head room swapped live station fareClass direction pass
      times => ?_⟩
  · rw [exec_eq]
    change Host.Outcome.next (if _ then s else takeTap s) = _
    rw [takeTap_of_unable unable, ite_self]
  · rw [exec_high high] at taken
    obtain rfl : takeTap s = u := Host.Outcome.next.inj taken
    by_cases unable : s.reckoner.isSome = true ∨ s.tapQueue = [] ∨ officeFree s < 3
    · rw [takeTap_of_unable unable]
    · simp only [not_or, Bool.not_eq_true, Option.isSome_eq_false_iff, Option.isNone_iff_eq_none,
        Nat.not_lt] at unable
      obtain ⟨idle, some, room⟩ := unable
      obtain ⟨e, rest, head⟩ := List.exists_cons_of_ne_nil some
      rw [takeTaps_of_head idle head room, takeTap_of_head idle head room]
  · have run : exec .reckonerTakeTap s = .next (takeTap s) := exec_high high _
    subst swapped
    have passes : screen (activeSlot (settleSwap s)).isSome (settleSwap s).mgmt.settings e
        = .passed time clamped := by
      rw [Option.isSome_iff_ne_none.mpr live,
        screen_of_valid ((fieldsValid_iff _).mpr ⟨station, fareClass, direction, pass⟩)]
      rcases times with ⟨now, early, late, rfl, rfl⟩ | ⟨now, apart, rfl, rfl⟩
          | ⟨deferred, early, rfl, rfl⟩ | ⟨deferred, early, late, rfl, rfl⟩
      · rw [if_neg (by simp [now]), screenLive, if_pos (by omega)]
      · rw [if_neg (by simp [now]), screenLive, if_neg (by omega)]
      · rw [if_pos deferred, screenDeferred, if_pos early]
      · rw [if_pos deferred, screenDeferred, if_neg (by omega), if_neg (by omega)]
    rw [run, takeTap_of_head idle head room, takeHead_of_passed passes]
    rfl

/-- Settles O37: each way screening ends a tap, then the one record and the answer. -/
theorem tapEndedByScreening : Obligations.TapEndedByScreening := by
  intro s u e rest kind reason told why valid high idle head room swapped fields ended
  have known : valid = fieldsValid e.tap := by
    rw [Bool.eq_iff_iff, fields, fieldsValid_iff]
  subst swapped known
  have screened : ∃ a, screen (activeSlot (settleSwap s)).isSome (settleSwap s).mgmt.settings e
        = .ended kind reason a
      ∧ verdictFor e.tap (toGate e.tap false a) = plainVerdict e.tap told why := by
    rcases ended with ⟨invalid, live, entry, rfl, rfl, rfl, rfl⟩
        | ⟨invalid, live, notEntry, rfl, rfl, rfl, rfl⟩ | ⟨invalid, deferred, rfl, rfl, rfl, rfl⟩
        | ⟨valid, none, live, rfl, rfl, rfl, rfl⟩ | ⟨valid, none, deferred, rfl, rfl, rfl, rfl⟩
        | ⟨valid, active, deferred, stale, rfl, rfl, rfl, rfl⟩
    · refine ⟨_, ?_, toGate_plain_live live (.inl rfl)⟩
      simp [screen_of_invalid invalid, malformedEnd, live, Tap.isEntry, entry]
    · refine ⟨_, ?_, toGate_plain_live live (.inl rfl)⟩
      simp [screen_of_invalid invalid, malformedEnd, Tap.isEntry, notEntry]
    · refine ⟨Answer.plain .goPending .none, ?_, toGate_plain_deferred deferred⟩
      simp [screen_of_invalid invalid, malformedEnd, deferred]
    · refine ⟨_, ?_, toGate_plain_live live (.inl rfl)⟩
      rw [none, Option.isSome_none, screen_without_tables valid]
    · refine ⟨Answer.plain .outOfService .none, ?_, toGate_plain_deferred deferred⟩
      rw [none, Option.isSome_none, screen_without_tables valid]
    · refine ⟨Answer.plain .recorded .none, ?_, toGate_plain_deferred deferred⟩
      rw [Option.isSome_iff_ne_none.mpr active, screen_of_valid valid, if_pos deferred,
        screenDeferred, if_neg (by omega), if_pos stale]
  obtain ⟨a, screened, told⟩ := screened
  have run : exec .reckonerTakeTap s = .next (takeTap s) := exec_high high _
  obtain ⟨t, out, is⟩ := screenedOut_eq kind reason a e rest s
  rw [run, takeTap_of_head idle head room, takeHead_of_ended screened, out]
  refine ⟨t, rfl, is.trans ?_⟩
  rw [told]
  refine State.eq_of_fields rfl rfl rfl rfl rfl ?_ rfl ?_ ?_ rfl rfl rfl rfl rfl rfl rfl
  · simp
  · simp [decorate, newRecord, Tap.received]
  · simp [idle]

/-- Settles O46: the Fallback "late" for a tap in the queue and for the Reckoner's. -/
theorem deadlineAnswersLate : Obligations.DeadlineAnswersLate := by
  intro s late e high answered
  subst answered
  have expired (due : e.deadline = 0) (open_ : e.answeredLate = false) : e.expired = true := by
    simp [TapEntry.expired, due, open_]
  have running (h : e.deadline ≠ 0 ∨ e.answeredLate = true) : e.expired = false := by
    rcases h with h | h <;> simp [TapEntry.expired, h]
  refine ⟨fun before after parts => ?_, fun time clamped taken => ?_⟩
  · have run : exec (.answerDeadlineExpiry (.queued before.length)) s
        = .next (expireQueued before.length s) := exec_high high _
    have found : s.tapQueue[before.length]? = some e := by rw [parts]; simp
    refine ⟨fun due open_ => ⟨_, run, ?_⟩, fun h => ?_⟩
    · simp only [expireQueued, found, expired due open_, if_true]
      refine (lateVerdict_eq ..).trans ?_
      simp [parts]
    · rw [run]
      simp [expireQueued, found, running h]
  · have run : exec (.answerDeadlineExpiry .reckoner) s = .next (expireReckoner s) := exec_high high _
    refine ⟨fun due open_ => ⟨_, run, ?_⟩, fun h => ?_⟩
    · simp only [expireReckoner, taken, expired due open_, if_true]
      exact lateVerdict_eq ..
    · rw [run]
      simp [expireReckoner, taken, running h]

/-- Settles O38: the three checks of a live entry, in their order, and the one record that is left. -/
theorem entryRefusedAtGrant : Obligations.EntryRefusedAtGrant := by
  intro s x tr tables reason granted entry live under refused
  subst under
  have notExit : exitDenied tr s = false := by simp [exitDenied, Tap.isEntry, entry]
  have handled : handleTap x tr s = entryTurnedAway .refused reason (Answer.plain .refused reason)
      ⟨tr.entry.tap, tr.tapTime, tr.clamped, x⟩ s := by
    unfold handleTap
    simp only [Tap.isEntry, entry, live, beq_self_eq_true, if_true, Bool.false_eq_true, if_false,
      liveEntry]
    rcases refused with ⟨absent, rfl⟩ | ⟨present, barred, rfl⟩ | ⟨present, permitted, denied, rfl⟩
    · simp [absent]
    · simp [present, barred]
    · simp [present, permitted, denied]
  rw [exec_reckonerGrant_of granted, handled, notExit]
  refine ⟨_, rfl, (endTransaction_one_eq ..).trans ?_⟩
  rw [toGate_plain_live live (.inr ⟨by decide, by decide⟩)]
  refine State.eq_of_fields rfl rfl rfl rfl rfl rfl rfl ?_ rfl rfl rfl rfl rfl rfl rfl rfl
  simp [decorate, newRecord, Tap.received, live]

end
end

