-- ==== Sys2Proof/Proofs/Closings.lean ====
section
/-! SUPPORT. What closing a journey leaves: its account written, its report and its count message, its record placed, and the closings of the Sweep, the drain and the office, with O31, O35, O47. -/

namespace Sys2Proof.Machine

variable {s t : State} {w : JourneyWay}

/-! ### The act of closing (R70, R124, R142, log 25) -/

/-- A count message touches its slot and, with the last of a Retiring one, the events (R142). -/
theorem noteClosing_eq (x : SlotId) (s : State) : ∃ a b, noteClosing x s = { s with
    tables := { s.tables with slotA := a, slotB := b }
    mgmt := { s.mgmt with events := freedAt s x s.mgmt.events } } := by
  have freed : ((slotOf s x).state = .retiring ∧ (slotOf s x).refCount ≤ 1)
      ↔ ((slotOf s x).state = .retiring ∧ (slotOf s x).refCount - 1 = 0) := by
    rw [Nat.sub_eq_zero_iff_le]
  refine ⟨(noteClosing x s).tables.slotA, (noteClosing x s).tables.slotB, ?_⟩
  refine State.eq_of_fields ?_ ?_ ?_ ?_ ?_ ?_ ?_ ?_ ?_ ?_ ?_ ?_ ?_ ?_ ?_ ?_
  case refine_12 => exact TableStore.eq_of_fields rfl rfl (by simp) (by simp)
  case refine_14 =>
    unfold noteClosing freedAt
    simp only [freed]
    split <;> rfl
  all_goals simp

/-- The journeys once one has left the table. -/
abbrev journeysWithout (w : JourneyWay) (s : State) : List JourneyWay :=
  s.store.journeys.filter (fun v => v.slot != w.slot)

/-- A closing: the way freed, the occupancy reported, the tag's count message sent (R70, log 25). -/
theorem closeJourney_eq (w : JourneyWay) (s : State) : ∃ a b, closeJourney w s = { s with
    store := { s.store with journeys := journeysWithout w s }
    sweep := { s.sweep with spillMode := spillModeAt s (journeysWithout w s).length }
    tables := { s.tables with slotA := a, slotB := b }
    mgmt := { s.mgmt with
      events := closingEvents s w.journey.tag (journeysWithout w s).length s.mgmt.events } } := by
  obtain ⟨a, b, told⟩ := noteClosing_eq w.journey.tag (compareMarks (removeJourney w.slot s))
  refine ⟨a, b, told.trans ?_⟩
  rw [compareMarks_eq]
  rfl

/-! ### The account a closing writes (R88, R91, R92, R95) -/

theorem obtainAccount_eq (token : Token) (day : Nat) (s : State) : (obtainAccount token day s).1 = { s with
    store := { s.store with
      accounts := (obtainAccount token day s).1.store.accounts
      accountFullDay := (obtainAccount token day s).1.store.accountFullDay }
    mgmt := { s.mgmt with events := (obtainAccount token day s).1.mgmt.events } } := by
  unfold obtainAccount
  split
  · rfl
  · split
    · rfl
    · unfold noteUntracked
      split <;> rfl

theorem writeAccount_eq (held : State × Option Nat) (f : Account → Account) :
    writeAccount held.2 f held.1 = { held.1 with
      store := { held.1.store with accounts := accountsWith held f } } := by
  obtain ⟨u, slot⟩ := held
  cases slot <;> rfl

/-- An obtained account written: the accounts, the day of Account Full and its event (R88, R91). -/
theorem writeAccount_obtained {token : Token} {day : Nat} {held : State × Option Nat}
    (is : held = obtainAccount token day s) (f : Account → Account) :
    writeAccount held.2 f held.1 = { s with
      store := { s.store with
        accounts := accountsWith held f
        accountFullDay := held.1.store.accountFullDay }
      mgmt := { s.mgmt with events := held.1.mgmt.events } } := by
  rw [writeAccount_eq, is, obtainAccount_eq]

/-- A closing whose account is obtained and written first (R78, R82, R123). -/
theorem closeJourney_obtained {token : Token} {day : Nat} {held : State × Option Nat}
    (is : held = obtainAccount token day s) (f : Account → Account) (w : JourneyWay) :
    ∃ a b, closeJourney w (writeAccount held.2 f held.1) = { s with
      store := { s.store with
        journeys := journeysWithout w s
        accounts := accountsWith held f
        accountFullDay := held.1.store.accountFullDay }
      sweep := { s.sweep with spillMode := spillModeAt s (journeysWithout w s).length }
      tables := { s.tables with slotA := a, slotB := b }
      mgmt := { s.mgmt with
        events := closingEvents s w.journey.tag (journeysWithout w s).length held.1.mgmt.events } } := by
  rw [writeAccount_obtained is]
  exact closeJourney_eq w _

/-- What a pricing reads of the tables does not change with the accounts. -/
theorem fareContext_obtained {token : Token} {day : Nat} {held : State × Option Nat}
    (is : held = obtainAccount token day s) (x : SlotId) : fareContext held.1 x = fareContext s x := by
  rw [is, obtainAccount_eq]
  rfl

/-! ### The closing records (R47, R75, R95, R123, R125) -/

theorem incompletePricing_priced (g : FareContext) (fareClass station time : Nat)
    (continuation : Option Continuation) :
    (incompletePricing g fareClass station time continuation none).priced
      = ⟨0, incompleteCharge g fareClass time continuation,
        [⟨incompleteOwner g.tables station continuation,
          incompleteCharge g fareClass time continuation⟩]⟩ := by
  simp [Pricing.priced, incompletePricing, dealShares]

/-- The account of a journey, by its continuation origin's service day where it has one (R87). -/
abbrev heldFor (w : JourneyWay) (s : State) : State × Option Nat :=
  obtainAccount w.journey.token (serviceDay s.mgmt.settings.rolloverMinute
    ((w.journey.continuation.map Continuation.originTime).getD w.journey.entryTime)) s

/-- The last incomplete a closing sets (R95). -/
abbrev incompleteOf (w : JourneyWay) (s : State) : LastIncomplete where
  entryStation := w.journey.entryStation
  entryTime := w.journey.entryTime
  fareClass := w.journey.fareClass
  charge := incompleteCharge (fareContext s w.journey.tag) w.journey.fareClass w.journey.entryTime
    w.journey.continuation
  reference := w.journey.reference

theorem closeIncomplete_st (extra : RecordFlags) (w : JourneyWay) (s : State) :
    (closeIncomplete extra w s).st = closeJourney w
      (writeAccount (heldFor w s).2 (Account.withIncomplete (incompleteOf w s)) (heldFor w s).1) := by
  have same := fareContext_obtained (s := s) (held := heldFor w s) rfl w.journey.tag
  unfold incompleteOf
  rw [← same]
  rfl

/-- The record of an Incomplete closing (R47, R73, R82, R95, R123). -/
theorem closeIncomplete_record (extra : RecordFlags) (w : JourneyWay) (s : State) :
    (closeIncomplete extra w s).record = ({ closingRecord s .incomplete w.journey with
      priced := some ⟨0, (incompleteOf w s).charge,
        [⟨incompleteOwner (slotOf s w.journey.tag).tables w.journey.entryStation
          w.journey.continuation, (incompleteOf w s).charge⟩]⟩ } : Record).flag
        ((untrackedFlag (heldFor w s).2).or (w.journey.marks.or extra)) := by
  have same := fareContext_obtained (s := s) (held := heldFor w s) rfl w.journey.tag
  have carried : closingRecord (writeAccount (heldFor w s).2
      (Account.withIncomplete (incompleteOf w s)) (heldFor w s).1) .incomplete w.journey
      = closingRecord s .incomplete w.journey := by
    rw [writeAccount_obtained (s := s) (held := heldFor w s) rfl]
    rfl
  have priced := incompletePricing_priced (fareContext (heldFor w s).1 w.journey.tag)
    w.journey.fareClass w.journey.entryStation w.journey.entryTime w.journey.continuation
  have written : (closeIncomplete extra w s).record = ({ closingRecord
      (writeAccount (heldFor w s).2 (Account.withIncomplete (incompleteOf w s)) (heldFor w s).1)
      .incomplete w.journey with priced := some (incompletePricing
        (fareContext (heldFor w s).1 w.journey.tag) w.journey.fareClass w.journey.entryStation
        w.journey.entryTime w.journey.continuation none).priced } : Record).flag
      ((untrackedFlag (heldFor w s).2).or (w.journey.marks.or extra)) := by
    unfold incompleteOf
    rw [← same]
    rfl
  rw [written, priced, same, carried]
  rfl

/-- What a Spill record carries (R75, R125, R159). -/
theorem spillRecord_spills (s : State) (j : Journey) : SpillsJourney s j (spillRecord s j) :=
  ⟨rfl, rfl, ⟨rfl, rfl, rfl, rfl, rfl, rfl⟩, rfl, rfl⟩

theorem spillRecord_marks (s : State) (j : Journey) : CarriesMarks j false false (spillRecord s j) := by
  constructor <;>
    simp [spillRecord, closingRecord, newRecord, Record.flag, RecordFlags.or, Journey.marks]

/-- What the record of an Incomplete closing carries (R47, R123, R159). -/
theorem closeIncomplete_carries (extra : RecordFlags) (w : JourneyWay) (s : State) :
    (closeIncomplete extra w s).record.kind = .incomplete
    ∧ CarriesJourney s w.journey (closeIncomplete extra w s).record
    ∧ (closeIncomplete extra w s).record.exit = none
    ∧ (closeIncomplete extra w s).record.priced = some ⟨0, (incompleteOf w s).charge,
        [⟨incompleteOwner (slotOf s w.journey.tag).tables w.journey.entryStation
          w.journey.continuation, (incompleteOf w s).charge⟩]⟩
    ∧ (closeIncomplete extra w s).record.flags = (newRecord s .incomplete w.journey.token
        w.journey.fareClass).flags.or ((untrackedFlag (heldFor w s).2).or (w.journey.marks.or extra)) := by
  rw [closeIncomplete_record]
  exact ⟨rfl, ⟨rfl, rfl, rfl, rfl, rfl, rfl⟩, rfl, rfl, rfl⟩

/-! ### Records placed (R160, R162, R171) -/

theorem placeFrame_eq (f : OfficeFrame) (s : State) : ∃ port, placeFrame f s = { s with
    officePort := port
    officeQueue := { s.officeQueue with frames := s.officeQueue.frames ++ [f] } } :=
  ⟨_, transmitOffice_eq _⟩

theorem placeRecord_eq (r : Record) (s : State) : ∃ port, placeRecord r s = { s with
    officePort := port
    officeQueue := { s.officeQueue with
      frames := s.officeQueue.frames ++ [.record s.officeQueue.sequence r]
      sequence := (s.officeQueue.sequence + 1) % 256 }
    mgmt := { s.mgmt with counters := Counters.record r.kind s.mgmt.counters } } := by
  obtain ⟨port, placed⟩ := placeFrame_eq (.record s.officeQueue.sequence r) (advanceSequence s)
  exact ⟨port, congrArg (count (Counters.record r.kind)) placed⟩

theorem placeRecordAside_eq (r : Record) (s : State) : ∃ port, placeRecordAside r s = { s with
    officePort := port
    officeQueue := {
      frames := s.officeQueue.frames ++ [.record s.officeQueue.sequence r]
      setAside := s.officeQueue.setAside - 1
      sequence := (s.officeQueue.sequence + 1) % 256 }
    mgmt := { s.mgmt with counters := Counters.record r.kind s.mgmt.counters } } :=
  placeRecord_eq r (returnAside 1 s)

/-! ### A sound table's slots (R64) -/

theorem eq_of_slot {v : JourneyWay} (sound : JourneysSound s) (held : w ∈ s.store.journeys)
    (other : v ∈ s.store.journeys) (same : v.slot = w.slot) : v = w :=
  eq_of_nodup_map sound.1 other held same

theorem journeysWithout_of_parts {before after : List JourneyWay} (sound : JourneysSound s)
    (parts : s.store.journeys = before ++ w :: after) : journeysWithout w s = before ++ after := by
  have distinct := sound.1
  rw [parts, List.map_append, List.map_cons] at distinct
  obtain ⟨_, tail, apart⟩ := List.nodup_append.mp distinct
  rw [List.nodup_cons] at tail
  unfold journeysWithout
  rw [parts, List.filter_append, List.filter_cons_of_neg (by simp)]
  congr 1
  · refine List.filter_eq_self.mpr fun v hv => ?_
    have := apart v.slot (List.mem_map_of_mem hv) w.slot (by simp)
    simpa using this
  · refine List.filter_eq_self.mpr fun v hv => ?_
    have : v.slot ≠ w.slot := fun same => tail.1 (same ▸ List.mem_map_of_mem hv)
    simpa using this

theorem journeysWithout_length (sound : JourneysSound s) (held : w ∈ s.store.journeys) :
    (journeysWithout w s).length = s.store.journeys.length - 1 := by
  obtain ⟨before, after, parts⟩ := List.append_of_mem held
  rw [journeysWithout_of_parts sound parts, parts]
  simp

/-! ### The Sweep's visits (R120 to R128) -/

theorem sweepGrant_of {u : State} {done : State → State} (held : holder s = some .sweep)
    (ends : ∀ u v, v = (if s.sweep.resetAtRelease
        then { u with sweep := ⟨0, 0, false, false, .journey, false⟩ } else u) →
      done u = releaseStore (if 1 ≤ officeFree v then requestStore .sweep v else v))
    (visit : sweepVisit s = u) (kept : u.sweep.resetAtRelease = s.sweep.resetAtRelease) :
    sweepGrant s = done u := by
  rw [ends u _ rfl]
  unfold sweepGrant requestAgain resetAtRelease
  rw [if_pos held, visit, kept]
  rfl

theorem journeyAt_of_mem (sound : JourneysSound s) (held : w ∈ s.store.journeys) :
    journeyAt s w.slot = some w := by
  obtain ⟨before, after, parts⟩ := List.append_of_mem held
  unfold journeyAt
  rw [parts]
  refine find?_split (fun v hv => ?_) (by simp)
  have distinct := sound.1
  rw [parts, List.map_append, List.map_cons] at distinct
  have := (List.nodup_append.mp distinct).2.2 v.slot (List.mem_map_of_mem hv) w.slot (by simp)
  simpa using this

theorem overdueAtCursor_of (sound : JourneysSound s) (held : w ∈ s.store.journeys)
    (cursor : w.slot = s.sweep.journeyCursor) (due : w.journey.deadline ≤ s.store.grant.sec) :
    overdueAtCursor s = some w := by
  unfold overdueAtCursor
  rw [← cursor, journeyAt_of_mem sound held]
  simp [due]

theorem overdueAtCursor_none (early : ∀ w ∈ s.store.journeys, w.slot = s.sweep.journeyCursor →
    s.store.grant.sec < w.journey.deadline) : overdueAtCursor s = none := by
  refine Option.filter_eq_none_iff.mpr fun w found => ?_
  have := early w (List.mem_of_find?_eq_some found) (by simpa using List.find?_some found)
  simpa using this

/-- The records an account visit leaves: all but an old one at the cursor (R127). -/
abbrev accountsVisited (s : State) : List AccountWay :=
  s.store.accounts.filter (fun w => !(w.slot == s.sweep.accountCursor
    && decide (w.account.day + 3 < s.store.grant.serviceDay)))

theorem account_eq_of_slot {v w : AccountWay} (sound : AccountTable s.store.accounts)
    (hv : v ∈ s.store.accounts) (hw : w ∈ s.store.accounts) (same : v.slot = w.slot) : v = w :=
  eq_of_nodup_map (slots_nodup sound.ascending) hv hw same

theorem accountsVisited_of_old {w : AccountWay} (sound : AccountTable s.store.accounts)
    (old : oldAtCursor s = some w) :
    s.store.accounts.filter (fun v => v.slot != w.slot) = accountsVisited s := by
  obtain ⟨found, aged⟩ := Option.filter_eq_some_iff.mp old
  have held := List.mem_of_find?_eq_some found
  have cursor : w.slot = s.sweep.accountCursor := by simpa using List.find?_some found
  refine List.filter_congr fun v hv => ?_
  by_cases same : v.slot = w.slot
  · obtain rfl := account_eq_of_slot sound hv held same
    simpa [cursor, isOld] using aged
  · have apart : v.slot ≠ s.sweep.accountCursor := cursor ▸ same
    rw [bne_iff_ne.mpr same, beq_eq_false_iff_ne.mpr apart]
    rfl

theorem accountsVisited_of_none (sound : AccountTable s.store.accounts)
    (none : oldAtCursor s = none) : accountsVisited s = s.store.accounts := by
  refine List.filter_eq_self.mpr fun v hv => ?_
  refine Classical.byContradiction fun gone => ?_
  simp only [Bool.not_eq_true', Bool.not_eq_false, Bool.and_eq_true, beq_iff_eq,
    decide_eq_true_eq] at gone
  obtain ⟨cursor, aged⟩ := gone
  cases found : s.store.accounts.find? (fun w => w.slot == s.sweep.accountCursor) with
  | none => exact absurd (by simpa using cursor) (List.find?_eq_none.mp found v hv)
  | some w =>
    have here : w.slot = s.sweep.accountCursor := by simpa using List.find?_some found
    obtain rfl := account_eq_of_slot sound hv (List.mem_of_find?_eq_some found)
      (cursor.trans here.symm)
    simp [oldAtCursor, found, isOld] at none
    omega

/-- An account visit frees the record at the cursor when it is old, and moves the cursor (R127). -/
theorem accountVisit_eq (sound : AccountTable s.store.accounts) : accountVisit s = { s with
    store := { s.store with accounts := accountsVisited s }
    sweep := if s.store.grant.serviceDay < s.clock.serviceDay then s.sweep
      else if s.sweep.accountCursor = 32767
      then { s.sweep with accountCursor := 0, purgePending := false }
      else { s.sweep with accountCursor := s.sweep.accountCursor + 1 } } := by
  have last : s.sweep.accountCursor + 1 = Config.accountSlots ↔ s.sweep.accountCursor = 32767 := by
    simp [Config.accountSlots]
  have visited : accountVisit s = if s.clock.serviceDay ≤ s.store.grant.serviceDay
      then advanceAccountCursor { s with store := { s.store with accounts := accountsVisited s } }
      else { s with store := { s.store with accounts := accountsVisited s } } := by
    unfold accountVisit
    cases old : oldAtCursor s with
    | none => rw [accountsVisited_of_none sound old]
    | some w => simp only [removeAccount, accountsVisited_of_old sound old]
  rw [visited]
  by_cases later : s.store.grant.serviceDay < s.clock.serviceDay
  · simp [later, Nat.not_le.mpr later]
  · simp [later, Nat.not_lt.mp later, advanceAccountCursor, onSweep, last]

/-! ### Completed closings (R58, R78, R82, R92, R93) -/

theorem mem_putWay_self (w : AccountWay) (l : List AccountWay) : w ∈ putWay w l := by
  induction l with
  | nil => simp [putWay]
  | cons x xs ih =>
    unfold putWay
    split
    · simp
    · split <;> simp [ih]

theorem spentOf_obtained {token : Token} {day : Nat} {held : State × Option Nat}
    (is : held = obtainAccount token day s) : (spentOf held.1 held.2).isNone = held.2.isNone := by
  have stands (u : State) (n : Nat) (v : AccountWay) (hv : v ∈ u.store.accounts) (at_ : v.slot = n) :
      (spentOf u (some n)).isNone = false := by
    have : (u.store.accounts.find? (fun w => w.slot == n)).isSome = true :=
      List.find?_isSome.mpr ⟨v, hv, by simpa using at_⟩
    obtain ⟨w, found⟩ := Option.isSome_iff_exists.mp this
    simp [spentOf, accountAt, found]
  subst is
  unfold obtainAccount
  split
  next w found => exact stands s w.slot w (List.mem_of_find?_eq_some found) rfl
  · split
    next n new => exact stands _ n ⟨n, Account.fresh token day⟩ (mem_putWay_self _ _) rfl
    · rfl

/-- The last exit a Completed closing of a journey sets (R92, R93, R94, R97). -/
abbrev lastExitFor (w : JourneyWay) (exit : StationTime) (p : Pricing) : LastExit :=
  lastExitOf ⟨w.journey.entryStation, w.journey.entryTime⟩ exit p
    (nilSoFar p.charge (appliedOf w.journey p)) w.journey.reference

theorem closeCompleted_st (extra : RecordFlags) (w : JourneyWay) (exit : StationTime) (slot : Option Nat)
    (p : Pricing) (s : State) : (closeCompleted extra w exit slot p s).st = closeJourney w
      (writeAccount slot (Account.withExit p.spentAfter (lastExitFor w exit p)) s) := rfl

/-- What the record of a Completed closing carries (R58, R78, R159). -/
theorem closeCompleted_carries {token : Token} {day : Nat} {held : State × Option Nat}
    (is : held = obtainAccount token day s) (extra : RecordFlags) (w : JourneyWay) (exit : StationTime)
    (p : Pricing) : ∃ c, (closeCompleted extra w exit held.2 p held.1).record = c
      ∧ c.kind = .completed ∧ CarriesJourney s w.journey c ∧ c.exit = some exit
      ∧ c.priced = some p.priced ∧ c.reason = .none
      ∧ c.flags = (newRecord s .completed w.journey.token w.journey.fareClass).flags.or
        ((exitFlags held.2 p (nilSoFar p.charge (appliedOf w.journey p))).or extra) := by
  have carried : closingRecord (writeAccount held.2
      (Account.withExit p.spentAfter (lastExitFor w exit p)) held.1) .completed w.journey
      = closingRecord s .completed w.journey := by
    rw [writeAccount_obtained is]
    rfl
  have written : (closeCompleted extra w exit held.2 p held.1).record = ({ closingRecord
      (writeAccount held.2 (Account.withExit p.spentAfter (lastExitFor w exit p)) held.1)
      .completed w.journey with exit := some exit, priced := some p.priced } : Record).flag
      ((exitFlags held.2 p (nilSoFar p.charge (appliedOf w.journey p))).or extra) := rfl
  rw [written, carried]
  exact ⟨_, rfl, rfl, ⟨rfl, rfl, rfl, rfl, rfl, rfl⟩, rfl, rfl, rfl, rfl⟩

theorem fullPricing_capUntracked {g : FareContext} {fareClass station time exitStation : Nat}
    {pass : Option Pass} {continuation : Option Continuation} {account : Option Nat} {p : Pricing}
    (priced : fullPricing g fareClass station time exitStation pass continuation account = some p) :
    p.capUntracked = account.isNone := by
  obtain ⟨path, _, rfl⟩ := Option.map_eq_some_iff.mp priced
  simp only [capCharge]
  cases account with
  | none => rfl
  | some spent => simp only; split <;> rfl

theorem nilSoFar_applied (j : Journey) (p : Pricing) : nilSoFar p.charge (appliedOf j p)
    = (p.charge == 0 && (!p.continued || (j.continuation.map Continuation.nilSoFar).getD true)) := by
  unfold nilSoFar appliedOf
  cases p.continued <;> cases j.continuation <;> simp

/-! ### The forced close (R82) -/

/-- A forced close: its record takes one set-aside entry and the reply, Done, the other (R82). -/
theorem forcedDone_eq {before after : List HeldRequest} {r : HeldRequest} {c : Closed} {charge : Nat}
    (amount : (c.record.priced.map Priced.charge).getD 0 = charge)
    (parts : c.st.mgmt.requests = before ++ r :: after)
    (others : ∀ q ∈ before, q.phase ≠ .presented) (presented : r.phase = .presented) :
    ∃ port, forcedDone r w c = presentNext (releaseStore { c.st with
      officePort := port
      officeQueue := {
        frames := c.st.officeQueue.frames ++ [.record c.st.officeQueue.sequence c.record,
          .reply r.sequence r.number r.code
            ⟨.done, .none, .closed c.record.kind w.journey.reference charge⟩]
        setAside := c.st.officeQueue.setAside - 2
        sequence := (c.st.officeQueue.sequence + 1) % 256 }
      mgmt := { c.st.mgmt with
        requests := before ++ after
        counters := Counters.record c.record.kind c.st.mgmt.counters } }) := by
  obtain ⟨port, placed⟩ := placeRecordAside_eq c.record c.st
  have requests : (placeRecordAside c.record c.st).mgmt.requests = before ++ r :: after := by
    rw [placed]; exact parts
  unfold forcedDone
  rw [amount, replyAndEnd_of 0 requests others presented, placed]
  obtain ⟨last, replied⟩ := placeFrame_eq (.reply r.sequence r.number r.code (Reply.done
    (.closed c.record.kind w.journey.reference charge))) { c.st with
      officePort := port
      officeQueue := {
        frames := c.st.officeQueue.frames ++ [.record c.st.officeQueue.sequence c.record]
        setAside := c.st.officeQueue.setAside - 1 - 1 - 0
        sequence := (c.st.officeQueue.sequence + 1) % 256 }
      mgmt := { c.st.mgmt with
        requests := before ++ after
        counters := Counters.record c.record.kind c.st.mgmt.counters } }
  refine ⟨last, congrArg (fun u => presentNext (releaseStore u)) (replied.trans ?_)⟩
  simp only [List.append_assoc, List.cons_append, List.nil_append]
  rfl

theorem pathBetween_of_onPath {t : Tables} {o x e : Nat} (lies : onPath t o x e = true) :
    ∃ path, pathBetween t o e = .ok path := by
  cases found : pathBetween t o e with
  | ok path => exact ⟨path, rfl⟩
  | error absent =>
    have none : dist t o e = none := by rw [dist, found]; rfl
    simp [onPath, none] at lies

/-- A full pricing between present stations finds its path (R24, R33, R37). -/
theorem fullPricing_some {g : FareContext} {fareClass station time exitStation : Nat}
    {pass : Option Pass} {continuation : Option Continuation} {account : Option Nat}
    (entry : stationPresent g.tables station = true) (exit : stationPresent g.tables exitStation = true) :
    ∃ p origin soFar, fullPricing g fareClass station time exitStation pass continuation account
        = some p ∧ p.origin = some origin ∧ p.chargedSoFar = some soFar := by
  have start : ∃ path, pathBetween g.tables
      (((appliedContinuation g.tables station exitStation continuation).map
        Continuation.originStation).getD station) exitStation = .ok path := by
    have own : ∃ path, pathBetween g.tables station exitStation = .ok path := by
      obtain ⟨a, ha⟩ := Option.isSome_iff_exists.mp entry
      obtain ⟨b, hb⟩ := Option.isSome_iff_exists.mp exit
      exact ⟨_, by rw [pathBetween, ha, hb]⟩
    cases continuation with
    | none => exact own
    | some c =>
      by_cases applies : onPath g.tables c.originStation station exitStation = true
      · simpa [appliedContinuation, applies] using pathBetween_of_onPath applies
      · simpa [appliedContinuation, applies] using own
  obtain ⟨path, found⟩ := start
  exact ⟨_, _, _, by simp only [fullPricing, reckonPath, found]; rfl, rfl, rfl⟩

end Sys2Proof.Machine

section
open Sys2Proof Sys2Proof.Machine

/-- Settles O35: the late records, the drain's steps and the reply at the end. -/
theorem restartRunsItsCourse : Obligations.RestartRunsItsCourse := by
  refine ⟨fun s tap rest high late room => ?_, fun s high draining idle room => ?_,
    fun s w rest left high held step head without => ?_, fun s high held step empty => ?_,
    fun s before after r high parts underway request others ended recorded room => ?_⟩
  · have run : exec .restartLateRecord s = .next (placeLateRecord s) := exec_high high _
    obtain ⟨port, placed⟩ := placeRecord_eq (restartRecord tap s)
      { s with mgmt := { s.mgmt with restartLate := rest } }
    have out : placeLateRecord s = placeRecord (restartRecord tap s)
        { s with mgmt := { s.mgmt with restartLate := rest } } := by
      simp only [placeLateRecord, late, room, if_true]
    rw [run, out, placed]
    refine ⟨_, rfl, ?_⟩
    simp [restartRecord, newRecord, Record.flag, RecordFlags.or, Tap.received, Counters.record]
  · have run : exec .drainStepSetAside s = .next (drainSetAside s) := exec_high high _
    rw [run, drainSetAside, if_pos ⟨draining, (managementOutstanding_iff s).mpr idle, room⟩]
    rfl
  · have run : exec .drainStep s = .next (drainWork s) := exec_high high _
    obtain ⟨a, b, closed⟩ := closeJourney_eq w s
    obtain ⟨port, placed⟩ := placeRecordAside_eq (spillRecord s w.journey) (closeJourney w s)
    have out : drainSpill w s = onDrain (fun d => { d with
        spilled := d.spilled + 1, presented := false })
          (placeRecordAside (spillRecord s w.journey) (closeJourney w s)) := rfl
    rw [run, drainWork, if_pos ⟨held, step⟩, head]
    simp only
    rw [out, placed, closed]
    subst without
    exact ⟨_, _, rfl, rfl, spillRecord_spills s _, spillRecord_marks s _⟩
  · have run : exec .drainStep s = .next (drainWork s) := exec_high high _
    rw [run, drainWork, if_pos ⟨held, step⟩, empty]
    rfl
  · have run : exec .restartComplete s = .next (completeRestart s) := exec_high high _
    have test : ∀ q ∈ before, (q.phase == .underway && q.request.isRestart) = false := by
      intro q hq
      have := others q hq
      cases kind : q.request <;> simp_all [Request.isRestart]
    have itself : (r.phase == .underway && r.request.isRestart) = true := by
      rw [underway, request]; rfl
    have found : restartUnderway s = some r := by
      unfold restartUnderway
      rw [parts]
      exact find?_split test itself
    have erased : s.mgmt.requests.eraseP (fun q => q.phase == .underway && q.request.isRestart)
        = before ++ after := by
      rw [parts]
      exact eraseP_split test itself
    have out : completeRestart s = placeReply r
        (Reply.done (.restart s.mgmt.drain.spilled s.mgmt.drain.fallbacks))
        (onRequests (fun l => l.eraseP (fun q => q.phase == .underway && q.request.isRestart))
          (onDrain (fun _ => ⟨false, false, 0, 0⟩) s)) := by
      simp only [completeRestart, found, ended, recorded, room, and_self, if_true]
    rw [run, out, ← erased]
    rfl

/-- Settles O47: the Sweep's request, and each kind of visit with what closes in it. -/
theorem sweepVisits : Obligations.SweepVisits := by
  refine ⟨fun s high idle notHeld room => ?_, fun s busy => ?_, fun s notHeld => ?_,
    fun s done high held ends => ⟨fun sound account => ?_, fun journey full => ?_,
      fun spill room => ⟨fun empty => ?_, fun w rest head sound => ?_⟩,
      fun cursor room => ⟨fun early => ?_, fun w held' charge sound here at_ due is charged => ?_⟩⟩⟩
  · have run : exec .sweepRequest s = .next (askForStore s) := exec_high high _
    have free : sweepRequested s = false := by simp [sweepRequested, idle, notHeld]
    rw [run]
    simp [askForStore, requestAgain, free, room]
  · have nothing : askForStore s = s := by
      unfold askForStore requestAgain sweepRequested
      rcases busy with waits | holds | full
      · simp [waits]
      · simp [holds]
      · simp [full]
    rw [exec_eq]
    change Host.Outcome.next (if _ then s else askForStore s) = _
    rw [nothing, ite_self]
  · rw [exec_eq]
    change Host.Outcome.next (if _ then s else sweepGrant s) = _
    rw [sweepGrant, if_neg notHeld, ite_self]
  all_goals have run : exec .sweepGrant s = .next (sweepGrant s) := exec_high high _
  · have visit : sweepVisit s = accountVisit s := by rw [sweepVisit, account]
    rw [run, sweepGrant_of held ends
      (visit.trans (accountVisit_eq ((accountsSound_iff s).mp sound))) ?_]
    dsimp only
    split
    · rfl
    · split <;> rfl
  · have visit : sweepVisit s = s := by
      unfold sweepVisit
      cases kind : s.store.grant.visit
      case account => exact absurd kind journey
      all_goals simp [full]
    rw [run, sweepGrant_of held ends visit rfl]
  · have visit : sweepVisit s = s := by
      simp [sweepVisit, spill, room, spillVisit, empty]
    rw [run, sweepGrant_of held ends visit rfl]
  · have left : journeysWithout w s = rest := journeysWithout_of_parts (before := []) sound head
    obtain ⟨a, b, closed⟩ := closeJourney_eq w s
    obtain ⟨port, placed⟩ := placeRecord_eq (spillRecord s w.journey) (closeJourney w s)
    have visit : sweepVisit s = placeRecord (spillRecord s w.journey) (closeJourney w s) := by
      simp only [sweepVisit, spill, room, spillVisit, head, if_true]
      rfl
    rw [placed, closed, left] at visit
    rw [run, sweepGrant_of held ends visit rfl]
    exact ⟨_, _, rfl, rfl, spillRecord_spills s _, spillRecord_marks s _⟩
  · have visit : sweepVisit s = advanceJourneyCursor s := by
      simp only [sweepVisit, cursor, room, cursorVisit, overdueAtCursor_none early, if_true]
    rw [run, sweepGrant_of held ends visit rfl]
    rfl
  · obtain ⟨a, b, closed⟩ := closeJourney_obtained is (Account.withIncomplete (incompleteOf w s)) w
    have length := journeysWithout_length sound here
    obtain ⟨kind, carries, exit, priced, flags⟩ := closeIncomplete_carries {} w s
    obtain ⟨port, placed⟩ := placeRecord_eq (closeIncomplete {} w s).record
      (closeIncomplete {} w s).st
    have visit : sweepVisit s = advanceJourneyCursor (placeRecord (closeIncomplete {} w s).record
        (closeIncomplete {} w s).st) := by
      simp only [sweepVisit, cursor, room, cursorVisit, overdueAtCursor_of sound here at_ due, if_true]
      rfl
    have st := closeIncomplete_st {} w s
    rw [show heldFor w s = held' from is.symm] at st flags
    rw [placed, st, closed, kind, length] at visit
    rw [run, sweepGrant_of held ends visit rfl]
    subst charged
    refine ⟨_, (closeIncomplete {} w s).record, rfl, rfl, kind, carries, ⟨?_, ?_⟩, exit, ?_, priced⟩
    · simp [flags, newRecord, RecordFlags.or, Journey.marks, untrackedFlag]
    · simp [flags, newRecord, RecordFlags.or, Journey.marks, untrackedFlag]
    · simp [flags, newRecord, RecordFlags.or, Journey.marks, untrackedFlag]

/-- Settles O31: the refusals of a forced close, the Incomplete one and the Completed one. -/
theorem journeyCloseForced : Obligations.JourneyCloseForced := by
  intro s before after r token station time granted request
  have operation := grantedOperation_of granted
  obtain ⟨high, _, _, parts, others, presented⟩ := granted
  have run : exec .journeyCloseGrant s = .next (closeGranted r token station time s) := by
    rw [exec_high high]
    simp [effect, grantEffect, operation, request]
  refine ⟨fun reason refused => ?_, fun w held' rest found is left => ⟨fun charge noStation noTime charged => ?_,
    fun x at_ someStation someTime exitPresent entryPresent later => ?_⟩⟩
  · have out : closeGranted r token station time s = forcedRefused r reason s := by
      rcases refused with ⟨none, rfl⟩ | ⟨w, x, at_, found, rfl, rfl, ⟨absent, rfl⟩ | ⟨here, early, rfl⟩⟩
      · simp [closeGranted, none]
      · simp [closeGranted, found, forceCompleted, absent]
      · simp [closeGranted, found, forceCompleted, here, early]
    rw [run, out, forcedRefused, replyAndEnd_of 1 parts others presented]
    rfl
  · subst noStation noTime left
    obtain ⟨a, b, closed⟩ := closeJourney_obtained is (Account.withIncomplete (incompleteOf w s)) w
    obtain ⟨kind, carries, exit, priced, flags⟩ := closeIncomplete_carries { forced := true } w s
    have st := closeIncomplete_st { forced := true } w s
    rw [show heldFor w s = held' from is.symm] at st flags
    have requests : (closeIncomplete { forced := true } w s).st.mgmt.requests = before ++ r :: after := by
      rw [st, closed]; exact parts
    have amount : ((closeIncomplete { forced := true } w s).record.priced.map Priced.charge).getD 0
        = charge := by
      rw [priced, Option.map_some, Option.getD_some]
      exact charged.symm
    obtain ⟨port, out⟩ := forcedDone_eq (w := w) amount requests others presented
    have handled : closeGranted r token none none s
        = forcedDone r w (closeIncomplete { forced := true } w s) := by
      simp [closeGranted, found]
    have set : incompleteOf w s = ⟨w.journey.entryStation, w.journey.entryTime, w.journey.fareClass,
        charge, w.journey.reference⟩ := by rw [charged]
    rw [st, closed, kind, set] at out
    rw [set] at priced
    refine ⟨_, _, run.trans (congrArg Host.Outcome.next (handled.trans out)), rfl, kind, carries, ⟨?_, ?_⟩, exit, priced, ?_, ?_⟩ <;>
      simp [flags, newRecord, RecordFlags.or, Journey.marks, untrackedFlag]
  · subst someStation someTime left
    obtain ⟨p, origin, soFar, full, starts, charged⟩ := fullPricing_some
      (fareClass := w.journey.fareClass) (time := w.journey.entryTime) (pass := w.journey.pass)
      (continuation := w.journey.continuation) (account := spentOf held'.1 held'.2)
      (g := fareContext s w.journey.tag) entryPresent exitPresent
    obtain ⟨a, b, closed⟩ := closeJourney_obtained is
      (Account.withExit p.spentAfter (lastExitFor w ⟨x, at_⟩ p)) w
    obtain ⟨c, record, kind, carries, exit, priced, _, flags⟩ :=
      closeCompleted_carries is { forced := true } w ⟨x, at_⟩ p
    have st := closeCompleted_st { forced := true } w ⟨x, at_⟩ held'.2 p held'.1
    have requests : (closeCompleted { forced := true } w ⟨x, at_⟩ held'.2 p held'.1).st.mgmt.requests
        = before ++ r :: after := by
      rw [st, closed]; exact parts
    have amount : ((closeCompleted { forced := true } w ⟨x, at_⟩ held'.2 p held'.1).record.priced.map
        Priced.charge).getD 0 = p.charge := by
      rw [record, priced]
      rfl
    obtain ⟨port, out⟩ := forcedDone_eq (w := w) amount requests others presented
    have pricing : priceJourney w w.journey.pass ⟨x, at_⟩ s = some (held'.1, held'.2, p) := by
      have same := fareContext_obtained is w.journey.tag
      rw [← same] at full
      subst is
      exact congrArg (Option.map _) full
    have handled : closeGranted r token (some x) (some at_) s
        = forcedDone r w (closeCompleted { forced := true } w ⟨x, at_⟩ held'.2 p held'.1) := by
      simp [closeGranted, found, forceCompleted, exitPresent, Nat.not_lt.mpr later, pricing]
    rw [st, closed, record, kind] at out
    have untracked : p.capUntracked = held'.2.isNone :=
      (fullPricing_capUntracked full).trans (spentOf_obtained is)
    rw [run, handled, out]
    refine ⟨_, c, p, origin, soFar, rfl, full, starts, charged, ?_, kind, carries, exit, priced, ?_, ?_⟩
    · simp only [lastExitFor, lastExitOf, starts, charged, Option.getD_some, nilSoFar_applied]
      rfl
    · simp [flags, RecordFlags.or]
    · simp [flags, newRecord, RecordFlags.or, exitFlags, Pricing.flags, untracked, untrackedFlag]

end
end

