-- ==== Sys2Proof/Proofs/EntryTaps.lean ====
section
/-! SUPPORT. Entry taps in their grant: repeats, admissions, and the closing of the earlier-timed of two entries, with O39, O40, O41. -/

namespace Sys2Proof.Machine

variable {s t : State} {x : SlotId} {tr : TapTransaction} {w : JourneyWay}

/-! ### What ends a transaction, by its records (R6, R7, R14) -/

/-- The answer of a Go or a Go-Pending as its gate is told it (R13, R14, R104). -/
theorem answeredQueue_of {a : Answer} (told : a.kind = .go ∨ a.kind = .goPending)
    (plain : a.reason = .none) (q : VerdictQueue) (tr : TapTransaction) :
    (if tr.entry.answeredLate then q else
      ⟨q.frames ++ [verdictFor tr.entry.tap (toGate tr.entry.tap tr.clamped a)], q.reserved - 1⟩)
      = answeredQueue q tr a.kind a.charge a.reference a.capReached a.continued := by
  have carried : (tr.clamped && (a.kind == .go || a.kind == .goPending)) = tr.clamped := by
    rcases told with h | h <;> simp [h]
  unfold answeredQueue verdictFor toGate
  rw [carried]
  cases a
  simp only at plain
  subst plain
  cases tr.entry.tap.deferred <;> rfl

/-- An answer that a Go or Go-Pending gives. -/
abbrev Goes (a : Answer) : Prop := (a.kind = .go ∨ a.kind = .goPending) ∧ a.reason = .none

theorem endTransaction_told_none (tr : TapTransaction) (d : Bool) (s : State) {a : Answer} (goes : Goes a) :
    ∃ line, endTransaction tr.entry tr.clamped d ⟨s, [], a⟩ = { s with
      linePort := line
      verdictQueue := answeredQueue s.verdictQueue tr a.kind a.charge a.reference a.capReached a.continued
      officeQueue := { s.officeQueue with setAside := s.officeQueue.setAside - 3 }
      reckoner := none } := by
  obtain ⟨h1, h2, h5, h6, h7, h9, h10, h11, h12, h13, h15, h16, h14⟩ :=
    endTransaction_frame tr.entry tr.clamped d ⟨s, [], a⟩
  refine ⟨_, State.eq_of_fields h1 h2 rfl ?_ h5 (h6.trans (answeredQueue_of goes.1 goes.2 _ _)) h7
    (endTransaction_none ..) h9 h10 h11 h12 h13 h14 h15 h16⟩
  simp [endTransaction, placeAll]

theorem endTransaction_told_one (tr : TapTransaction) (d : Bool) (s : State) {a : Answer} (goes : Goes a)
    (r : Record) : ∃ line office, endTransaction tr.entry tr.clamped d ⟨s, [r], a⟩ = { s with
      linePort := line
      officePort := office
      verdictQueue := answeredQueue s.verdictQueue tr a.kind a.charge a.reference a.capReached a.continued
      officeQueue := {
        frames := s.officeQueue.frames ++ [.record s.officeQueue.sequence
          (decorate tr.entry.tap tr.entry.answeredLate tr.clamped d r)]
        setAside := s.officeQueue.setAside - 3
        sequence := (s.officeQueue.sequence + 1) % 256 }
      reckoner := none
      mgmt := { s.mgmt with counters := Counters.record r.kind s.mgmt.counters } } := by
  obtain ⟨h1, h2, h5, h6, h7, h9, h10, h11, h12, h13, h15, h16, h14⟩ :=
    endTransaction_frame tr.entry tr.clamped d ⟨s, [r], a⟩
  exact ⟨_, _, State.eq_of_fields h1 h2 rfl rfl h5 (h6.trans (answeredQueue_of goes.1 goes.2 _ _)) h7
    (endTransaction_one ..) h9 h10 h11 h12 h13 h14 h15 h16⟩

theorem endTransaction_told_two (tr : TapTransaction) (d : Bool) (s : State) {a : Answer} (goes : Goes a)
    (r q : Record) : ∃ line office, endTransaction tr.entry tr.clamped d ⟨s, [r, q], a⟩ = { s with
      linePort := line
      officePort := office
      verdictQueue := answeredQueue s.verdictQueue tr a.kind a.charge a.reference a.capReached a.continued
      officeQueue := {
        frames := s.officeQueue.frames ++ [.record s.officeQueue.sequence
            (decorate tr.entry.tap tr.entry.answeredLate tr.clamped d r),
          .record ((s.officeQueue.sequence + 1) % 256)
            (decorate tr.entry.tap tr.entry.answeredLate tr.clamped d q)]
        setAside := s.officeQueue.setAside - 3
        sequence := (s.officeQueue.sequence + 2) % 256 }
      reckoner := none
      mgmt := { s.mgmt with
        counters := Counters.record q.kind (Counters.record r.kind s.mgmt.counters) } } := by
  obtain ⟨h1, h2, h5, h6, h7, h9, h10, h11, h12, h13, h15, h16, h14⟩ :=
    endTransaction_frame tr.entry tr.clamped d ⟨s, [r, q], a⟩
  exact ⟨_, _, State.eq_of_fields h1 h2 rfl rfl h5 (h6.trans (answeredQueue_of goes.1 goes.2 _ _)) h7
    (endTransaction_two ..) h9 h10 h11 h12 h13 h14 h15 h16⟩

/-! ### An entry that passes (R12, R105, R106) -/

/-- The work of a granted tap's entry. -/
abbrev workOf (x : SlotId) (tr : TapTransaction) : EntryWork := ⟨tr.entry.tap, tr.tapTime, tr.clamped, x⟩

theorem policyOf_of {tables : Tables} {p : Policy} (policy : tables.policy = some p) :
    tables.policyOf = p := by
  simp [Tables.policyOf, policy]

theorem exitDenied_of_entry (entry : tr.entry.tap.direction = 1) : exitDenied tr s = false := by
  simp [exitDenied, Tap.isEntry, entry]

/-- Where no last unmatched exit stands to be repaired, none is found (R106). -/
theorem repairable_none (own : NothingToRepair s x tr.entry.tap.token
      (serviceDay s.mgmt.settings.rolloverMinute tr.tapTime) tr.tapTime)
    (next : NothingToRepair s x tr.entry.tap.token
      (serviceDay s.mgmt.settings.rolloverMinute tr.tapTime + 1) tr.tapTime) :
    repairable s (workOf x tr) = none := by
  unfold repairable
  refine List.findSome?_eq_none_iff.mpr fun w found => ?_
  have nothing : ∀ l ∈ w.account.lastUnmatched, ¬ repairs (slotOf s x).tables
      (slotOf s x).tables.policyOf tr.tapTime l := by
    rcases List.mem_append.mp found with found | found
    · exact own w (Option.mem_toList.mp found)
    · exact next w (Option.mem_toList.mp found)
  cases unmatched : w.account.lastUnmatched with
  | none => rfl
  | some l => exact if_neg (nothing l unmatched)

/-- An entry that is not turned away goes on to the comparison with its token's open journey (R12, R105). -/
theorem handleTap_of_passes (passes : EntryPasses s x tr) :
    handleTap x tr s = handleEntry (workOf x tr) s := by
  obtain ⟨entry, present, ⟨live, permitted, listed⟩ | ⟨deferred, own, next⟩⟩ := passes
  · simp [handleTap, Tap.isEntry, entry, live, liveEntry, present, permitted, listed]
  · have none := repairable_none own next
    simp [handleTap, Tap.isEntry, entry, deferred, deferredEntry, present, none]

theorem findJourney_of_mem (sound : JourneysSound s) (held : w ∈ s.store.journeys) :
    findJourney s w.journey.token = some w := by
  cases found : findJourney s w.journey.token with
  | none => exact absurd rfl (findJourney_none found sound w held)
  | some v =>
    obtain ⟨other, same⟩ := findJourney_mem found
    rw [eq_of_nodup_map sound.2.1 other held same]

theorem findJourney_of_none {token : Token} (none : ∀ w ∈ s.store.journeys, w.journey.token ≠ token) :
    findJourney s token = .none := by
  refine List.find?_eq_none.mpr fun w hw => ?_
  simp [none w hw]

/-! ### An exit without a journey to match (R76, R80, R99) -/

theorem handleTap_of_exit (exit : tr.entry.tap.direction = 2) :
    handleTap x tr s = handleExit x tr.entry.tap tr.tapTime s := by
  simp [handleTap, Tap.isEntry, exit]

theorem handleExit_of_early {tap : Tap} {time : Nat} (early : ∀ w ∈ s.store.journeys,
    w.journey.token = tap.token → time < w.journey.entryTime) :
    handleExit x tap time s = exitWithoutJourney x tap time s := by
  unfold handleExit
  split
  next w found =>
    obtain ⟨held, token⟩ := findJourney_mem found
    exact if_neg (Nat.not_le.mpr (early w held token))
  · rfl

/-- The first of two accounts, of a service day and of the day before it, that gives something (R99, R112). -/
theorem findSome_dayAndBefore {α : Type} {f : AccountWay → Option α} {token : Token} {day : Nat} {a : α}
    (here : (∃ w, findAccount s token day = some w ∧ f w = some a)
      ∨ (∀ w, findAccount s token day = some w → f w = none) ∧ day ≠ 0
        ∧ ∃ w, findAccount s token (day - 1) = some w ∧ f w = some a) :
    (dayAndBefore s token day).findSome? f = some a := by
  unfold dayAndBefore
  rw [List.findSome?_append]
  rcases here with ⟨w, found, gives⟩ | ⟨none, later, w, found, gives⟩
  · simp [found, gives]
  · have nothing : (findAccount s token day).toList.findSome? f = .none :=
      List.findSome?_eq_none_iff.mpr fun v hv => none v (Option.mem_toList.mp hv)
    simp [nothing, later, found, gives]

/-- An exit at a station and time repeats a last exit (R99). -/
abbrev RepeatsExit (p : Policy) (station time : Nat) (l : LastExit) : Prop :=
  l.station = station ∧ (time - l.exitTime) + (l.exitTime - time) ≤ p.duplicateWindow

/-- The last exit of an account that an exit repeats. -/
def repeatedBy (p : Policy) (station time : Nat) (w : AccountWay) : Option LastExit :=
  w.account.lastExit.filter (fun l => RepeatsExit p station time l)

theorem repeatedBy_eq_some {p : Policy} {station time : Nat} {w : AccountWay} {l : LastExit} :
    repeatedBy p station time w = some l ↔ w.account.lastExit = some l ∧ RepeatsExit p station time l := by
  simp [repeatedBy, Option.filter_eq_some_iff]

theorem repeatedBy_eq_none {p : Policy} {station time : Nat} {w : AccountWay} :
    repeatedBy p station time w = none
      ↔ ∀ l, w.account.lastExit = some l → ¬ RepeatsExit p station time l := by
  simp [repeatedBy, Option.filter_eq_none_iff]

theorem duplicateExit_eq (s : State) (x : SlotId) (token : Token) (station time : Nat) :
    duplicateExit s x token station time = (dayAndBefore s token (dayOf s time)).findSome?
      (repeatedBy (slotOf s x).tables.policyOf station time) := by
  unfold duplicateExit
  congr 1
  funext w
  unfold repeatedBy
  cases w.account.lastExit with
  | none => rfl
  | some l => simp [Option.filter]

theorem findSome_dayAndBefore_none {α : Type} {f : AccountWay → Option α} {token : Token} {day : Nat}
    (none : ∀ d w, d = day ∨ d + 1 = day → findAccount s token d = some w → f w = .none) :
    (dayAndBefore s token day).findSome? f = .none := by
  unfold dayAndBefore
  refine List.findSome?_eq_none_iff.mpr fun w found => ?_
  rcases List.mem_append.mp found with found | found
  · exact none day w (.inl rfl) (Option.mem_toList.mp found)
  · split at found
    · exact absurd found List.not_mem_nil
    · exact none (day - 1) w (.inr (by omega)) (Option.mem_toList.mp found)

/-! ### Admission (R65 to R69, R74, R75) -/

/-- The continuation part found is the one the accounts give (R74). -/
theorem continuationFor_continues {p : Policy} (e : EntryWork)
    (policy : (slotOf s e.slot).tables.policy = some p) :
    EntryContinues s p e.tap e.tapTime (continuationFor s e) := by
  unfold continuationFor
  simp only [policyOf_of policy, Policy.windowSeconds, dayOf]
  cases found : findAccount s e.tap.token (serviceDay s.mgmt.settings.rolloverMinute e.tapTime) with
  | none => exact .inr ⟨rfl, fun w l h => by simp [found] at h⟩
  | some w =>
    simp only [Option.bind_some]
    cases last : w.account.lastExit with
    | none =>
      refine .inr ⟨rfl, fun v l h hl => ?_⟩
      obtain rfl := Option.some.inj (found.symm.trans h)
      simp [last] at hl
    | some l =>
      by_cases follows : continues p e.tap.station e.tapTime l
      · exact .inl ⟨w, l, found, last, follows, if_pos follows⟩
      · refine .inr ⟨if_neg follows, fun v k h hk => ?_⟩
        obtain rfl := Option.some.inj (found.symm.trans h)
        obtain rfl := Option.some.inj (last.symm.trans hk)
        exact follows

theorem EntryContinues.unique {p : Policy} {tap : Tap} {time : Nat} {c d : Option Continuation}
    (hc : EntryContinues s p tap time c) (hd : EntryContinues s p tap time d) : c = d := by
  rcases hc with ⟨w, l, found, last, follows, rfl⟩ | ⟨rfl, none⟩
  · rcases hd with ⟨v, k, found', last', _, rfl⟩ | ⟨_, none⟩
    · obtain rfl := Option.some.inj (found.symm.trans found')
      obtain rfl := Option.some.inj (last.symm.trans last')
      rfl
    · exact absurd follows (none w l found last)
  · rcases hd with ⟨v, k, found', last', follows, _⟩ | ⟨rfl, _⟩
    · exact absurd follows (none v k found' last')
    · rfl

theorem admittedJourney_eq {p : Policy} {c : Option Continuation}
    (policy : (slotOf s x).tables.policy = some p) (is : continuationFor s (workOf x tr) = c) :
    admittedJourney s (workOf x tr) = journeyOf s x tr p c := by
  unfold admittedJourney journeyOf deadlineFor
  simp only [is, policyOf_of policy, Policy.maxSeconds]
  rfl

/-- The room of a set that has a free way: the lowest (R64, R75). -/
theorem makeRoom_free {set n : Nat} (inSet : n / 4 = set) (free : ∀ w ∈ s.store.journeys, w.slot ≠ n)
    (lowest : ∀ m < n, m / 4 = set → ∃ w ∈ s.store.journeys, w.slot = m) :
    makeRoom set s = (s, [], n) := by
  have found : freeWay set ((s.store.journeys.filter (fun w => w.slot / 4 == set)).map
      JourneyWay.slot) = some n := by
    refine freeWay_eq_some.mpr ⟨inSet, fun taken => ?_, fun m below hm => ?_⟩
    · obtain ⟨w, hw, same⟩ := List.mem_map.mp taken
      exact free w (List.mem_filter.mp hw).1 same
    · obtain ⟨w, hw, same⟩ := lowest m below hm
      exact List.mem_map.mpr ⟨w, List.mem_filter.mpr ⟨hw, by simpa [same] using hm⟩, same⟩
  simp [makeRoom, found]

/-- The room of a full set: the way of its earliest admission, which is spilled (R75, R125). -/
theorem makeRoom_full {set : Nat} {before after : List JourneyWay}
    (full : ∀ m, m / 4 = set → ∃ v ∈ s.store.journeys, v.slot = m)
    (parts : s.store.journeys = before ++ w :: after) (inSet : w.slot / 4 = set)
    (first : ∀ v ∈ before, v.slot / 4 ≠ set) : makeRoom set s
      = (noteClosing w.journey.tag (removeJourney w.slot s), [spillRecord s w.journey], w.slot) := by
  have none : freeWay set ((s.store.journeys.filter (fun w => w.slot / 4 == set)).map
      JourneyWay.slot) = none := by
    refine freeWay_eq_none fun m hm => ?_
    obtain ⟨v, hv, same⟩ := full m hm
    exact List.mem_map.mpr ⟨v, List.mem_filter.mpr ⟨hv, by simpa [same] using hm⟩, same⟩
  have head : s.store.journeys.filter (fun w => w.slot / 4 == set)
      = w :: after.filter (fun w => w.slot / 4 == set) := by
    have nothing : before.filter (fun w => w.slot / 4 == set) = [] :=
      List.filter_eq_nil_iff.mpr fun v hv => by simpa using first v hv
    rw [parts, List.filter_append, nothing, List.filter_cons_of_pos (by simpa using inSet)]
    rfl
  unfold makeRoom
  simp only [head] at none ⊢
  rw [none]

theorem appendJourney_eq (w : JourneyWay) (s : State) : appendJourney w s = { s with
    store := { s.store with journeys := s.store.journeys ++ [w] }
    sweep := { s.sweep with spillMode := spillModeAt s (s.store.journeys.length + 1) }
    tables := s.tables.put w.journey.tag { slotOf s w.journey.tag with
      refCount := (slotOf s w.journey.tag).refCount + 1 }
    mgmt := { s.mgmt with
      events := pressureAt s (s.store.journeys.length + 1) s.mgmt.events } } := by
  unfold appendJourney
  rw [compareMarks_eq]
  simp only [List.length_append, List.length_cons, List.length_nil, Nat.zero_add]
  rfl

/-- The Entry record of an admission (R75, R159). -/
def entryRecord (s : State) (e : EntryWork) : Record :=
  ({ newRecord s .entry e.tap.token e.tap.fareClass with
    reference := some s.store.nextReference
    label := (slotOf s e.slot).label
    entry := some ⟨e.tap.station, e.tapTime⟩ }).flag
      { continued := (continuationFor s e).isSome }

/-- The Go of an admission (R14, R75). -/
def entryAnswer (s : State) (e : EntryWork) : Answer :=
  { Answer.withReference .go s.store.nextReference with continued := (continuationFor s e).isSome }

/-- An admission by the room its set has; the Entry record is dated by the state before it (R75). -/
theorem admitEntry_eq {e : EntryWork} {before spilled : List Record} {u : State} {n : Nat}
    (room : makeRoom (journeySet e.tap.token) s = (u, spilled, n)) : admitEntry e before s
      = ⟨appendJourney ⟨n, admittedJourney s e⟩ (takeReference u),
        before ++ spilled ++ [entryRecord s e], entryAnswer s e⟩ := by
  unfold admitEntry
  rw [room]
  rfl

theorem takeReference_eq (s : State) : takeReference s = { s with store := { s.store with
    nextReference := nextReferenceAfter s.store.nextReference } } := rfl

/-- The marks a tap's transaction adds to those of a journey record (R161). -/
theorem carriesMarks_decorate {j : Journey} {r : Record} (marks : CarriesMarks j false false r)
    (tap : Tap) (late clamped denied : Bool) :
    CarriesMarks j tap.deferred clamped (decorate tap late clamped denied r) := by
  obtain ⟨deferred, timeClamped⟩ := marks
  rw [Bool.or_false] at deferred timeClamped
  exact ⟨by simp [decorate, deferred], by simp [decorate, timeClamped]⟩

theorem entryAnswer_goes (s : State) (e : EntryWork) : Goes (entryAnswer s e) := ⟨.inl rfl, rfl⟩

end Sys2Proof.Machine

section
open Sys2Proof Sys2Proof.Machine

/-- Settles O39: the admission to a free way, and the one that spills its set's earliest. -/
theorem entryAdmitted : Obligations.EntryAdmitted := by
  intro s x tr p c j entered granted passes policy none continues is record
  have own : continuationFor s (workOf x tr) = c :=
    (continuationFor_continues (workOf x tr) policy).unique continues
  have journey : admittedJourney s (workOf x tr) = j := (admittedJourney_eq policy own).trans is.symm
  have handled : handleTap x tr s = admitEntry (workOf x tr) [] s := by
    rw [handleTap_of_passes passes, handleEntry, findJourney_of_none none]
  have denied : exitDenied tr s = false := exitDenied_of_entry passes.1
  have written : decorate tr.entry.tap tr.entry.answeredLate tr.clamped false
      (entryRecord s (workOf x tr)) = entered := by
    subst record
    simp [decorate, entryRecord, newRecord, Record.flag, RecordFlags.or, Tap.received, own, Slot.label,
      policy]
  have told : ∀ q : VerdictQueue, answeredQueue q tr (entryAnswer s (workOf x tr)).kind
      (entryAnswer s (workOf x tr)).charge (entryAnswer s (workOf x tr)).reference
      (entryAnswer s (workOf x tr)).capReached (entryAnswer s (workOf x tr)).continued
      = answeredQueue q tr .go .none (some s.store.nextReference) false c.isSome := by
    intro q
    rw [← own]
    rfl
  have token : j.token = tr.entry.tap.token := by rw [is]; rfl
  have tag : j.tag = x := by rw [is]; rfl
  refine ⟨fun n inSet free lowest => ?_, fun before after w sound full parts inSet first => ?_⟩
  · have room := makeRoom_free (s := s) inSet free lowest
    rw [token] at room
    obtain ⟨line, office, ended⟩ := endTransaction_told_one tr false
      (appendJourney ⟨n, j⟩ (takeReference s)) (entryAnswer_goes s (workOf x tr))
      (entryRecord s (workOf x tr))
    rw [exec_reckonerGrant_of granted, handled, denied, admitEntry_eq (e := workOf x tr) room, journey]
    simp only [List.nil_append]
    rw [ended, told, written, appendJourney_eq, tag]
    exact ⟨_, rfl, rfl⟩
  · have room := makeRoom_full (s := s) full parts inSet first
    rw [token] at room
    obtain ⟨a, b, closed⟩ := noteClosing_eq w.journey.tag (removeJourney w.slot s)
    obtain ⟨line, office, ended⟩ := endTransaction_told_two tr false
      (appendJourney ⟨w.slot, j⟩ (takeReference (noteClosing w.journey.tag (removeJourney w.slot s))))
      (entryAnswer_goes s (workOf x tr)) (spillRecord s w.journey) (entryRecord s (workOf x tr))
    have left : s.store.journeys.filter (fun v => v.slot != w.slot) = before ++ after :=
      journeysWithout_of_parts sound parts
    have length : (s.store.journeys.filter (fun v => v.slot != w.slot)).length + 1
        = s.store.journeys.length := by rw [left, parts]; simp; omega
    rw [exec_reckonerGrant_of granted, handled, denied, admitEntry_eq (e := workOf x tr) room, journey]
    simp only [List.nil_append, List.cons_append]
    rw [ended, told, written, appendJourney_eq, closed]
    refine ⟨_, decorate tr.entry.tap tr.entry.answeredLate tr.clamped false
      (spillRecord s w.journey), rfl, ?_, ⟨rfl, rfl, ⟨rfl, rfl, rfl, rfl, rfl, rfl⟩, rfl, rfl⟩,
      carriesMarks_decorate (spillRecord_marks s w.journey) ..⟩
    refine State.eq_of_fields rfl rfl rfl rfl rfl rfl rfl rfl rfl ?_ ?_ ?_ rfl ?_ rfl rfl
    · exact congrArg (fun l => { s.store with
          journeys := l ++ [(⟨w.slot, j⟩ : JourneyWay)]
          nextReference := nextReferenceAfter s.store.nextReference }) left
    · exact congrArg (fun k => { s.sweep with spillMode := spillModeAt s k }) length
    · exact TableStore.eq_of_fields rfl rfl (TableStore.put_swapDue ..) (TableStore.put_denyList ..)
    · exact congrArg (fun k => { s.mgmt with
          counters := { s.mgmt.counters with
            entries := bump s.mgmt.counters.entries
            spills := bump s.mgmt.counters.spills }
          events := pressureAt s k (freedAt s w.journey.tag s.mgmt.events) }) length

/-- Settles O41: the entry that repeats an open journey's, and the exit that repeats a last exit. -/
theorem repeatsLeaveTheStore : Obligations.RepeatsLeaveTheStore := by
  intro s x tr p granted policy
  refine ⟨fun w passes sound held token station size => ?_,
    fun l day repeated exit early is repeats last => ?_⟩
  · have found : findJourney s tr.entry.tap.token = some w := token ▸ findJourney_of_mem sound held
    have same : compareEntry p w.journey tr.entry.tap.station tr.tapTime = .duplicate := by
      unfold compareEntry
      rw [if_pos station, if_pos (by omega)]
    obtain ⟨line, ended⟩ := endTransaction_told_none tr false s (a := { Answer.withReference .go
      w.journey.reference with continued := w.journey.continuation.isSome }) ⟨.inl rfl, rfl⟩
    have handled : handleTap x tr s = ⟨s, [], { Answer.withReference .go w.journey.reference with
        continued := w.journey.continuation.isSome }⟩ := by
      rw [handleTap_of_passes passes, handleEntry, found]
      simp only [policyOf_of policy, same]
    rw [exec_reckonerGrant_of granted, handled, exitDenied_of_entry passes.1, ended]
    exact ⟨_, rfl, rfl⟩
  · have duplicate : duplicateExit s x tr.entry.tap.token tr.entry.tap.station tr.tapTime = some l := by
      have test (k : LastExit) : RepeatsExit p tr.entry.tap.station tr.tapTime k ↔ repeated k := by
        rw [repeats]
        unfold RepeatsExit
        omega
      rw [duplicateExit_eq, policyOf_of policy, dayOf, ← is]
      refine findSome_dayAndBefore ?_
      simp only [repeatedBy_eq_some, repeatedBy_eq_none, test]
      rcases last with ⟨w, found, held, hit⟩ | ⟨none, later, w, found, held, hit⟩
      · exact .inl ⟨w, found, held, hit⟩
      · exact .inr ⟨fun v hv k hk => none v k hv hk, later, w, found, held, hit⟩
    obtain ⟨line, ended⟩ := endTransaction_told_none tr (exitDenied tr s) s (a := { Answer.withReference
      .go l.reference with charge := some l.shownCharge }) ⟨.inl rfl, rfl⟩
    have handled : handleTap x tr s = ⟨s, [], { Answer.withReference .go l.reference with
        charge := some l.shownCharge }⟩ := by
      rw [handleTap_of_exit exit, handleExit_of_early early, exitWithoutJourney, duplicate]
    rw [exec_reckonerGrant_of granted, handled, ended]
    exact ⟨_, rfl, rfl⟩

end
end

