-- ==== Sys2Proof/Proofs/Superseding.lean ====
section
/-! SUPPORT. An entry that supersedes its token's open journey, or is superseded by it, and O40. -/

namespace Sys2Proof.Machine

variable {s t : State} {x : SlotId} {tr : TapTransaction} {w : JourneyWay}

/-! ### The slot of an admission while another journey closes (R69, R142) -/

/-- A closing leaves the tables of an Active slot. -/
theorem closeJourney_activeTables (w : JourneyWay) {y : SlotId} (active : (slotOf s y).state = .active) :
    (slotOf (closeJourney w s) y).tables = (slotOf s y).tables := by
  have same : ∀ z, slotOf (compareMarks (removeJourney w.slot s)) z = slotOf s z := by
    intro z; simp [slotOf, removeJourney]
  unfold closeJourney
  by_cases own : y = w.journey.tag
  · subst own
    rw [noteClosing_slot, same, if_neg (by simp [active])]
  · rw [noteClosing_slot_ne own, same]

/-! ### The comparison of two entries (R71) -/

/-- Which closing the earlier-timed of two entries gets, beyond a repeat (R71, R73). -/
theorem compareEntry_of {p : Policy} {j : Journey} {station time : Nat} {kind : RecordKind}
    (h : j.entryStation = station ∧ kind = .cancelled
        ∧ p.duplicateWindow < (((time : Int) - (j.entryTime : Int)).natAbs)
        ∧ (((time : Int) - (j.entryTime : Int)).natAbs) ≤ p.grace * 60
      ∨ (j.entryStation ≠ station
          ∨ p.duplicateWindow < (((time : Int) - (j.entryTime : Int)).natAbs)
            ∧ p.grace * 60 < (((time : Int) - (j.entryTime : Int)).natAbs))
        ∧ kind = .incomplete) :
    kind = .cancelled ∧ compareEntry p j station time = .cancelled
      ∨ kind = .incomplete ∧ compareEntry p j station time = .incomplete := by
  unfold compareEntry Policy.graceSeconds
  rcases h with ⟨same, rfl, apart, near⟩ | ⟨other | ⟨apart, far⟩, rfl⟩
  · exact .inl ⟨rfl, by rw [if_pos same, if_neg (by omega), if_pos (by omega)]⟩
  · exact .inr ⟨rfl, if_neg other⟩
  · refine .inr ⟨rfl, ?_⟩
    split
    · rw [if_neg (by omega), if_neg (by omega)]
    · rfl

/-- What a transaction that closes one of two entries leaves as it was. -/
abbrev Supersedes (s u : State) : Prop :=
  u = { s with
    linePort := u.linePort
    officePort := u.officePort
    verdictQueue := u.verdictQueue
    officeQueue := u.officeQueue
    reckoner := none
    store := { s.store with
      journeys := u.store.journeys
      accounts := u.store.accounts
      accountFullDay := u.store.accountFullDay
      nextReference := nextReferenceAfter s.store.nextReference }
    sweep := { s.sweep with spillMode := u.sweep.spillMode }
    tables := { s.tables with slotA := u.tables.slotA, slotB := u.tables.slotB }
    mgmt := { s.mgmt with counters := u.mgmt.counters, events := u.mgmt.events } }

/-! ### The admission after a closing (R73, R75) -/

/-- The state a closing of a journey leaves, with the accounts, slots and events it gives. -/
abbrev closedWith (w : JourneyWay) (s : State) (accounts : List AccountWay) (fullDay : Option Nat)
    (a b : Slot) (events : List PendingEvent) : State :=
  { s with
    store := { s.store with
      journeys := journeysWithout w s
      accounts := accounts
      accountFullDay := fullDay }
    sweep := { s.sweep with spillMode := spillModeAt s (journeysWithout w s).length }
    tables := { s.tables with slotA := a, slotB := b }
    mgmt := { s.mgmt with
      events := closingEvents s w.journey.tag (journeysWithout w s).length events } }

/-- What an entry admitted after a closing has (R73, R75). -/
abbrev AdmittedAfter (s : State) (x : SlotId) (tr : TapTransaction) (p : Policy) (w : JourneyWay)
    (closed : Record) (u : State) : Prop :=
  ∃ entered c n, entered.kind = .entry
    ∧ entered.reference = some s.store.nextReference
    ∧ entered.token = tr.entry.tap.token ∧ entered.fareClass = tr.entry.tap.fareClass
    ∧ entered.label = some p.label ∧ entered.priced = none
    ∧ entered.entry = some ⟨tr.entry.tap.station, tr.tapTime⟩ ∧ entered.exit = none
    ∧ entered.flags.continued = c.isSome
    ∧ EntryContinues { s with store := { s.store with accounts := u.store.accounts } } p
      tr.entry.tap tr.tapTime c
    ∧ (∀ v ∈ s.store.journeys, v.slot ≠ w.slot → v.slot ≠ n)
    ∧ (∀ m < n, m / 4 = journeySet tr.entry.tap.token →
      ∃ v ∈ s.store.journeys, v.slot ≠ w.slot ∧ v.slot = m)
    ∧ u.officeQueue.frames = s.officeQueue.frames ++ [.record s.officeQueue.sequence closed,
      .record ((s.officeQueue.sequence + 1) % 256) entered]
    ∧ n / 4 = journeySet tr.entry.tap.token
    ∧ u.store.journeys
      = s.store.journeys.filter (fun v => v.slot != w.slot) ++ [⟨n, journeyOf s x tr p c⟩]
    ∧ u.verdictQueue = answeredQueue s.verdictQueue tr .go none (some s.store.nextReference)
      false c.isSome

/-- A closing leaves the token's set a free way (R64, R75). -/
theorem freeWay_after_closing (sound : JourneysSound s) (held : w ∈ s.store.journeys) :
    ∃ n, freeWay (journeySet w.journey.token) (((journeysWithout w s).filter
      (fun v => v.slot / 4 == journeySet w.journey.token)).map JourneyWay.slot) = some n := by
  refine Option.ne_none_iff_exists'.mp fun none => ?_
  have way : w.slot ∈ [journeySet w.journey.token * 4, journeySet w.journey.token * 4 + 1,
      journeySet w.journey.token * 4 + 2, journeySet w.journey.token * 4 + 3] := by
    have := sound.2.2 w held
    simp only [List.mem_cons, List.not_mem_nil, or_false]
    omega
  have taken := List.find?_eq_none.mp none w.slot way
  simp at taken

/-- An entry admitted after its token's open journey was closed (R73, R75). -/
theorem admit_after_closing {p : Policy} {closing : Record} {accounts : List AccountWay}
    {fullDay : Option Nat} {a b : Slot} {events : List PendingEvent} {c : Closed}
    (st : c.st = closedWith w s accounts fullDay a b events) (record : c.record = closing)
    (tables : (slotOf c.st x).tables = (slotOf s x).tables)
    (policy : (slotOf s x).tables.policy = some p) (sound : JourneysSound s)
    (held : w ∈ s.store.journeys) (token : w.journey.token = tr.entry.tap.token) {mid : State}
    (is : mid = { s with sweep := { s.sweep with
      spillMode := spillModeAt s (s.store.journeys.length - 1) } }) :
    ∃ u, endTransaction tr.entry tr.clamped false (admitEntry (workOf x tr) [c.record] c.st) = u
      ∧ Supersedes s u ∧ u.officeQueue.setAside = s.officeQueue.setAside - 3
      ∧ u.store.accounts = accounts ∧ u.store.accountFullDay = fullDay
      ∧ u.mgmt.counters = Counters.record .entry (Counters.record closing.kind s.mgmt.counters)
      ∧ u.sweep.spillMode = spillModeAt mid s.store.journeys.length
      ∧ u.mgmt.events = pressureAt mid s.store.journeys.length
        (closingEvents s w.journey.tag (s.store.journeys.length - 1) events)
      ∧ AdmittedAfter s x tr p w
        (decorate tr.entry.tap tr.entry.answeredLate tr.clamped false closing) u := by
  have length := journeysWithout_length sound held
  have pos : 0 < s.store.journeys.length := List.length_pos_of_mem held
  have next : (journeysWithout w s).length + 1 = s.store.journeys.length := by omega
  obtain ⟨n, free⟩ := freeWay_after_closing sound held
  obtain ⟨inSet, notTaken, lowest⟩ := freeWay_eq_some.mp free
  have room : makeRoom (journeySet tr.entry.tap.token) c.st = (c.st, [], n) := by
    have found : freeWay (journeySet tr.entry.tap.token) ((c.st.store.journeys.filter
        (fun v => v.slot / 4 == journeySet tr.entry.tap.token)).map JourneyWay.slot) = some n := by
      rw [st, ← token]; exact free
    simp [makeRoom, found]
  have continues := continuationFor_continues (s := c.st) (workOf x tr) (tables ▸ policy)
  have journey : admittedJourney c.st (workOf x tr)
      = journeyOf s x tr p (continuationFor c.st (workOf x tr)) := by
    rw [admittedJourney_eq (tables ▸ policy) rfl, st]
    rfl
  obtain ⟨line, office, ended⟩ := endTransaction_told_two tr false (appendJourney
    ⟨n, admittedJourney c.st (workOf x tr)⟩ (takeReference c.st))
    (entryAnswer_goes c.st (workOf x tr)) closing (entryRecord c.st (workOf x tr))
  rw [admitEntry_eq (e := workOf x tr) room, record]
  simp only [List.append_nil, List.cons_append, List.nil_append]
  rw [ended, appendJourney_eq, journey]
  have label : (slotOf c.st x).label = some p.label := by simp [Slot.label, tables, policy]
  have mode : spillModeAt c.st (c.st.store.journeys.length + 1)
      = spillModeAt mid s.store.journeys.length := by
    rw [st, is, ← length, ← next]
    rfl
  have report : pressureAt c.st (c.st.store.journeys.length + 1) c.st.mgmt.events
      = pressureAt mid s.store.journeys.length
        (closingEvents s w.journey.tag (s.store.journeys.length - 1) events) := by
    rw [st, is, ← length, ← next]
    rfl
  refine ⟨_, rfl, ?_, ?_, ?_, ?_, ?_, mode, report, decorate tr.entry.tap tr.entry.answeredLate
    tr.clamped false (entryRecord c.st (workOf x tr)), continuationFor c.st (workOf x tr), n,
    rfl, ?_, rfl, rfl, label, rfl, rfl, rfl, ?_, ?_, ?_, ?_, ?_, token ▸ inSet, ?_, ?_⟩
  · unfold Supersedes
    rw [st]
    exact State.eq_of_fields rfl rfl rfl rfl rfl rfl rfl rfl rfl rfl rfl
      (TableStore.eq_of_fields rfl rfl (TableStore.put_swapDue ..) (TableStore.put_denyList ..))
      rfl rfl rfl rfl
  · change c.st.officeQueue.setAside - 3 = _
    rw [st]
  · change c.st.store.accounts = accounts
    rw [st]
  · change c.st.store.accountFullDay = fullDay
    rw [st]
  · change Counters.record .entry (Counters.record closing.kind c.st.mgmt.counters) = _
    rw [st]
  · change some c.st.store.nextReference = _
    rw [st]
  · simp [decorate, entryRecord, Record.flag, RecordFlags.or, newRecord]
  · change EntryContinues { s with store := { s.store with accounts := c.st.store.accounts } } p _ _ _
    rw [st] at continues ⊢
    exact continues
  · intro v hv other same
    exact notTaken (List.mem_map.mpr ⟨v, List.mem_filter.mpr ⟨List.mem_filter.mpr
      ⟨hv, by simpa using other⟩, by simpa [same] using inSet⟩, same⟩)
  · intro m below hm
    obtain ⟨v, hv, same⟩ := List.mem_map.mp (lowest m below (hm.trans (by rw [token])))
    obtain ⟨left, _⟩ := List.mem_filter.mp hv
    obtain ⟨stands, other⟩ := List.mem_filter.mp left
    exact ⟨v, stands, by simpa using other, same⟩
  · change c.st.officeQueue.frames ++ [.record c.st.officeQueue.sequence _,
      .record ((c.st.officeQueue.sequence + 1) % 256) _] = _
    rw [st]
  · change c.st.store.journeys ++ [_] = _
    rw [st]
  · change answeredQueue c.st.verdictQueue tr .go none (some c.st.store.nextReference) false _ = _
    rw [st]
    rfl

/-! ### The new entry closed in the open journey's stead (R73) -/

/-- The reference counter plays no part in obtaining an account. -/
theorem obtainAccount_takeReference (token : Token) (day : Nat) (s : State) :
    obtainAccount token day (takeReference s)
      = (takeReference (obtainAccount token day s).1, (obtainAccount token day s).2) := by
  unfold obtainAccount
  rw [show findAccount (takeReference s) token day = findAccount s token day from rfl,
    show slotForNew (takeReference s) token = slotForNew s token from rfl]
  split
  · rfl
  · split
    · rfl
    · unfold noteUntracked
      rw [show (takeReference s).store.accountFullDay = s.store.accountFullDay from rfl,
        show (takeReference s).store.grant = s.store.grant from rfl]
      split <;> rfl

theorem writeAccount_takeReference (slot : Option Nat) (f : Account → Account) (s : State) :
    writeAccount slot f (takeReference s) = takeReference (writeAccount slot f s) := by
  cases slot <;> rfl

/-- What the record of a new entry closed in its transaction carries (R73, R159). -/
def newEntryRecord (s : State) (x : SlotId) (tr : TapTransaction) (kind : RecordKind) (priced : Priced) :
    Record :=
  { newRecord s kind tr.entry.tap.token tr.entry.tap.fareClass with
    reference := some s.store.nextReference
    label := (slotOf s x).label
    entry := some ⟨tr.entry.tap.station, tr.tapTime⟩
    priced := some priced }

theorem closeNewEntry_cancelled (s : State) (x : SlotId) (tr : TapTransaction) :
    closeNewEntry true (workOf x tr) s = ⟨takeReference s, [newEntryRecord s x tr .cancelled
      ⟨0, 0, [⟨stationOwner (slotOf s x).tables tr.entry.tap.station, 0⟩]⟩],
      Answer.withReference .go s.store.nextReference⟩ := rfl

/-- The last incomplete of a new entry closed in its transaction (R95). -/
abbrev newIncomplete (s : State) (tr : TapTransaction) (charge : Nat) : LastIncomplete where
  entryStation := tr.entry.tap.station
  entryTime := tr.tapTime
  fareClass := tr.entry.tap.fareClass
  charge := charge
  reference := s.store.nextReference

theorem closeNewEntry_incomplete {held : State × Option Nat} {charge : Nat}
    (is : held = obtainAccount tr.entry.tap.token
      (serviceDay s.mgmt.settings.rolloverMinute tr.tapTime) s)
    (charged : charge = incompleteCharge (fareContext s x) tr.entry.tap.fareClass tr.tapTime none) :
    closeNewEntry false (workOf x tr) s = ⟨takeReference
        (writeAccount held.2 (Account.withIncomplete (newIncomplete s tr charge)) held.1),
      [(newEntryRecord s x tr .incomplete ⟨0, charge, [⟨incompleteOwner (slotOf s x).tables
        tr.entry.tap.station none, charge⟩]⟩).flag (untrackedFlag held.2)],
      Answer.withReference .go s.store.nextReference⟩ := by
  have same := fareContext_obtained is x
  have priced := incompletePricing_priced (fareContext held.1 x) tr.entry.tap.fareClass
    tr.entry.tap.station tr.tapTime none
  rw [same, ← charged] at priced
  have amount : (incompletePricing (fareContext s x) tr.entry.tap.fareClass tr.entry.tap.station
      tr.tapTime none none).charge = charge := charged.symm
  have obtained : obtainAccount tr.entry.tap.token (dayOf s tr.tapTime) (takeReference s)
      = (takeReference held.1, held.2) := by
    rw [obtainAccount_takeReference, is]
    rfl
  unfold closeNewEntry
  simp only [Bool.false_eq_true, if_false, obtained]
  rw [show fareContext (takeReference held.1) x = fareContext s x from same, priced, amount,
    writeLastIncomplete, writeAccount_takeReference]
  have written := writeAccount_obtained is (Account.withIncomplete (newIncomplete s tr charge))
  have carried (t : State) (p : Priced) (clock : t.clock = s.clock) (tables : t.tables = s.tables) :
      { newRecord t .incomplete tr.entry.tap.token tr.entry.tap.fareClass with
        reference := some s.store.nextReference
        label := (slotOf t x).label
        entry := some ⟨tr.entry.tap.station, tr.tapTime⟩
        priced := some p } = newEntryRecord s x tr .incomplete p := by
    simp [newEntryRecord, newRecord, slotOf, clock, tables]
  exact congrArg (fun r : Record => (⟨takeReference (writeAccount held.2
    (Account.withIncomplete (newIncomplete s tr charge)) held.1), [r.flag (untrackedFlag held.2)],
    Answer.withReference .go s.store.nextReference⟩ : Handled))
    (carried (takeReference (writeAccount held.2 (Account.withIncomplete (newIncomplete s tr charge))
      held.1)) _ (by rw [written]; rfl) (by rw [written]; rfl))

end Sys2Proof.Machine

section
open Sys2Proof Sys2Proof.Machine

/-- Settles O40: the open journey closed and the new entry admitted, or the new entry closed instead. -/
theorem entrySupersedes : Obligations.EntrySupersedes := by
  intro s x tr p w kind occupancy counted granted passes policy sound held token compared whole counts
  have active : (slotOf s x).state = .active := activeSlot_state granted.2.2.2
  have found : findJourney s tr.entry.tap.token = some w := token ▸ findJourney_of_mem sound held
  have denied : exitDenied tr s = false := exitDenied_of_entry passes.1
  subst whole counts
  have run {h : Handled} {u : State} (handled : handleEntry (workOf x tr) s = h)
      (ended : endTransaction tr.entry tr.clamped false h = u) :
      exec .reckonerGrant s = .next (releaseStore (takeTaps u)) := by
    rw [exec_reckonerGrant_of granted, handleTap_of_passes passes, handled, denied, ended]
  have goes : Goes (Answer.withReference .go s.store.nextReference) := ⟨.inl rfl, rfl⟩
  rcases compareEntry_of compared with ⟨rfl, same⟩ | ⟨rfl, same⟩ <;>
    by_cases older : w.journey.entryTime ≤ tr.tapTime
  · have handled : handleEntry (workOf x tr) s
        = admitEntry (workOf x tr) [(closeCancelled w s).record] (closeCancelled w s).st := by
      rw [handleEntry, found]
      simp only [policyOf_of policy, same, older, if_true]
    obtain ⟨a, b, closed⟩ := closeJourney_eq w s
    obtain ⟨u, out, leaves, aside, accounts, fullDay, counters, mode, events, admitted⟩ :=
      admit_after_closing (x := x) (c := closeCancelled w s) closed rfl
        (closeJourney_activeTables w active) policy sound held token rfl
    refine ⟨u, decorate tr.entry.tap tr.entry.answeredLate tr.clamped false
      (closeCancelled w s).record, run handled out, rfl, token, rfl, rfl, leaves,
      aside, fun _ => ⟨⟨_, rfl, fun _ => rfl, fun newer => absurd older (Nat.not_le.mpr newer)⟩,
        accounts, fullDay⟩, fun _ mid raised is raises => ?_,
      fun newer => absurd older (Nat.not_le.mpr newer)⟩
    subst is
    refine ⟨⟨rfl, rfl, rfl, rfl, rfl, rfl⟩, fun h => absurd h (by decide), ?_, mode,
      fun _ => events.trans (raises _).symm, fun _ _ h => absurd h (by decide), admitted⟩
    rw [counters]
    simp [closeCancelled, closingRecord, newRecord, Counters.record]
  · have handled : handleEntry (workOf x tr) s = closeNewEntry true (workOf x tr) s := by
      rw [handleEntry, found]
      simp only [policyOf_of policy, same, older, if_false]
    obtain ⟨line, office, ended⟩ := endTransaction_told_one tr false (takeReference s) goes
      (newEntryRecord s x tr .cancelled
        ⟨0, 0, [⟨stationOwner (slotOf s x).tables tr.entry.tap.station, 0⟩]⟩)
    rw [closeNewEntry_cancelled] at handled
    refine ⟨_, decorate tr.entry.tap tr.entry.answeredLate tr.clamped false
      (newEntryRecord s x tr .cancelled
        ⟨0, 0, [⟨stationOwner (slotOf s x).tables tr.entry.tap.station, 0⟩]⟩),
      run handled ended, rfl, rfl, rfl, rfl, rfl, rfl,
      fun _ => ⟨⟨_, rfl, fun h => absurd h older, fun _ => rfl⟩, rfl, rfl⟩,
      fun h => absurd h older, fun _ => ⟨rfl, rfl, ?_, rfl, rfl, ?_, rfl, fun _ => rfl,
        fun _ _ h => absurd h (by decide), rfl, rfl, rfl⟩⟩
    · simp [decorate, newEntryRecord, Slot.label, policy]
    · simp [newEntryRecord, newRecord, Counters.record, takeReference]
  · have handled : handleEntry (workOf x tr) s
        = admitEntry (workOf x tr) [(closeIncomplete {} w s).record] (closeIncomplete {} w s).st := by
      rw [handleEntry, found]
      simp only [policyOf_of policy, same, older, if_true]
    obtain ⟨a, b, closed⟩ := closeJourney_obtained (held := heldFor w s) rfl
      (Account.withIncomplete (incompleteOf w s)) w
    obtain ⟨isIncomplete, carries, exit, priced, flags⟩ := closeIncomplete_carries {} w s
    have tables : (slotOf (closeIncomplete {} w s).st x).tables = (slotOf s x).tables := by
      rw [closeIncomplete_st, closeJourney_activeTables]
      · rw [writeAccount_obtained (s := s) (held := heldFor w s) rfl]; rfl
      · rw [writeAccount_obtained (s := s) (held := heldFor w s) rfl]; exact active
    obtain ⟨u, out, leaves, aside, accounts, fullDay, counters, mode, events, admitted⟩ :=
      admit_after_closing (x := x) (c := closeIncomplete {} w s)
        ((closeIncomplete_st {} w s).trans closed) rfl tables policy sound held token rfl
    obtain ⟨reference, closedToken, fareClass, label, entry, origin⟩ := carries
    refine ⟨u, decorate tr.entry.tap tr.entry.answeredLate tr.clamped false
      (closeIncomplete {} w s).record, run handled out, isIncomplete,
      closedToken.trans token, exit, rfl, leaves, aside, fun h => absurd h (by decide),
      fun _ mid raised is raises => ?_, fun newer => absurd older (Nat.not_le.mpr newer)⟩
    subst is
    refine ⟨⟨reference, closedToken, fareClass, label, entry, origin⟩, fun _ => ?_, ?_, mode,
      fun h => absurd h (by decide), fun held' charge _ isHeld charged => ?_, admitted⟩
    · refine carriesMarks_decorate ⟨?_, ?_⟩ .. <;>
        simp [flags, newRecord, RecordFlags.or, Journey.marks, untrackedFlag]
    · rw [counters, isIncomplete]
      simp [Counters.record]
    · have set : incompleteOf w s = ⟨w.journey.entryStation, w.journey.entryTime,
          w.journey.fareClass, charge, w.journey.reference⟩ := by rw [charged]
      rw [show heldFor w s = held' from isHeld.symm] at *
      rw [set] at priced accounts
      refine ⟨priced, events.trans (raises _).symm, ?_, fullDay, accounts⟩
      simp [decorate, flags, newRecord, RecordFlags.or, Journey.marks, untrackedFlag]
  · have handled : handleEntry (workOf x tr) s = closeNewEntry false (workOf x tr) s := by
      rw [handleEntry, found]
      simp only [policyOf_of policy, same, older, if_false]
    obtain ⟨held', isHeld⟩ : ∃ held', held' = obtainAccount tr.entry.tap.token
      (serviceDay s.mgmt.settings.rolloverMinute tr.tapTime) s := ⟨_, rfl⟩
    obtain ⟨charge, charged⟩ : ∃ charge, charge = incompleteCharge (fareContext s x)
      tr.entry.tap.fareClass tr.tapTime none := ⟨_, rfl⟩
    rw [closeNewEntry_incomplete isHeld charged, writeAccount_obtained isHeld] at handled
    obtain ⟨line, office, ended⟩ := endTransaction_told_one tr false (takeReference { s with
      store := { s.store with
        accounts := accountsWith held' (Account.withIncomplete (newIncomplete s tr charge))
        accountFullDay := held'.1.store.accountFullDay }
      mgmt := { s.mgmt with events := held'.1.mgmt.events } }) goes
      ((newEntryRecord s x tr .incomplete ⟨0, charge, [⟨incompleteOwner (slotOf s x).tables
        tr.entry.tap.station none, charge⟩]⟩).flag (untrackedFlag held'.2))
    refine ⟨_, decorate tr.entry.tap tr.entry.answeredLate tr.clamped false
      ((newEntryRecord s x tr .incomplete ⟨0, charge, [⟨incompleteOwner (slotOf s x).tables
        tr.entry.tap.station none, charge⟩]⟩).flag (untrackedFlag held'.2)),
      run handled ended, rfl, rfl, rfl, rfl, rfl, rfl, fun h => absurd h (by decide),
      fun h => absurd h older, fun _ => ⟨rfl, rfl, ?_, rfl, rfl, ?_, rfl,
        fun h => absurd h (by decide), fun other amount _ isOther isAmount => ?_, rfl, rfl, rfl⟩⟩
    · simp [decorate, Record.flag, newEntryRecord, Slot.label, policy]
    · simp [newEntryRecord, newRecord, Record.flag, Counters.record, takeReference]
    · obtain rfl := isHeld.trans isOther.symm
      obtain rfl := charged.trans isAmount.symm
      refine ⟨rfl, rfl, ?_, rfl, rfl⟩
      simp [decorate, Record.flag, newEntryRecord, newRecord, RecordFlags.or, untrackedFlag]

end
end

