-- ==== Sys2Proof/Proofs/MatchedExits.lean ====
section
/-! SUPPORT. Exits that match an open journey, and O42. -/

namespace Sys2Proof.Machine

variable {s t : State} {x : SlotId} {tr : TapTransaction} {w : JourneyWay}

/-! ### What a matched exit leaves (R76 to R79) -/

/-- What the statement says of a matched exit's pricing. -/
structure ExitPriced where
  distance : Nat
  shares : List Share
  capReached : Bool
  continued : Bool
  notApplied : Bool
  ignored : Bool
  overstay : Bool
  spent : Option Nat
  origin : StationTime
  soFar : Nat
  nil : Bool

/-- What a matched exit leaves of the state, its account and events aside. -/
abbrev ExitLeaves (s : State) (tr : TapTransaction) (w : JourneyWay) (kind : RecordKind)
    (told : VerdictKind) (charge : Option Nat) (v : ExitPriced) (c : Record) (u : State) : Prop :=
  u = { s with
    linePort := u.linePort
    officePort := u.officePort
    verdictQueue := answeredQueue s.verdictQueue tr told charge (some w.journey.reference)
      v.capReached v.continued
    officeQueue := {
      frames := s.officeQueue.frames ++ [.record s.officeQueue.sequence c]
      setAside := s.officeQueue.setAside - 3
      sequence := (s.officeQueue.sequence + 1) % 256 }
    reckoner := none
    store := { s.store with
      journeys := s.store.journeys.filter (fun v => v.slot != w.slot)
      accounts := u.store.accounts
      accountFullDay := u.store.accountFullDay }
    sweep := { s.sweep with spillMode := spillModeAt s (s.store.journeys.length - 1) }
    tables := { s.tables with slotA := u.tables.slotA, slotB := u.tables.slotB }
    mgmt := { s.mgmt with
      counters := Counters.record kind s.mgmt.counters
      events := u.mgmt.events } }

/-- What a Completed exit makes of its account (R92 to R94). -/
abbrev ExitWrites (s : State) (tr : TapTransaction) (w : JourneyWay) (held : State × Option Nat)
    (charge : Option Nat) (v : ExitPriced) (c : Record) (u : State) : Prop :=
  u.store.accountFullDay = held.1.store.accountFullDay
    ∧ u.mgmt.events
      = closingEvents s w.journey.tag (s.store.journeys.length - 1) held.1.mgmt.events
    ∧ c.flags.capUntracked = held.2.isNone ∧ c.flags.nilJourney = (held.2.isSome && v.nil)
    ∧ u.store.accounts = accountsWith held (Account.withExit v.spent {
        station := tr.entry.tap.station
        exitTime := tr.tapTime
        originStation := v.origin.station
        originTime := v.origin.time
        chargedSoFar := v.soFar
        nilSoFar := v.nil
        shownCharge := charge.getD 0
        reference := w.journey.reference })

/-- A matched exit closes its journey: its record, its answer, and what becomes of its account. -/
abbrev ExitCloses (s : State) (tr : TapTransaction) (w : JourneyWay) (p : Policy)
    (held : State × Option Nat) (kind : RecordKind) (reason : Reason) (told : VerdictKind)
    (charge : Option Nat) (v : ExitPriced) : Prop :=
  ∃ u c, exec .reckonerGrant s = .next (releaseStore (takeTaps u))
    ∧ ExitLeaves s tr w kind told charge v c u
    ∧ c.kind = kind ∧ c.reason = reason ∧ c.token = tr.entry.tap.token
    ∧ c.fareClass = w.journey.fareClass ∧ c.reference = some w.journey.reference
    ∧ c.label = some p.label ∧ c.entry = some ⟨w.journey.entryStation, w.journey.entryTime⟩
    ∧ c.exit = some ⟨tr.entry.tap.station, tr.tapTime⟩
    ∧ c.priced = charge.map (fun a => ⟨v.distance, a, v.shares⟩)
    ∧ c.flags.continued = v.continued ∧ c.flags.continuationNotApplied = v.notApplied
    ∧ c.flags.passIgnored = v.ignored
    ∧ c.origin = w.journey.continuation.map (fun v => ⟨v.originStation, v.originTime⟩)
    ∧ c.flags.overstay = v.overstay ∧ c.flags.capReached = v.capReached
    ∧ c.flags.denyListed = s.store.grant.denied
    ∧ (kind = .unpriced ∨ kind = .cancelled →
        u.store.accounts = s.store.accounts ∧ u.store.accountFullDay = s.store.accountFullDay
        ∧ u.mgmt.events = closingEvents s w.journey.tag (s.store.journeys.length - 1) s.mgmt.events)
    ∧ (kind = .completed → ExitWrites s tr w held charge v c u)

/-- A pricing gives a Completed exit the values the statement speaks of. -/
structure Prices (w : JourneyWay) (q : Pricing) (v : ExitPriced) : Prop where
  distance : q.distance = v.distance
  shares : q.shares = v.shares
  capReached : q.capReached = v.capReached
  continued : q.continued = v.continued
  notApplied : q.continuationNotApplied = v.notApplied
  ignored : q.passIgnored = v.ignored
  spent : q.spentAfter = v.spent
  origin : q.origin.getD ⟨w.journey.entryStation, w.journey.entryTime⟩ = v.origin
  soFar : q.chargedSoFar.getD q.charge = v.soFar
  nil : nilSoFar q.charge (appliedOf w.journey q) = v.nil

theorem exitDenied_of_exit (exit : tr.entry.tap.direction = 2) :
    exitDenied tr s = s.store.grant.denied := by
  simp [exitDenied, Tap.isEntry, exit]

/-- An exit that closes its journey without an account: Unpriced or Cancelled (R46, R77, R98). -/
theorem exit_without_account {kind : RecordKind} {told : VerdictKind} {a : Answer}
    {r : Record} {charge : Option Nat} {v : ExitPriced}
    (granted : Granted s x tr) (exit : tr.entry.tap.direction = 2) (sound : JourneysSound s)
    (here : w ∈ s.store.journeys) (goes : Goes a)
    (handled : handleTap x tr s = ⟨closeJourney w s, [r], a⟩)
    (is : a = { Answer.withReference told w.journey.reference with
      charge := charge, capReached := v.capReached, continued := v.continued })
    (isKind : r.kind = kind) :
    ∃ u, exec .reckonerGrant s = .next (releaseStore (takeTaps u))
      ∧ ExitLeaves s tr w kind told charge v (decorate tr.entry.tap tr.entry.answeredLate tr.clamped
        s.store.grant.denied r) u
      ∧ u.store.accounts = s.store.accounts ∧ u.store.accountFullDay = s.store.accountFullDay
      ∧ u.mgmt.events = closingEvents s w.journey.tag (s.store.journeys.length - 1) s.mgmt.events := by
  obtain ⟨line, office, ended⟩ := endTransaction_told_one tr (exitDenied tr s) (closeJourney w s) goes r
  obtain ⟨b, d, closed⟩ := closeJourney_eq w s
  rw [exec_reckonerGrant_of granted, handled, ended, exitDenied_of_exit exit, isKind, is, closed,
    journeysWithout_length sound here]
  exact ⟨_, rfl, rfl, rfl, rfl, rfl⟩

/-- An exit that closes its journey as Completed (R78, R92 to R94). -/
theorem exit_completed {p : Policy} {token : Token} {day : Nat} {held : State × Option Nat}
    {extra : RecordFlags} {q : Pricing} {v : ExitPriced}
    (granted : Granted s x tr) (exit : tr.entry.tap.direction = 2) (sound : JourneysSound s)
    (here : w ∈ s.store.journeys) (is : held = obtainAccount token day s)
    (prices : Prices w q v)
    (handled : handleTap x tr s = ⟨(closeCompleted extra w ⟨tr.entry.tap.station, tr.tapTime⟩ held.2 q
        held.1).st, [(closeCompleted extra w ⟨tr.entry.tap.station, tr.tapTime⟩ held.2 q held.1).record],
      exitAnswer q w.journey.reference⟩)
    (same : w.journey.token = tr.entry.tap.token)
    (policy : (slotOf s w.journey.tag).tables.policy = some p)
    (overstay : extra = { overstay := v.overstay })
    (untracked : q.capUntracked = true → held.2.isNone = true) :
    ExitCloses s tr w p held .completed .none .go (some q.charge) v := by
  obtain ⟨r, record, kind, ⟨reference, token, fareClass, label, entry, origin⟩, exited, priced, reason,
    flags⟩ := closeCompleted_carries is extra w ⟨tr.entry.tap.station, tr.tapTime⟩ q
  obtain ⟨a, b, closed⟩ := closeJourney_obtained is (Account.withExit q.spentAfter
    (lastExitFor w ⟨tr.entry.tap.station, tr.tapTime⟩ q)) w
  have st := closeCompleted_st extra w ⟨tr.entry.tap.station, tr.tapTime⟩ held.2 q held.1
  obtain ⟨line, office, ended⟩ := endTransaction_told_one tr (exitDenied tr s) (a := exitAnswer q
    w.journey.reference) (closeCompleted extra w ⟨tr.entry.tap.station, tr.tapTime⟩ held.2 q held.1).st
    ⟨.inl rfl, rfl⟩ r
  have exits : lastExitFor w ⟨tr.entry.tap.station, tr.tapTime⟩ q = {
      station := tr.entry.tap.station
      exitTime := tr.tapTime
      originStation := v.origin.station
      originTime := v.origin.time
      chargedSoFar := v.soFar
      nilSoFar := v.nil
      shownCharge := q.charge
      reference := w.journey.reference } := by
    simp only [lastExitFor, lastExitOf, prices.origin, prices.soFar, prices.nil]
  have run : exec .reckonerGrant s = .next (releaseStore (takeTaps (endTransaction tr.entry tr.clamped
      (exitDenied tr s) ⟨(closeCompleted extra w ⟨tr.entry.tap.station, tr.tapTime⟩ held.2 q held.1).st,
        [r], exitAnswer q w.journey.reference⟩))) := by
    rw [exec_reckonerGrant_of granted, handled, record]
  rw [ended, st, closed, exits, prices.spent, journeysWithout_length sound here, kind,
    exitDenied_of_exit exit] at run
  have told : (exitAnswer q w.journey.reference).capReached = v.capReached
      ∧ (exitAnswer q w.journey.reference).continued = v.continued :=
    ⟨prices.capReached, prices.continued⟩
  rw [told.1, told.2] at run
  subst overstay
  refine ⟨_, decorate tr.entry.tap tr.entry.answeredLate tr.clamped s.store.grant.denied r, run, rfl,
    kind, reason, token.trans same, fareClass, reference, ?_, entry, exited, ?_, ?_, ?_, ?_, origin,
    ?_, ?_, ?_, fun h => absurd h (by decide), fun _ => ⟨rfl, rfl, ?_, ?_, rfl⟩⟩
  · exact label.trans (by simp [Slot.label, policy])
  · change r.priced = _
    rw [priced, Pricing.priced, prices.distance, prices.shares]
    rfl
  all_goals simp only [decorate, flags, RecordFlags.or, newRecord, exitFlags, Pricing.flags, untrackedFlag,
    prices.continued, prices.notApplied, prices.ignored, prices.capReached, prices.nil,
    Bool.false_or, Bool.or_false]
  cases slot : held.2 with
  | none => simp
  | some n => simpa [slot] using untracked

/-! ### Which closing a matched exit gets (R46 to R48, R77, R78) -/

theorem matchedExit_of_present {p : Policy} {tap : Tap} {time : Nat}
    (present : stationPresent (slotOf s w.journey.tag).tables tap.station = true)
    (policy : (slotOf s w.journey.tag).tables.policy = some p) : matchedExit w tap time s
      = if p.maxJourney * 60 < time - w.journey.entryTime then exitOverstay w tap ⟨tap.station, time⟩ s
        else if tap.station = w.journey.entryStation ∧ w.journey.continuation = none then
          if time - w.journey.entryTime ≤ p.grace * 60 then exitCancelled w ⟨tap.station, time⟩ s
          else exitSameStation w ⟨tap.station, time⟩ s
        else exitFull w tap ⟨tap.station, time⟩ s := by
  unfold matchedExit withinGrace journeyTime
  simp only [present, policyOf_of policy, Policy.maxSeconds, Policy.graceSeconds,
    Option.isNone_iff_eq_none, decide_eq_true_eq, Bool.not_true, Bool.false_eq_true, if_false]

/-- The handling of an exit that closes its journey as Completed at a pricing. -/
abbrev completedAt (extra : RecordFlags) (w : JourneyWay) (exit : StationTime)
    (held : State × Option Nat) (q : Pricing) : Handled :=
  ⟨(closeCompleted extra w exit held.2 q held.1).st, [(closeCompleted extra w exit held.2 q held.1).record],
    exitAnswer q w.journey.reference⟩

theorem exitOverstay_eq {held : State × Option Nat} (is : held = heldFor w s) (tap : Tap)
    (exit : StationTime) : exitOverstay w tap exit s
      = completedAt { overstay := true } w exit held (incompletePricing (fareContext s w.journey.tag)
        w.journey.fareClass w.journey.entryStation w.journey.entryTime w.journey.continuation
        (reckonPath (fareContext s w.journey.tag).tables w.journey.entryStation exit.station
          (w.journey.pass.or tap.pass)
          (serviceDay (fareContext s w.journey.tag).rollover w.journey.entryTime)).toOption) := by
  rw [← fareContext_obtained is w.journey.tag, is]
  rfl

/-- The pricing of a same-station exit beyond the grace, as its capping gives it (R46). -/
abbrev sameStationPaid (w : JourneyWay) (s : State) (paid : Capped) : Pricing where
  charge := paid.charge
  distance := 0
  shares := [⟨stationOwner (slotOf s w.journey.tag).tables w.journey.entryStation, paid.charge⟩]
  spentAfter := paid.spentAfter
  origin := some ⟨w.journey.entryStation, w.journey.entryTime⟩
  chargedSoFar := some paid.charge
  passIgnored := false
  continued := false
  continuationNotApplied := false
  capReached := paid.capReached
  capUntracked := paid.capUntracked

theorem exitSameStation_eq {held : State × Option Nat} {p : Policy} {paid : Capped}
    (is : held = heldFor w s) (policy : (slotOf s w.journey.tag).tables.policy = some p)
    (isPaid : paid = capCharge (classEntry (slotOf s w.journey.tag).tables w.journey.fareClass).cap
      p.sameStationCharge (spentOf held.1 held.2)) (exit : StationTime) :
    exitSameStation w exit s = completedAt {} w exit held (sameStationPaid w s paid) := by
  have pricing : sameStationPricing (fareContext s w.journey.tag).tables w.journey.fareClass
      w.journey.entryStation w.journey.entryTime (spentOf held.1 held.2) = sameStationPaid w s paid := by
    rw [isPaid, ← policyOf_of policy]
    rfl
  rw [← pricing, ← fareContext_obtained is w.journey.tag, is]
  rfl

theorem exitFull_eq {held : State × Option Nat} {q : Pricing} {tap : Tap} {exit : StationTime}
    (is : held = heldFor w s) (priced : fullPricing (fareContext s w.journey.tag) w.journey.fareClass
      w.journey.entryStation w.journey.entryTime exit.station (w.journey.pass.or tap.pass)
      w.journey.continuation (spentOf held.1 held.2) = some q) :
    exitFull w tap exit s = completedAt {} w exit held q := by
  have pricing : priceJourney w (exitPass w.journey tap) exit s = some (held.1, held.2, q) := by
    rw [← fareContext_obtained is w.journey.tag] at priced
    subst is
    exact congrArg (Option.map _) priced
  unfold exitFull
  rw [pricing]

theorem capCharge_capUntracked (cap fare : Nat) (account : Option Nat) :
    (capCharge cap fare account).capUntracked = account.isNone := by
  cases account with
  | none => rfl
  | some spent => simp only [capCharge]; split <;> rfl

end Sys2Proof.Machine

section
open Sys2Proof Sys2Proof.Machine

/-- Settles O42: the five closings of a matched exit. -/
theorem matchedExitCloses : Obligations.MatchedExitCloses := by
  intro s x tr w g p held kind reason told charge distance shares capReached continued notApplied ignored
    overstay spent origin own soFar nil granted exit sound here token entered isG policy is isOwn priced
  have found : findJourney s tr.entry.tap.token = some w := token ▸ findJourney_of_mem sound here
  have handled : handleTap x tr s = matchedExit w tr.entry.tap tr.tapTime s := by
    rw [handleTap_of_exit exit, handleExit, found]
    exact if_pos entered
  subst isG isOwn
  have tagged : (slotOf s w.journey.tag).tables.policy = some p := policy
  rcases priced with ⟨absent, rfl, rfl, rfl, rfl, rfl, rfl, rfl, rfl, rfl⟩ | ⟨present, rfl, rfl, priced⟩
  · have out : handleTap x tr s = exitStationUnknown w ⟨tr.entry.tap.station, tr.tapTime⟩ s := by
      rw [handled, matchedExit]
      exact if_pos (by simpa [fareContext] using absent)
    obtain ⟨u, run, leaves, accounts, fullDay, events⟩ := exit_without_account (kind := .unpriced)
      (v := ⟨distance, shares, false, false, false, false, false, spent, origin, soFar, nil⟩)
      (told := .goPending) (charge := none) granted exit sound here ⟨.inr rfl, rfl⟩ out rfl rfl
    refine ⟨u, _, run, leaves, rfl, rfl, token, rfl, rfl, ?_, rfl, rfl, rfl, rfl, rfl, rfl, rfl, rfl,
      rfl, ?_, fun _ => ⟨accounts, fullDay, events⟩, fun h => absurd h (by decide)⟩
    · simp [decorate, closingRecord, Slot.label, tagged]
    · simp [decorate, closingRecord, newRecord]
  · have isHeld : held = heldFor w s := is
    have exits := matchedExit_of_present (time := tr.tapTime) present tagged
    rcases priced with ⟨late, rfl, rfl, isSoFar, rfl, rfl, rfl, rfl, rfl, rfl, rfl, path⟩
        | ⟨onTime, rfl, ⟨same, alone, rfl, rfl, rfl, rfl, ⟨near, rfl, rfl, rfl, rfl⟩
          | ⟨far, rfl, paid, isPaid, rfl, rfl, rfl, rfl, rfl, rfl, rfl⟩⟩
          | ⟨apart, rfl, paid, full, rfl, rfl, rfl, rfl, rfl, rfl, rfl, rfl, starts, charged, rfl⟩⟩
    · obtain ⟨q, isQ⟩ : ∃ q, q = incompletePricing (fareContext s w.journey.tag) w.journey.fareClass
          w.journey.entryStation w.journey.entryTime w.journey.continuation
          (reckonPath (fareContext s w.journey.tag).tables w.journey.entryStation tr.entry.tap.station
            (w.journey.pass.or tr.entry.tap.pass)
            (serviceDay (fareContext s w.journey.tag).rollover w.journey.entryTime)).toOption := ⟨_, rfl⟩
      rw [if_pos late, exitOverstay_eq isHeld, ← isQ] at exits
      have cost : q.charge = soFar := by rw [isQ, isSoFar]; rfl
      have dealt : q.distance = distance ∧ q.shares = shares ∧ q.passIgnored = ignored := by
        cases reckoned : reckonPath (fareContext s w.journey.tag).tables w.journey.entryStation
            tr.entry.tap.station (w.journey.pass.or tr.entry.tap.pass)
            (serviceDay (fareContext s w.journey.tag).rollover w.journey.entryTime) with
        | ok way =>
          rw [reckoned] at path isQ
          obtain ⟨rfl, rfl, rfl⟩ := path
          rw [isQ, isSoFar]
          exact ⟨rfl, rfl, by simp [incompletePricing, Except.toOption, beq_decides]⟩
        | error absent =>
          rw [reckoned] at path isQ
          obtain ⟨rfl, rfl, rfl⟩ := path
          rw [isQ, isSoFar]
          exact ⟨rfl, by simp [incompletePricing, dealShares, Except.toOption], rfl⟩
      obtain ⟨rfl, rfl, rfl⟩ := dealt
      have flat : q.continued = false ∧ q.spentAfter = none ∧ q.origin = none ∧ q.chargedSoFar = none
          ∧ q.continuationNotApplied = false ∧ q.capReached = false ∧ q.capUntracked = false := by
        rw [isQ]
        exact ⟨rfl, rfl, rfl, rfl, rfl, rfl, rfl⟩
      obtain ⟨alone, unspent, noOrigin, noSoFar, applied, uncapped, tracked⟩ := flat
      rw [← cost]
      exact exit_completed (q := q) (v := ⟨q.distance, q.shares, false, false, false, q.passIgnored, true,
          none, ⟨w.journey.entryStation, w.journey.entryTime⟩, q.charge, decide (q.charge = 0)⟩)
        granted exit sound here is
        ⟨rfl, rfl, uncapped, alone, applied, rfl, unspent, by rw [noOrigin]; rfl, by rw [noSoFar]; rfl,
          by simp [nilSoFar, appliedOf, alone, beq_decides]⟩
        (handled.trans exits) token tagged rfl (fun h => absurd (tracked.symm.trans h) (by decide))
    · rw [if_neg (Nat.not_lt.mpr onTime), if_pos ⟨same, alone⟩, if_pos near] at exits
      obtain ⟨u, run, leaves, accounts, fullDay, events⟩ := exit_without_account (kind := .cancelled)
        (v := ⟨0, [⟨stationOwner (slotOf s w.journey.tag).tables w.journey.entryStation, 0⟩], false, false,
          false, false, false, spent, origin, soFar, nil⟩)
        (told := .go) (charge := some 0) granted exit sound here ⟨.inl rfl, rfl⟩ (handled.trans exits) rfl rfl
      refine ⟨u, _, run, leaves, rfl, rfl, token, rfl, rfl, ?_, rfl, rfl, rfl, rfl, rfl, rfl, rfl, rfl,
        rfl, ?_, fun _ => ⟨accounts, fullDay, events⟩, fun h => absurd h (by decide)⟩
      · simp [decorate, closingRecord, Slot.label, tagged]
      · simp [decorate, closingRecord, newRecord]
    · rw [if_neg (Nat.not_lt.mpr onTime), if_pos ⟨same, alone⟩, if_neg (Nat.not_le.mpr far),
        exitSameStation_eq isHeld tagged isPaid] at exits
      exact exit_completed (q := sameStationPaid w s paid) (v := ⟨0, _, _, false, false, false, false,
          _, _, _, _⟩) granted exit sound here is
        ⟨rfl, rfl, rfl, rfl, rfl, rfl, rfl, rfl, rfl, by simp [nilSoFar, appliedOf]; rfl⟩
        (handled.trans exits) token tagged rfl
        (fun untracked => by
          rw [← spentOf_obtained is, ← capCharge_capUntracked, ← isPaid]
          exact untracked)
    · have other : ¬ (tr.entry.tap.station = w.journey.entryStation ∧ w.journey.continuation = none) :=
        fun ⟨station, alone⟩ => apart.elim (absurd station) (absurd alone)
      have priced := exitFull_eq (tap := tr.entry.tap) (exit := ⟨tr.entry.tap.station, tr.tapTime⟩)
        isHeld full
      rw [if_neg (Nat.not_lt.mpr onTime), if_neg other, priced] at exits
      exact exit_completed (q := paid) (v := ⟨paid.distance, paid.shares, paid.capReached,
          paid.continued, paid.continuationNotApplied, paid.passIgnored, false, paid.spentAfter, origin,
          soFar, _⟩) granted exit sound here is
        ⟨rfl, rfl, rfl, rfl, rfl, rfl, rfl, by simp [starts], by simp [charged], nilSoFar_applied _ _⟩
        (handled.trans exits) token tagged rfl (fun h => by
          rw [← spentOf_obtained is, ← fullPricing_capUntracked full, h])

end
end

