-- ==== Sys2Proof/Proofs/LateSettlements.lean ====
section
/-! SUPPORT. Late settlements: exits without a journey to match, their Corrections, and the Repairs of deferred entries, with O43 and O44. -/

namespace Sys2Proof.Machine

variable {s t : State} {x : SlotId} {tr : TapTransaction} {w : AccountWay}

/-! ### What an exit corrects (R112) -/

/-- An exit at a station and time corrects a last incomplete (R112). -/
abbrev Corrects (tables : Tables) (station time : Nat) (l : LastIncomplete) : Prop :=
  l.entryTime ≤ time ∧ stationPresent tables l.entryStation = true ∧ stationPresent tables station = true

/-- The last incomplete of an account that an exit corrects, with the account's slot. -/
def correctedBy (tables : Tables) (station time : Nat) (w : AccountWay) : Option (Nat × LastIncomplete) :=
  (w.account.lastIncomplete.filter (fun l => Corrects tables station time l)).map (w.slot, ·)

theorem correctedBy_eq_some {tables : Tables} {station time : Nat} {l : LastIncomplete}
    (held : w.account.lastIncomplete = some l) (corrects : Corrects tables station time l) :
    correctedBy tables station time w = some (w.slot, l) := by
  simp [correctedBy, held, Option.filter, corrects]

theorem correctedBy_eq_none {tables : Tables} {station time : Nat}
    (none : ∀ l, w.account.lastIncomplete = some l → ¬ Corrects tables station time l) :
    correctedBy tables station time w = .none := by
  unfold correctedBy
  rw [Option.map_eq_none_iff, Option.filter_eq_none_iff]
  intro l held
  simpa using none l held

theorem correctable_eq (s : State) (x : SlotId) (token : Token) (station time : Nat) :
    correctable s x token station time = (dayAndBefore s token (dayOf s time)).findSome?
      (correctedBy (slotOf s x).tables station time) := by
  unfold correctable
  dsimp only
  congr 1
  funext w
  unfold correctedBy
  cases w.account.lastIncomplete with
  | none => rfl
  | some l =>
    by_cases corrects : Corrects (slotOf s x).tables station time l
    · simp [Option.filter, corrects]
    · simp [Option.filter, corrects]

/-! ### Unmatched exits (R80, R96) -/

/-- The Unmatched exit's handling, with its account obtained before the reference is taken (R80, R96). -/
theorem exitUnmatched_eq {held : State × Option Nat} {tap : Tap} {time : Nat}
    (is : held = obtainAccount tap.token (serviceDay s.mgmt.settings.rolloverMinute time) s) :
    exitUnmatched x tap time s = ⟨takeReference (writeAccount held.2 (fun a => { a with
        lastUnmatched := some ⟨tap.station, time, tap.fareClass, s.store.nextReference⟩ }) held.1),
      [({ newRecord held.1 .unmatched tap.token tap.fareClass with
        reference := some s.store.nextReference
        label := (slotOf held.1 x).label
        exit := some ⟨tap.station, time⟩ }).flag (untrackedFlag held.2)],
      Answer.withReference .goPending s.store.nextReference⟩ := by
  have obtained : obtainAccount tap.token (dayOf s time) (takeReference s)
      = (takeReference held.1, held.2) := by
    rw [obtainAccount_takeReference, is]
    rfl
  unfold exitUnmatched
  simp only [obtained]
  rw [writeAccount_takeReference]
  rfl

/-! ### Corrections (R97, R113 to R115) -/

/-- Two changes of one account are one change. -/
theorem writeAccount_writeAccount (n : Nat) (f g : Account → Account) (s : State) :
    writeAccount (some n) g (writeAccount (some n) f s) = { s with store := { s.store with
      accounts := accountsWith (s, some n) (g ∘ f) } } := by
  simp only [writeAccount, accountsWith, List.map_map]
  congr 3
  funext v
  by_cases at_ : v.slot = n <;> simp [at_]

/-- A full pricing without a continuation part starts at the entry (R50, R51). -/
theorem fullPricing_alone {g : FareContext} {fareClass station time exitStation : Nat}
    {pass : Option Pass} {account : Option Nat} {q : Pricing}
    (priced : fullPricing g fareClass station time exitStation pass none account = some q) :
    q.origin = some ⟨station, time⟩ ∧ q.continued = false := by
  obtain ⟨path, _, rfl⟩ := Option.map_eq_some_iff.mp priced
  exact ⟨rfl, rfl⟩

/-- What a Correction takes from its pricing: capped or not, the spent amount, the charged-so-far figure and the priced fields; it starts at the entry and is not continued (R113, R114). -/
structure CorrectionPrices (l : LastIncomplete) (q : Pricing) (capReached : Bool) (spent : Option Nat)
    (soFar : Nat) (priced : Priced) : Prop where
  capReached : q.capReached = capReached
  spent : q.spentAfter = spent
  soFar : q.chargedSoFar.getD q.charge = soFar
  priced : q.priced = priced
  origin : q.origin.getD ⟨l.entryStation, l.entryTime⟩ = ⟨l.entryStation, l.entryTime⟩
  alone : q.continued = false

/-- The store after a Correction (R92, R93, R97, R115). -/
theorem correctExit_st {l : LastIncomplete} {q : Pricing} {capReached : Bool} {spent : Option Nat}
    {soFar n time : Nat} {priced : Priced} (prices : CorrectionPrices l q capReached spent soFar priced)
    (tap : Tap) : (correctExit x n l tap time q s).st = { s with store := { s.store with
      accounts := accountsWith (s, some n) (fun a => { a.withExit spent {
          station := tap.station
          exitTime := time
          originStation := l.entryStation
          originTime := l.entryTime
          chargedSoFar := soFar
          nilSoFar := priced.charge == 0
          shownCharge := priced.charge
          reference := l.reference } with
        lastIncomplete := none }) } } := by
  obtain ⟨rfl, rfl, rfl, rfl, origin, alone⟩ := prices
  have exits : lastExitOf ⟨l.entryStation, l.entryTime⟩ ⟨tap.station, time⟩ q (nilSoFar q.charge none)
      l.reference = {
        station := tap.station
        exitTime := time
        originStation := l.entryStation
        originTime := l.entryTime
        chargedSoFar := q.chargedSoFar.getD q.charge
        nilSoFar := q.priced.charge == 0
        shownCharge := q.priced.charge
        reference := l.reference } := by
    simp [lastExitOf, origin, nilSoFar, Pricing.priced]
  unfold correctExit
  dsimp only
  rw [exits, writeExit, writeAccount_writeAccount]
  rfl

/-- The record of a Correction (R57, R58, R94, R114, R115). -/
theorem correctExit_record (x : SlotId) (n : Nat) (l : LastIncomplete) (tap : Tap) (time : Nat)
    (q : Pricing) (s : State) : ∃ r, (correctExit x n l tap time q s).records = [r]
      ∧ r.kind = .correction ∧ r.reference = some l.reference ∧ r.related = some l.reference
      ∧ r.fareClass = l.fareClass ∧ r.label = (slotOf s x).label ∧ r.originalCharge = some l.charge
      ∧ r.priced = some q.priced ∧ r.entry = some ⟨l.entryStation, l.entryTime⟩
      ∧ r.exit = some ⟨tap.station, time⟩
      ∧ r.flags.confirmed = correctionConfirmed (slotOf s x).tables l time
      ∧ r.flags.nilJourney = (q.charge == 0) := by
  refine ⟨_, rfl, rfl, rfl, rfl, rfl, rfl, rfl, rfl, rfl, rfl, ?_, ?_⟩
  · simp [Record.flag, newRecord, RecordFlags.or, exitFlags, Pricing.flags, untrackedFlag]
  · simp [Record.flag, newRecord, RecordFlags.or, exitFlags, Pricing.flags, untrackedFlag, nilSoFar]

/-! ### Repairs (R105 to R108) -/

/-- The last unmatched exit of an account that a deferred entry repairs, with the account's slot. -/
def repairedBy (tables : Tables) (p : Policy) (time : Nat) (w : AccountWay) : Option (Nat × LastUnmatched) :=
  (w.account.lastUnmatched.filter (fun l => repairs tables p time l)).map (w.slot, ·)

theorem repairedBy_eq_some {tables : Tables} {p : Policy} {time : Nat} {l : LastUnmatched}
    (held : w.account.lastUnmatched = some l) (fits : repairs tables p time l) :
    repairedBy tables p time w = some (w.slot, l) := by
  simp [repairedBy, held, Option.filter, fits]

theorem repairedBy_eq_none {tables : Tables} {p : Policy} {time : Nat}
    (none : ∀ l, w.account.lastUnmatched = some l → ¬ repairs tables p time l) :
    repairedBy tables p time w = .none := by
  unfold repairedBy
  rw [Option.map_eq_none_iff, Option.filter_eq_none_iff]
  intro l held
  simpa using none l held

theorem repairable_eq {p : Policy} (policy : (slotOf s x).tables.policy = some p) :
    repairable s (workOf x tr) = ((findAccount s tr.entry.tap.token (dayOf s tr.tapTime)).toList
      ++ (findAccount s tr.entry.tap.token (dayOf s tr.tapTime + 1)).toList).findSome?
        (repairedBy (slotOf s x).tables p tr.tapTime) := by
  unfold repairable
  dsimp only
  congr 1
  funext w
  unfold repairedBy
  rw [policyOf_of policy]
  cases w.account.lastUnmatched with
  | none => rfl
  | some l =>
    by_cases fits : repairs (slotOf s x).tables p tr.tapTime l
    · simp [Option.filter, fits, Policy.maxSeconds]
    · have unfit : ¬ (tr.tapTime ≤ l.exitTime ∧ l.exitTime - tr.tapTime ≤ p.maxSeconds
          ∧ stationPresent (slotOf s x).tables l.station = true) := fits
      simp only [Option.filter, decide_eq_false fits, Bool.false_eq_true, if_false]
      exact if_neg unfit

/-- What an unmatched exit is cleared of, in the account where it stood (R97, log 39). -/
theorem clearUnmatched_eq (n : Nat) (l : LastUnmatched) (s : State) : clearUnmatched n l s
    = { s with store := { s.store with accounts := s.store.accounts.map (fun w =>
        if w.slot = n ∧ w.account.lastUnmatched = some l
        then { w with account := { w.account with lastUnmatched := none } } else w) } } := by
  have same (w : AccountWay) : (if w.slot = n then { w with account := if w.account.lastUnmatched = some l
      then { w.account with lastUnmatched := none } else w.account } else w)
      = if w.slot = n ∧ w.account.lastUnmatched = some l
        then { w with account := { w.account with lastUnmatched := none } } else w := by
    obtain ⟨slot, account⟩ := w
    by_cases here : slot = n <;> by_cases held : account.lastUnmatched = some l <;> simp [here, held]
  unfold clearUnmatched writeAccount
  simp only [same]

/-- A Repair: the store it leaves, its record and its answer (R91 to R94, R97, R107, R108). -/
theorem repairEntry_eq {held : State × Option Nat} {l : LastUnmatched} {home : Nat} {q : Pricing}
    (is : held = obtainAccount tr.entry.tap.token (dayOf s tr.tapTime) s)
    (priced : fullPricing (fareContext s x) tr.entry.tap.fareClass tr.entry.tap.station tr.tapTime
      l.station tr.entry.tap.pass none (spentOf held.1 held.2) = some q) :
    ∃ r, repairEntry (workOf x tr) home l s = some ⟨clearUnmatched home l (writeExit held.2 q
        (lastExitOf ⟨tr.entry.tap.station, tr.tapTime⟩ ⟨l.station, l.exitTime⟩ q (nilSoFar q.charge none)
          l.reference) held.1), [r], exitAnswer q l.reference⟩
      ∧ r.kind = .repair ∧ r.reference = some l.reference ∧ r.related = some l.reference
      ∧ r.label = (slotOf s x).label ∧ r.priced = some q.priced
      ∧ r.entry = some ⟨tr.entry.tap.station, tr.tapTime⟩ ∧ r.exit = some ⟨l.station, l.exitTime⟩
      ∧ r.flags.capUntracked = held.2.isNone
      ∧ r.flags.nilJourney = (held.2.isSome && q.charge == 0) := by
  have label (f : Account → Account) : (slotOf (writeAccount held.2 f held.1) x).label
      = (slotOf s x).label := by
    rw [writeAccount_obtained is]
    rfl
  have untracked : q.capUntracked = held.2.isNone :=
    (fullPricing_capUntracked priced).trans (spentOf_obtained is)
  rw [← fareContext_obtained is x] at priced
  unfold repairEntry
  simp only [← is]
  refine ⟨_, congrArg (Option.map _) priced, rfl, rfl, rfl, label _, rfl, rfl, rfl, ?_, ?_⟩
  · simp [Record.flag, newRecord, RecordFlags.or, exitFlags, Pricing.flags, untracked, untrackedFlag]
  · simp [Record.flag, newRecord, RecordFlags.or, exitFlags, Pricing.flags, untrackedFlag, nilSoFar]

end Sys2Proof.Machine

section
open Sys2Proof Sys2Proof.Machine

/-- Settles O43: the Unmatched exit, and the Correction by each of its pricings. -/
theorem exitWithoutJourney : Obligations.ExitWithoutJourney := by
  intro s x tr p g day corrects granted exit isG policy early isDay fresh isCorrects
  subst isG
  have active : (slotOf s x).tables.policy = some p := policy
  have noDuplicate : duplicateExit s x tr.entry.tap.token tr.entry.tap.station tr.tapTime = none := by
    rw [duplicateExit_eq, policyOf_of active, dayOf, ← isDay]
    refine findSome_dayAndBefore_none fun d w which found => repeatedBy_eq_none.mpr fun l held same => ?_
    refine fresh d w l which found held ?_
    unfold RepeatsExit at same
    omega
  have handled : handleTap x tr s = correctOrUnmatched x tr.entry.tap tr.tapTime s := by
    rw [handleTap_of_exit exit, handleExit_of_early early, Machine.exitWithoutJourney, noDuplicate]
  refine ⟨fun none held isHeld => ?_, fun d w l priced spent soFar elapsed capReached confirmed which found
    last corrected isElapsed pricing => ?_⟩
  · have nothing : correctable s x tr.entry.tap.token tr.entry.tap.station tr.tapTime = .none := by
      rw [correctable_eq, dayOf, ← isDay]
      refine findSome_dayAndBefore_none fun d w which found => correctedBy_eq_none fun l held fits => ?_
      exact none d w l which found held ((isCorrects l).mpr fits)
    subst isDay
    have out : handleTap x tr s = exitUnmatched x tr.entry.tap tr.tapTime s := by
      rw [handled, correctOrUnmatched, nothing]
    rw [exitUnmatched_eq isHeld, writeAccount_obtained isHeld] at out
    obtain ⟨line, office, ended⟩ := endTransaction_told_one tr (exitDenied tr s)
      (a := Answer.withReference .goPending s.store.nextReference) _ ⟨.inr rfl, rfl⟩ _
    have run := exec_reckonerGrant_of granted
    rw [out, ended] at run
    refine ⟨_, _, run, rfl, rfl, rfl, rfl, ?_, rfl, rfl, ?_⟩
    · rw [isHeld, obtainAccount_eq]
      exact congrArg (Option.map Policy.label) active
    · cases held.2 <;> rfl
  · have reached : correctable s x tr.entry.tap.token tr.entry.tap.station tr.tapTime
        = some (w.slot, l) := by
      rw [correctable_eq, dayOf, ← isDay]
      have gives := correctedBy_eq_some last ((isCorrects l).mp corrected)
      refine findSome_dayAndBefore ?_
      rcases which with rfl | ⟨before, others⟩
      · exact .inl ⟨w, found, gives⟩
      · refine .inr ⟨fun v hv => correctedBy_eq_none fun k last fits =>
          others v k hv last ((isCorrects k).mpr fits), by omega, w, ?_, gives⟩
        rwa [← before, Nat.add_sub_cancel]
    have confirms : correctionConfirmed (slotOf s x).tables l tr.tapTime
        = decide (p.maxJourney * 60 < elapsed) := by
      rw [correctionConfirmed, policyOf_of active, isElapsed]
      rfl
    have prices : ∃ q, correctionPricing (fareContext s x) l tr.entry.tap tr.tapTime
        (spentOf s (some w.slot)) = some q ∧ CorrectionPrices l q capReached spent soFar priced := by
      unfold correctionPricing withinGrace journeyTime
      simp only [fareContext, confirms, policyOf_of active, Policy.graceSeconds, ← isElapsed,
        decide_eq_true_eq]
      rcases pricing with ⟨late, -, rfl, rfl, rfl, path, reckoned, rfl⟩
          | ⟨onTime, -, ⟨same, ⟨near, rfl, rfl, rfl, rfl⟩ | ⟨far, paid, isPaid, rfl, rfl, rfl, rfl⟩⟩
            | ⟨apart, paid, full, rfl, rfl, charged, rfl⟩⟩
      · rw [if_pos late]
        refine ⟨_, congrArg (Option.map _) (congrArg Except.toOption reckoned), ?_⟩
        exact ⟨rfl, rfl, rfl, rfl, rfl, rfl⟩
      · rw [if_neg (Nat.not_lt.mpr onTime), if_pos same, if_pos near]
        exact ⟨_, rfl, rfl, rfl, rfl, rfl, rfl, rfl⟩
      · rw [if_neg (Nat.not_lt.mpr onTime), if_pos same, if_neg (Nat.not_le.mpr far)]
        have capping : capCharge (classEntry (slotOf s x).tables l.fareClass).cap
            (slotOf s x).tables.policyOf.sameStationCharge (spentOf s (some w.slot)) = paid := by
          rw [policyOf_of active, isPaid]
          rfl
        refine ⟨_, rfl, ?_⟩
        rw [sameStationPricing, capping]
        exact ⟨rfl, rfl, rfl, rfl, rfl, rfl⟩
      · rw [if_neg (Nat.not_lt.mpr onTime), if_neg apart]
        obtain ⟨starts, alone⟩ := fullPricing_alone full
        exact ⟨paid, full, rfl, rfl, by rw [charged]; rfl, rfl, by rw [starts]; rfl, alone⟩
    have isConfirmed : correctionConfirmed (slotOf s x).tables l tr.tapTime = confirmed := by
      rw [confirms]
      rcases pricing with ⟨late, rfl, -⟩ | ⟨onTime, rfl, -⟩
      · exact decide_eq_true late
      · exact decide_eq_false (Nat.not_lt.mpr onTime)
    obtain ⟨q, isQ, fits⟩ := prices
    have out : handleTap x tr s = correctExit x w.slot l tr.entry.tap tr.tapTime q s := by
      rw [handled, correctOrUnmatched, reached]
      dsimp only
      rw [isQ]
    obtain ⟨r, records, kind, reference, related, fareClass, label, original, isPriced, entry, exits,
      flags⟩ := correctExit_record x w.slot l tr.entry.tap tr.tapTime q s
    obtain ⟨line, office, ended⟩ := endTransaction_told_one tr (exitDenied tr s)
      (a := exitAnswer q l.reference) (correctExit x w.slot l tr.entry.tap tr.tapTime q s).st
      ⟨.inl rfl, rfl⟩ r
    have ends : handleTap x tr s = ⟨(correctExit x w.slot l tr.entry.tap tr.tapTime q s).st, [r],
        exitAnswer q l.reference⟩ := by
      rw [out, ← records]
      rfl
    have told : (exitAnswer q l.reference).charge = some priced.charge
        ∧ (exitAnswer q l.reference).capReached = capReached
        ∧ (exitAnswer q l.reference).continued = false := by
      rw [← fits.priced, ← fits.capReached, ← fits.alone]
      exact ⟨rfl, rfl, rfl⟩
    have run := exec_reckonerGrant_of granted
    rw [ends, ended, told.1, told.2.1, told.2.2, correctExit_st fits, kind] at run
    refine ⟨_, _, run, rfl, kind, reference, related, fareClass, label.trans ?_, original,
      isPriced.trans (congrArg some fits.priced), entry, exits, flags.1.trans isConfirmed, flags.2.trans ?_⟩
    · exact congrArg (Option.map Policy.label) active
    · rw [← fits.priced]
      rfl

/-- Settles O44: the deferred entry that repairs an unmatched exit. -/
theorem deferredEntryRepairs : Obligations.DeferredEntryRepairs := by
  intro s x tr p day d home l paid origin soFar held granted entry late policy present isDay which found
    last fits is priced starts charged
  subst isDay
  have reached : repairable s (workOf x tr) = some (home.slot, l) := by
    rw [repairable_eq policy, List.findSome?_append]
    have gives := repairedBy_eq_some last fits
    rcases which with rfl | ⟨rfl, others⟩
    · simp [dayOf, found, gives]
    · have nothing : (findAccount s tr.entry.tap.token (dayOf s tr.tapTime)).toList.findSome?
          (repairedBy (slotOf s x).tables p tr.tapTime) = none :=
        List.findSome?_eq_none_iff.mpr fun v hv => repairedBy_eq_none fun k last =>
          others v k (Option.mem_toList.mp hv) last
      rw [nothing]
      simp [dayOf, found, gives]
  obtain ⟨r, repaired, kind, reference, related, label, isPriced, entered, exits, untracked, nil⟩ :=
    repairEntry_eq (home := home.slot) is priced
  have out : handleTap x tr s = ⟨clearUnmatched home.slot l (writeExit held.2 paid
      (lastExitOf ⟨tr.entry.tap.station, tr.tapTime⟩ ⟨l.station, l.exitTime⟩ paid
        (nilSoFar paid.charge none) l.reference) held.1), [r], exitAnswer paid l.reference⟩ := by
    simp [handleTap, Tap.isEntry, entry, late, deferredEntry, present, reached, repaired]
  have exitLast : lastExitOf ⟨tr.entry.tap.station, tr.tapTime⟩ ⟨l.station, l.exitTime⟩ paid
      (nilSoFar paid.charge none) l.reference = {
        station := l.station
        exitTime := l.exitTime
        originStation := origin.station
        originTime := origin.time
        chargedSoFar := soFar
        nilSoFar := paid.charge == 0
        shownCharge := paid.charge
        reference := l.reference } := by
    simp [lastExitOf, starts, charged, nilSoFar]
  obtain ⟨line, office, ended⟩ := endTransaction_told_one tr (exitDenied tr s)
    (a := exitAnswer paid l.reference) (clearUnmatched home.slot l (writeExit held.2 paid
      (lastExitOf ⟨tr.entry.tap.station, tr.tapTime⟩ ⟨l.station, l.exitTime⟩ paid
        (nilSoFar paid.charge none) l.reference) held.1)) ⟨.inl rfl, rfl⟩ r
  have run := exec_reckonerGrant_of granted
  rw [out, ended, exitLast, clearUnmatched_eq, writeExit, writeAccount_obtained is, kind] at run
  refine ⟨_, _, run, rfl, kind, reference, related, label.trans ?_, isPriced, entered, exits, untracked,
    nil⟩
  exact congrArg (Option.map Policy.label) policy

end
end

