-- ==== Sys2Proof/Proofs/TransactionEndings.lean ====
section
/-! SUPPORT. How every granted tap transaction ends: its records' stamps, what its gate may be told, and what its handling leaves alone, with O45. -/

namespace Sys2Proof.Machine

variable {s t : State} {x : SlotId} {tr : TapTransaction} {w : JourneyWay}

/-! ### The stamps of a record (R158, R159) -/

/-- A record carries the time and the state of a clock at its making (R159). -/
def Stamped (c : LineClock) (r : Record) : Prop :=
  r.madeSec = c.sec ∧ r.madeMs = c.ms ∧ r.flags.clockFreeRunning = (c.state == .freeRunning)

theorem stamped_newRecord (s : State) (kind : RecordKind) (token : Token) (fareClass : Nat) :
    Stamped s.clock (newRecord s kind token fareClass) := ⟨rfl, rfl, rfl⟩

theorem Stamped.flag {c : LineClock} {r : Record} (stamped : Stamped c r) {f : RecordFlags}
    (quiet : f.clockFreeRunning = false) : Stamped c (r.flag f) := by
  obtain ⟨sec, ms, free⟩ := stamped
  refine ⟨sec, ms, ?_⟩
  simp [Record.flag, RecordFlags.or, quiet, free]

theorem stamped_decorate {c : LineClock} {r : Record} (stamped : Stamped c r) (tap : Tap)
    (late clamped denied : Bool) : Stamped c (decorate tap late clamped denied r) := stamped

/-- What a handling tells: stamped records, and an answer of one of the kinds given (R14, R159). -/
def Tells (c : LineClock) (kinds : List VerdictKind) (h : Handled) : Prop :=
  (∀ r ∈ h.records, Stamped c r) ∧ h.answer.kind ∈ kinds

theorem Tells.mono {c : LineClock} {kinds more : List VerdictKind} {h : Handled} (tells : Tells c kinds h)
    (sub : kinds ⊆ more) : Tells c more h := ⟨tells.1, sub tells.2⟩

theorem tells_one {c : LineClock} {kinds : List VerdictKind} {r : Record} {a : Answer}
    (stamped : Stamped c r) (kind : a.kind ∈ kinds) : Tells c kinds ⟨s, [r], a⟩ :=
  ⟨List.forall_mem_singleton.mpr stamped, kind⟩

theorem stamped_closeIncomplete (extra : RecordFlags) (quiet : extra.clockFreeRunning = false)
    (w : JourneyWay) (s : State) : Stamped s.clock (closeIncomplete extra w s).record := by
  rw [closeIncomplete_record]
  exact Stamped.flag ⟨rfl, rfl, rfl⟩ (by simp [RecordFlags.or, untrackedFlag, Journey.marks, quiet])

theorem stamped_closeCompleted {extra : RecordFlags} (quiet : extra.clockFreeRunning = false)
    {token : Token} {day : Nat} {held : State × Option Nat} (is : held = obtainAccount token day s)
    (exit : StationTime) (p : Pricing) : Stamped s.clock (closeCompleted extra w exit held.2 p held.1).record := by
  have clock (f : Account → Account) : (writeAccount held.2 f held.1).clock = s.clock := by
    rw [writeAccount_obtained is]
  rw [← clock]
  exact Stamped.flag ⟨rfl, rfl, rfl⟩ (by simp [exitFlags, RecordFlags.or, untrackedFlag, Pricing.flags, quiet])

/-! ### What entries are told (R12, R13, R71 to R75) -/

theorem makeRoom_stamped (set : Nat) (s : State) : ∀ r ∈ (makeRoom set s).2.1, Stamped s.clock r := by
  unfold makeRoom
  dsimp only
  split
  · simp
  · exact List.forall_mem_singleton.mpr (Stamped.flag ⟨rfl, rfl, rfl⟩ rfl)
  · simp

theorem admitEntry_tells {e : EntryWork} {before : List Record} (stamped : ∀ r ∈ before, Stamped s.clock r) :
    Tells s.clock [.go] (admitEntry e before s) := by
  refine ⟨fun r hr => ?_, List.mem_singleton.mpr rfl⟩
  simp only [admitEntry, List.mem_append, List.mem_singleton] at hr
  rcases hr with (earlier | spilled) | rfl
  · exact stamped r earlier
  · exact makeRoom_stamped _ s r spilled
  · exact Stamped.flag ⟨rfl, rfl, rfl⟩ rfl

theorem closeNewEntry_tells (cancelled : Bool) (e : EntryWork) (s : State) :
    Tells s.clock [.go] (closeNewEntry cancelled e s) := by
  cases cancelled
  · have clock (f : Account → Account) : (writeAccount (obtainAccount e.tap.token (dayOf s e.tapTime)
        (takeReference s)).2 f (obtainAccount e.tap.token (dayOf s e.tapTime) (takeReference s)).1).clock
        = s.clock := by
      rw [writeAccount_obtained rfl]
      rfl
    rw [← clock]
    exact tells_one (Stamped.flag ⟨rfl, rfl, rfl⟩ rfl) (List.mem_singleton.mpr rfl)
  · exact tells_one ⟨rfl, rfl, rfl⟩ (List.mem_singleton.mpr rfl)

theorem handleEntry_tells (e : EntryWork) (s : State) : Tells s.clock [.go] (handleEntry e s) := by
  unfold handleEntry
  split
  · exact admitEntry_tells (by simp)
  next w _ =>
    dsimp only
    split
    · exact ⟨by simp, List.mem_singleton.mpr rfl⟩
    · split
      · have clock : (closeCancelled w s).st.clock = s.clock := by simp [closeCancelled]
        rw [← clock]
        exact admitEntry_tells (List.forall_mem_singleton.mpr (by rw [clock]; exact ⟨rfl, rfl, rfl⟩))
      · exact closeNewEntry_tells _ e s
    · split
      · have clock : (closeIncomplete {} w s).st.clock = s.clock := by simp [closeIncomplete, writeLastIncomplete]
        rw [← clock]
        exact admitEntry_tells (List.forall_mem_singleton.mpr (by
          rw [clock]
          exact stamped_closeIncomplete {} rfl w s))
      · exact closeNewEntry_tells _ e s

theorem liveEntry_tells (e : EntryWork) (s : State) : Tells s.clock [.go, .refused] (liveEntry e s) := by
  have turned (reason : Reason) : Tells s.clock [.go, .refused]
      (entryTurnedAway .refused reason (Answer.plain .refused reason) e s) :=
    tells_one ⟨rfl, rfl, rfl⟩ (by simp [Answer.plain])
  unfold liveEntry
  dsimp only
  split
  · exact turned _
  split
  · exact turned _
  split
  · exact turned _
  · exact (handleEntry_tells e s).mono (by simp)

theorem deferredEntry_stamped (e : EntryWork) (s : State) :
    ∀ r ∈ (deferredEntry e s).records, Stamped s.clock r := by
  unfold deferredEntry
  split
  · exact List.forall_mem_singleton.mpr ⟨rfl, rfl, rfl⟩
  split
  next h repaired =>
    obtain ⟨⟨home, l⟩, -, done⟩ := Option.bind_eq_some_iff.mp repaired
    unfold repairEntry at done
    obtain ⟨p, -, rfl⟩ := Option.map_eq_some_iff.mp done
    refine List.forall_mem_singleton.mpr ?_
    have clock (f : Account → Account) : (writeAccount (obtainAccount e.tap.token (dayOf s e.tapTime) s).2 f
        (obtainAccount e.tap.token (dayOf s e.tapTime) s).1).clock = s.clock := by
      rw [writeAccount_obtained rfl]
    rw [← clock]
    exact Stamped.flag ⟨rfl, rfl, rfl⟩ rfl
  · exact (handleEntry_tells e s).1

/-! ### What exits are told (R78, R80, R104) -/

theorem matchedExit_tells (w : JourneyWay) (tap : Tap) (time : Nat) (s : State) :
    Tells s.clock [.go, .goPending] (matchedExit w tap time s) := by
  have unknown : Tells s.clock [.go, .goPending] (exitStationUnknown w ⟨tap.station, time⟩ s) :=
    tells_one ⟨rfl, rfl, rfl⟩ (by simp [Answer.withReference, Answer.plain])
  have completed {extra : RecordFlags} (quiet : extra.clockFreeRunning = false) (p : Pricing) :
      Tells s.clock [.go, .goPending] (completedAt extra w ⟨tap.station, time⟩ (heldFor w s) p) :=
    tells_one (stamped_closeCompleted quiet rfl _ _) (by simp [exitAnswer, Answer.withReference, Answer.plain])
  unfold matchedExit
  dsimp only
  split
  · exact unknown
  split
  · exact completed rfl _
  split
  · split
    · exact tells_one ⟨rfl, rfl, rfl⟩ (by simp [exitAnswer, Answer.withReference, Answer.plain])
    · exact completed rfl _
  · unfold exitFull
    split
    next s1 slot p priced =>
      have held : heldFor w s = (s1, slot) := priceJourney_state priced
      have := completed (extra := {}) rfl p
      rwa [held] at this
    · exact unknown

theorem exitWithoutJourney_tells (x : SlotId) (tap : Tap) (time : Nat) (s : State) :
    Tells s.clock [.go, .goPending] (exitWithoutJourney x tap time s) := by
  have unmatched : Tells s.clock [.go, .goPending] (exitUnmatched x tap time s) := by
    rw [exitUnmatched_eq rfl]
    refine tells_one (Stamped.flag ?_ rfl) (by simp [Answer.withReference, Answer.plain])
    rw [obtainAccount_eq]
    exact ⟨rfl, rfl, rfl⟩
  unfold exitWithoutJourney correctOrUnmatched
  split
  · exact ⟨by simp, by simp [Answer.withReference, Answer.plain]⟩
  split
  · split
    · refine tells_one (Stamped.flag ⟨rfl, rfl, rfl⟩ ?_) (by simp [exitAnswer, Answer.withReference, Answer.plain])
      simp [exitFlags, RecordFlags.or, untrackedFlag, Pricing.flags]
    · exact unmatched
  · exact unmatched

theorem handleExit_tells (x : SlotId) (tap : Tap) (time : Nat) (s : State) :
    Tells s.clock [.go, .goPending] (handleExit x tap time s) := by
  unfold handleExit
  split
  · split
    · exact matchedExit_tells _ tap time s
    · exact exitWithoutJourney_tells x tap time s
  · exact exitWithoutJourney_tells x tap time s

/-! ### The handling of a granted tap (R7, R13, R14) -/

theorem handleTap_stamped (x : SlotId) (tr : TapTransaction) (s : State) :
    ∀ r ∈ (handleTap x tr s).records, Stamped s.clock r := by
  unfold handleTap
  dsimp only
  split
  · split
    · exact deferredEntry_stamped _ s
    · exact (liveEntry_tells _ s).1
  · exact (handleExit_tells x _ _ s).1

theorem handleTap_entry_kind (live : tr.entry.tap.deferred = false) (entry : tr.entry.tap.direction = 1) :
    (handleTap x tr s).answer.kind ∈ [.go, .refused] := by
  have handled : handleTap x tr s = liveEntry (workOf x tr) s := by
    simp [handleTap, Tap.isEntry, entry, live]
  rw [handled]
  exact (liveEntry_tells _ s).2

theorem handleTap_exit_kind (exit : tr.entry.tap.direction ≠ 1) :
    (handleTap x tr s).answer.kind ∈ [.go, .goPending] := by
  have handled : handleTap x tr s = handleExit x tr.entry.tap tr.tapTime s := by
    simp [handleTap, Tap.isEntry, exit]
  rw [handled]
  exact (handleExit_tells x _ _ s).2

/-! ### The Office Queue after a transaction (R7, R162, R171) -/

/-- Records placed in set-aside entries, in the order produced. -/
theorem placeAll_officeQueue (records : List Record) (s : State) (small : s.officeQueue.sequence ≤ 255) :
    (placeAll records s).officeQueue = {
      frames := s.officeQueue.frames
        ++ records.mapIdx (fun i r => .record ((s.officeQueue.sequence + i) % 256) r)
      setAside := s.officeQueue.setAside - records.length
      sequence := (s.officeQueue.sequence + records.length) % 256 } := by
  induction records generalizing s with
  | nil => simp [placeAll, Nat.mod_eq_of_lt (Nat.lt_succ_of_le small)]
  | cons r rest ih =>
    obtain ⟨port, placed⟩ := placeRecordAside_eq r s
    have step := ih (placeRecordAside r s) (by rw [placed]; exact Nat.le_of_lt_succ (Nat.mod_lt _ (by decide)))
    have tail : placeAll (r :: rest) s = placeAll rest (placeRecordAside r s) := rfl
    rw [tail, step, placed]
    have turn (i : Nat) : ((s.officeQueue.sequence + 1) % 256 + i) % 256
        = (s.officeQueue.sequence + (i + 1)) % 256 := by omega
    simp [List.mapIdx_cons, turn, Nat.mod_eq_of_lt (Nat.lt_succ_of_le small), Nat.sub_sub, Nat.add_comm 1]

theorem endTransaction_officeQueue {h : Handled} (few : h.records.length ≤ 3)
    (small : h.st.officeQueue.sequence ≤ 255) (e : TapEntry) (c d : Bool) :
    (endTransaction e c d h).officeQueue = {
      frames := h.st.officeQueue.frames ++ (h.records.map (decorate e.tap e.answeredLate c d)).mapIdx
        (fun i r => .record ((h.st.officeQueue.sequence + i) % 256) r)
      setAside := h.st.officeQueue.setAside - 3
      sequence := (h.st.officeQueue.sequence + h.records.length) % 256 } := by
  have queue : (answerTap e c h.answer h.st).officeQueue = h.st.officeQueue := by simp
  have placed := placeAll_officeQueue (h.records.map (decorate e.tap e.answeredLate c d))
    (answerTap e c h.answer h.st) (by rwa [queue])
  rw [queue, List.length_map] at placed
  change (returnAside (3 - h.records.length) _).officeQueue = _
  rw [returnAside_officeQueue, placed]
  simp only [OfficeQueue.mk.injEq, true_and, and_true]
  omega

end Sys2Proof.Machine

section
open Sys2Proof Sys2Proof.Machine

/-- Settles O45: how every granted tap transaction ends. -/
theorem tapTransactionEnds : Obligations.TapTransactionEnds := by
  intro s x tr granted small
  have frame := (handleTap_works tr granted.2.2.2).frame
  obtain ⟨st, isSt⟩ : ∃ st, st = (handleTap x tr s).st := ⟨_, rfl⟩
  rw [← isSt] at frame
  obtain ⟨-, -, tapQueue, verdictQueue, forwardQueue, reckoner, store, sweep, tables, clock, -, -, mgmt⟩ :=
    endTransaction_frame tr.entry tr.clamped (exitDenied tr s) (handleTap x tr s)
  have office := endTransaction_officeQueue (handleTap_records x tr s)
    (by rw [← isSt, frame]; exact small) tr.entry tr.clamped (exitDenied tr s)
  rw [← isSt] at tapQueue verdictQueue forwardQueue store sweep tables clock mgmt office
  rw [frame] at tapQueue forwardQueue clock office
  refine ⟨_, (handleTap x tr s).records.map (decorate tr.entry.tap tr.entry.answeredLate tr.clamped
    (exitDenied tr s)), exec_reckonerGrant_of granted, ?_, fun r hr => ?_, ?_, ?_, ?_, fun late => ?_,
    fun onTime => ?_, reckoner, tapQueue, forwardQueue, clock, ?_, ?_, ?_, ?_, ?_, ?_, ?_, ?_⟩
  · rw [List.length_map]
    exact handleTap_records x tr s
  · obtain ⟨q, hq, rfl⟩ := List.mem_map.mp hr
    obtain ⟨sec, ms, free⟩ := handleTap_stamped x tr s q hq
    refine ⟨rfl, fun h => ?_, fun h => ?_, fun h => ?_, sec, ms, free⟩ <;> simp [decorate, h]
  · exact congrArg OfficeQueue.frames office
  · exact congrArg OfficeQueue.setAside office
  · rw [List.length_map]
    exact congrArg OfficeQueue.sequence office
  · rw [verdictQueue, late, frame]
    rfl
  · refine ⟨verdictFor tr.entry.tap (toGate tr.entry.tap tr.clamped (handleTap x tr s).answer), ?_,
      rfl, rfl, rfl, rfl, fun deferred => ?_, fun live entry => ?_, fun live exit => ?_⟩
    · rw [verdictQueue, onTime, frame]
      rfl
    · simp [verdictFor, toGate, deferred]
    · simpa [verdictFor, toGate, live] using handleTap_entry_kind (x := x) (s := s) live entry
    · simpa [verdictFor, toGate, live] using handleTap_exit_kind (x := x) (s := s) exit
  · rw [store, frame]; rfl
  · rw [store, frame]; rfl
  · rw [tables, frame]; rfl
  · rw [tables, frame]; rfl
  · rw [mgmt, frame]; rfl
  · rw [mgmt, frame]; rfl
  · rw [mgmt, frame]; rfl
  · rw [sweep, frame]; rfl

end
end

