-- ==== Sys2Proof/Proofs/RestartTaken.lean ====
section
/-! SUPPORT. RESTART carried out: the flush, the Sweep and the slots reset, the operation in the other request slot, with O33 and O34. -/

namespace Sys2Proof.Machine

variable {s t u : State} {before after : List HeldRequest} {q r : HeldRequest} {x y : SlotId}

/-! ### The flushed Tap Queue (R18) -/

/-- The Fallbacks of a flush, counted up to the range of a count (R18, R166). -/
def fallbacksAfter (n count : Nat) : Nat := if n = 0 then count else min (count + n) 4294967295

theorem fallbacksAfter_succ (n count : Nat) : fallbacksAfter n (bump count) = fallbacksAfter (n + 1) count := by
  unfold fallbacksAfter bump Config.max32
  by_cases none : n = 0
  · simp [none]
  · rw [if_neg none, if_neg (Nat.succ_ne_zero n)]
    omega

/-- The unanswered taps of a flush are told Fallback "queue full" in their reserved places; those answered late are kept for their records (R18). -/
theorem foldl_flushTap_eq (l : List TapEntry) (s : State) : ∃ port, l.foldl flushTap s = { s with
    linePort := port
    verdictQueue := {
      frames := s.verdictQueue.frames
        ++ (l.filter (fun e => !e.answeredLate)).map (fun e => plainVerdict e.tap .fallback .queueFull)
      reserved := s.verdictQueue.reserved - (l.filter (fun e => !e.answeredLate)).length }
    mgmt := { s.mgmt with
      counters := { s.mgmt.counters with
        fallbacksFull := fallbacksAfter (l.filter (fun e => !e.answeredLate)).length
          s.mgmt.counters.fallbacksFull }
      restartLate := s.mgmt.restartLate ++ (l.filter (fun e => e.answeredLate)).map TapEntry.tap } } := by
  induction l generalizing s with
  | nil => exact ⟨s.linePort, by simp [fallbacksAfter]⟩
  | cons e rest ih =>
    obtain ⟨port, flushed⟩ := ih (flushTap s e)
    refine ⟨port, ?_⟩
    rw [List.foldl_cons, flushed]
    cases late : e.answeredLate with
    | true => simp [flushTap, late]
    | false =>
      have told : flushTap s e = count (fun c => { c with fallbacksFull := bump c.fallbacksFull })
          (fillReserved (plainVerdict e.tap .fallback .queueFull) s) := by
        rw [flushTap, if_neg (by simp [late])]
        rfl
      rw [told, fillReserved_eq]
      simp [late, Machine.count, fallbacksAfter_succ, Nat.sub_sub, Nat.add_comm]

/-! ### The Sweep and the slots (R63, R128, R144) -/

theorem restartSweep_eq (s : State) : restartSweep s = { s with
    store := { s.store with
      arbiter := if holder s = some .sweep then s.store.arbiter else s.store.arbiter.withdraw .sweep }
    sweep := if holder s = some .sweep then { s.sweep with resetAtRelease := true }
      else ⟨0, 0, false, false, .journey, false⟩ } := by
  unfold restartSweep
  by_cases held : holder s = some .sweep
  · simp only [held, if_true]
    rfl
  · simp only [held, if_false]
    rfl

/-- The slots a RESTART leaves: a copied one freed, a validated one Staging again unless its swap is due (R144). -/
theorem restartSlots_eq (s : State) : ∃ a b requests, restartSlots s = { s with
    tables := { s.tables with
      slotA := a
      slotB := b }
    mgmt := { s.mgmt with requests := requests } } := by
  have put (x : SlotId) (v : Slot) : ∃ a b, putSlot x v s = { s with tables := { s.tables with
      slotA := a
      slotB := b } } := by
    cases x <;> exact ⟨_, _, rfl⟩
  unfold restartSlots
  split
  next x _ =>
    obtain ⟨a, b, placed⟩ := put x Slot.freed
    rw [placed]
    exact ⟨a, b, _, rfl⟩
  next x _ _ =>
    split
    · exact ⟨_, _, _, rfl⟩
    · obtain ⟨a, b, placed⟩ := put x { slotOf s x with state := .staging, effective := none }
      rw [placed]
      exact ⟨a, b, _, rfl⟩
  · exact ⟨_, _, _, rfl⟩

/-- The one slot in a loading state (R134). -/
theorem slotIn_loading {v : SlotState} (loading : v.loading = true) (sound : SlotsSound s) :
    slotIn (· == v) s = some x ↔ (slotOf s x).state = v := by
  refine ⟨slotIn_state, fun is => ?_⟩
  unfold slotIn
  cases x with
  | a => exact if_pos (beq_iff_eq.mpr is)
  | b =>
    have other : s.tables.slotA.state ≠ v := fun same => sound.2 ⟨by rw [same, loading], by
      rw [show s.tables.slotB.state = v from is, loading]⟩
    exact (if_neg (by simpa using other)).trans (if_pos (beq_iff_eq.mpr is))

theorem slotIn_none {p : SlotState → Bool} (none : ∀ x, p (slotOf s x).state = false) : slotIn p s = .none := by
  have a : p s.tables.slotA.state = false := none .a
  have b : p s.tables.slotB.state = false := none .b
  simp [slotIn, a, b]

/-- No other slot loads while one does (R134). -/
theorem not_loading_of_loading (sound : SlotsSound s) (loading : (slotOf s x).state.loading = true)
    (other : (slotOf s y).state.loading = true) : y = x := by
  cases x <;> cases y
  case a.a => rfl
  case b.b => rfl
  case a.b => exact absurd ⟨loading, other⟩ sound.2
  case b.a => exact absurd ⟨other, loading⟩ sound.2

theorem restartSlots_copying (sound : SlotsSound s) (copying : (slotOf s x).state = .copying) :
    restartSlots s = answerUnderway Request.isCopy Reply.aborted (putSlot x Slot.freed s) := by
  unfold restartSlots
  rw [(slotIn_loading rfl sound).mpr copying]

theorem restartSlots_validating (sound : SlotsSound s) (validating : (slotOf s x).state = .validating) :
    restartSlots s = if s.tables.swapDue = some x then s
      else answerUnderway Request.isActivate Reply.aborted
        (putSlot x { slotOf s x with state := .staging, effective := none } s) := by
  have noCopy : slotIn (· == .copying) s = none := slotIn_none fun y => by
    refine beq_eq_false_iff_ne.mpr fun copying => ?_
    have same := not_loading_of_loading sound (x := x) (y := y) (by rw [validating]; rfl) (by rw [copying]; rfl)
    rw [same, validating] at copying
    exact absurd copying (by decide)
  unfold restartSlots
  rw [noCopy, (slotIn_loading rfl sound).mpr validating]

/-- Where nothing is copied or validated no slot changes (R144). -/
theorem restartSlots_idle (copying : ∀ x, (slotOf s x).state ≠ .copying)
    (validating : ∀ x, (slotOf s x).state ≠ .validating) : restartSlots s = s := by
  unfold restartSlots
  rw [slotIn_none (p := (· == .copying)) fun x => beq_eq_false_iff_ne.mpr (copying x),
    slotIn_none (p := (· == .validating)) fun x => beq_eq_false_iff_ne.mpr (validating x)]

/-- Every slot after a RESTART (R144). -/
structure SlotsRestarted (s t : State) : Prop where
  others : ∀ x, (slotOf s x).state ≠ .copying → (slotOf s x).state ≠ .validating → slotOf t x = slotOf s x
  copying : ∀ x, (slotOf s x).state = .copying → slotOf t x = Slot.freed
  swapping : ∀ x, (slotOf s x).state = .validating → s.tables.swapDue = some x → slotOf t x = slotOf s x
  validating : ∀ x, (slotOf s x).state = .validating → s.tables.swapDue ≠ some x →
    slotOf t x = { slotOf s x with state := .staging, effective := none }

theorem slotOf_put {v : Slot} (k : Request → Bool) (reply : Reply) (x y : SlotId) (s : State) :
    slotOf (answerUnderway k reply (putSlot x v s)) y = if y = x then v else slotOf s y := by
  split
  next same => simp [slotOf, same]
  next other => simp [slotOf, TableStore.slot_put_ne _ _ other]

theorem slotsRestarted (sound : SlotsSound s) : SlotsRestarted s (restartSlots s) := by
  by_cases copies : ∃ x, (slotOf s x).state = .copying
  · obtain ⟨x, copying⟩ := copies
    have only (y : SlotId) (loads : (slotOf s y).state.loading = true) : y = x :=
      not_loading_of_loading sound (by rw [copying]; rfl) loads
    rw [restartSlots_copying sound copying]
    constructor <;> intro y
    · intro other _
      rw [slotOf_put, if_neg (fun same : y = x => other (same ▸ copying))]
    · intro is
      rw [slotOf_put, if_pos (only y (by rw [is]; rfl))]
    · intro is _
      rw [only y (by rw [is]; rfl), copying] at is
      exact absurd is (by decide)
    · intro is _
      rw [only y (by rw [is]; rfl), copying] at is
      exact absurd is (by decide)
  · have noCopy (y : SlotId) : (slotOf s y).state ≠ .copying := fun is => copies ⟨y, is⟩
    by_cases validates : ∃ x, (slotOf s x).state = .validating
    · obtain ⟨x, validating⟩ := validates
      have only (y : SlotId) (loads : (slotOf s y).state.loading = true) : y = x :=
        not_loading_of_loading sound (by rw [validating]; rfl) loads
      rw [restartSlots_validating sound validating]
      split
      next due =>
        refine ⟨fun _ _ _ => rfl, fun y is => absurd is (noCopy y), fun _ _ _ => rfl, fun y is not => ?_⟩
        exact absurd (only y (by rw [is]; rfl) ▸ due) not
      next notDue =>
        refine ⟨fun y _ other => ?_, fun y is => absurd is (noCopy y), fun y is due => ?_, fun y is _ => ?_⟩
        · rw [slotOf_put, if_neg (fun same : y = x => other (same ▸ validating))]
        · exact absurd (only y (by rw [is]; rfl) ▸ due) notDue
        · rw [slotOf_put, if_pos (only y (by rw [is]; rfl)), only y (by rw [is]; rfl)]
    · have noValidation (y : SlotId) : (slotOf s y).state ≠ .validating := fun is => validates ⟨y, is⟩
      rw [restartSlots_idle noCopy noValidation]
      exact ⟨fun _ _ _ => rfl, fun y is => absurd is (noCopy y), fun y is => absurd is (noValidation y),
        fun y is => absurd is (noValidation y)⟩

/-! ### A journey operation not yet granted (R83, R176) -/

/-- What RESTART's abort of an operation can change: the Office Queue and its port, the requests, and the Management Unit's waiting request. -/
theorem abortOperation_eq (s : State) : ∃ port frames aside arbiter requests, abortOperation s = { s with
    officePort := port
    officeQueue := { s.officeQueue with
      frames := frames
      setAside := aside }
    store := { s.store with arbiter := arbiter }
    mgmt := { s.mgmt with requests := requests } }
    ∧ (arbiter = s.store.arbiter ∨ arbiter = s.store.arbiter.withdraw .management) := by
  unfold abortOperation
  split
  next r _ =>
    split
    · exact ⟨_, _, _, _, _, rfl, .inl rfl⟩
    · split
      · exact ⟨_, _, _, _, _, rfl, .inl rfl⟩
      · dsimp only
        split
        all_goals
          obtain ⟨port, placed⟩ := placeFrame_eq (.reply r.sequence r.number r.code Reply.aborted)
            (returnAside (entriesNeeded r.request) (onRequests (fun l => l.eraseP (fun q =>
              q.isWaitingOperation || q.phase == .presented)) _))
          rw [placeReply, placed]
        · exact ⟨_, _, _, _, _, rfl, .inr rfl⟩
        · exact ⟨_, _, _, _, _, rfl, .inl rfl⟩
  · exact ⟨_, _, _, _, _, rfl, .inl rfl⟩

/-! ### RESTART carried out (R176) -/

/-- The queued taps a RESTART answers Fallback (R18). -/
abbrev owedTaps (s : State) : List TapEntry := s.tapQueue.filter (fun e => !e.answeredLate)

/-- The state once RESTART has halted the service, flushed the two queues and dropped the pending events (R176). -/
def flushedBy (line : LinePort) (requests : List HeldRequest) (s : State) : State := { s with
  linePort := line
  tapQueue := []
  verdictQueue := {
    frames := s.verdictQueue.frames ++ (owedTaps s).map (fun e => plainVerdict e.tap .fallback .queueFull)
    reserved := s.verdictQueue.reserved - (owedTaps s).length }
  forwardQueue := []
  mgmt := { s.mgmt with
    service := .halted
    requests := requests
    counters := { s.mgmt.counters with
      fallbacksFull := fallbacksAfter (owedTaps s).length s.mgmt.counters.fallbacksFull }
    events := []
    restartLate := s.mgmt.restartLate ++ (s.tapQueue.filter (fun e => e.answeredLate)).map TapEntry.tap } }

/-- RESTART up to the operation in the other request slot (R176). -/
abbrev drainBegun (line : LinePort) (before : List HeldRequest) (r : HeldRequest) (after : List HeldRequest)
    (s : State) : State :=
  beginDrain (owedTaps s).length (restartSlots (restartSweep
    (flushedBy line (before ++ { r with phase := .underway } :: after) s)))

theorem restartNow_eq (next : NextRequest s before r after) :
    ∃ line, restartNow s = abortOperation (drainBegun line before r after s) := by
  have begun : setService .halted (advanceTaken .underway s)
      = setService .halted (s.withPhase before r after .underway) := by
    rw [advanceTaken_of next rfl]
  obtain ⟨port, flushed⟩ := foldl_flushTap_eq s.tapQueue (setService .halted (s.withPhase before r after
    .underway))
  refine ⟨(emptyForward { s with linePort := port }).linePort, ?_⟩
  unfold restartNow
  simp only [begun]
  unfold flushTaps
  rw [show (setService .halted (s.withPhase before r after .underway)).tapQueue = s.tapQueue from rfl, flushed]
  rfl

/-- No other RESTART held: the row carries it out (R176). -/
theorem exec_restart_of (next : NextRequest s before r after) (restart : r.request = .restart)
    (only : ∀ q ∈ s.mgmt.requests, q.request = .restart → q.phase = .taken) :
    ∃ line, exec .restart s = .next (abortOperation (drainBegun line before r after s)) := by
  obtain ⟨line, done⟩ := restartNow_eq next
  have free : restartHeld s = false := by
    refine List.any_eq_false.mpr fun q hq => ?_
    cases request : q.request with
    | restart => simp [Request.isRestart, only q hq request]
    | _ => simp [Request.isRestart]
  refine ⟨line, ?_⟩
  rw [exec_request_of next (by rw [restart]; rfl), restart, ← done]
  simp [carryOut, free]

theorem exec_restart_refused (next : NextRequest s before r after) (restart : r.request = .restart)
    (other : ∃ q ∈ s.mgmt.requests, q.request = .restart ∧ q.phase ≠ .taken) :
    exec .restart s = .next (s.answered before r after ⟨.refused, .restartInProgress, .nothing⟩) := by
  obtain ⟨q, held, isRestart, underway⟩ := other
  have busy : restartHeld s = true :=
    List.any_eq_true.mpr ⟨q, held, by simp [isRestart, Request.isRestart, underway]⟩
  refine exec_answers next (by rw [restart]; rfl) ?_ rfl
  rw [restart]
  simp [carryOut, busy, Reply.refused]

/-! ### The withdrawals (R63) -/

theorem holder_withdraw (a : Arbiter) (m : Requester) : (a.withdraw m).holder = a.holder := by
  unfold Arbiter.withdraw
  split
  · cases m <;> rfl
  · rfl

theorem withdraw_sweep (a : Arbiter) : (a.withdraw .sweep).reckonerWaiting = a.reckonerWaiting
    ∧ (a.withdraw .sweep).sweepWaiting = false
    ∧ (a.sweepWaiting = true → (a.withdraw .sweep).sweepWait = 0) := by
  unfold Arbiter.withdraw
  by_cases waits : a.sweepWaiting = true
  · simp [Arbiter.waiting, waits, Arbiter.mark]
  · simp [Arbiter.waiting, waits]

theorem withdraw_management (a : Arbiter) :
    (a.withdraw .management).reckonerWaiting = a.reckonerWaiting
    ∧ (a.withdraw .management).sweepWaiting = a.sweepWaiting
    ∧ (a.withdraw .management).sweepWait = a.sweepWait
    ∧ (a.withdraw .management).managementWaiting = false := by
  unfold Arbiter.withdraw
  by_cases waits : a.managementWaiting = true
  · simp [Arbiter.waiting, waits, Arbiter.mark]
  · simp [Arbiter.waiting, waits]

theorem fallbacksAfter_length {α : Type} (l : List α) (n : Nat) [Decidable (l = [])] :
    fallbacksAfter l.length n = if l = [] then n else min (n + l.length) 4294967295 := by
  cases l <;> simp [fallbacksAfter]

/-- The arbiter after a RESTART: the Sweep's waiting request is withdrawn unless it holds the store, and the Management Unit's may be (R63). -/
theorem arbiter_of_restart {a b : Arbiter} (which : b = (if a.holder = some .sweep
      then a else a.withdraw .sweep)
      ∨ b = (if a.holder = some .sweep then a else a.withdraw .sweep).withdraw .management) :
    b.holder = a.holder ∧ b.reckonerWaiting = a.reckonerWaiting
    ∧ (a.holder ≠ some .sweep → b.sweepWaiting = false ∧ (a.sweepWaiting = true → b.sweepWait = 0))
    ∧ (a.holder = some .sweep → b.sweepWaiting = a.sweepWaiting ∧ b.sweepWait = a.sweepWait) := by
  have first : (if a.holder = some .sweep then a else a.withdraw .sweep).holder = a.holder
      ∧ (if a.holder = some .sweep then a else a.withdraw .sweep).reckonerWaiting = a.reckonerWaiting
      ∧ (a.holder ≠ some .sweep → (if a.holder = some .sweep then a else a.withdraw .sweep).sweepWaiting = false
        ∧ (a.sweepWaiting = true → (if a.holder = some .sweep then a else a.withdraw .sweep).sweepWait = 0))
      ∧ (a.holder = some .sweep → (if a.holder = some .sweep then a else a.withdraw .sweep) = a) := by
    obtain ⟨reckoner, waiting, wait⟩ := withdraw_sweep a
    split
    next held => exact ⟨rfl, rfl, fun other => absurd held other, fun _ => rfl⟩
    next other => exact ⟨holder_withdraw a _, reckoner, fun _ => ⟨waiting, wait⟩, fun held => absurd held other⟩
  obtain ⟨holds, reckoner, withdrawn, kept⟩ := first
  rcases which with rfl | rfl
  · exact ⟨holds, reckoner, withdrawn, fun held => by rw [kept held]; exact ⟨rfl, rfl⟩⟩
  · obtain ⟨sameReckoner, sameWaiting, sameWait, -⟩ := withdraw_management
      (if a.holder = some .sweep then a else a.withdraw .sweep)
    rw [holder_withdraw, sameReckoner, sameWaiting, sameWait]
    exact ⟨holds, reckoner, withdrawn, fun held => by rw [kept held]; exact ⟨rfl, rfl⟩⟩

/-! ### The operation in the other request slot (R83, R144, R176) -/

theorem restartSlots_requests (idle : ∀ q ∈ s.mgmt.requests, q.phase = .underway →
    q.request.isCopy = false ∧ q.request.isActivate = false) :
    (restartSlots s).mgmt.requests = s.mgmt.requests := by
  have copies : ∀ q ∈ s.mgmt.requests, (q.phase == .underway && q.request.isCopy) = false := by
    intro q hq
    by_cases under : q.phase = .underway <;> simp [under, idle q hq]
  have activates : ∀ q ∈ s.mgmt.requests, (q.phase == .underway && q.request.isActivate) = false := by
    intro q hq
    by_cases under : q.phase = .underway <;> simp [under, idle q hq]
  unfold restartSlots
  split
  · exact modifyFirst_none copies
  · split
    · rfl
    · exact modifyFirst_none activates
  · rfl

/-- RESTART up to the abort of an operation leaves the Office Queue and the holder of the store (R176). -/
theorem drainBegun_keeps (line : LinePort) (before : List HeldRequest) (r : HeldRequest)
    (after : List HeldRequest) (s : State) :
    (drainBegun line before r after s).officeQueue = s.officeQueue
    ∧ holder (drainBegun line before r after s) = holder s := by
  obtain ⟨a, b, requests, reset⟩ := restartSlots_eq (restartSweep (flushedBy line (before ++ { r with
    phase := .underway } :: after) s))
  unfold drainBegun
  rw [reset, restartSweep_eq]
  refine ⟨rfl, ?_⟩
  by_cases held : holder s = some .sweep
  · exact congrArg Arbiter.holder (if_pos held)
  · exact (congrArg Arbiter.holder (if_neg held)).trans (holder_withdraw _ _)

theorem drainBegun_requests (line : LinePort) (idle : ∀ q ∈ before ++ { r with phase := .underway } :: after,
    q.phase = .underway → q.request.isCopy = false ∧ q.request.isActivate = false) :
    (drainBegun line before r after s).mgmt.requests = before ++ { r with phase := .underway } :: after := by
  have kept : (restartSweep (flushedBy line (before ++ { r with phase := .underway } :: after) s)).mgmt.requests
      = before ++ { r with phase := .underway } :: after := by
    rw [restartSweep_eq]
    rfl
  exact (restartSlots_requests (by rw [kept]; exact idle)).trans kept

/-- Nothing waits or is presented: nothing is aborted (R83). -/
theorem abortOperation_none (none : ∀ q ∈ s.mgmt.requests, q.phase ≠ .waitingEntries ∧ q.phase ≠ .ready
    ∧ q.phase ≠ .presented) : abortOperation s = s := by
  have nothing : s.mgmt.requests.find? (fun r => r.isWaitingOperation || r.phase == .presented) = .none := by
    refine List.find?_eq_none.mpr fun q hq => ?_
    obtain ⟨entries, ready, presented⟩ := none q hq
    simp [HeldRequest.isWaitingOperation, entries, ready, presented]
  rw [abortOperation, nothing]

/-- The first request is the operation aborted. -/
theorem abortOperation_head (requests : s.mgmt.requests = q :: after)
    (operation : q.phase = .waitingEntries ∨ q.phase = .ready ∨ q.phase = .presented) :
    abortOperation s = if q.phase = .waitingEntries then
        onRequests (modifyFirst (fun q => q.phase == .waitingEntries)
          (fun q => { q with phase := .replyDue Reply.aborted })) s
      else if q.phase = .presented ∧ holder s = some .management then s
      else placeReply q Reply.aborted (returnAside (entriesNeeded q.request)
        (onRequests (fun l => l.eraseP (fun q => q.isWaitingOperation || q.phase == .presented))
          (if q.phase = .presented then onArbiter (fun a => a.withdraw .management) s else s))) := by
  have found : s.mgmt.requests.find? (fun r => r.isWaitingOperation || r.phase == .presented) = some q := by
    rw [requests]
    refine List.find?_cons_of_pos ?_
    rcases operation with h | h | h <;> simp [HeldRequest.isWaitingOperation, h]
  rw [abortOperation, found]

/-- The slots do not change before their turn in a RESTART (R176). -/
theorem swept_tables (line : LinePort) (l : List HeldRequest) (s : State) :
    (restartSweep (flushedBy line l s)).tables = s.tables := by
  rw [restartSweep_eq]
  rfl

theorem swept_slot (line : LinePort) (l : List HeldRequest) (s : State) (x : SlotId) :
    (slotOf (restartSweep (flushedBy line l s)) x).state = (slotOf s x).state := by
  simp only [slotOf, swept_tables]

theorem swept_swapDue (line : LinePort) (l : List HeldRequest) (s : State) :
    (restartSweep (flushedBy line l s)).tables.swapDue = s.tables.swapDue := by
  rw [swept_tables]

theorem swept_sound {line : LinePort} {l : List HeldRequest} (sound : SlotsSound s) :
    SlotsSound (restartSweep (flushedBy line l s)) := by
  simpa only [SlotsSound, swept_tables] using sound

/-- A copy or a validation under way in the other slot is answered Aborted (R144). -/
theorem drainBegun_aborts {kind : Request → Bool} {v : Slot} (line : LinePort)
    (resets : restartSlots (restartSweep (flushedBy line [q, { r with phase := .underway }] s))
      = answerUnderway kind Reply.aborted (putSlot x v
        (restartSweep (flushedBy line [q, { r with phase := .underway }] s))))
    (underway : q.phase = .underway) (is : kind q.request = true) :
    (drainBegun line [q] r [] s).mgmt.requests
      = [{ q with phase := .replyDue Reply.aborted }, { r with phase := .underway }] := by
  have kept : (restartSweep (flushedBy line [q, { r with phase := .underway }] s)).mgmt.requests
      = [q, { r with phase := .underway }] := by
    rw [restartSweep_eq]
    rfl
  unfold drainBegun
  rw [List.singleton_append, resets]
  change modifyFirst _ _ (restartSweep (flushedBy line [q, { r with phase := .underway }] s)).mgmt.requests = _
  rw [kept]
  simp [modifyFirst, underway, is]

end Sys2Proof.Machine

section
open Sys2Proof Sys2Proof.Machine

/-- Settles O33: RESTART refused, or carried out in one act. -/
theorem restartTaken : Obligations.RestartTaken := by
  intro s before after r next restart
  refine ⟨exec_restart_refused next restart, fun owed late only sound isOwed isLate => ?_⟩
  subst isOwed isLate
  obtain ⟨line, run⟩ := exec_restart_of next restart only
  obtain ⟨flushed, isFlushed⟩ : ∃ u, u = restartSweep (flushedBy line (before ++ { r with
    phase := .underway } :: after) s) := ⟨_, rfl⟩
  have swept := isFlushed.trans (restartSweep_eq _)
  have slots : SlotsRestarted flushed (restartSlots flushed) := slotsRestarted (by rw [swept]; exact sound)
  obtain ⟨a, b, requests, reset⟩ := restartSlots_eq flushed
  have begun : drainBegun line before r after s = { flushedBy line requests s with
      store := { s.store with
        arbiter := if holder s = some .sweep then s.store.arbiter else s.store.arbiter.withdraw .sweep }
      sweep := if holder s = some .sweep then { s.sweep with resetAtRelease := true }
        else ⟨0, 0, false, false, .journey, false⟩
      tables := { s.tables with
        slotA := a
        slotB := b }
      mgmt := { (flushedBy line requests s).mgmt with
        drain := ⟨true, false, 0, (owedTaps s).length⟩ } } := by
    unfold drainBegun
    rw [← isFlushed, reset, swept]
    rfl
  have placed : ∀ x, slotOf (restartSlots flushed) x = { s.tables with
      slotA := a
      slotB := b }.slot x := fun x => by
    rw [reset, swept]
    rfl
  have stood : ∀ x, slotOf flushed x = slotOf s x := fun x => by
    rw [swept]
    rfl
  obtain ⟨port, frames, aside, arbiter, kept, aborted, which⟩ := abortOperation_eq (drainBegun line before r
    after s)
  rw [begun] at aborted which run
  refine ⟨_, run, ?_⟩
  rw [aborted]
  obtain ⟨holds, reckoner, withdrawn, stands⟩ := arbiter_of_restart which
  obtain ⟨others, copying, swapping, validating⟩ := slots
  simp only [placed, stood] at others copying swapping validating
  refine ⟨?_, holds, reckoner, withdrawn, stands, others, copying, fun x is due => ?_, fun x is due => ?_⟩
  · rw [← fallbacksAfter_length]
    rfl
  · exact swapping x is (by rw [swept]; exact due)
  · exact validating x is (by rw [swept]; exact due)

/-- Settles O34: what RESTART makes of the request in the other slot. -/
theorem restartAbortsOperations : Obligations.RestartAbortsOperations := by
  refine ⟨fun s q r next restart other => ?_, fun s q r next restart notRestart => ?_⟩
  · have only : ∀ p ∈ s.mgmt.requests, p.request = .restart → p.phase = .taken := by
      intro p hp isRestart
      rw [next.2.1] at hp
      simp only [List.nil_append, List.mem_cons, List.not_mem_nil, or_false] at hp
      rcases hp with rfl | rfl
      · exact next.2.2.2
      · exact other.resolve_right fun h => h.1 isRestart
    obtain ⟨line, run⟩ := exec_restart_of next restart only
    have idle : q.phase ≠ .underway ∧ q.phase ≠ .waitingEntries ∧ q.phase ≠ .ready
        ∧ q.phase ≠ .presented := by
      rcases other with phase | ⟨-, reply, phase⟩ <;> simp [phase]
    have requests : (drainBegun line [] r [q] s).mgmt.requests = [{ r with phase := .underway }, q] :=
      drainBegun_requests line (by simp [restart, Request.isCopy, Request.isActivate, idle.1])
    rw [abortOperation_none (by rw [requests]; simp [idle])] at run
    exact ⟨_, run, requests, (drainBegun_keeps ..).1⟩
  · have only : ∀ p ∈ s.mgmt.requests, p.request = .restart → p.phase = .taken := by
      intro p hp isRestart
      rw [next.2.1] at hp
      simp only [List.singleton_append, List.mem_cons, List.not_mem_nil, or_false] at hp
      rcases hp with rfl | rfl
      · exact absurd isRestart notRestart
      · exact next.2.2.2
    obtain ⟨line, run⟩ := exec_restart_of next restart only
    obtain ⟨queue, holds⟩ := drainBegun_keeps line [q] r [] s
    have unlessUnderway (idle : q.phase ≠ .underway) : (drainBegun line [q] r [] s).mgmt.requests
        = [q, { r with phase := .underway }] :=
      drainBegun_requests line (by simp [restart, Request.isCopy, Request.isActivate, idle])
    refine ⟨_, run, fun phase => ?_, fun phase => ?_, fun phase held => ?_, fun replyDue => ?_,
      fun x phase sound => ⟨fun request copying => ?_, fun effective request validating =>
        ⟨fun notDue => ?_, fun due => ?_⟩⟩⟩
    · have requests := unlessUnderway (by simp [phase])
      rw [abortOperation_head requests (.inl phase), if_pos phase]
      refine ⟨?_, queue⟩
      change modifyFirst _ _ (drainBegun line [q] r [] s).mgmt.requests = _
      rw [requests]
      simp [modifyFirst, phase, Reply.aborted]
    · have isOperation : q.phase = .ready ∨ q.phase = .presented := phase.imp_right And.left
      have requests := unlessUnderway (by rcases isOperation with h | h <;> simp [h])
      have ungranted : ¬ (q.phase = .presented ∧ holder (drainBegun line [q] r [] s) = some .management) := by
        rintro ⟨presented, held⟩
        rcases phase with ready | ⟨-, free⟩
        · rw [ready] at presented
          exact absurd presented (by decide)
        · exact free (holds.symm.trans held)
      rw [abortOperation_head requests (.inr isOperation), if_neg (by rcases isOperation with h | h <;> simp [h]),
        if_neg ungranted]
      obtain ⟨port, placed⟩ := placeFrame_eq (.reply q.sequence q.number q.code Reply.aborted)
        (returnAside (entriesNeeded q.request) (onRequests (fun l => l.eraseP (fun q =>
          q.isWaitingOperation || q.phase == .presented)) (if q.phase = .presented then
            onArbiter (fun a => a.withdraw .management) (drainBegun line [q] r [] s)
            else drainBegun line [q] r [] s)))
      rw [placeReply, placed]
      have erased : [q, { r with phase := .underway }].eraseP (fun q => q.isWaitingOperation
          || q.phase == .presented) = [{ r with phase := .underway }] :=
        List.eraseP_cons_of_pos (by rcases isOperation with h | h <;> simp [HeldRequest.isWaitingOperation, h])
      refine ⟨?_, ?_, fun presented => ?_⟩
      · rw [← erased, ← requests]
        split <;> rfl
      · rw [← queue]
        split <;> rfl
      · simp only [presented, if_true]
        exact (withdraw_management _).2.2.2
    · have requests := unlessUnderway (by simp [phase])
      rw [abortOperation_head requests (.inr (.inr phase)), if_neg (by simp [phase]),
        if_pos ⟨phase, holds.trans held⟩]
      exact ⟨requests, queue⟩
    · obtain ⟨reply, phase⟩ := replyDue
      have requests := unlessUnderway (by simp [phase])
      rw [abortOperation_none (by rw [requests]; simp [phase])]
      exact ⟨requests, queue⟩
    · have requests := drainBegun_aborts (r := r) line (restartSlots_copying (swept_sound sound) ((swept_slot ..).trans
        copying)) phase (by rw [request]; rfl)
      rw [abortOperation_none (by rw [requests]; simp)]
      exact ⟨requests, queue⟩
    · have requests := drainBegun_aborts (r := r) line ((restartSlots_validating (swept_sound sound) ((swept_slot
        ..).trans validating)).trans (if_neg (by rw [swept_swapDue]; exact notDue))) phase (by rw [request]; rfl)
      rw [abortOperation_none (by rw [requests]; simp)]
      exact ⟨requests, queue⟩
    · have requests : (drainBegun line [q] r [] s).mgmt.requests = [q, { r with phase := .underway }] := by
        unfold drainBegun
        rw [restartSlots_validating (swept_sound sound) ((swept_slot ..).trans validating),
          if_pos (by rw [swept_swapDue]; exact due), restartSweep_eq]
        rfl
      rw [abortOperation_none (by rw [requests]; simp [phase])]
      exact ⟨requests, queue⟩

end
end

