-- ==== Sys2Proof/Proofs/ShareDealing.lean ====
section
/-! SUPPORT. The dealing of a charge among operators, with O53. -/

namespace Sys2Proof.Machine

variable {branches : List BranchReckoning} {d charge : Nat} {ps qs : List Portion} {p q : Portion}

/-! ### The order of the dealing (R56, step 3) -/

/-- A portion goes before another in the dealing of the remaining cents: by greater remainder, then by lower number (R56). -/
abbrev Portion.before (p q : Portion) : Prop :=
  q.remainder < p.remainder ∨ p.remainder = q.remainder ∧ p.operator < q.operator

theorem rank_eq (ps : List Portion) (p : Portion) : rank ps p = ps.countP (fun q => q.before p) := by
  rw [rank, List.countP_eq_length_filter]
  congr 2
  funext q
  simp [beq_decides]

theorem rank_perm (same : ps.Perm qs) (p : Portion) : rank ps p = rank qs p := by
  rw [rank_eq, rank_eq, same.countP_eq]

/-- In a list in the order of the dealing, those that fewer than `m` precede are `m`, or all. -/
theorem countP_rank_lt_of_ordered (ordered : ps.Pairwise Portion.before) (m : Nat) :
    ps.countP (fun p => rank ps p < m) = min m ps.length := by
  induction ps generalizing m with
  | nil => simp
  | cons p rest ih =>
    obtain ⟨first, ordered⟩ := List.pairwise_cons.mp ordered
    have head : rank (p :: rest) p = 0 := by
      rw [rank_eq, List.countP_eq_zero]
      rintro q (_ | ⟨_, held⟩)
      · simp
      · have := first q held
        simp only [decide_eq_true_eq]
        omega
    have tail : ∀ q ∈ rest, rank (p :: rest) q = rank rest q + 1 := fun q held => by
      rw [rank_eq, rank_eq, List.countP_cons_of_pos (by simpa using first q held)]
    cases m with
    | zero => simp
    | succ m =>
      have others : rest.countP (fun q => rank (p :: rest) q < m + 1)
          = rest.countP (fun q => rank rest q < m) :=
        List.countP_congr fun q held => by simp [tail q held]
      rw [List.countP_cons_of_pos (by simp [head]), others, ih ordered, List.length_cons]
      omega

/-- Portions of different operators can be put in the order of the dealing. -/
theorem exists_ordered (nodup : (ps.map Portion.operator).Nodup) :
    ∃ qs : List Portion, qs.Perm ps ∧ qs.Pairwise Portion.before := by
  have perm := List.mergeSort_perm ps (fun p q => !decide (q.before p))
  have sorted := List.pairwise_mergeSort (le := fun p q : Portion => !decide (q.before p))
    (fun p q r => by simp only [Bool.not_eq_true', decide_eq_false_iff_not]; omega)
    (fun p q => by simp only [Bool.or_eq_true, Bool.not_eq_true', decide_eq_false_iff_not]; omega) ps
  have apart := List.pairwise_map.mp ((perm.map Portion.operator).nodup_iff.mpr nodup)
  refine ⟨_, perm, (sorted.and apart).imp fun {p q} both => ?_⟩
  obtain ⟨order, differ⟩ := both
  simp only [Bool.not_eq_true', decide_eq_false_iff_not] at order
  omega

theorem rank_lt_length_filter (ps : List Portion) (m : Nat) (nodup : (ps.map Portion.operator).Nodup) :
    (ps.filter (fun p => rank ps p < m)).length = min m ps.length := by
  obtain ⟨qs, perm, ordered⟩ := exists_ordered nodup
  have counted := countP_rank_lt_of_ordered ordered m
  rw [← List.countP_eq_length_filter, ← perm.length_eq, ← counted, perm.countP_eq]
  exact List.countP_congr fun p _ => by rw [rank_perm perm]

/-- Who is served while another is not goes before it. -/
theorem before_of_rank_lt (less : rank ps p < rank ps q) : p.before q := by
  refine Decidable.byContradiction fun notBefore => ?_
  rw [rank_eq, rank_eq] at less
  refine absurd less (Nat.not_lt.mpr (List.countP_mono_left fun o _ before => ?_))
  simp only [decide_eq_true_eq] at before ⊢
  omega

/-! ### Weights (R55) -/

theorem operatorWeight_cons (b : BranchReckoning) (l : List BranchReckoning) (k : Nat) :
    operatorWeight (b :: l) k = (if b.owner = k then b.chargeable else 0) + operatorWeight l k := by
  unfold operatorWeight
  by_cases own : b.owner = k <;> simp [own]

/-- Every branch belongs to one of the four operators. -/
theorem sum_operatorWeight (owners : ∀ b ∈ branches, b.owner ≤ 3) :
    ([0, 1, 2, 3].map (operatorWeight branches)).sum = (branches.map BranchReckoning.chargeable).sum := by
  induction branches with
  | nil => rfl
  | cons b l ih =>
    have rest := ih fun c hc => owners c (List.mem_cons_of_mem b hc)
    have own := owners b List.mem_cons_self
    simp only [List.map_cons, List.map_nil, List.sum_cons, List.sum_nil, operatorWeight_cons] at rest ⊢
    rw [← rest]
    have owner : b.owner = 0 ∨ b.owner = 1 ∨ b.owner = 2 ∨ b.owner = 3 := by omega
    rcases owner with is | is | is | is <;> simp [is] <;> omega

theorem operatorWeight_pos {k : Nat} (owners : ∀ b ∈ branches, b.owner ≤ 3)
    (weight : 0 < operatorWeight branches k) : k ∈ [0, 1, 2, 3] := by
  obtain ⟨b, hb⟩ : ∃ b, b ∈ branches.filter (fun b => b.owner == k) := by
    refine List.exists_mem_of_ne_nil _ fun empty => ?_
    rw [operatorWeight, empty] at weight
    exact absurd weight (by decide)
  simp only [List.mem_filter, beq_iff_eq] at hb
  have := owners b hb.1
  simp only [List.mem_cons, List.not_mem_nil, or_false]
  omega

/-! ### The portions (R56) -/

/-- The operators of weight above 0, ascending (R56). -/
abbrev weighted (branches : List BranchReckoning) : List Nat :=
  [0, 1, 2, 3].filter (fun k => 0 < operatorWeight branches k)

theorem map_operator_portions : (portions branches charge d).map Portion.operator = weighted branches := by
  simp [portions, Function.comp_def]

theorem weighted_pairwise : (weighted branches).Pairwise (· < ·) :=
  List.Pairwise.filter _ (by decide)

/-- Floors and remainders make up the charge. -/
theorem sum_portions (owners : ∀ b ∈ branches, b.owner ≤ 3)
    (isD : d = (branches.map BranchReckoning.chargeable).sum) :
    d * ((portions branches charge d).map Portion.floor).sum
      + ((portions branches charge d).map Portion.remainder).sum = charge * d := by
  have weights : ((weighted branches).map (operatorWeight branches)).sum = d := by
    rw [isD, ← sum_operatorWeight owners]
    have drop (l : List Nat) : ((l.filter (fun k => 0 < operatorWeight branches k)).map
        (operatorWeight branches)).sum = (l.map (operatorWeight branches)).sum := by
      induction l with
      | nil => rfl
      | cons k rest ih =>
        by_cases weight : 0 < operatorWeight branches k
        · simp [weight, ih]
        · simp [ih, Nat.eq_zero_of_not_pos weight]
    exact drop _
  have split (l : List Nat) : d * ((l.map fun k => (⟨k, charge * operatorWeight branches k / d,
        charge * operatorWeight branches k % d⟩ : Portion)).map Portion.floor).sum
      + ((l.map fun k => (⟨k, charge * operatorWeight branches k / d,
        charge * operatorWeight branches k % d⟩ : Portion)).map Portion.remainder).sum
      = charge * (l.map (operatorWeight branches)).sum := by
    induction l with
    | nil => rfl
    | cons k rest ih =>
      have one := Nat.div_add_mod (charge * operatorWeight branches k) d
      simp only [List.map_cons, List.sum_cons, Nat.mul_add]
      omega
  exact (split (weighted branches)).trans (by rw [weights])

/-- The cents the floors leave undealt are no more than the portions (R56). -/
theorem undealt_le (owners : ∀ b ∈ branches, b.owner ≤ 3)
    (isD : d = (branches.map BranchReckoning.chargeable).sum) (positive : d ≠ 0) :
    ((portions branches charge d).map Portion.floor).sum ≤ charge
    ∧ charge - ((portions branches charge d).map Portion.floor).sum ≤ (portions branches charge d).length := by
  have total := sum_portions (charge := charge) owners isD
  have small : ((portions branches charge d).map Portion.remainder).sum ≤ (portions branches charge d).length * d := by
    rw [← List.length_map (f := Portion.remainder)]
    refine sum_le_length_mul fun r hr => ?_
    obtain ⟨p, hp, rfl⟩ := List.mem_map.mp hr
    obtain ⟨k, -, rfl⟩ := List.mem_map.mp hp
    exact Nat.le_of_lt (Nat.mod_lt _ (Nat.pos_of_ne_zero positive))
  have pos := Nat.pos_of_ne_zero positive
  refine ⟨Nat.le_of_mul_le_mul_left (by rw [Nat.mul_comm d charge]; omega) pos,
    Nat.le_of_mul_le_mul_left ?_ pos⟩
  rw [Nat.mul_sub, Nat.mul_comm d charge, Nat.mul_comm d (portions branches charge d).length]
  omega

/-- The charge an operator is dealt (R56). -/
abbrev dealt (ps : List Portion) (undealt : Nat) (p : Portion) : Share :=
  ⟨p.operator, if rank ps p < undealt then p.floor + 1 else p.floor⟩

theorem dealShares_eq (branches : List BranchReckoning) (d start charge : Nat) (charged : charge ≠ 0)
    (distance : d ≠ 0) : dealShares branches d start charge = (portions branches charge d).map
      (dealt (portions branches charge d)
        (charge - ((portions branches charge d).map Portion.floor).sum)) := by
  unfold dealShares
  rw [if_neg (by simp [charged, distance])]

theorem sum_dealt (ps l : List Portion) (undealt : Nat) : ((l.map (dealt ps undealt)).map Share.amount).sum
    = (l.map Portion.floor).sum + (l.filter (fun p => rank ps p < undealt)).length := by
  induction l with
  | nil => rfl
  | cons p rest ih =>
    by_cases served : rank ps p < undealt
    · simp [served] at ih ⊢
      omega
    · simp [served] at ih ⊢
      omega

/-- A portion is named by its operator. -/
theorem portion_of_mem (held : p ∈ portions branches charge d) : p.operator ∈ weighted branches
    ∧ p.floor = charge * operatorWeight branches p.operator / d
    ∧ p.remainder = charge * operatorWeight branches p.operator % d := by
  obtain ⟨k, hk, rfl⟩ := List.mem_map.mp held
  exact ⟨hk, rfl, rfl⟩

/-- A share is its portion's floor, with one cent more where the portion is served. -/
theorem mem_dealt {undealt : Nat} {v : Share} (held : v ∈ ps.map (dealt ps undealt)) :
    ∃ p ∈ ps, v.operator = p.operator ∧ (v.amount = p.floor + 1 ∧ rank ps p < undealt
      ∨ v.amount = p.floor ∧ ¬ rank ps p < undealt) := by
  obtain ⟨p, hp, rfl⟩ := List.mem_map.mp held
  refine ⟨p, hp, rfl, ?_⟩
  by_cases served : rank ps p < undealt
  · exact .inl ⟨if_pos served, served⟩
  · exact .inr ⟨if_neg served, served⟩

theorem map_operator_dealt (undealt : Nat) : ((portions branches charge d).map
    (dealt (portions branches charge d) undealt)).map Share.operator = weighted branches := by
  rw [List.map_map, ← map_operator_portions (charge := charge) (d := d)]
  rfl

end Sys2Proof.Machine

section
open Sys2Proof Sys2Proof.Machine

/-- Settles O53: the shares of a charge. -/
theorem sharesSumToCharge : Obligations.SharesSumToCharge := by
  intro branches d start charge isD owners
  have alone : charge = 0 ∨ d = 0 → dealShares branches d start charge = [⟨start, charge⟩] := fun nil =>
    if_pos nil
  refine ⟨?_, alone, fun charged distance => ?_⟩
  · by_cases nil : charge = 0 ∨ d = 0
    · rw [alone nil]
      rfl
    · obtain ⟨charged, distance⟩ := not_or.mp nil
      obtain ⟨enough, few⟩ := undealt_le (charge := charge) owners isD distance
      have nodup : ((portions branches charge d).map Portion.operator).Nodup := by
        rw [map_operator_portions]
        exact weighted_pairwise.imp Nat.ne_of_lt
      rw [dealShares_eq _ _ _ _ charged distance, sum_dealt, rank_lt_length_filter _ _ nodup]
      omega
  · rw [dealShares_eq _ _ _ _ charged distance]
    refine ⟨?_, fun k => ?_, fun v held => ?_, fun v held w held' more less => ?_⟩
    · rw [map_operator_dealt]
      exact weighted_pairwise
    · rw [← List.mem_map (f := Share.operator), map_operator_dealt, List.mem_filter, decide_eq_true_eq]
      exact ⟨And.right, fun weight => ⟨operatorWeight_pos owners weight, weight⟩⟩
    · obtain ⟨p, hp, operator, amount⟩ := mem_dealt held
      obtain ⟨-, floor, -⟩ := portion_of_mem hp
      rw [operator, ← floor]
      exact amount.symm.imp And.left And.left
    · obtain ⟨p, hp, operator, amount⟩ := mem_dealt held
      obtain ⟨q, hq, operator', amount'⟩ := mem_dealt held'
      obtain ⟨-, floor, remainder⟩ := portion_of_mem hp
      obtain ⟨-, floor', remainder'⟩ := portion_of_mem hq
      rw [operator, ← floor] at more
      rw [operator', ← floor'] at less
      rw [operator, operator', ← remainder, ← remainder']
      have served := (amount.resolve_right fun h => by omega).2
      have unserved := (amount'.resolve_left fun h => by omega).2
      exact (before_of_rank_lt (Nat.lt_of_lt_of_le served (Nat.not_lt.mp unserved))).imp_right
        fun h => ⟨h.1.symm, h.2⟩

end
end

