-- ==== Sys2Proof/Proofs/FareStages.lean ====
section
/-! SUPPORT. Paths, passes, bands, rounding, capping and the full pricing, with O52. -/

namespace Sys2Proof.Machine

variable {t : Tables} {a b x day : Nat} {v w : StationEntry}

/-! ### Paths (R23 to R27, R33) -/

theorem pathBetween_of_present (start : presentStation t a = some v) (finish : presentStation t b = some w) :
    pathBetween t a b = .ok (buildPath t v w) := by
  simp [pathBetween, start, finish]

/-- A station whose branch is the trunk, or whose branch's junction stands, has the trunk position of R23. -/
theorem trunkPosition_of {p : Nat} (trunk : v.branch = 0 → p = v.chainage)
    (branch : v.branch ≠ 0 → ∀ j e, (branchEntry t v.branch).junction = some j → t.stations[j]? = some e →
      p = e.chainage)
    (stands : v.branch ≠ 0 → ∃ j e, (branchEntry t v.branch).junction = some j ∧ t.stations[j]? = some e) :
    trunkPosition t v = p := by
  unfold trunkPosition
  split
  next is => exact (trunk is).symm
  next is =>
    obtain ⟨j, e, junction, station⟩ := stands is
    rw [branch is j e junction station]
    simp [junctionPosition, junction, station]

theorem buildPath_same (same : v.branch = w.branch) : buildPath t v w
    = [⟨v.branch, min v.chainage w.chainage, max v.chainage w.chainage⟩] := if_pos same

/-- A path over the trunk, with the legs on the two branches in ascending order (R26). -/
theorem buildPath_trunk {p q : Nat} (apart : v.branch ≠ w.branch) (start : trunkPosition t v = p)
    (finish : trunkPosition t w = q) : buildPath t v w = ⟨0, min p q, max p q⟩
      :: (if v.branch < w.branch then branchLeg v ++ branchLeg w else branchLeg w ++ branchLeg v) := by
  have order : v.branch ≤ w.branch ↔ v.branch < w.branch := ⟨fun le => Nat.lt_of_le_of_ne le apart, Nat.le_of_lt⟩
  unfold buildPath
  simp only [apart, if_false, start, finish, order]

theorem dist_eq_some {d : Nat} : dist t a b = some d ↔ ∃ path, pathBetween t a b = .ok path
    ∧ d = (path.map (fun i => i.high - i.low)).sum := by
  unfold dist
  cases pathBetween t a b with
  | ok path =>
    simp only [Except.toOption, Option.map_some, Option.some.injEq, Except.ok.injEq, exists_eq_left']
    exact eq_comm
  | error e => simp [Except.toOption]

theorem onPath_iff : onPath t a x b = true ↔ ∃ m n d, dist t a x = some m ∧ dist t x b = some n
    ∧ dist t a b = some d ∧ m + n = d := by
  unfold onPath
  cases dist t a x <;> cases dist t x b <;> cases dist t a b <;>
    simp [eq_comm (a := (_ : Nat) + _)]

/-! ### Path reckonings (R24, R29 to R32) -/

theorem passValid_iff {q : Pass} : passValid t day q = true ↔ stationPresent t q.fromStation = true
    ∧ stationPresent t q.toStation = true ∧ day ≤ q.lastDay := by
  simp [passValid, and_assoc]

theorem passOutcome_applied {pass : Option Pass} : passOutcome t day pass = .applied
    ↔ ∃ q, pass = some q ∧ passValid t day q = true := by
  cases pass with
  | none => simp [passOutcome]
  | some q => by_cases valid : passValid t day q = true <;> simp [passOutcome, valid]

theorem passOutcome_none {pass : Option Pass} : passOutcome t day pass = .none ↔ pass = none := by
  cases pass with
  | none => simp [passOutcome]
  | some q => by_cases valid : passValid t day q = true <;> simp [passOutcome, valid]

/-- What a pass covers: the path of a valid one, else nothing (R29, R30). -/
theorem passPath_eq {pass : Option Pass} {cover : List Interval}
    (valid : ∀ q, pass = some q → passValid t day q = true → pathBetween t q.fromStation q.toStation = .ok cover)
    (invalid : ∀ q, pass = some q → ¬ passValid t day q = true → cover = [])
    (none : pass = .none → cover = []) : passPath t day pass = cover := by
  cases pass with
  | none => exact (none rfl).symm
  | some q =>
    by_cases is : passValid t day q = true
    · simp [passPath, is, valid q rfl is, Except.toOption]
    · simp [passPath, is, invalid q rfl is]

theorem stationOwner_of (station : t.stations[a]? = some v) : stationOwner t a = (branchEntry t v.branch).owner := by
  simp [stationOwner, List.getD, station]

theorem stations_of_present (present : presentStation t a = some v) : t.stations[a]? = some v := by
  obtain ⟨held, -⟩ := Option.filter_eq_some_iff.mp present
  exact held

theorem coveredLength_of_none {i : Interval} {cover : List Interval} (none : ∀ k ∈ cover, k.branch ≠ i.branch) :
    coveredLength i cover = 0 := by
  have nothing : cover.find? (fun k => k.branch == i.branch) = .none :=
    List.find?_eq_none.mpr fun k hk => by simpa using none k hk
  rw [coveredLength, nothing]

theorem coveredLength_of_first {i k : Interval} {before after : List Interval}
    (others : ∀ q ∈ before, q.branch ≠ i.branch) (same : k.branch = i.branch) :
    coveredLength i (before ++ k :: after) = min i.high k.high - max i.low k.low := by
  rw [coveredLength, find?_split (fun q hq => by simpa using others q hq) (by simp [same])]

/-! ### Bands, day types and factors (R40, R41, R158) -/

theorem topFare_of {before after : List ScaleEntry} {e : ScaleEntry} (scale : t.scale = before ++ e :: after)
    (others : ∀ v ∈ before, v.bound ≠ 65535) (sentinel : e.bound = 65535) : topFare t = e.fare := by
  rw [topFare, scale, find?_split (fun v hv => by simpa [ScaleEntry.isSentinel] using others v hv)
    (by simp [ScaleEntry.isSentinel, sentinel])]
  rfl

theorem scaleFare_of {before after : List ScaleEntry} {e : ScaleEntry} {d : Nat}
    (scale : t.scale = before ++ e :: after) (others : ∀ v ∈ before, v.bound ≠ 65535) (some : 0 < d)
    (lower : ∀ v ∈ before, v.bound < d) (reaches : e.bound = 65535 ∨ d ≤ e.bound) : scaleFare t d = e.fare := by
  rw [scaleFare, if_neg (Nat.ne_of_gt some), scale, find?_split (x := e)
    (fun v hv => by simp [ScaleEntry.isSentinel, others v hv, lower v hv])
    (by simpa [ScaleEntry.isSentinel] using reaches)]
  rfl

theorem dayType_of_exception {before after : List ExceptionEntry} {e : ExceptionEntry}
    (exceptions : t.exceptions = before ++ e :: after) (used : e.used = true) (same : e.day = day)
    (others : ∀ v ∈ before, ¬ (v.used = true ∧ v.day = day)) : dayType t day = e.dayType := by
  rw [dayType, exceptions, find?_split (fun v hv => by simpa using others v hv) (by simp [used, same])]

theorem dayType_of_week {k : Nat} (none : ∀ e ∈ t.exceptions, ¬ (e.used = true ∧ e.day = day))
    (week : t.week[day % 7]? = some k) : dayType t day = k := by
  have nothing : t.exceptions.find? (fun e => e.used && e.day == day) = .none :=
    List.find?_eq_none.mpr fun e he => by simpa using none e he
  rw [dayType, nothing]
  simp [dayOfWeek, List.getD, week]

theorem bandFactor_of {before after : List BandEntry} {e : BandEntry} {minute : Nat} (used : e.used = true)
    (reached : e.minute ≤ minute) (later : ∀ v ∈ after, v.used = false ∨ minute < v.minute) :
    bandFactor (before ++ e :: after) minute = e.factor := by
  have nothing : after.filter (fun v => v.used && v.minute ≤ minute) = [] := by
    refine List.filter_eq_nil_iff.mpr fun v hv => ?_
    rcases later v hv with unused | beyond
    · simp [unused]
    · simp [beyond]
  simp [bandFactor, List.filter_append, used, reached, nothing]

/-! ### Stages 4 to 7 (R43, R44, R52 to R54) -/

/-- Stage 4: the nearest multiple of the step, an exact half upward (R43). -/
theorem roundToStep_bounds {step product : Nat} (positive : 1 ≤ step) : ∃ k, roundToStep step product = step * k
    ∧ step * k * 1000000 ≤ product + step * 500000
    ∧ product + step * 500000 < step * (k + 1) * 1000000 := by
  have regroup (k : Nat) : step * k * 1000000 = k * (step * 1000000) := by
    rw [Nat.mul_comm step, Nat.mul_assoc]
  refine ⟨(product + step * 500000) / (step * 1000000), rfl, ?_, ?_⟩ <;> rw [regroup]
  · exact Nat.div_mul_le_self _ _
  · exact (Nat.div_lt_iff_lt_mul (by omega)).mp (Nat.lt_succ_self _)

theorem factoredFare_eq {p : Policy} (policy : t.policy = some p) (band time d : Nat) (c : ClassEntry) :
    factoredFare t band time c d = min (if 0 < d ∧ 0 < c.factor ∧ c.minimumApplies = true then
        max (roundToStep p.fareStep (band * time * c.factor)) p.minimumFare
      else roundToStep p.fareStep (band * time * c.factor)) 65535 := by
  rw [factoredFare, policyOf_of policy]
  rfl

/-! ### The full pricing (R37, R49 to R51) -/

theorem appliedContinuation_eq {part applied : Option Continuation} {station exit : Nat}
    (offered : ∀ c, part = some c → applied = (if onPath t c.originStation station exit = true then part else none))
    (absent : part = none → applied = none) : appliedContinuation t station exit part = applied := by
  cases part with
  | none => exact (absent rfl).symm
  | some c => exact (offered c rfl).symm

/-- Where a full pricing starts, and what has been paid by then (R49, R50). -/
theorem appliedStart {applied : Option Continuation} {origin : StationTime} {station time already : Nat}
    (origins : ∀ c, applied = some c → origin = ⟨c.originStation, c.originTime⟩ ∧ already = c.charged)
    (own : applied = none → origin = ⟨station, time⟩ ∧ already = 0) :
    (applied.map Continuation.originStation).getD station = origin.station
    ∧ (applied.map Continuation.originTime).getD time = origin.time
    ∧ (applied.map Continuation.charged).getD 0 = already := by
  cases applied with
  | none =>
    obtain ⟨rfl, rfl⟩ := own rfl
    exact ⟨rfl, rfl, rfl⟩
  | some c =>
    obtain ⟨rfl, rfl⟩ := origins c rfl
    exact ⟨rfl, rfl, rfl⟩

end Sys2Proof.Machine

section
open Sys2Proof Sys2Proof.Machine

/-- Settles O52: the Path Unit and the stages of a fare. -/
theorem fareRoundedAndCapped : Obligations.FareRoundedAndCapped := by
  refine ⟨fun t a b leg at_ isLeg isAt => ⟨fun v start w finish => ⟨fun same => ?_, fun apart stands => ?_⟩,
      fun start finish => ?_, fun start finish => ?_, fun start finish => ?_, fun d => dist_eq_some,
      fun x => onPath_iff, fun pass day valid cover reckon isValid covers uncovered none isReckon =>
        ⟨fun path v found start => ?_, fun e absent => ?_⟩⟩,
    fun i cover => ⟨coveredLength_of_none, fun before k after parts others same => ?_⟩,
    fun t d before after e scale others => ⟨topFare_of scale others, if_pos rfl, scaleFare_of scale others⟩,
    fun t day => ⟨fun none k => dayType_of_week none, fun before e after => dayType_of_exception⟩,
    fun t k i inside => ?_, fun t k => ?_, fun before after e minute => bandFactor_of,
    fun t rollover sec => rfl, fun t station => ⟨fun v => stationOwner_of, rfl, fun c => ?_⟩,
    fun step product => roundToStep_bounds, fun t p band time d f c policy isF => ⟨?_, ?_⟩,
    fun cap fare spent => ⟨rfl, rfl, fun positive charge isCharge => ?_⟩,
    fun g fareClass station time exit pass part applied account origin already offered absent origins own =>
      ⟨fun path paid reckoned isPaid => ?_, fun e unreckoned => ?_⟩,
    fun g p fareClass time part policy => ?_⟩
  · rw [pathBetween_of_present start finish, buildPath_same same]
  · have position (u : StationEntry) (held : u ∈ [v, w]) : trunkPosition t u = at_ u :=
      trunkPosition_of (isAt u).1 (isAt u).2 (stands u held)
    have legs (u : StationEntry) : branchLeg u = leg u := (isLeg u).symm
    rw [pathBetween_of_present start finish, buildPath_trunk apart (position v (by simp))
      (position w (by simp)), legs, legs]
  · obtain ⟨w, isW⟩ := Option.isSome_iff_exists.mp finish
    simp [pathBetween, start, isW]
  · obtain ⟨v, isV⟩ := Option.isSome_iff_exists.mp start
    simp [pathBetween, finish, isV]
  · simp [pathBetween, start, finish]
  · have validity (q : Pass) : valid q ↔ passValid t day q = true := (isValid q).trans passValid_iff.symm
    simp only [validity] at covers uncovered ⊢
    have covered := passPath_eq covers uncovered none
    have reckoned : branchReckoning t cover = reckon := funext fun i => (isReckon i).symm
    refine ⟨passOutcome t day pass, ?_, passOutcome_applied, passOutcome_none⟩
    rw [reckonPath, found, Except.map, stationOwner_of (stations_of_present start), covered, reckoned]
    simp only [List.map_map]
    rfl
  · rw [reckonPath, absent]
    rfl
  · rw [parts]
    exact coveredLength_of_first others same
  · rw [bandList, List.getElem?_take_of_lt inside, List.getElem?_drop]
  · exact (List.length_take_le ..)
  · unfold incompleteOwner
    dsimp only
    split <;> rfl
  · intro some factor minimum
    rw [factoredFare_eq policy, if_pos ⟨some, factor, minimum⟩, isF]
  · intro exempt
    rw [factoredFare_eq policy, if_neg (by rintro ⟨some, factor, minimum⟩; simp [minimum] at exempt; omega), isF]
  · rw [isCharge, capCharge, if_neg (Nat.ne_of_gt positive)]
  · obtain ⟨start, began, charged⟩ := appliedStart origins own
    unfold fullPricing
    rw [appliedContinuation_eq offered absent]
    simp only [start, began, charged, reckoned, Except.toOption, Option.map_some]
    rw [isPaid, ← beq_decides]
    rfl
  · obtain ⟨start, began, -⟩ := appliedStart origins own
    unfold fullPricing
    rw [appliedContinuation_eq offered absent]
    simp only [start, began, unreckoned, Except.toOption, Option.map_none]
  · rw [incompleteCharge, policyOf_of policy]
    rfl

end
end

