-- ==== Sys2Proof/Proofs/AcceptedFrames.lean ====
section
/-! SUPPORT. Fields, frames and their CRC on the wire, with O6. -/

namespace Sys2Proof.Machine

variable {l r bytes : List Byte} {n m o v : Nat} {b : Byte}

/-! ### Fields (R170) -/

theorem beNat_cons (b : Byte) (l : List Byte) : beNat (b :: l) = b.toNat * 256 ^ l.length + beNat l := by
  rw [beNat, List.foldl_cons, foldl_beNat]
  simp [beNat]

@[simp] theorem beBytes_length (n v : Nat) : (beBytes n v).length = n := by
  induction n with
  | zero => rfl
  | succ n ih => simp [beBytes, ih]

theorem beNat_beBytes_mod (n v : Nat) : beNat (beBytes n v) = v % 256 ^ n := by
  induction n with
  | zero => simp [beBytes, beNat, Nat.mod_one]
  | succ n ih =>
    have split : v % (256 ^ n * 256) = v % 256 ^ n + 256 ^ n * (v / 256 ^ n % 256) := Nat.mod_mul
    rw [beBytes, beNat_cons, ih, beBytes_length, BitVec.toNat_ofNat, Nat.pow_succ 256, split, Nat.mul_comm,
      Nat.add_comm]

/-- A field holds its value. -/
theorem beNat_beBytes (small : v < 256 ^ n) : beNat (beBytes n v) = v := by
  rw [beNat_beBytes_mod, Nat.mod_eq_of_lt small]

theorem beBytes_mod (n v : Nat) : beBytes n (v % 256 ^ n) = beBytes n v := by
  induction n generalizing v with
  | zero => rfl
  | succ n ih =>
    have low : v % 256 ^ (n + 1) % 256 ^ n = v % 256 ^ n := Nat.mod_mod_of_dvd v (Nat.pow_dvd_pow 256 (Nat.le_succ n))
    have high : v % 256 ^ (n + 1) / 256 ^ n = v / 256 ^ n % 256 := by
      rw [Nat.pow_succ, Nat.mod_mul_right_div_self]
    rw [beBytes, beBytes, high, ← ih (v % 256 ^ (n + 1)), low, ih]
    congr 1
    exact BitVec.eq_of_toNat_eq (by simp)

/-- Bytes are those of the value they hold. -/
theorem beBytes_beNat (l : List Byte) : beBytes l.length (beNat l) = l := by
  induction l with
  | nil => rfl
  | cons b l ih =>
    have small := beNat_lt l
    have high : (b.toNat * 256 ^ l.length + beNat l) / 256 ^ l.length = b.toNat := by
      rw [Nat.add_comm, Nat.add_mul_div_right _ _ (Nat.pow_pos (by decide)), Nat.div_eq_of_lt small, Nat.zero_add]
    have low : beBytes l.length (b.toNat * 256 ^ l.length + beNat l) = l := by
      rw [← beBytes_mod, Nat.add_comm, Nat.add_mul_mod_self_right, Nat.mod_eq_of_lt small, ih]
    rw [List.length_cons, beBytes, beNat_cons, high, low, BitVec.ofNat_toNat, BitVec.setWidth_eq]

/-! ### The CRC (R170) -/

/-- One bit of a byte taken into the CRC (R170). -/
def crcBit (b : Byte) (c : BitVec 16) (i : Nat) : BitVec 16 :=
  if c.msb = b.getMsbD i then c <<< 1 else (c <<< 1) ^^^ 0x1021#16

/-- A shift of the CRC with the rest of a byte laid over it takes the byte's next bit. -/
theorem crcShift_laid (b : Byte) (c : BitVec 16) (i : Nat) :
    crcShift (c ^^^ (b.setWidth 16 <<< (8 + i))) = crcBit b c i ^^^ (b.setWidth 16 <<< (8 + (i + 1))) := by
  have top : (c ^^^ (b.setWidth 16 <<< (8 + i))).msb = (c.msb ^^ b.getMsbD i) := by
    rw [BitVec.msb_xor, BitVec.msb_shiftLeft, BitVec.getMsbD_setWidth]
    congr 1
    simp
  have moved : (c ^^^ (b.setWidth 16 <<< (8 + i))) <<< 1 = (c <<< 1) ^^^ (b.setWidth 16 <<< (8 + (i + 1))) := by
    rw [BitVec.shiftLeft_xor_distrib, ← BitVec.shiftLeft_add, Nat.add_assoc]
  unfold crcShift crcBit
  rw [top, moved]
  have turn (x y z : BitVec 16) : x ^^^ y ^^^ z = x ^^^ z ^^^ y := by
    rw [BitVec.xor_assoc, BitVec.xor_comm y, ← BitVec.xor_assoc]
  cases c.msb <;> cases b.getMsbD i <;> simp [turn _ _ 0x1021#16]

/-- The CRC takes the bits of a byte one after another, the most significant first (R170). -/
theorem crcByte_eq (c : BitVec 16) (b : Byte) : crcByte c b = (List.range 8).foldl (crcBit b) c := by
  have out : b.setWidth 16 <<< 16 = 0#16 := by
    rw [BitVec.shiftLeft_eq_zero (Nat.le_refl 16)]
  unfold crcByte
  rw [show (b.setWidth 16 <<< 8) = b.setWidth 16 <<< (8 + 0) from rfl]
  simp only [crcShift_laid]
  rw [show 8 + (7 + 1) = 16 from rfl, out, BitVec.xor_zero]
  rfl

/-! ### Frames (R170) -/

theorem buildFrame_eq (d s k q : Byte) (body : List Byte) : buildFrame d s k q body
    = (d :: s :: k :: q :: (beBytes 2 body.length ++ body))
      ++ beBytes 2 (crc (d :: s :: k :: q :: (beBytes 2 body.length ++ body))).toNat := by
  simp [buildFrame]

/-- The length a frame's header declares (R170). -/
theorem field_length (d s k q : Byte) {n : Nat} (small : n < 65536) (rest : List Byte) :
    field 4 2 (d :: s :: k :: q :: (beBytes 2 n ++ rest)) = n := by
  have read : slice 4 2 (d :: s :: k :: q :: (beBytes 2 n ++ rest)) = beBytes 2 n := by
    simp [slice, beBytes_length]
  rw [field, read, beNat_beBytes small]

/-- What the checks of R170 ask of the bytes after a declared length. -/
theorem checkFrame_eq (d s k q : Byte) {n : Nat} (small : n < 65536) (rest : List Byte) :
    checkFrame (d :: s :: k :: q :: (beBytes 2 n ++ rest))
      = if n ≤ 1024 ∧ rest.length = n + 2 ∧ beNat (rest.drop n)
          = (crc (d :: s :: k :: q :: (beBytes 2 n ++ rest.take n))).toNat
        then some ⟨d, s, k, q, rest.take n⟩ else none := by
  have head : (d :: s :: k :: q :: (beBytes 2 n ++ rest)) = (d :: s :: k :: q :: beBytes 2 n) ++ rest := rfl
  have six : (d :: s :: k :: q :: beBytes 2 n).length = 6 := by simp
  have after : (d :: s :: k :: q :: (beBytes 2 n ++ rest)).drop (6 + n) = rest.drop n := by
    rw [head, ← six, List.drop_length_add_append]
  have before : (d :: s :: k :: q :: (beBytes 2 n ++ rest)).take (6 + n)
      = d :: s :: k :: q :: (beBytes 2 n ++ rest.take n) := by
    rw [head, ← six, List.take_length_add_append]
    rfl
  have body : slice 6 n (d :: s :: k :: q :: (beBytes 2 n ++ rest)) = rest.take n := by
    rw [slice, head, ← six, List.drop_left]
  have long : (d :: s :: k :: q :: (beBytes 2 n ++ rest)).length = 6 + rest.length := by
    simp [beBytes_length]
    omega
  unfold checkFrame
  simp only [field_length d s k q small, after, before, body, long]
  refine ite_congr (propext ?_) (fun _ => rfl) fun _ => rfl
  constructor
  · rintro ⟨-, short, exact, sum⟩
    exact ⟨short, by omega, sum⟩
  · rintro ⟨short, exact, sum⟩
    exact ⟨by omega, short, by omega, sum⟩

/-- Six bytes or more are a header's four, a length and the rest (R170). -/
theorem header_of_length (long : 6 ≤ bytes.length) : ∃ d s k q n rest, n < 65536
    ∧ bytes = d :: s :: k :: q :: (beBytes 2 n ++ rest) := by
  match bytes, long with
  | d :: s :: k :: q :: a :: b :: rest, _ =>
    have two := beBytes_beNat [a, b]
    refine ⟨d, s, k, q, beNat [a, b], rest, by simpa using beNat_lt [a, b], ?_⟩
    rw [show [a, b].length = 2 from rfl] at two
    rw [two]
    rfl

theorem checkFrame_short (short : bytes.length < 6) : checkFrame bytes = none := by
  unfold checkFrame
  exact if_neg (by omega)

/-- A string of bytes passes the checks exactly when it is built from its own fields (R170). -/
theorem checkFrame_eq_some (bytes : List Byte) (f : ReceivedFrame) : checkFrame bytes = some f
    ↔ f.body.length ≤ 1024 ∧ bytes = buildFrame f.destination f.source f.kind f.sequence f.body := by
  constructor
  · intro passes
    by_cases long : 6 ≤ bytes.length
    · obtain ⟨d, s, k, q, n, rest, small, rfl⟩ := header_of_length long
      rw [checkFrame_eq d s k q small] at passes
      obtain ⟨⟨short, exact, sum⟩, is⟩ := Option.ite_none_right_eq_some.mp passes
      have whole : (rest.take n).length = n := List.length_take_of_le (by omega)
      have tail : rest.drop n = beBytes 2 (crc (d :: s :: k :: q :: (beBytes 2 n ++ rest.take n))).toNat := by
        rw [← sum]
        have two : (rest.drop n).length = 2 := by
          rw [List.length_drop]
          omega
        have own := beBytes_beNat (rest.drop n)
        rw [two] at own
        exact own.symm
      obtain rfl := Option.some.inj is
      refine ⟨Nat.le_trans (Nat.le_of_eq whole) short, ?_⟩
      rw [buildFrame_eq, whole, ← tail]
      simp
    · rw [checkFrame_short (by omega)] at passes
      exact absurd passes (by simp)
  · rintro ⟨short, rfl⟩
    obtain ⟨d, s, k, q, body⟩ := f
    have sum (c : BitVec 16) : beNat (beBytes 2 c.toNat) = c.toNat := beNat_beBytes c.isLt
    rw [buildFrame_eq]
    simp only [List.cons_append, List.append_assoc]
    rw [checkFrame_eq d s k q (Nat.lt_of_le_of_lt short (by decide)), List.drop_left, List.take_left, sum]
    exact if_pos ⟨short, by simp, rfl⟩

end Sys2Proof.Machine

section
open Sys2Proof Sys2Proof.Machine

/-- Settles O6: the frames that pass the checks, and their CRC. -/
theorem acceptedFramesAreBuiltFrames : Obligations.AcceptedFramesAreBuiltFrames := by
  refine ⟨checkFrame_eq_some, fun d s k q body covered isCovered => ?_, rfl, fun bytes b => ?_⟩
  · rw [buildFrame_eq, isCovered]
  · rw [crc, List.foldl_append, List.foldl_cons, List.foldl_nil, crcByte_eq]
    rfl

end
end

