-- ==== Sys2Proof/Proofs/BodiesRead.lean ====
section
/-! SUPPORT. Tap bodies, table entries and request bodies read as they are laid out, with O7. -/

namespace Sys2Proof.Machine

variable {l bytes params : List Byte} {n m o v size : Nat} {b code : Byte} {x : SlotId} {q : Request}

/-! ### Fields at their places (R173) -/

/-- The first field holds its value. -/
@[simp] theorem field_first (small : v < 256 ^ n) (l : List Byte) : field 0 n (beBytes n v ++ l) = v := by
  have read : slice 0 n (beBytes n v ++ l) = beBytes n v := by simp [slice]
  rw [field, read, beNat_beBytes small]

@[simp] theorem field_only (small : v < 256 ^ n) : field 0 n (beBytes n v) = v := by
  have read : slice 0 n (beBytes n v) = beBytes n v := by
    simp [slice, List.take_of_length_le]
  rw [field, read, beNat_beBytes small]

/-- A field after another is read in what follows it. -/
@[simp] theorem field_skip (after : n ≤ o) (m v : Nat) (l : List Byte) :
    field o m (beBytes n v ++ l) = field (o - n) m l := by
  simp [field, slice, List.drop_append, List.drop_eq_nil_of_le, after]

@[simp] theorem field_skip_cons (after : 1 ≤ o) (m : Nat) (b : Byte) (l : List Byte) :
    field o m (b :: l) = field (o - 1) m l := by
  obtain ⟨k, rfl⟩ := Nat.exists_eq_add_of_le' after
  rfl

theorem field_byte (b : Byte) (l : List Byte) : field 0 1 (b :: l) = b.toNat := by
  simp [field, slice, beNat]

theorem yesNo_byte (b : Byte) (l : List Byte) : yesNo 0 (b :: l) = (b != 0#8) := by
  rw [yesNo, field_byte, Bool.eq_iff_iff, bne_iff_ne, bne_iff_ne]
  exact not_congr ⟨fun h => BitVec.eq_of_toNat_eq h, fun h => by rw [h]; rfl⟩

@[simp] theorem yesNo_yesNoByte (v : Bool) (l : List Byte) : yesNo 0 (yesNoByte v :: l) = v := by
  rw [yesNo_byte]
  cases v
  · rfl
  · exact bne_iff_ne.mpr yesByte_ne_zero

@[simp] theorem yesNo_skip_cons (after : 1 ≤ o) (b : Byte) (l : List Byte) : yesNo o (b :: l) = yesNo (o - 1) l := by
  rw [yesNo, field_skip_cons after, yesNo]

@[simp] theorem yesNo_skip (after : n ≤ o) (v : Nat) (l : List Byte) : yesNo o (beBytes n v ++ l) = yesNo (o - n) l := by
  rw [yesNo, field_skip after, yesNo]

/-- A token is read back (R173). -/
@[simp] theorem field_token (token : Token) (l : List Byte) : field 0 8 (beBytes 8 token.toNat ++ l) = token.toNat :=
  field_first token.isLt l

@[simp] theorem field_token_only (token : Token) : field 0 8 (beBytes 8 token.toNat) = token.toNat :=
  field_only token.isLt

/-- From a place on stand a field's bytes and what follows them. -/
theorem drop_field (inside : o + n ≤ l.length) : l.drop o = beBytes n (field o n l) ++ l.drop (o + n) := by
  have whole : (slice o n l).length = n := by
    rw [slice, List.length_take_of_le (by rw [List.length_drop]; omega)]
  have own := beBytes_beNat (slice o n l)
  rw [whole] at own
  rw [field, own, slice, ← List.drop_drop, List.take_append_drop]

/-- The first field of bytes that hold it, and what follows. -/
theorem eq_field_append (inside : n ≤ l.length) : l = beBytes n (field 0 n l) ++ l.drop n := by
  have := drop_field (o := 0) (n := n) (l := l) (by omega)
  rwa [List.drop_zero, Nat.zero_add] at this

/-! ### The parts of a request (R174) -/

@[simp] theorem parseSlot_byte (x : SlotId) (l : List Byte) : parseSlot 0 (x.byte :: l) = some x := by
  unfold parseSlot
  rw [field_byte]
  cases x <;> rfl

/-- The slot a request names is its first byte (R174). -/
theorem parseSlot_eq_some (named : parseSlot 0 l = some x) (some : 1 ≤ l.length) : l = x.byte :: l.drop 1 := by
  match l, some with
  | b :: rest, _ =>
    unfold parseSlot at named
    rw [field_byte] at named
    have read : b = x.byte := by
      split at named
      · obtain rfl := Option.some.inj named
        exact BitVec.eq_of_toNat_eq ‹_›
      · obtain rfl := Option.some.inj named
        exact BitVec.eq_of_toNat_eq ‹_›
      · exact absurd named (by simp)
    rw [read]
    rfl

theorem sized_eq_some {r : Request} : sized n l r = some q ↔ l.length = n ∧ r = q := by
  simp [sized]

theorem sizedSlot_eq_some {r : SlotId → Request} (positive : 1 ≤ n) : sizedSlot n l r = some q
    ↔ ∃ x rest, l = x.byte :: rest ∧ rest.length = n - 1 ∧ r x = q := by
  unfold sizedSlot
  constructor
  · intro is
    obtain ⟨long, named⟩ := Option.ite_none_right_eq_some.mp is
    obtain ⟨x, first, rfl⟩ := Option.map_eq_some_iff.mp named
    exact ⟨x, l.drop 1, parseSlot_eq_some first (by omega), by rw [List.length_drop, long], rfl⟩
  · rintro ⟨x, rest, rfl, long, rfl⟩
    rw [if_pos (by simp; omega), parseSlot_byte]
    rfl

@[simp] theorem parseToken_bytes (token : Token) (l : List Byte) :
    parseToken 0 (beBytes 8 token.toNat ++ l) = token := by
  simp [parseToken]

/-- A token stands in its eight bytes (R173). -/
theorem eq_token_append (inside : 8 ≤ l.length) : l = beBytes 8 (parseToken 0 l).toNat ++ l.drop 8 := by
  have read : (parseToken 0 l).toNat = field 0 8 l := by
    rw [parseToken, BitVec.toNat_ofNat, Nat.mod_eq_of_lt ((by simpa using field_lt 0 8 l))]
  rw [read]
  exact eq_field_append inside

theorem parseToken_eq {token : Token} : l.length = 8 ∧ parseToken 0 l = token ↔ l = beBytes 8 token.toNat := by
  constructor
  · rintro ⟨long, rfl⟩
    have := eq_token_append (l := l) (Nat.le_of_eq long.symm)
    rwa [List.drop_of_length_le (Nat.le_of_eq long), List.append_nil] at this
  · rintro rfl
    exact ⟨beBytes_length 8 _, by simp [parseToken]⟩

/-- Where an optional field is read, one stands (R173). -/
theorem optional_of_drop (o : Nat) (inside : o + 1 + size ≤ l.length) : ∃ s, l.drop o = s ++ l.drop (o + 1 + size)
    ∧ OptionalField size (parseOptional o (o + 1) size l) s := by
  have flag := field_lt o 1 l
  refine ⟨BitVec.ofNat 8 (field o 1 l) :: beBytes size (field (o + 1) size l), ?_, _, _,
    field_lt (o + 1) size l, rfl, ?_⟩
  · rw [drop_field (n := 1) (by omega), drop_field (o := o + 1) (n := size) inside, beBytes_one]
    rfl
  · have absent : BitVec.ofNat 8 (field o 1 l) = 0#8 ↔ field o 1 l = 0 := by
      refine ⟨fun h => ?_, fun h => by rw [h]⟩
      have := congrArg BitVec.toNat h
      simp only [BitVec.toNat_ofNat] at this
      omega
    by_cases none : field o 1 l = 0
    · simp [parseOptional, yesNo, none]
    · simp [parseOptional, yesNo, none, absent]

/-- The ten values of the run settings stand in their forty bytes (R173). -/
theorem settings_of_length (long : l.length = 40) : ∃ values : List Nat, (∀ n ∈ values, n < 4294967296)
    ∧ values = [(parseSettings l).highMark, (parseSettings l).lowMark, (parseSettings l).answerLimit,
      (parseSettings l).skewLimit, (parseSettings l).deferralAge, (parseSettings l).deferredGrace,
      (parseSettings l).holdover, (parseSettings l).stepThreshold, (parseSettings l).measurementSpan,
      (parseSettings l).rolloverMinute]
    ∧ l = values.flatMap (beBytes 4) := by
  refine ⟨_, ?_, rfl, ?_⟩
  · have small (o : Nat) : field o 4 l < 4294967296 := by simpa using field_lt o 4 l
    simp [parseSettings, small]
  · have next (o : Nat) (h : o + 4 ≤ 40) : l.drop o = beBytes 4 (field o 4 l) ++ l.drop (o + 4) :=
      drop_field (by omega)
    calc l = l.drop 0 := rfl
      _ = _ := by
        rw [next 0 (by decide), next 4 (by decide), next 8 (by decide), next 12 (by decide),
          next 16 (by decide), next 20 (by decide), next 24 (by decide), next 28 (by decide),
          next 32 (by decide), next 36 (by decide), List.drop_of_length_le (Nat.le_of_eq long)]
        simp [parseSettings]

/-! ### The requests laid out (R174) -/

/-- A request laid out is read as itself. -/
theorem parseParams_of_laidOut (laid : RequestLaidOut code params q) : parseParams code.toNat params = some q := by
  cases q with
  | malformed => exact laid.elim
  | identify | start | halt | restart | denyClear =>
    obtain ⟨rfl, rfl⟩ := laid
    rfl
  | setRunSettings v =>
    obtain ⟨rfl, values, small, rfl, rfl⟩ := laid
    simp only [List.forall_mem_cons] at small
    simp [parseParams, sized, parseSettings, small]
  | timeMark sec ms =>
    obtain ⟨rfl, small, short, rfl⟩ := laid
    simp [parseParams, sized, small, short]
  | counters clear =>
    obtain ⟨rfl, b, rfl, rfl⟩ := laid
    simp [parseParams, sized, yesNo_byte, bne, beq_decides]
  | tableWrite x table first n entries =>
    obtain ⟨rfl, h1, h2, h3, rfl, h4⟩ := laid
    have sizes : tableWriteLength (x.byte :: (beBytes 1 table ++ beBytes 1 first ++ beBytes 1 n ++ entries))
        = true := by
      cases size : entrySize table with
      | none =>
        simp [tableWriteLength, h1, size]
        omega
      | some k =>
        simp [tableWriteLength, h1, h3, size, h4 k size]
        omega
    have rest : (x.byte :: (beBytes 1 table ++ beBytes 1 first ++ beBytes 1 n ++ entries)).drop 4 = entries := by
      simp [List.drop_append, List.drop_eq_nil_of_le]
    have long : 4 ≤ (x.byte :: (beBytes 1 table ++ beBytes 1 first ++ beBytes 1 n ++ entries)).length := by
      simp
      omega
    change (if (decide (4 ≤ List.length _) && tableWriteLength _) = true then _ else _) = _
    rw [if_pos (by rw [sizes, Bool.and_true, decide_eq_true_eq]; exact long), rest, parseSlot_byte]
    simp [h1, h2, h3]
  | tableRead x table first n =>
    obtain ⟨rfl, h1, h2, h3, rfl⟩ := laid
    simp [parseParams, sizedSlot, h1, h2, h3]
  | copyActive x | discard x | cancel x =>
    obtain ⟨rfl, rfl⟩ := laid
    simp [parseParams, sizedSlot]
  | activate x effective =>
    obtain ⟨rfl, bytes, rfl, present, n, small, rfl, rfl⟩ := laid
    simp only [Nat.reducePow] at small
    by_cases absent : present = 0#8 <;> simp [parseParams, sizedSlot, parseOptional, yesNo_byte, small, absent]
  | denyAdd token | denyRemove token | denyCheck token | journeyQuery token =>
    obtain ⟨rfl, rfl⟩ := laid
    simp [parseParams, sized, parseToken]
  | journeyClose token station time =>
    obtain ⟨rfl, _, _, rfl, ⟨here, n, small, rfl, rfl⟩, there, m, short, rfl, rfl⟩ := laid
    simp only [Nat.reducePow] at small short
    by_cases absent : here = 0#8 <;> by_cases untimed : there = 0#8 <;>
      simp [parseParams, sized, parseOptional, yesNo_byte, small, short, absent, untimed]
  | accountQuery token day =>
    obtain ⟨rfl, _, rfl, present, n, small, rfl, rfl⟩ := laid
    simp only [Nat.reducePow] at small
    by_cases absent : present = 0#8 <;> simp [parseParams, sized, parseOptional, yesNo_byte, small, absent]

theorem field_byte_lt (o : Nat) (l : List Byte) : field o 1 l < 256 := by simpa using field_lt o 1 l

/-- Three bytes and what follows them. -/
theorem drop_three (inside : o + 3 ≤ l.length) : l.drop o = beBytes 1 (field o 1 l) ++ beBytes 1 (field (o + 1) 1 l)
    ++ beBytes 1 (field (o + 2) 1 l) ++ l.drop (o + 3) := by
  rw [drop_field (o := o) (n := 1) (by omega), drop_field (o := o + 1) (n := 1) (by omega),
    drop_field (o := o + 1 + 1) (n := 1) (by omega)]
  simp [Nat.add_assoc]

/-- What is read as a request is laid out as it (R173, R174). -/
theorem laidOut_of_parseParams (read : parseParams code.toNat params = some q) : RequestLaidOut code params q := by
  have is (c : Byte) (same : code.toNat = c.toNat) : code = c := BitVec.eq_of_toNat_eq same
  unfold parseParams at read
  split at read
  case h_1 same | h_2 same | h_3 same | h_4 same | h_16 same =>
    obtain ⟨empty, rfl⟩ := sized_eq_some.mp read
    exact ⟨is _ same, List.length_eq_zero_iff.mp empty⟩
  case h_5 same =>
    obtain ⟨long, rfl⟩ := sized_eq_some.mp read
    exact ⟨is _ same, settings_of_length long⟩
  case h_6 same =>
    obtain ⟨long, rfl⟩ := sized_eq_some.mp read
    refine ⟨is _ same, by simpa using field_lt 0 4 params, by simpa using field_lt 4 2 params, ?_⟩
    have tail := drop_field (o := 4) (n := 2) (l := params) (by omega)
    rw [List.drop_of_length_le (Nat.le_of_eq long), List.append_nil] at tail
    rw [← tail]
    exact eq_field_append (by omega)
  case h_7 same =>
    obtain ⟨long, rfl⟩ := sized_eq_some.mp read
    obtain ⟨b, rfl⟩ := List.length_eq_one_iff.mp long
    exact ⟨is _ same, b, rfl, by simp [yesNo_byte, bne, beq_decides]⟩
  case h_8 same =>
    obtain ⟨fits, named⟩ := Option.ite_none_right_eq_some.mp read
    obtain ⟨x, first, rfl⟩ := Option.map_eq_some_iff.mp named
    obtain ⟨long, whole⟩ := (Bool.and_eq_true ..).mp fits
    have long : 4 ≤ params.length := of_decide_eq_true long
    refine ⟨is _ same, field_byte_lt .., field_byte_lt .., field_byte_lt .., ?_, fun size entry => ?_⟩
    · rw [← drop_three (o := 1) (by omega)]
      exact parseSlot_eq_some first (by omega)
    · rw [tableWriteLength, entry] at whole
      have := beq_iff_eq.mp whole
      rw [List.length_drop]
      omega
  case h_9 same =>
    obtain ⟨x, rest, rfl, long, rfl⟩ := (sizedSlot_eq_some (by decide)).mp read
    refine ⟨is _ same, field_byte_lt .., field_byte_lt .., field_byte_lt .., ?_⟩
    have parts := drop_three (o := 1) (l := x.byte :: rest) (by simp [long])
    rw [List.drop_of_length_le (i := 1 + 3) (by simp [long]), List.append_nil] at parts
    exact congrArg (x.byte :: ·) parts
  case h_10 same | h_11 same | h_13 same =>
    obtain ⟨x, rest, rfl, empty, rfl⟩ := (sizedSlot_eq_some (by decide)).mp read
    obtain rfl := List.length_eq_zero_iff.mp empty
    exact ⟨is _ same, rfl⟩
  case h_12 same =>
    obtain ⟨x, rest, rfl, long, rfl⟩ := (sizedSlot_eq_some (by decide)).mp read
    obtain ⟨s, first, here⟩ := optional_of_drop (l := x.byte :: rest) (size := 4) 1
      (by simp [long])
    rw [List.drop_of_length_le (i := 1 + 1 + 4) (by simp [long]), List.append_nil] at first
    exact ⟨is _ same, s, congrArg (x.byte :: ·) first, here⟩
  case h_14 same | h_15 same | h_17 same | h_18 same =>
    obtain ⟨long, rfl⟩ := sized_eq_some.mp read
    exact ⟨is _ same, parseToken_eq.mp ⟨long, rfl⟩⟩
  case h_19 same =>
    obtain ⟨long, rfl⟩ := sized_eq_some.mp read
    obtain ⟨s, first, here⟩ := optional_of_drop (l := params) (size := 1) 8 (by omega)
    obtain ⟨t, second, there⟩ := optional_of_drop (l := params) (size := 4) 10 (by omega)
    rw [List.drop_of_length_le (Nat.le_of_eq long), List.append_nil] at second
    refine ⟨is _ same, s, t, ?_, here, there⟩
    rw [List.append_assoc, ← second, ← first]
    exact eq_token_append (by omega)
  case h_20 same =>
    obtain ⟨long, rfl⟩ := sized_eq_some.mp read
    obtain ⟨s, first, here⟩ := optional_of_drop (l := params) (size := 2) 8 (by omega)
    rw [List.drop_of_length_le (Nat.le_of_eq long), List.append_nil] at first
    refine ⟨is _ same, s, ?_, here⟩
    rw [← first]
    exact eq_token_append (by omega)
  case h_21 => exact absurd read (by simp)

/-- A Request frame with a number and a code is read by them (R174). -/
theorem request_read {f : ReceivedFrame} {number : Nat} (isRequest : f.kind = 0x21#8) (small : number < 65536)
    (body : f.body = beBytes 2 number ++ code :: params) : requestNumber f = number
    ∧ requestCode f = code.toNat ∧ parseRequest f = (parseParams code.toNat params).getD .malformed := by
  have long : f.kind = kindRequest ∧ 3 ≤ f.body.length := by
    refine ⟨isRequest, ?_⟩
    rw [body, List.length_append, beBytes_length, List.length_cons]
    omega
  have rest : (beBytes 2 number ++ code :: params).drop 3 = params := by
    simp [List.drop_append, List.drop_eq_nil_of_le]
  have second : field 2 1 (beBytes 2 number ++ code :: params) = code.toNat := by
    rw [field_skip (Nat.le_refl 2), field_byte]
  have first : field 0 2 (beBytes 2 number ++ code :: params) = number := field_first small _
  rw [requestNumber, requestCode, parseRequest, if_pos long, if_pos long, if_pos long, body, rest, second, first]
  exact ⟨rfl, rfl, rfl⟩

end Sys2Proof.Machine

section
open Sys2Proof Sys2Proof.Machine

/-- Settles O7: the bodies read as they are laid out. -/
theorem bodiesAreReadAsLaidOut : Obligations.BodiesAreReadAsLaidOut := by
  refine ⟨fun d s k q deferred station gate direction gateTime fareClass tapNumber token pass h1 h2 h3 h4 h5
    h6 fits => ?_, ⟨fun e h1 h2 => ?_, fun e h1 h2 => ?_, fun e h1 h2 => ?_, fun e h1 h2 => ?_, fun d h => ?_,
      fun e h1 h2 => ?_, fun e h1 h2 => ?_, fun p h1 h2 h3 h4 h5 h6 h7 h8 => ?_⟩,
    fun f number code params isRequest small body => ?_, fun f other => ?_⟩
  · cases pass with
    | none => simp [parseTap, yesNo_byte, *]
    | some p =>
      obtain ⟨fromStation, toStation, lastDay⟩ := fits p rfl
      simp [parseTap, passBytes, yesNo_byte, *]
  · simp [parseStation, stationBytes, *]
  · obtain ⟨present, junction, owner⟩ := e
    cases junction with
    | none => simp [parseBranch, branchBytes, *]
    | some j =>
      have small : j < 255 := h1 j rfl
      have byte : j < 256 := by omega
      have named : j ≠ 255 := by omega
      simp_all [parseBranch, branchBytes]
  · simp [parseScale, scaleBytes, *]
  · simp [parseClass, classBytes, *]
  · exact field_only h
  · simp [parseException, exceptionBytes, *]
  · simp [parseBand, bandBytes, *]
  · simp [parsePolicy, policyBytes, *]
  · obtain ⟨isNumber, isCode, isRead⟩ := request_read isRequest small body
    refine ⟨isNumber, isCode, fun q laid => ?_, fun none => ?_⟩
    · rw [isRead, parseParams_of_laidOut laid]
      rfl
    · cases read : parseParams code.toNat params with
      | none => rw [isRead, read]; rfl
      | some q => exact absurd (laidOut_of_parseParams read) (none q)
  · have unlike : ¬ (f.kind = kindRequest ∧ 3 ≤ f.body.length) := by
      rintro ⟨isRequest, long⟩
      exact other.elim (fun h => h isRequest) (fun h => by omega)
    exact ⟨if_neg unlike, if_neg unlike, if_neg unlike⟩

end
end

