-- ==== Sys2Proof/Proofs/Scans.lean ====
section
/-! SUPPORT. Scans of a list for its first offending entry, and what the unit's scans find. -/

namespace Sys2Proof.Machine

variable {α σ : Type} {l : List α} {bad worse : Nat → α → Prop} {i k : Nat}

/-! ### The first offending place -/

theorem FirstBad.congr (same : ∀ j e, l[j]? = some e → (bad j e ↔ worse j e)) :
    FirstBad l bad i ↔ FirstBad l worse i := by
  refine and_congr ⟨?_, ?_⟩ (forall₄_congr fun j _ e at_ => not_congr (same j e at_))
  · rintro ⟨e, at_, is⟩
    exact ⟨e, at_, (same i e at_).mp is⟩
  · rintro ⟨e, at_, is⟩
    exact ⟨e, at_, (same i e at_).mpr is⟩

theorem firstBad_cons {a : α} : FirstBad (a :: l) bad i
    ↔ i = 0 ∧ bad 0 a ∨ ∃ m, i = m + 1 ∧ ¬ bad 0 a ∧ FirstBad l (fun j => bad (j + 1)) m := by
  cases i with
  | zero => simp [FirstBad]
  | succ m =>
    have places : (∀ j < m + 1, ∀ e, (a :: l)[j]? = some e → ¬ bad j e)
        ↔ ¬ bad 0 a ∧ ∀ j < m, ∀ e, l[j]? = some e → ¬ bad (j + 1) e := by
      constructor
      · intro before
        exact ⟨before 0 (Nat.succ_pos m) a rfl, fun j less e at_ => before (j + 1) (Nat.succ_lt_succ less) e at_⟩
      · rintro ⟨head, rest⟩ j less e at_
        cases j with
        | zero => exact Option.some.inj at_ ▸ head
        | succ j => exact rest j (Nat.lt_of_succ_lt_succ less) e at_
    simp only [FirstBad, places, Nat.add_eq_zero_iff, Nat.one_ne_zero, and_false, false_and, false_or,
      Nat.add_right_cancel_iff, exists_eq_left', List.getElem?_cons_succ]
    exact and_left_comm

/-- A list with an offending place has a first one. -/
theorem exists_firstBad {e : α} (at_ : l[i]? = some e) (is : bad i e) : ∃ m, FirstBad l bad m := by
  induction i using Nat.strongRecOn generalizing e with
  | ind i ih =>
    by_cases before : ∃ j, j < i ∧ ∃ v, l[j]? = some v ∧ bad j v
    · obtain ⟨j, less, v, here, offends⟩ := before
      exact ih j less here offends
    · exact ⟨i, ⟨e, at_, is⟩, fun j less v here offends => before ⟨j, less, v, here, offends⟩⟩

theorem not_firstBad_iff : (∀ i, ¬ FirstBad l bad i) ↔ ∀ i e, l[i]? = some e → ¬ bad i e := by
  refine ⟨fun none i e at_ is => ?_, fun good i first => ?_⟩
  · obtain ⟨m, first⟩ := exists_firstBad at_ is
    exact none m first
  · obtain ⟨⟨e, at_, is⟩, -⟩ := first
    exact good i e at_ is

/-! ### Scans that carry what they have seen -/

/-- A scan that carries a state along a list and stops at the first entry that fails its test. -/
def scanFrom (test : σ → α → Bool) (next : σ → α → σ) : σ → Nat → List α → Option Nat
  | _, _, [] => none
  | s, i, e :: rest => if test s e then some i else scanFrom test next (next s e) (i + 1) rest

/-- A scan whose state tells what its test asks of the entries before finds the first entry that offends against them. -/
theorem scanFrom_eq_some {test : σ → α → Bool} {next : σ → α → σ} {holds : List α → σ → Prop}
    {offends : List α → α → Prop} (agree : ∀ pre s e, holds pre s → (test s e = true ↔ offends pre e))
    (keeps : ∀ pre s e, holds pre s → ¬ offends pre e → holds (pre ++ [e]) (next s e))
    {pre : List α} {s : σ} (held : holds pre s) (start : Nat) (rest : List α) :
    scanFrom test next s start rest = some k
      ↔ ∃ m, k = start + m ∧ FirstBad rest (fun j e => offends (pre ++ rest.take j) e) m := by
  induction rest generalizing pre s start with
  | nil => simp [scanFrom, FirstBad]
  | cons e rest ih =>
    rw [scanFrom]
    by_cases fails : test s e = true
    · have offence := (agree pre s e held).mp fails
      rw [if_pos fails]
      simp only [firstBad_cons, List.take_zero, List.append_nil, offence, not_true, false_and, and_false, exists_false,
        or_false, and_true, exists_eq_right, Nat.add_zero, Option.some.injEq]
      exact eq_comm
    · have fine : ¬ offends pre e := fun offence => fails ((agree pre s e held).mpr offence)
      rw [if_neg fails, ih (keeps pre s e held fine) (start + 1)]
      simp only [firstBad_cons, List.take_zero, List.append_nil, fine, and_false, false_or, not_false_eq_true, true_and,
        List.take_succ_cons, List.append_assoc, List.singleton_append]
      constructor
      · rintro ⟨m, rfl, first⟩
        exact ⟨m + 1, by omega, m, rfl, first⟩
      · rintro ⟨_, rfl, m, rfl, first⟩
        exact ⟨m, by omega, first⟩

/-- The entries before a place, as a scan from the head sees them. -/
theorem exists_mem_take {p : α → Prop} : (∃ v ∈ l.take k, p v) ↔ ∃ j < k, ∃ v, l[j]? = some v ∧ p v := by
  simp only [List.mem_iff_getElem?, List.getElem?_take]
  constructor
  · rintro ⟨v, ⟨j, at_⟩, is⟩
    obtain ⟨less, at_⟩ := Option.ite_none_right_eq_some.mp at_
    exact ⟨j, less, v, at_, is⟩
  · rintro ⟨j, less, v, at_, is⟩
    exact ⟨v, ⟨j, by rw [if_pos less, at_]⟩, is⟩

theorem forall_mem_take {p : α → Prop} : (∀ v ∈ l.take k, p v) ↔ ∀ j < k, ∀ v, l[j]? = some v → p v := by
  simp only [List.mem_iff_getElem?, List.getElem?_take]
  constructor
  · intro all j less v at_
    exact all v ⟨j, by rw [if_pos less, at_]⟩
  · rintro all v ⟨j, at_⟩
    obtain ⟨less, at_⟩ := Option.ite_none_right_eq_some.mp at_
    exact all j less v at_

theorem length_take_of_getElem? {e : α} (at_ : l[k]? = some e) : (l.take k).length = k :=
  List.length_take_of_le (Nat.le_of_lt (List.getElem?_eq_some_iff.mp at_).1)

/-! ### The plain scan (R22, R134) -/

theorem firstIndex_eq_scanFrom (test : Nat → α → Bool) (start : Nat) (l : List α) :
    firstIndex test start l = scanFrom test (fun i _ => i + 1) start start l := by
  induction l generalizing start with
  | nil => rfl
  | cons e rest ih => rw [firstIndex, scanFrom, ih]

theorem firstIndex_eq_some {test : Nat → α → Bool} {start : Nat} : firstIndex test start l = some k
    ↔ ∃ m, k = start + m ∧ FirstBad l (fun j e => test (start + j) e = true) m := by
  rw [firstIndex_eq_scanFrom, scanFrom_eq_some (holds := fun pre i => i = start + pre.length)
    (offends := fun pre e => test (start + pre.length) e = true) (pre := []) (s := start) (fun pre i e is => by rw [is])
    (fun pre i e is _ => by rw [is, List.length_append]; rfl) rfl]
  refine exists_congr fun m => and_congr_right fun _ => FirstBad.congr fun j e at_ => ?_
  rw [List.nil_append, length_take_of_getElem? at_]

theorem firstIndex_zero {test : Nat → α → Bool} : firstIndex test 0 l = some k
    ↔ FirstBad l (fun j e => test j e = true) k := by
  simp [firstIndex_eq_some]

theorem firstIndex_eq_none {test : Nat → α → Bool} {start : Nat} : firstIndex test start l = none
    ↔ ∀ m e, l[m]? = some e → test (start + m) e = false := by
  have nowhere : firstIndex test start l = none ↔ ∀ m, ¬ FirstBad l (fun j e => test (start + j) e = true) m := by
    rw [Option.eq_none_iff_forall_ne_some]
    constructor
    · exact fun none m first => none (start + m) (firstIndex_eq_some.mpr ⟨m, rfl, first⟩)
    · rintro nowhere k found
      obtain ⟨m, -, first⟩ := firstIndex_eq_some.mp found
      exact nowhere m first
  simp only [nowhere, not_firstBad_iff, Bool.not_eq_true]

end Sys2Proof.Machine
end

