-- ==== Sys2Proof/Proofs/TableWrites.lean ====
section
/-! SUPPORT. TABLE WRITE: the entries cut, checked and stored, with O19. -/

namespace Sys2Proof.Machine

variable {s : State} {x : SlotId} {table first n size i : Nat}

/-! ### Entries stored in their table (R134) -/

/-- Values stored from a place on, one after another. -/
def setFrom {α : Type} : Nat → List α → List α → List α
  | _, [], l => l
  | i, v :: rest, l => setFrom (i + 1) rest (l.set i v)

theorem setFrom_eq {α : Type} {first : Nat} {vs l : List α} (fits : first + vs.length ≤ l.length) :
    setFrom first vs l = l.take first ++ vs ++ l.drop (first + vs.length) := by
  induction vs generalizing first l with
  | nil => simp [setFrom]
  | cons v rest ih =>
    rw [List.length_cons] at fits
    have inside : first < l.length := by omega
    have start : (l.take first).length = first := List.length_take_of_le (Nat.le_of_lt inside)
    have placed : l.set first v = (l.take first ++ [v]) ++ l.drop (first + 1) := by
      rw [List.set_eq_take_append_cons_drop, if_pos inside]
      simp
    have next : (l.take first ++ [v]).length = first + 1 := by simp [start]
    have kept : (l.take first ++ [v] ++ l.drop (first + 1)).take (first + 1) = l.take first ++ [v] := by
      rw [← next, List.take_left]
    have after : (l.take first ++ [v] ++ l.drop (first + 1)).drop (first + 1 + rest.length)
        = l.drop (first + (rest.length + 1)) := by
      rw [← next, List.drop_length_add_append, next, List.drop_drop]
      congr 1
      omega
    rw [setFrom, ih (by rw [List.length_set]; omega), placed, kept, after]
    simp

/-- A write of entries into one column of the tables stores what each reads as (R134). -/
theorem writeEntries_column {α : Type} {get : Tables → List α} {put : List α → Tables → Tables}
    {parse : List Byte → α} (store : ∀ i b t, writeEntry table i b t = put ((get t).set i (parse b)) t)
    (get_put : ∀ l t, get (put l t) = l) (put_put : ∀ l m t, put l (put m t) = put l t)
    (put_get : ∀ t, put (get t) t = t) (es : List (List Byte)) {t : Tables}
    (fits : first + es.length ≤ (get t).length) : writeEntries table first es t
      = put ((get t).take first ++ es.map parse ++ (get t).drop (first + es.length)) t := by
  have stored (es : List (List Byte)) (first : Nat) (t : Tables) : writeEntries table first es t
      = put (setFrom first (es.map parse) (get t)) t := by
    induction es generalizing first t with
    | nil => exact (put_get t).symm
    | cons e rest ih => rw [writeEntries, ih, store, get_put, put_put]; rfl
  rw [stored, setFrom_eq (by rwa [List.length_map]), List.length_map]

/-! ### The bytes cut and checked (R134) -/

theorem chunks_flatten (es : List (List Byte)) (sizes : ∀ e ∈ es, e.length = size) :
    chunks size es.length es.flatten = es := by
  induction es with
  | nil => rfl
  | cons e rest ih =>
    have head := sizes e List.mem_cons_self
    rw [List.length_cons, List.flatten_cons, chunks, ← head, List.take_left, List.drop_left, head,
      ih fun c hc => sizes c (List.mem_cons_of_mem e hc)]

theorem firstOutOfRange_eq (table first : Nat) (es : List (List Byte)) : firstOutOfRange table first es
    = firstIndex (fun i e => !entryInRange table i e) first es := by
  induction es generalizing first with
  | nil => rfl
  | cons e rest ih =>
    rw [firstOutOfRange, firstIndex, ih]
    cases entryInRange table first e <;> rfl

end Sys2Proof.Machine

section
open Sys2Proof Sys2Proof.Machine

/-- Settles O19: TABLE WRITE and the ranges of its entries. -/
theorem tableWriteStoresEntries : Obligations.TableWriteStoresEntries := by
  refine ⟨fun s before after r x table first n bytes next request => ?_, fun t first es => ⟨?_, ?_, ?_, ?_, ?_, ?_, ?_,
      fun e => rfl⟩, fun size es sizes => chunks_flatten es sizes, fun table first es => ⟨?_, fun k => ?_⟩,
    fun i e => ⟨?_, ?_, rfl, ?_, rfl, rfl, ?_, ?_⟩⟩
  · have row : requestRow r.request = some .tableWrite := by rw [request]; rfl
    have out : carryOut r.request s = tableWrite x table first n bytes s := by rw [request]; rfl
    refine ⟨fun malformed => exec_answers (t := s) next row ?_ rfl, fun size window => ⟨fun base isBase => ?_,
      fun reason why => ?_⟩⟩
    · simp only [out, tableWrite, malformed]
      rfl
    · have accepted : writeRefusal s x = none := by
        rcases isBase with ⟨state, -⟩ | ⟨state, idle, -⟩
        · simp [writeRefusal, state]
        · simp [writeRefusal, state, idle]
      have written : writeBase (slotOf s x) = base := by
        rcases isBase with ⟨state, rfl⟩ | ⟨state, -, rfl⟩ <;> simp [writeBase, state]
      refine ⟨fun inRange => ?_, fun i bad => ?_⟩
      · exact exec_answers next row
          (by simp only [out, tableWrite, window, accepted, writeTables, inRange, written]; rfl) rfl
      · exact exec_answers (t := s) next row
          (by simp only [out, tableWrite, window, accepted, writeTables, bad]) rfl
    · have refusal : writeRefusal s x = some reason := by
        rcases why with ⟨state, busy, rfl⟩ | ⟨state | state, rfl⟩ | ⟨state, rfl⟩ | ⟨state, rfl⟩ | ⟨state, rfl⟩
        · simp [writeRefusal, state, busy]
        all_goals simp [writeRefusal, state]
      exact exec_answers (t := s) next row (by simp only [out, tableWrite, window, refusal]; rfl) rfl
  · exact writeEntries_column (get := Tables.stations) (put := fun l t => { t with stations := l })
      (fun _ _ _ => rfl) (fun _ _ => rfl) (fun _ _ _ => rfl) (fun _ => rfl) es
  · exact writeEntries_column (get := Tables.branches) (put := fun l t => { t with branches := l })
      (fun _ _ _ => rfl) (fun _ _ => rfl) (fun _ _ _ => rfl) (fun _ => rfl) es
  · exact writeEntries_column (get := Tables.scale) (put := fun l t => { t with scale := l })
      (fun _ _ _ => rfl) (fun _ _ => rfl) (fun _ _ _ => rfl) (fun _ => rfl) es
  · exact writeEntries_column (get := Tables.classes) (put := fun l t => { t with classes := l })
      (fun _ _ _ => rfl) (fun _ _ => rfl) (fun _ _ _ => rfl) (fun _ => rfl) es
  · exact writeEntries_column (get := Tables.week) (put := fun l t => { t with week := l })
      (fun _ _ _ => rfl) (fun _ _ => rfl) (fun _ _ _ => rfl) (fun _ => rfl) es
  · exact writeEntries_column (get := Tables.exceptions) (put := fun l t => { t with exceptions := l })
      (fun _ _ _ => rfl) (fun _ _ => rfl) (fun _ _ _ => rfl) (fun _ => rfl) es
  · exact writeEntries_column (get := Tables.bands) (put := fun l t => { t with bands := l })
      (fun _ _ _ => rfl) (fun _ _ => rfl) (fun _ _ _ => rfl) (fun _ => rfl) es
  · rw [firstOutOfRange_eq, firstIndex_eq_none]
    simp
  · rw [firstOutOfRange_eq, firstIndex_eq_some]
    simp
  · simp [entryInRange, StationEntry.inRange]
  · cases junction : (parseBranch e).junction <;> simp [entryInRange, BranchEntry.inRange, junction]
  · simp [entryInRange, ClassEntry.inRange]
  · simp [entryInRange, BandEntry.inRange]
  · simp [entryInRange, Policy.inRange, and_assoc]

end
end

