-- ==== Sys2Proof/Proofs/ValidationChecks.lean ====
section
/-! SUPPORT. ACTIVATE, the six checks of validation and what a completed validation leaves, with O23. -/

namespace Sys2Proof.Machine

variable {s : State} {x : SlotId} {t : Tables} {f : CheckFailure} {i k : Nat}

theorem located_eq_some {o : Option Nat} {found : Nat → Prop} (is : ∀ i, o = some i ↔ found i) (c table : Nat) :
    o.map (fun i => (⟨c, table, i⟩ : CheckFailure)) = some f ↔ ∃ i, f = ⟨c, table, i⟩ ∧ found i := by
  rw [Option.map_eq_some_iff]
  exact exists_congr fun i => ⟨fun ⟨held, made⟩ => ⟨made.symm, (is i).mp held⟩,
    fun ⟨made, held⟩ => ⟨(is i).mpr held, made.symm⟩⟩

/-! ### Checks 1 to 3: the network (R22) -/

theorem check1_eq_some : check1 t = some f ↔ (branchEntry t 0).present = false ∧ f = ⟨1, 2, 0⟩
    ∨ (branchEntry t 0).present = true ∧ ∃ i, f = ⟨1, 1, i⟩ ∧ FirstBad t.stations
      (fun _ e => e.present = true ∧ (branchEntry t e.branch).present = false) i := by
  unfold check1
  cases trunk : (branchEntry t 0).present with
  | false =>
    simp only [Bool.not_false, if_true, true_and, Bool.false_eq_true, false_and, or_false, Option.some.injEq]
    exact eq_comm
  | true =>
    simp only [Bool.not_true, Bool.false_eq_true, if_false, Bool.true_eq_false, false_and, false_or, true_and]
    exact located_eq_some (fun i => firstIndex_zero.trans (FirstBad.congr fun j e _ => by simp [-not_and])) 1 1

theorem presentStation_eq_some {code : Nat} {v : StationEntry} : presentStation t code = some v
    ↔ t.stations[code]? = some v ∧ v.present = true := Option.filter_eq_some_iff

theorem junctionSound_iff {junction : Option Nat} : junctionSound t junction = true
    ↔ ∃ j v, junction = some j ∧ t.stations[j]? = some v ∧ v.present = true ∧ v.branch = 0 := by
  cases junction with
  | none => simp [junctionSound]
  | some j =>
    cases station : presentStation t j with
    | none =>
      have nowhere : ∀ v, t.stations[j]? = some v → ¬ v.present = true := fun v held present =>
        absurd (presentStation_eq_some.mpr ⟨held, present⟩) (by rw [station]; simp)
      simp only [junctionSound, station, Bool.false_eq_true, false_iff]
      rintro ⟨_, v, same, held, present, -⟩
      obtain rfl := Option.some.inj same
      exact nowhere v held present
    | some v =>
      obtain ⟨held, present⟩ := presentStation_eq_some.mp station
      simp only [junctionSound, station, beq_iff_eq]
      exact ⟨fun trunk => ⟨j, v, rfl, held, present, trunk⟩, fun ⟨_, w, same, held', _, trunk⟩ => by
        obtain rfl := Option.some.inj same
        obtain rfl := Option.some.inj (held.symm.trans held')
        exact trunk⟩

theorem check2_eq_some : check2 t = some f ↔ ∃ i, f = ⟨2, 2, i⟩ ∧ FirstBad t.branches
    (fun k e => k ≠ 0 ∧ e.present = true ∧ ¬ ∃ j v, e.junction = some j
      ∧ t.stations[j]? = some v ∧ v.present = true ∧ v.branch = 0) i := by
  refine located_eq_some (fun i => firstIndex_zero.trans (FirstBad.congr fun j e _ => ?_)) 2 2
  rw [← junctionSound_iff]
  simp [and_assoc]

theorem check3_eq_some : check3 t = some f ↔ ∃ i, f = ⟨3, 1, i⟩ ∧ FirstBad t.stations
    (fun k e => e.present = true ∧ ∃ j v, j ≠ k ∧ t.stations[j]? = some v ∧ v.present = true
      ∧ v.branch = e.branch ∧ v.chainage = e.chainage) i := by
  refine located_eq_some (fun i => firstIndex_zero.trans (FirstBad.congr fun k e _ => ?_)) 3 1
  rw [← Option.ne_none_iff_isSome, Ne, firstIndex_eq_none]
  simp only [Classical.not_forall, exists_prop, Nat.zero_add, Bool.not_eq_false, samePoint, Bool.and_eq_true, bne_iff_ne, beq_iff_eq]
  constructor
  · rintro ⟨j, v, held, other, ⟨⟨mine, its⟩, branch⟩, chainage⟩
    exact ⟨mine, j, v, other, held, its, branch.symm, chainage.symm⟩
  · rintro ⟨mine, j, v, other, held, its, branch, chainage⟩
    exact ⟨j, v, held, other, ⟨⟨mine, its⟩, branch.symm⟩, chainage.symm⟩

/-! ### Check 4: the fare scale (R39) -/

/-- What check 4 has seen of the scale: nothing more once a sentinel has come. -/
abbrev ScaleSeen := Option (Nat × Option ScaleEntry)

/-- An entry's fault against the entry before it, or at the last index (R39). -/
def scaleFault : ScaleSeen → ScaleEntry → Bool
  | none, _ => false
  | some (i, before), e => (match before with
      | some p => e.bound ≤ p.bound || e.fare < p.fare
      | none => false) || (i == 31 && !e.isSentinel)

/-- The scale seen with one entry more. -/
def scaleNext : ScaleSeen → ScaleEntry → ScaleSeen
  | none, _ => none
  | some (i, _), e => if e.isSentinel then none else some (i + 1, some e)

theorem scanFrom_stopped (i : Nat) (l : List ScaleEntry) : scanFrom scaleFault scaleNext none i l = none := by
  induction l generalizing i with
  | nil => rfl
  | cons e rest ih => exact ih (i + 1)

theorem scaleScan_eq (i : Nat) (before : Option ScaleEntry) (l : List ScaleEntry) :
    scaleScan i before l = scanFrom scaleFault scaleNext (some (i, before)) i l := by
  induction l generalizing i before with
  | nil => rfl
  | cons e rest ih =>
    have step : scaleScan i before (e :: rest) = if scaleFault (some (i, before)) e = true then some i
        else if e.isSentinel = true then none else scaleScan (i + 1) (some e) rest := by
      cases before <;> rfl
    rw [step, scanFrom, scaleNext]
    cases sentinel : e.isSentinel with
    | true => simp only [if_true, scanFrom_stopped]
    | false => simp only [Bool.false_eq_true, if_false, ih]

/-- What check 4 holds against an entry, given those before it (R39). -/
def ScaleOffends (pre : List ScaleEntry) (e : ScaleEntry) : Prop :=
  (∀ v ∈ pre, v.bound ≠ 65535) ∧ ((∃ v, pre.getLast? = some v ∧ (e.bound ≤ v.bound ∨ e.fare < v.fare))
    ∨ pre.length = 31 ∧ e.bound ≠ 65535)

/-- What the scan of the scale knows of the entries before (R39). -/
def ScaleKnown (pre : List ScaleEntry) : ScaleSeen → Prop
  | none => ∃ v ∈ pre, v.bound = 65535
  | some (i, before) => i = pre.length ∧ before = pre.getLast? ∧ ∀ v ∈ pre, v.bound ≠ 65535

theorem scaleFault_iff {pre : List ScaleEntry} {seen : ScaleSeen} {e : ScaleEntry} (known : ScaleKnown pre seen) :
    scaleFault seen e = true ↔ ScaleOffends pre e := by
  cases seen with
  | none =>
    obtain ⟨v, held, sentinel⟩ := known
    simp only [scaleFault, Bool.false_eq_true, false_iff]
    exact fun offends => offends.1 v held sentinel
  | some seen =>
    obtain ⟨i, before⟩ := seen
    obtain ⟨rfl, rfl, open_⟩ := known
    have rest : ∀ p : Prop, ((∀ v ∈ pre, v.bound ≠ 65535) ∧ p ↔ p) := fun p => and_iff_right open_
    rw [ScaleOffends, rest]
    cases last : pre.getLast? <;> simp [scaleFault, ScaleEntry.isSentinel]

theorem scaleKnown_next {pre : List ScaleEntry} {seen : ScaleSeen} {e : ScaleEntry} (known : ScaleKnown pre seen) :
    ScaleKnown (pre ++ [e]) (scaleNext seen e) := by
  cases seen with
  | none =>
    obtain ⟨v, held, sentinel⟩ := known
    exact ⟨v, List.mem_append_left _ held, sentinel⟩
  | some seen =>
    obtain ⟨i, before⟩ := seen
    obtain ⟨rfl, rfl, open_⟩ := known
    rw [scaleNext]
    by_cases sentinel : e.bound = 65535
    · rw [if_pos (by simp [ScaleEntry.isSentinel, sentinel])]
      exact ⟨e, by simp, sentinel⟩
    · rw [if_neg (by simp [ScaleEntry.isSentinel, sentinel])]
      refine ⟨by simp, by simp, fun v held => ?_⟩
      rcases List.mem_append.mp held with held | held
      · exact open_ v held
      · rwa [List.mem_singleton.mp held]

theorem check4_eq_some : check4 t = some f ↔ ∃ i, f = ⟨4, 3, i⟩ ∧ FirstBad t.scale
    (fun k e => (∀ j < k, ∀ v, t.scale[j]? = some v → v.bound ≠ 65535)
      ∧ ((∃ v, k ≠ 0 ∧ t.scale[k - 1]? = some v ∧ (e.bound ≤ v.bound ∨ e.fare < v.fare))
        ∨ k = 31 ∧ e.bound ≠ 65535)) i := by
  refine located_eq_some (fun i => ?_) 4 3
  rw [scaleScan_eq, scanFrom_eq_some (holds := ScaleKnown) (offends := ScaleOffends) (pre := [])
    (s := some (0, none))
    (fun _ _ _ known => scaleFault_iff known) (fun _ _ _ known _ => scaleKnown_next known) ⟨rfl, rfl, by simp⟩]
  simp only [Nat.zero_add, exists_eq_left', List.nil_append]
  refine FirstBad.congr fun k e at_ => ?_
  have inside : k < t.scale.length := (List.getElem?_eq_some_iff.mp at_).1
  have last : (t.scale.take k).getLast? = if k = 0 then none else t.scale[k - 1]? := by
    rw [List.getLast?_take]
    split
    · rfl
    · rw [List.getElem?_eq_getElem (by omega)]
      rfl
  rw [ScaleOffends, forall_mem_take, length_take_of_getElem? at_, last]
  by_cases first : k = 0 <;> simp [first]

/-! ### Check 5: the Exception list (R139) -/

/-- An entry's fault, given whether an unused one stood before and the last used day (R139). -/
def exceptionFault (seen : Bool × Option Nat) (e : ExceptionEntry) : Bool :=
  e.used && (seen.1 || decide (3 < e.dayType) || seen.2.any (fun d => e.day ≤ d))

/-- The Exception list seen with one entry more. -/
def exceptionNext (seen : Bool × Option Nat) (e : ExceptionEntry) : Bool × Option Nat :=
  if e.used then (seen.1, some e.day) else (true, seen.2)

theorem exceptionScan_eq (i : Nat) (gap : Bool) (last : Option Nat) (l : List ExceptionEntry) :
    exceptionScan i gap last l = scanFrom exceptionFault exceptionNext (gap, last) i l := by
  induction l generalizing i gap last with
  | nil => rfl
  | cons e rest ih =>
    have step : exceptionScan i gap last (e :: rest) = if !e.used then exceptionScan (i + 1) true last rest
        else if exceptionFault (gap, last) e = true then some i
        else exceptionScan (i + 1) gap (some e.day) rest := by
      cases used : e.used <;> cases last <;> simp [exceptionScan, exceptionFault, used]
    rw [step, scanFrom, exceptionNext]
    cases used : e.used with
    | false => simp [exceptionFault, used, ih]
    | true => simp [ih]

/-- What check 5 holds against an Exception entry, given those before it (R139). -/
def ExceptionOffends (pre : List ExceptionEntry) (e : ExceptionEntry) : Prop :=
  e.used = true ∧ (3 < e.dayType ∨ ∃ v ∈ pre, v.used = false ∨ e.day ≤ v.day)

/-- What the scan of the Exception list knows of the entries before. -/
def ExceptionKnown (pre : List ExceptionEntry) (seen : Bool × Option Nat) : Prop :=
  (seen.1 = true ↔ ∃ v ∈ pre, v.used = false)
    ∧ (∀ v ∈ pre, v.used = true → ∃ d, seen.2 = some d ∧ v.day ≤ d)
    ∧ ∀ d, seen.2 = some d → ∃ v ∈ pre, v.used = true ∧ v.day = d

theorem exceptionFault_iff {pre : List ExceptionEntry} {seen : Bool × Option Nat} {e : ExceptionEntry}
    (known : ExceptionKnown pre seen) : exceptionFault seen e = true ↔ ExceptionOffends pre e := by
  obtain ⟨gap, last⟩ := seen
  obtain ⟨gaps, below, reached⟩ := known
  have late : last.any (fun d => e.day ≤ d) = true ↔ ∃ d, last = some d ∧ e.day ≤ d := by
    cases last <;> simp
  simp only [exceptionFault, Bool.and_eq_true, Bool.or_eq_true, decide_eq_true_eq, late, ExceptionOffends]
  refine and_congr_right fun _ => ?_
  constructor
  · rintro ((hole | wide) | ⟨d, held, le⟩)
    · obtain ⟨v, hv, unused⟩ := gaps.mp hole
      exact .inr ⟨v, hv, .inl unused⟩
    · exact .inl wide
    · obtain ⟨v, hv, -, rfl⟩ := reached d held
      exact .inr ⟨v, hv, .inr le⟩
  · rintro (wide | ⟨v, hv, offence⟩)
    · exact .inl (.inr wide)
    · cases used : v.used with
      | false => exact .inl (.inl (gaps.mpr ⟨v, hv, used⟩))
      | true =>
        obtain ⟨d, held, le⟩ := below v hv used
        have le' := offence.resolve_left (by simp [used])
        exact .inr ⟨d, held, Nat.le_trans le' le⟩

theorem exceptionKnown_next {pre : List ExceptionEntry} {seen : Bool × Option Nat} {e : ExceptionEntry}
    (known : ExceptionKnown pre seen) (fine : ¬ ExceptionOffends pre e) :
    ExceptionKnown (pre ++ [e]) (exceptionNext seen e) := by
  obtain ⟨gap, last⟩ := seen
  obtain ⟨gaps, below, reached⟩ := known
  unfold exceptionNext
  cases used : e.used with
  | false =>
    refine ⟨by simp [used], fun v hv usedV => ?_, fun d held => ?_⟩
    · rcases List.mem_append.mp hv with hv | hv
      · exact below v hv usedV
      · rw [List.mem_singleton.mp hv, used] at usedV
        exact absurd usedV (by decide)
    · obtain ⟨v, hv, is⟩ := reached d held
      exact ⟨v, List.mem_append_left _ hv, is⟩
  | true =>
    have after : ∀ v ∈ pre, v.day ≤ e.day := fun v hv => by
      refine Classical.byContradiction fun early => ?_
      exact fine ⟨used, .inr ⟨v, hv, .inr (Nat.le_of_not_le early)⟩⟩
    refine ⟨?_, fun v hv _ => ⟨e.day, rfl, ?_⟩, fun d held => ⟨e, by simp, used, Option.some.inj held⟩⟩
    · rw [if_pos rfl, gaps]
      simp [or_and_right, exists_or, used]
    · rcases List.mem_append.mp hv with hv | hv
      · exact after v hv
      · exact Nat.le_of_eq (congrArg _ (List.mem_singleton.mp hv))

theorem exceptionScan_eq_some : exceptionScan 0 false none t.exceptions = some i ↔ FirstBad t.exceptions
    (fun k e => e.used = true ∧ (3 < e.dayType
      ∨ ∃ j < k, ∃ v, t.exceptions[j]? = some v ∧ (v.used = false ∨ e.day ≤ v.day))) i := by
  rw [exceptionScan_eq, scanFrom_eq_some (holds := ExceptionKnown) (offends := ExceptionOffends) (pre := [])
    (s := (false, none)) (fun _ _ _ known => exceptionFault_iff known)
    (fun _ _ _ known fine => exceptionKnown_next known fine) ⟨by simp, by simp, by simp⟩]
  simp only [Nat.zero_add, exists_eq_left', List.nil_append, ExceptionOffends, exists_mem_take]

/-! ### Check 5: the band lists (R132, R139) -/

/-- A change point's fault, given whether an unused one stood before and the last used minute (R139). -/
def bandFault (seen : Bool × Nat) (e : BandEntry) : Bool := e.used && (seen.1 || decide (e.minute ≤ seen.2))

/-- A band list seen with one change point more. -/
def bandNext (seen : Bool × Nat) (e : BandEntry) : Bool × Nat := if e.used then (seen.1, e.minute) else (true, seen.2)

theorem bandScan_eq (i : Nat) (gap : Bool) (last : Nat) (l : List BandEntry) :
    bandScan i gap last l = scanFrom bandFault bandNext (gap, last) i l := by
  induction l generalizing i gap last with
  | nil => rfl
  | cons e rest ih =>
    rw [bandScan, scanFrom, bandNext]
    cases used : e.used with
    | false => simp [bandFault, used, ih]
    | true => simp [bandFault, used, ih]

/-- What check 5 holds against a change point, given those before it in its list (R139). -/
def BandOffends (pre : List BandEntry) (e : BandEntry) : Prop :=
  e.used = true ∧ ∃ v ∈ pre, v.used = false ∨ e.minute ≤ v.minute

/-- What the scan of a band list knows of the change points before. -/
def BandKnown (pre : List BandEntry) (seen : Bool × Nat) : Prop :=
  (seen.1 = true ↔ ∃ v ∈ pre, v.used = false) ∧ (∀ v ∈ pre, v.used = true → v.minute ≤ seen.2)
    ∧ ∃ v ∈ pre, v.used = true ∧ v.minute = seen.2

theorem bandFault_iff {pre : List BandEntry} {seen : Bool × Nat} {e : BandEntry} (known : BandKnown pre seen) :
    bandFault seen e = true ↔ BandOffends pre e := by
  obtain ⟨gap, last⟩ := seen
  obtain ⟨gaps, below, reached⟩ := known
  simp only [bandFault, Bool.and_eq_true, Bool.or_eq_true, decide_eq_true_eq, BandOffends]
  refine and_congr_right fun _ => ?_
  constructor
  · rintro (hole | le)
    · obtain ⟨v, hv, unused⟩ := gaps.mp hole
      exact ⟨v, hv, .inl unused⟩
    · obtain ⟨v, hv, -, same⟩ := reached
      exact ⟨v, hv, .inr (same ▸ le)⟩
  · rintro ⟨v, hv, offence⟩
    cases used : v.used with
    | false => exact .inl (gaps.mpr ⟨v, hv, used⟩)
    | true => exact .inr (Nat.le_trans (offence.resolve_left (by simp [used])) (below v hv used))

theorem bandKnown_next {pre : List BandEntry} {seen : Bool × Nat} {e : BandEntry} (known : BandKnown pre seen)
    (fine : ¬ BandOffends pre e) : BandKnown (pre ++ [e]) (bandNext seen e) := by
  obtain ⟨gap, last⟩ := seen
  obtain ⟨gaps, below, reached⟩ := known
  unfold bandNext
  cases used : e.used with
  | false =>
    obtain ⟨w, hw, is⟩ := reached
    refine ⟨by simp [used], fun v hv usedV => ?_, w, List.mem_append_left _ hw, is⟩
    rcases List.mem_append.mp hv with hv | hv
    · exact below v hv usedV
    · rw [List.mem_singleton.mp hv, used] at usedV
      exact absurd usedV (by decide)
  | true =>
    have after : ∀ v ∈ pre, v.minute ≤ e.minute := fun v hv => by
      refine Classical.byContradiction fun early => ?_
      exact fine ⟨used, v, hv, .inr (Nat.le_of_not_le early)⟩
    refine ⟨?_, fun v hv _ => ?_, e, by simp, used, rfl⟩
    · rw [if_pos rfl, gaps]
      simp [or_and_right, exists_or, used]
    · rcases List.mem_append.mp hv with hv | hv
      · exact after v hv
      · exact Nat.le_of_eq (congrArg _ (List.mem_singleton.mp hv))

/-- What check 5 holds against a place of a band list: its first change point is used and at minute 0, the others by those before (R139). -/
def BandBad (l : List BandEntry) (j : Nat) (e : BandEntry) : Prop :=
  j = 0 ∧ (e.used = false ∨ e.minute ≠ 0) ∨ j ≠ 0 ∧ BandOffends (l.take j) e

theorem bandCheck_eq_some : bandCheck t k = some i
    ↔ ∃ m, i = k * 8 + m ∧ FirstBad (bandList t k) (BandBad (bandList t k)) m := by
  unfold bandCheck
  cases bandList t k with
  | nil => simp [FirstBad]
  | cons e rest =>
    simp only [firstBad_cons]
    by_cases head : e.used = false ∨ e.minute ≠ 0
    · have bad : BandBad (e :: rest) 0 e := .inl ⟨rfl, head⟩
      rw [if_pos (by simpa using head)]
      simp only [bad, not_true, false_and, and_false, exists_false, or_false, and_true, exists_eq_right, Nat.add_zero,
        Option.some.injEq]
      exact eq_comm
    · have fine : ¬ BandBad (e :: rest) 0 e := by
        rintro (⟨-, bad⟩ | ⟨other, -⟩)
        · exact head bad
        · exact other rfl
      have known : BandKnown [e] (false, 0) := by
        simp only [not_or, Bool.not_eq_false, ne_eq, Decidable.not_not] at head
        simp [BandKnown, head]
      have later : (fun j => BandBad (e :: rest) (j + 1)) = fun j v => BandOffends ([e] ++ rest.take j) v := by
        funext j v
        simp [BandBad]
      rw [if_neg (by simpa using head), bandScan_eq, scanFrom_eq_some (holds := BandKnown) (offends := BandOffends)
        (fun _ _ _ known => bandFault_iff known) (fun _ _ _ known fine => bandKnown_next known fine) known]
      simp only [fine, and_false, false_or, not_false_eq_true, true_and, later]
      constructor
      · rintro ⟨m, rfl, first⟩
        exact ⟨m + 1, by omega, m, rfl, first⟩
      · rintro ⟨_, rfl, m, rfl, first⟩
        exact ⟨m, by omega, first⟩

theorem bandList_getElem? (k m : Nat) : (bandList t k)[m]? = if m < 8 then t.bands[k * 8 + m]? else none := by
  rw [bandList, List.getElem?_take, List.getElem?_drop]

/-- What check 5 holds against a place of the Band table (R139). -/
abbrev BandPlaceBad (t : Tables) (k : Nat) (e : BandEntry) : Prop :=
  k < 32 ∧ (k % 8 = 0 ∧ (e.used = false ∨ e.minute ≠ 0)
    ∨ k % 8 ≠ 0 ∧ e.used = true ∧ ∃ j < k, ∃ v, j / 8 = k / 8
      ∧ t.bands[j]? = some v ∧ (v.used = false ∨ e.minute ≤ v.minute))

/-- A place of the Band table is a place of the list of its day type (R132). -/
theorem bandPlaceBad_iff (e : BandEntry) : BandPlaceBad t k e
    ↔ k < 32 ∧ BandBad (bandList t (k / 8)) (k % 8) e := by
  refine and_congr_right fun _ => or_congr_right (and_congr_right fun _ => ?_)
  rw [BandOffends, exists_mem_take]
  refine and_congr_right fun _ => ?_
  constructor
  · rintro ⟨j, less, v, same, at_, offence⟩
    refine ⟨j % 8, by omega, v, ?_, offence⟩
    rw [bandList_getElem?, if_pos (Nat.mod_lt _ (by decide)), ← same, Nat.mul_comm, Nat.div_add_mod, at_]
  · rintro ⟨m, less, v, at_, offence⟩
    have small : m < 8 := Nat.lt_trans less (Nat.mod_lt _ (by decide))
    rw [bandList_getElem?, if_pos small] at at_
    exact ⟨k / 8 * 8 + m, by omega, v, by omega, at_, offence⟩

theorem findSome?_range {α : Type} {g : Nat → Option α} {n : Nat} {a : α} : (List.range n).findSome? g = some a
    ↔ ∃ k < n, g k = some a ∧ ∀ j < k, g j = none := by
  induction n with
  | zero => simp
  | succ n ih =>
    rw [List.range_succ, List.findSome?_append, Option.or_eq_some_iff, ih]
    constructor
    · rintro (⟨k, less, held, before⟩ | ⟨none, held⟩)
      · exact ⟨k, by omega, held, before⟩
      · refine ⟨n, by omega, by simpa using held, fun j less => ?_⟩
        exact List.findSome?_eq_none_iff.mp none j (List.mem_range.mpr less)
    · rintro ⟨k, less, held, before⟩
      rcases Nat.lt_succ_iff_lt_or_eq.mp less with less | rfl
      · exact .inl ⟨k, less, held, before⟩
      · exact .inr ⟨List.findSome?_eq_none_iff.mpr fun j hj => before j (List.mem_range.mp hj), by simpa using held⟩

theorem bandCheck_eq_none : bandCheck t k = none
    ↔ ∀ m e, (bandList t k)[m]? = some e → ¬ BandBad (bandList t k) m e := by
  rw [← not_firstBad_iff, Option.eq_none_iff_forall_ne_some]
  constructor
  · exact fun none m first => none (k * 8 + m) (bandCheck_eq_some.mpr ⟨m, rfl, first⟩)
  · rintro nowhere i found
    obtain ⟨m, -, first⟩ := bandCheck_eq_some.mp found
    exact nowhere m first

/-- The four band lists, one after another, are the Band table (R132, R139). -/
theorem bandChecks_eq_some : [0, 1, 2, 3].findSome? (bandCheck t) = some i
    ↔ FirstBad t.bands (BandPlaceBad t) i := by
  have at_list (j : Nat) : (bandList t (j / 8))[j % 8]? = t.bands[j]? := by
    rw [bandList_getElem?, if_pos (Nat.mod_lt _ (by decide)), Nat.mul_comm, Nat.div_add_mod]
  have range : [0, 1, 2, 3] = List.range 4 := rfl
  rw [range, findSome?_range]
  simp only [FirstBad, bandPlaceBad_iff]
  constructor
  · rintro ⟨k, small, found, before⟩
    obtain ⟨m, rfl, ⟨e, at_, bad⟩, fine⟩ := bandCheck_eq_some.mp found
    have inside : m < 8 := by
      refine Classical.byContradiction fun out => ?_
      rw [bandList_getElem?, if_neg out] at at_
      exact absurd at_ (by simp)
    have day : (k * 8 + m) / 8 = k := by omega
    have place : (k * 8 + m) % 8 = m := by omega
    refine ⟨⟨e, ?_, by omega, by rw [day, place]; exact bad⟩, fun j less v held => ?_⟩
    · rw [← at_list, day, place, at_]
    · rintro ⟨-, worse⟩
      rw [← at_list] at held
      by_cases same : j / 8 = k
      · rw [same] at held worse
        exact fine (j % 8) (by omega) v held worse
      · exact bandCheck_eq_none.mp (before (j / 8) (by omega)) _ v held worse
  · rintro ⟨⟨e, at_, small, bad⟩, fine⟩
    refine ⟨i / 8, by omega, bandCheck_eq_some.mpr ⟨i % 8, by omega, ⟨e, by rw [at_list, at_], bad⟩,
      fun j less v held worse => ?_⟩, fun k less => bandCheck_eq_none.mpr fun m v held worse => ?_⟩
    · have day : (i / 8 * 8 + j) / 8 = i / 8 := by omega
      have place : (i / 8 * 8 + j) % 8 = j := by omega
      exact fine (i / 8 * 8 + j) (by omega) v (by rw [← at_list, day, place, held]) ⟨by omega, by rwa [day, place]⟩
    · have inside : m < 8 := by
        refine Classical.byContradiction fun out => ?_
        rw [bandList_getElem?, if_neg out] at held
        exact absurd held (by simp)
      have day : (k * 8 + m) / 8 = k := by omega
      have place : (k * 8 + m) % 8 = m := by omega
      exact fine (k * 8 + m) (by omega) v (by rw [← at_list, day, place, held]) ⟨by omega, by rwa [day, place]⟩

theorem week_eq_none : firstIndex (fun _ d => decide (3 < d)) 0 t.week = none ↔ ∀ d ∈ t.week, d ≤ 3 := by
  simp only [firstIndex_eq_none, decide_eq_false_iff_not, Nat.not_lt, List.mem_iff_getElem?]
  exact ⟨fun small d ⟨m, at_⟩ => small m d at_, fun small m d at_ => small d ⟨m, at_⟩⟩

theorem week_eq_some : firstIndex (fun _ d => decide (3 < d)) 0 t.week = some i
    ↔ FirstBad t.week (fun _ d => 3 < d) i := by
  simp only [firstIndex_zero, decide_eq_true_eq]

/-- What check 5 holds against a place of the Exception list (R139). -/
abbrev ExceptionPlaceBad (t : Tables) (k : Nat) (e : ExceptionEntry) : Prop :=
  e.used = true ∧ (3 < e.dayType ∨ ∃ j < k, ∃ v, t.exceptions[j]? = some v ∧ (v.used = false ∨ e.day ≤ v.day))

theorem exceptionScan_eq_none : exceptionScan 0 false none t.exceptions = none
    ↔ ∀ k e, t.exceptions[k]? = some e → ¬ ExceptionPlaceBad t k e := by
  rw [← not_firstBad_iff, Option.eq_none_iff_forall_ne_some]
  exact forall_congr' fun i => not_congr exceptionScan_eq_some

theorem check5_eq_some : check5 t = some f ↔ (∀ e ∈ t.classes, e.permitted = false) ∧ f = ⟨5, 4, 0⟩
    ∨ (∃ e ∈ t.classes, e.permitted = true)
      ∧ ((∃ i, f = ⟨5, 5, i⟩ ∧ FirstBad t.week (fun _ d => 3 < d) i)
        ∨ (∀ d ∈ t.week, d ≤ 3)
          ∧ ((∃ i, f = ⟨5, 6, i⟩ ∧ FirstBad t.exceptions (ExceptionPlaceBad t) i)
            ∨ (∀ k e, t.exceptions[k]? = some e → ¬ ExceptionPlaceBad t k e)
              ∧ ∃ i, f = ⟨5, 7, i⟩ ∧ FirstBad t.bands (BandPlaceBad t) i)) := by
  unfold check5
  by_cases permitted : ∃ e ∈ t.classes, e.permitted = true
  · have permits : t.classes.any ClassEntry.permitted = true := List.any_eq_true.mpr permitted
    have notAll : ¬ ∀ e ∈ t.classes, e.permitted = false := fun all => by
      obtain ⟨e, he, is⟩ := permitted
      rw [all e he] at is
      exact absurd is (by decide)
    rw [permits, if_neg (by decide)]
    simp only [notAll, false_and, false_or, permitted, true_and, week_eq_some.symm, week_eq_none.symm,
      exceptionScan_eq_some.symm, exceptionScan_eq_none.symm, bandChecks_eq_some.symm]
    cases firstIndex (fun _ d => decide (3 < d)) 0 t.week with
    | some i =>
      simp only [reduceCtorEq, false_and, or_false, Option.some.injEq, exists_eq_right']
      exact eq_comm
    | none =>
      cases exceptionScan 0 false .none t.exceptions with
      | some i =>
        simp only [reduceCtorEq, false_and, or_false, and_false, exists_false, false_or, true_and, Option.some.injEq,
          exists_eq_right']
        exact eq_comm
      | none =>
        simp only [reduceCtorEq, and_false, exists_false, false_or, true_and]
        exact located_eq_some (fun _ => Iff.rfl) 5 7
  · have permitsNone : t.classes.any ClassEntry.permitted = false := List.any_eq_false.mpr fun e he is => permitted ⟨e, he, is⟩
    have all : ∀ e ∈ t.classes, e.permitted = false := fun e he => Bool.eq_false_iff.mpr fun is => permitted ⟨e, he, is⟩
    rw [permitsNone, if_pos (by decide)]
    simp only [permitted, false_and, or_false, Option.some.injEq]
    exact ⟨fun is => ⟨all, is.symm⟩, fun is => is.2.symm⟩

theorem check6_eq_some {label : Option Nat} : check6 label t = some f ↔ f = ⟨6, 8, 0⟩
    ∧ (t.policy = none ∨ ∃ p, t.policy = some p ∧ label = some p.label) := by
  unfold check6
  cases t.policy with
  | none => simp [eq_comm]
  | some p =>
    by_cases same : label = some p.label
    · simp [same, eq_comm]
    · simp [same]

end Sys2Proof.Machine

section
open Sys2Proof Sys2Proof.Machine

/-- Settles O23: ACTIVATE, the completion of a validation, and the six checks. -/
theorem activateAndValidate : Obligations.ActivateAndValidate := by
  refine ⟨fun s before after r x effective next request => ?_,
    fun s before after r x high validating idle parts others underway request => ?_, fun label t => ?_,
    fun t f => ⟨check1_eq_some, check2_eq_some, check3_eq_some, check4_eq_some, ?_, fun label => check6_eq_some⟩⟩
  · have row : requestRow r.request = some .activate := by rw [request]; rfl
    have out : carryOut r.request s = activate x effective s := by rw [request]; rfl
    refine ⟨fun staging timed => ?_, fun reason why => ?_⟩
    · have accepted : activateRefusal s x effective = none := by
        rcases timed with rfl | isSet <;> simp [activateRefusal, *]
      exact exec_advances next row (by simp only [out, activate, accepted]) rfl
    · have refusal : activateRefusal s x effective = some reason := by
        rcases why with ⟨state, rfl⟩ | ⟨state | state, rfl⟩ | ⟨state, rfl⟩ | ⟨state, rfl⟩ | ⟨state, rfl⟩
            | ⟨state, timed, unset, rfl⟩
        case inr.inr.inr.inr.inr =>
          obtain ⟨e, rfl⟩ := Option.ne_none_iff_exists'.mp timed
          simp [activateRefusal, state, unset]
        all_goals simp [activateRefusal, state]
      exact exec_answers (t := s) next row (by simp only [out, activate, refusal]; rfl) rfl
  · have run : exec .validationComplete s = .next (validationComplete s) := exec_high high _
    have answered (v : Slot) (reply : Reply) : answerUnderway Request.isActivate reply (putSlot x v s)
        = (putSlot x v s).answered before r after reply  :=
      answerUnderway_of (s := putSlot x v s) parts others underway request reply
    rw [run]
    refine ⟨fun f fails => ?_, fun e passes timed later => ?_, fun passes reached => ?_⟩
    · simp only [validationComplete, validating, idle, if_false, fails, validationFailed, answered]
    · have waits : laterEffective s (slotOf s x) = some e := by
        simp [laterEffective, timed, Option.filter, later]
      simp only [validationComplete, validating, idle, if_false, passes, validationPassed, waits, answered]
      rfl
    · have due : laterEffective s (slotOf s x) = none :=
        Option.filter_eq_none_iff.mpr fun e timed => by simpa using reached e timed
      simp only [validationComplete, validating, idle, if_false, passes, validationPassed, due]
  · unfold validate
    cases check1 t <;> cases check2 t <;> cases check3 t <;> cases check4 t <;> cases check5 t <;> simp
  · rw [check5_eq_some]
    refine or_congr_right (and_congr_right fun _ => or_congr_right (and_congr_right fun _ => ?_))
    constructor
    · exact fun found => ⟨ExceptionPlaceBad t, fun _ _ => Iff.rfl, found⟩
    · rintro ⟨bad, isBad, found⟩
      obtain rfl : bad = ExceptionPlaceBad t := funext fun k => funext fun e => propext (isBad k e)
      exact found

end
end

