-- ==== Sys2Proof/Proofs/RepliesPlaced.lean ====
section
/-! SUPPORT. Replies and events placed, and their bytes, with O32. -/

namespace Sys2Proof.Machine

variable {s : State} {kind : EventKind} {data : EventData} {sec ms : Nat}

/-! ### Pending events (R165) -/

theorem raiseIn_new {before : List PendingEvent} (others : ∀ v ∈ before, v.kind ≠ kind) :
    raiseIn kind data sec ms before = before ++ [⟨kind, 1, data, sec, ms⟩] := by
  induction before with
  | nil => rfl
  | cons e rest ih =>
    rw [raiseIn, if_neg (others e List.mem_cons_self), ih fun v hv => others v (List.mem_cons_of_mem e hv)]
    rfl

theorem raiseIn_again {before after : List PendingEvent} {e : PendingEvent}
    (others : ∀ v ∈ before, v.kind ≠ kind) (same : e.kind = kind) :
    raiseIn kind data sec ms (before ++ e :: after)
      = before ++ ⟨kind, min (e.count + 1) 65535, data, sec, ms⟩ :: after := by
  induction before with
  | nil => exact if_pos same
  | cons d rest ih =>
    rw [List.cons_append, raiseIn, if_neg (others d List.mem_cons_self),
      ih fun v hv => others v (List.mem_cons_of_mem d hv)]
    rfl

/-! ### Signed fields (R151, R173) -/

/-- A signed 32-bit field holds its value, held within 32 bits, in two's complement. -/
theorem int32Bytes_eq (v : Int) : ∃ b : BitVec 32, b.toInt = max (-2147483648) (min 2147483647 v)
    ∧ int32Bytes v = beBytes 4 b.toNat := by
  refine ⟨BitVec.ofInt 32 (clampInt32 v), ?_, ?_⟩
  · rw [BitVec.toInt_ofInt, Int.bmod_eq_of_le (by unfold clampInt32; omega) (by unfold clampInt32; omega)]
    rfl
  · rw [int32Bytes, BitVec.toNat_ofInt]
    rfl

theorem int16Bytes_eq {v : Int} (low : -32768 ≤ v) (high : v ≤ 32767) : ∃ c : BitVec 16, c.toInt = v
    ∧ int16Bytes v = beBytes 2 c.toNat := by
  refine ⟨BitVec.ofInt 16 v, ?_, ?_⟩
  · rw [BitVec.toInt_ofInt, Int.bmod_eq_of_le (by omega) (by omega)]
  · rw [int16Bytes, BitVec.toNat_ofInt]
    rfl

/-! ### Bytes of events, replies and results (R173 to R175) -/

theorem eventDataBytes_length (filler : Nat) (d : EventData) : (eventDataBytes filler d).length = 4 := by
  cases d <;> simp [eventDataBytes, int32Bytes]

theorem oneByte_eq (b : Bool) : [oneByte b] = beBytes 1 (if b = true then 1 else 0) := by
  cases b <;> rfl

/-- The reason byte of a refusal is its place in the table of R174. -/
theorem reason_byte (reason : ReplyReason) (refusal : reason ≠ .none) : some reason.byte.toNat
    = ([ReplyReason.none, .notFound, .stationUnknown, .timeBeforeEntry, .otherSlotLoading, .operationInFlight,
      .pending, .active, .generationBusy, .outOfRange, .slotFree, .noActive, .validation, .clockUnset, .notPending,
      .alreadyPresent, .listFull, .restartInProgress].idxOf? reason) := by
  cases reason with
  | none => exact absurd rfl refusal
  | _ => rfl

theorem accountBytes_laidOut (w : AccountWay) : ∃ presence : Byte, accountBytes w = beBytes 2 w.slot
    ++ beBytes 2 w.account.day ++ beBytes 2 w.account.spent ++ beBytes 1 w.account.legs
    ++ [presence]
    ++ (w.account.lastExit.map lastExitBytes).getD []
    ++ (w.account.lastIncomplete.map lastIncompleteBytes).getD []
    ++ (w.account.lastUnmatched.map lastUnmatchedBytes).getD []
    ∧ (List.range 3).map presence.getLsbD = [w.account.lastExit.isSome,
      w.account.lastIncomplete.isSome, w.account.lastUnmatched.isSome] := by
  refine ⟨_, ?_, withSpare_bits .accountPresence [_, _, _] (by simp)⟩
  simp only [accountBytes, beBytes_one, List.length_cons, List.length_nil]

/-- A reply that waits takes a free entry and frees its slot (R174). -/
theorem placeWaitingReply_of {before after : List HeldRequest} {r : HeldRequest} {reply : Reply}
    (parts : s.mgmt.requests = before ++ r :: after) (phase : r.phase = .replyDue reply) :
    placeWaitingReply before.length s = if 1 ≤ officeFree s then
      placeFrame (.reply r.sequence r.number r.code reply) { s with mgmt := { s.mgmt with requests := before ++ after } }
      else s := by
  have here : s.mgmt.requests[before.length]? = some r := by rw [parts]; simp
  have rest : s.mgmt.requests.eraseIdx before.length = before ++ after := by
    rw [parts, List.eraseIdx_append_of_length_le (Nat.le_refl _), Nat.sub_self]
    rfl
  simp only [placeWaitingReply, here, phase, onRequests, rest, placeReply]

end Sys2Proof.Machine

section
open Sys2Proof Sys2Proof.Machine

/-- Settles O32: replies and events placed, and their bytes. -/
theorem repliesAndEventsPlaced : Obligations.RepliesAndEventsPlaced := by
  refine ⟨fun _ _ => rfl, fun s before after r which reply high parts length phase => ?_,
    fun s e rest high events => ?_, fun s empty => ?_,
    fun kind data sec ms before after e others => ⟨raiseIn_new others, raiseIn_again others⟩,
    ⟨fun node n filler e => ⟨eventDataBytes filler e.data, ?_, eventDataBytes_length filler e.data, fun x label is => ?_,
        fun v is => ?_, fun k is => ?_⟩,
      rfl, fun node sequence number code v => ⟨v.reason.byte, rfl, reason_byte v.reason⟩, rfl, rfl, rfl⟩,
    ⟨fun i slot isSlot => ?_, rfl, fun _ _ => rfl, fun v => rfl, fun stepped e trim state low high => ?_, fun c => rfl,
      fun _ _ _ => rfl, fun _ _ _ _ => rfl, rfl, rfl, fun _ => rfl, fun present n => ?_, rfl, fun w label => ?_,
      fun _ _ _ => rfl, fun _ => rfl, fun _ _ _ => rfl, fun _ => rfl, fun w => accountBytes_laidOut w⟩⟩
  · have run : exec (.replyPlacement which) s = .next (placeWaitingReply (heldIndex which) s) := exec_high high _
    rw [run, ← length, placeWaitingReply_of parts phase]
    exact ⟨fun room => by rw [if_pos room], fun full => by rw [full, if_neg (by decide)]⟩
  · have run : exec .eventFramePlacement s = .next (placeEvent s) := exec_high high _
    rw [run, placeEvent, events]
    dsimp only
    exact ⟨fun room => by rw [if_pos room]; rfl, fun full => by rw [full, if_neg (by decide)]⟩
  · have same : placeEvent s = s := by rw [placeEvent, empty]
    rw [exec_eq]
    change Host.Outcome.next (if _ then s else placeEvent s) = _
    rw [same, ite_self]
  · simp [officeWire, eventBody, officeNode, kindEvent]
  · rw [is]
    cases x <;> simp [eventDataBytes, SlotId.code, SlotId.byte, beBytes_one]
  · rw [is]
    exact int32Bytes_eq v
  · rcases is with is | is <;> rw [is] <;> simp [eventDataBytes]
  · have report (v : SlotReport) : slotReportBytes v = slot v := (isSlot v).symm
    have part : beBytes 2 0x6420 ++ beBytes 1 1 ++ [i.nodeAddress] = [0x64#8, 0x20#8, 0x01#8, i.nodeAddress] := rfl
    have running : (i.service == .running) = true ↔ i.service = .running := beq_iff_eq
    have flags (a b : Bool) : [oneByte a, oneByte b]
        = beBytes 1 (if a = true then 1 else 0) ++ beBytes 1 (if b = true then 1 else 0) := by
      rw [← oneByte_eq, ← oneByte_eq]
      rfl
    rw [resultBytes, identityBytes, part, flags, oneByte_eq, report, report]
    simp only [running, List.append_assoc]
  · obtain ⟨b, value, bytes⟩ := int32Bytes_eq e
    obtain ⟨c, trimmed, word⟩ := int16Bytes_eq low high
    refine ⟨b, c, value, trimmed, ?_⟩
    rw [← bytes, ← word, ← oneByte_eq]
    rfl
  · rw [← oneByte_eq]
    rfl
  · simp [resultBytes]

end
end
